-- ==== Sys2Proof/Word.lean ====
section
/-! DEFINITION. The word types of the PCMP codec core (spec/00_scope.md R10, R12: `ADDR_W` = 32; u8, u16, u32 are
unsigned). -/
namespace Sys2Proof

/-- One byte of memory, of the token stream, or of an internal 8-bit latch. -/
abbrev Byte := BitVec 8

/-- One 32-bit register, or a command word. -/
abbrev Word := BitVec 32

end Sys2Proof
end

