-- ==== Sys2Proof/Config.lean ====
section
/-! DEFINITION. What is fixed for the machine: the format constants of spec/00_scope.md R8, the interface constants of
R10, the tie-break switch, and the FREE VALUES (parameters and draws) the spec leaves open in R11, R32, R47, R114 and R291.
A free value is an opaque constant: nothing can evaluate it, so a claim holds whatever it is. -/
namespace Sys2Proof.Config

/-- `WINDOW` (R8): the largest back-reference distance and the largest searchable span. -/
@[simp] abbrev window : Nat := 4096

/-- `MIN_LEN` (R8): the shortest Copy. -/
@[simp] abbrev minLen : Nat := 3

/-- `MAX_LEN` (R8): the longest Copy. -/
@[simp] abbrev maxLen : Nat := 18

/-- `HDR_SIZE` (R8): the container header's size; the stream begins at this offset. -/
@[simp] abbrev hdrSize : Nat := 32

/-- `OFF_USIZE` (R8): header offset of the uncompressed-size field. -/
@[simp] abbrev offUsize : Nat := 0x14

/-- `OFF_CSIZE` (R8): header offset of the compressed-stream-size field. -/
@[simp] abbrev offCsize : Nat := 0x18

/-- `SECTOR` (R8): the alignment unit of an encoded container. -/
@[simp] abbrev sector : Nat := 2048

/-- `GROUP` (R8): tokens governed by one control byte. -/
@[simp] abbrev group : Nat := 8

/-- `ADDR_TOP` (R10): exclusive upper bound of every region the core reads or writes. -/
@[simp] abbrev addrTop : Nat := 0xFFFFFFFF

/-- The size of the byte-addressed memory (R60): addresses 0 to 2^32 - 1. -/
@[simp] abbrev memSize : Nat := 0x100000000

/-- `REG_SPAN` (R10): size of the register block in bytes. -/
@[simp] abbrev regSpan : Nat := 0x100

/-- `TIE_POLICY` (R11, R173, D24): the switch has the single conforming value `NEAREST`; a configuration with another
value is no model of this core (spec/93_implementation_defined.md section 2), so the type has no other (log entry 20). -/
inductive TiePolicy where
  | nearest
deriving DecidableEq, Repr

/-- The machine's tie-break policy (R173). -/
def tiePolicy : TiePolicy := .nearest

/-- FREE VALUE, `REG_BASE` (R11): the platform address of the register block (log entry 3). -/
opaque regBase : Nat

/-- FREE VALUE, the memory contents at reset (R11, R47; spec/93_implementation_defined.md section 2: `parameter`): cells
that give the bytes the platform's memory holds, any contents at all (log entry 2). -/
opaque resetCells : List (Nat × Byte)

/-- FREE VALUE, `BUSY_STEPS` (R11, R114, D23): the number drawn for the n-th draw; the model uses `max 1` of it, so every
count from 1 up is allowed (log entry 4). -/
opaque busySteps : Nat → Nat

/-- FREE VALUE (R114: "A model may take the whole body as one step or one step per token"): whether the command of the
n-th draw is taken one token a step (log entry 5). -/
opaque perToken : Nat → Bool

/-- FREE VALUE (R32, D22): the progress value drawn by the n-th draw, before it is brought into the bound R32 gives
(log entry 6). -/
opaque progress : Nat → Nat

/-- FREE VALUE (R291): how many writes of an abandoned command's write sequence had been performed (log entry 7). -/
opaque resetKept : Nat → Nat

end Sys2Proof.Config
end

