-- ==== Sys2Proof/Syntax.lean ====
section
/-! DEFINITION. The instructions: one constructor per row of spec/opcode_table.json. The command words are the block's
units of execution (spec/40_command_lifecycle.md); `ctrl`, `lit` and `copy` are the items of the token stream, the block's
"instruction stream" (spec/30_encoding.md), which the decoder runs one after the other. -/
namespace Sys2Proof

/-- An instruction. The commands take their operands from the latched registers (R111), so they carry none here. -/
inductive Instr where
  /-- `PARSE_HEADER`, `OP` = 1 (R134). -/
  | parseHeader
  /-- `WRITE_HEADER`, `OP` = 2 (R136). -/
  | writeHeader
  /-- `DECODE_STREAM`, `OP` = 3 (R217). -/
  | decodeStream
  /-- `DECODE_CONTAINER`, `OP` = 4 (R218). -/
  | decodeContainer
  /-- `ENCODE_STREAM`, `OP` = 5 (R200). -/
  | encodeStream
  /-- `ENCODE_CONTAINER`, `OP` = 6 (R202). -/
  | encodeContainer
  /-- `PAD`, `OP` = 7 (R242). -/
  | pad
  /-- `FIND_MATCH`, `OP` = 8 (R176). -/
  | findMatch
  /-- `ILLEGAL_OP`: any other command word `w` (R82, R113). -/
  | illegalOp (w : Word)
  /-- `CTRL`: a control byte of the token stream; bit `7 - t` announces token `t` of its group (R88, R158). -/
  | ctrl (c : Byte)
  /-- `LIT`: a Literal token, the output byte `v` itself (R90, R213). -/
  | lit (v : Byte)
  /-- `COPY`: a Copy token of distance `offset` (1..4096) and `length` (3..18) (R91, R92, R214). -/
  | copy (offset length : Nat)
deriving DecidableEq, Repr

end Sys2Proof
end

