-- ==== Sys2Proof/WellFormed.lean ====
section
/-! DEFINITION. Which terms of `Instr` are instructions of the hardware: the ranges of R93 for a Copy's operands, and, for
`illegalOp`, that its word is none of the eight defined command words (R82). -/
namespace Sys2Proof

/-- R82: `w` selects a command exactly when `w[31:4]` = 0 and `w[3:0]` is one of 1 to 8. -/
def definedCommandWord (w : Word) : Bool :=
  w.extractLsb' 4 28 == 0 && (1 ≤ (w.extractLsb' 0 4).toNat && (w.extractLsb' 0 4).toNat ≤ 8)

/-- Every operand of the instruction is one its encoding admits. -/
def Instr.wellFormed : Instr → Bool
  | .illegalOp w => !definedCommandWord w
  | .copy off len =>
    (1 ≤ off && off ≤ Config.window) && (Config.minLen ≤ len && len ≤ Config.maxLen)
  | .parseHeader | .writeHeader | .decodeStream | .decodeContainer | .encodeStream | .encodeContainer | .pad
  | .findMatch | .ctrl _ | .lit _ => true

end Sys2Proof
end

