-- ==== Sys2Proof/Decode.lean ====
section
/-! DEFINITION. The decoder and the encoder, from spec/30_encoding.md. What an item of the token stream is depends on the
control bit that announces it (R87, R96), so the decoder is told which kind of item is due. -/
namespace Sys2Proof

/-- What is to be decoded: a command word written to `CMD` (R81), or the stream item that is due (R86, R87). -/
inductive ItemKind where
  | command
  | control
  | literal
  | copy
deriving DecidableEq, Repr

/-- Why the bytes at hand hold no item of the kind that is due. The three stream errors are those of R158 to R160;
`shortCommand` is raised only for fewer than four bytes, which no write of the 32-bit `CMD` can give (log entry 27). -/
inductive DecodeError where
  | shortCommand
  | prematureEnd
  | prematureEndDuringLiteral
  | prematureEndDuringCopy
deriving DecidableEq, Repr

/-- The number whose bytes, least significant first, are `bs` (R62). -/
def leNat : List Byte → Nat
  | [] => 0
  | b :: bs => b.toNat + 256 * leNat bs

/-- `le32(v)`: `v[7:0], v[15:8], v[23:16], v[31:24]` (R14). -/
def le32 (v : Word) : List Byte :=
  [v.extractLsb' 0 8, v.extractLsb' 8 8, v.extractLsb' 16 8, v.extractLsb' 24 8]

/-- R82: the command a `CMD` word selects; every other word is illegal. -/
def decodeCommand (w : Word) : Instr :=
  if w.extractLsb' 4 28 = 0 then
    match (w.extractLsb' 0 4).toNat with
    | 1 => .parseHeader
    | 2 => .writeHeader
    | 3 => .decodeStream
    | 4 => .decodeContainer
    | 5 => .encodeStream
    | 6 => .encodeContainer
    | 7 => .pad
    | 8 => .findMatch
    | _ => .illegalOp w
  else .illegalOp w

/-- R92: the offset of the Copy token `b0`, `b1`. -/
def copyOffset (b0 b1 : Byte) : Nat := (b0.toNat >>> 4 ||| b1.toNat <<< 4) + 1

/-- R92: the length of the Copy token whose first byte is `b0`. -/
def copyLength (b0 : Byte) : Nat := (b0.toNat &&& 0xF) + 3

/-- The item of the given kind at the front of `bs`, and the bytes after it; or the name of why there is none. -/
def decode : ItemKind → List Byte → Except DecodeError (Instr × List Byte)
  | .command, b0 :: b1 :: b2 :: b3 :: rest => .ok (decodeCommand (BitVec.ofNat 32 (leNat [b0, b1, b2, b3])), rest)
  | .command, _ => .error .shortCommand
  | .control, c :: rest => .ok (.ctrl c, rest)
  | .control, [] => .error .prematureEnd
  | .literal, v :: rest => .ok (.lit v, rest)
  | .literal, [] => .error .prematureEndDuringLiteral
  | .copy, b0 :: b1 :: rest => .ok (.copy (copyOffset b0 b1) (copyLength b0), rest)
  | .copy, _ => .error .prematureEndDuringCopy

/-- The kind of item an instruction is encoded as. -/
def Instr.kind : Instr → ItemKind
  | .ctrl _ => .control
  | .lit _ => .literal
  | .copy _ _ => .copy
  | .parseHeader | .writeHeader | .decodeStream | .decodeContainer | .encodeStream | .encodeContainer | .pad
  | .findMatch | .illegalOp _ => .command

/-- R81: the `CMD` word of a command; a stream item has none, and answers 0. -/
def commandWord : Instr → Word
  | .parseHeader => 1
  | .writeHeader => 2
  | .decodeStream => 3
  | .decodeContainer => 4
  | .encodeStream => 5
  | .encodeContainer => 6
  | .pad => 7
  | .findMatch => 8
  | .illegalOp w => w
  | .ctrl _ | .lit _ | .copy _ _ => 0

/-- R91: `encoded = ((offset-1) << 4) | ((length-3) & 0xF)`. -/
def copyEncoded (off len : Nat) : Nat := (off - 1) <<< 4 ||| ((len - 3) &&& 0xF)

/-- R91: `b0 = encoded & 0xFF`, `b1 = (encoded >> 8) & 0xFF`, in that order. -/
def copyBytes (off len : Nat) : List Byte :=
  [BitVec.ofNat 8 (copyEncoded off len), BitVec.ofNat 8 (copyEncoded off len >>> 8)]

/-- The bytes of an instruction, the first at the lowest address (a command word's least significant byte first: DESIGN
CHOICE, log entry 16). -/
def encode : Instr → List Byte
  | .ctrl c => [c]
  | .lit v => [v]
  | .copy off len => copyBytes off len
  | .parseHeader => le32 (commandWord .parseHeader)
  | .writeHeader => le32 (commandWord .writeHeader)
  | .decodeStream => le32 (commandWord .decodeStream)
  | .decodeContainer => le32 (commandWord .decodeContainer)
  | .encodeStream => le32 (commandWord .encodeStream)
  | .encodeContainer => le32 (commandWord .encodeContainer)
  | .pad => le32 (commandWord .pad)
  | .findMatch => le32 (commandWord .findMatch)
  | .illegalOp w => le32 w

/-- The kind of item a table row of `nbits` bits is: 32 bits a command word, 16 bits a Copy, 8 bits the item that is due
at the start of a stream, a control byte (a Literal has 8 bits too: log entry 8). -/
def kindOfWidth : Nat → Option ItemKind
  | 32 => some .command
  | 16 => some .copy
  | 8 => some .control
  | _ => none

/-- The `n` bytes of `w`, least significant first. -/
def bytesOfNat : Nat → Nat → List Byte
  | 0, _ => []
  | n + 1, w => BitVec.ofNat 8 w :: bytesOfNat n (w / 256)

/-- The instruction the decoder reads from `nbits` bits `w`, bit 0 the least significant bit of the first byte. -/
def decodeTableWord (nbits w : Nat) : Option Instr :=
  match kindOfWidth nbits with
  | none => none
  | some k =>
    match decode k (bytesOfNat (nbits / 8) w) with
    | .ok (i, _) => some i
    | .error _ => none

end Sys2Proof
end

