-- ==== Sys2Proof/Machine/Memory.lean ====
section
/-! DEFINITION. The memory (spec/20_memory.md R60, R64): its canonical form, its reads and writes, and its contents at
reset, a parameter of the platform (spec/00_scope.md R11, spec/10_state.md R47). -/
namespace Sys2Proof.Machine

/-- The shared byte-addressed memory (R60): (address, byte) pairs, addresses rising, none listing the byte an unlisted
address reads as. -/
abbrev Mem := List Host.Cell

/-- What an address that the list does not name reads as: DESIGN CHOICE 0x00, a matter of the list's form only, since any
contents of the 2^32 bytes can be listed (log entry 2). -/
def Mem.unlisted : Byte := 0

/-- The byte at address `a`. -/
def Mem.read : Mem → Nat → Byte
  | [], _ => Mem.unlisted
  | (a', b) :: m, a => if a' = a then b else Mem.read m a

/-- The memory with byte `b` at address `a`, in canonical form. -/
def Mem.write : Mem → Nat → Byte → Mem
  | [], a, b => if b = Mem.unlisted then [] else [(a, b)]
  | (a', b') :: m, a, b =>
    if a < a' then
      if b = Mem.unlisted then (a', b') :: m else (a, b) :: (a', b') :: m
    else if a = a' then
      if b = Mem.unlisted then m else (a, b) :: m
    else (a', b') :: Mem.write m a b

/-- The bytes `bs` written from address `a` up, in order. -/
def Mem.writeList : Mem → Nat → List Byte → Mem
  | m, _, [] => m
  | m, a, b :: bs => Mem.writeList (Mem.write m a b) (a + 1) bs

/-- The writes `ws`, each an address and a byte, made in order. -/
def Mem.writeAll (m : Mem) (ws : List Host.Cell) : Mem := ws.foldl (fun m c => Mem.write m c.1 c.2) m

/-- Canonical form from address `lo` up: addresses strictly rising, no entry listing the unlisted byte. -/
def Mem.wfFrom : Nat → Mem → Bool
  | _, [] => true
  | lo, (a, b) :: m => lo ≤ a && b != Mem.unlisted && Mem.wfFrom (a + 1) m

/-- The memory is in canonical form. -/
def Mem.wf (m : Mem) : Bool := Mem.wfFrom 0 m

/-- The cells of `[base, base + len)`. -/
def Mem.region (m : Mem) (base len : Nat) : Mem :=
  m.filter (fun c => base ≤ c.1 && c.1 < base + len)

/-- The `n` bytes from address `a` up. -/
def Mem.bytes (m : Mem) (a n : Nat) : List Byte := (List.range n).map (fun k => Mem.read m (a + k))

/-- The memory whose bytes are those of the cells within the address space, a later cell before an earlier one. -/
def Mem.ofCells (cells : List Host.Cell) : Mem := Mem.writeAll [] (cells.filter (fun c => c.1 < Config.memSize))

/-- What memory holds at reset: a free value (R11, R47; log entry 2). -/
def Mem.atReset : Mem := Mem.ofCells Config.resetCells

end Sys2Proof.Machine
end

