-- ==== Sys2Proof/Machine/State.lean ====
section
/-! DEFINITION. The state of the PCMP codec core, its reset, and the reasons a step can stop. Every register of
spec/10_state.md R20 and all the internal state of R41 to R43 is here; what is the model's own is marked so. -/
namespace Sys2Proof.Machine

/-- `phase` (R41); `STATUS.BUSY` is 1 exactly when it is `busy`. -/
inductive Phase where
  | idle
  | busy
deriving DecidableEq, Repr

/-- The error codes of R260. The values 0xB to 0xF are reserved and never reported, so they have no name. -/
inductive ErrCode where
  | none
  | tooShort
  | invalidSignature
  | emptyStreamNonzeroTarget
  | prematureEnd
  | prematureEndDuringCopy
  | prematureEndDuringLiteral
  | illegalOp
  | addrRange
  | overlap
  | badArg
deriving DecidableEq, Repr

/-- The host-visible registers of R20. `ID` is hard-wired (R22) and `BUSY` is the phase (R41), so neither is stored;
`CTRL` has the one stored bit `IE` (R23); `STATUS` is stored by its fields (R25; log entry 13). -/
structure Regs where
  /-- `CTRL.IE` (R23). -/
  ie : Bool
  /-- `CMD` (R24): the last accepted command word. -/
  cmd : Word
  /-- `STATUS.DONE` (R27). -/
  done : Bool
  /-- `STATUS.ERR` (R27). -/
  err : Bool
  /-- `STATUS.ERRCODE` (R28). -/
  errcode : ErrCode
  /-- `STATUS.DIAG_CLAMP` (R29). -/
  diagClamp : Bool
  /-- `STATUS.DIAG_LENMM` (R30). -/
  diagLenmm : Bool
  /-- `IN_BASE` (R31). -/
  inBase : Word
  /-- `IN_LEN` (R31). -/
  inLen : Word
  /-- `OUT_BASE` (R33). -/
  outBase : Word
  /-- `OUT_LEN` (R34). -/
  outLen : Word
  /-- `USIZE` (R35). -/
  usize : Word
  /-- `CSIZE` (R36). -/
  csize : Word
  /-- `SLEN` (R37). -/
  slen : Word
  /-- `IN_USED` (R32): the value a read while idle returns. -/
  inUsed : Word
  /-- `MPOS` (R38). -/
  mpos : Word
  /-- `MRES` (R39). -/
  mres : Word
deriving DecidableEq, Repr

/-- The latched operands `L.*` (R41, R111): every command reads its operands here. -/
structure Latch where
  inBase : Word
  inLen : Word
  outBase : Word
  outLen : Word
  usize : Word
  csize : Word
  mpos : Word
deriving DecidableEq, Repr

/-- The encoder's cursors (R42) with the packer's stream base (R150): `container` says whether that base is 32 or 0. -/
structure EncCursors where
  container : Bool
  /-- Input position, 0..n. -/
  p : Nat
  /-- Next output offset of the stream, relative to the stream's first byte. -/
  o : Nat
  /-- Stream offset of the current group's control-byte slot. -/
  g : Nat
  /-- Accumulated control bits of the current group. -/
  acc : Byte
  /-- Tokens emitted in the current group, 0..8. -/
  k : Nat
deriving DecidableEq, Repr

/-- The decoder's cursors (R43) with the stream it reads (R157): `container` says whether the stream base is 32 or 0;
`csize` is the raw declared size a container decode writes to `CSIZE` when it ends (log entry 14). The cursors are
naturals (log entry 25). -/
structure DecCursors where
  container : Bool
  /-- The stream's length. -/
  slen : Nat
  /-- The target size `T` (R210). -/
  target : Word
  csize : Word
  /-- Stream read cursor, 0..slen. -/
  i : Nat
  /-- Output length so far, 0..target. -/
  j : Nat
  /-- The current control byte, shifted left as its bits are consumed. -/
  ctrl : Byte
  /-- Control bits not yet consumed, 0..8. -/
  nb : Nat
deriving DecidableEq, Repr

/-- Where a running command stands: its body has not begun (R112), or the decoder's or the encoder's loop is under way
(R114: one step per token). -/
inductive Engine where
  | dispatch
  | decode
  | encode
deriving DecidableEq, Repr

/-- R114: "A model may take the whole body as one step or one step per token". -/
inductive Pace where
  | whole
  | perToken
deriving DecidableEq, Repr

/-- What sequences a running command. All of it is the MODEL'S OWN (log entries 4 to 6, 24) but `engine`, which is where the body's pseudocode
stands. -/
structure Sequencer where
  engine : Engine
  /-- How the running command is taken (R114); drawn at its start. -/
  pace : Pace
  /-- Steps still to pass before the body begins (`BUSY_STEPS`, R114); drawn at the start. -/
  stall : Nat
  /-- The last progress value of the running command that a read of `IN_USED` returned (R32). -/
  progress : Nat
  /-- How many free values have been drawn. -/
  draws : Nat
deriving DecidableEq, Repr

/-- What the host, the second agent (R18), or the platform does next. `tick` lets the core take a step. -/
inductive Input where
  /-- The host does nothing and the core takes an internal step. -/
  | tick
  /-- The platform's reset input (R290). -/
  | hardReset
  /-- A register read of `width` bytes at byte offset `off` from `REG_BASE` (R21). -/
  | regRead (off width : Nat)
  /-- A register write of `width` bytes at byte offset `off` from `REG_BASE` (R21). -/
  | regWrite (off width : Nat) (v : Word)
  /-- The host reads the byte at memory address `a` (R295). -/
  | memRead (a : Nat)
  /-- The host writes the byte `b` at memory address `a` (R295). -/
  | memWrite (a : Nat) (b : Byte)
deriving DecidableEq, Repr

/-- The two regions of a command that R297 keeps the host off (MODEL'S OWN; log entry 11), each by its first address and
its length. -/
structure Regions where
  inBase : Nat
  inLen : Nat
  outBase : Nat
  outLen : Nat
deriving DecidableEq, Repr

/-- The host's side of the interface (MODEL'S OWN; log entries 10, 11, 18): what it will do, what its last read returned, and whether a command
it issued has an end it has not observed yet (R297, R300). -/
structure HostPort where
  /-- What the host and the platform do next, oldest first. -/
  inputs : List Input
  /-- The value the host's last read returned. -/
  rdata : Word
  /-- A command was accepted and its end has not been observed (R297). -/
  awaiting : Bool
  /-- The regions of the commands accepted before the latched one whose ends have not been observed either, the latest
  first (R297). -/
  earlier : List Regions
deriving DecidableEq, Repr

/-- The state of the machine. -/
structure State where
  /-- The registers of R20. -/
  regs : Regs
  /-- `phase` (R41). -/
  phase : Phase
  /-- The memory shared with the host (R60). -/
  mem : Mem
  /-- The latched command word `op` (R41). -/
  op : Word
  /-- The latched operands `L` (R41, R111). -/
  lat : Latch
  /-- `Snap` (R70): the cells of the input region as they stood when the command started. -/
  snap : Mem
  /-- The encoder's cursors (R42, R150). -/
  enc : EncCursors
  /-- The decoder's cursors (R43, R157). -/
  dec : DecCursors
  /-- The sequencing of a running command. -/
  seq : Sequencer
  /-- MODEL'S OWN: for each write the running (or last) command made, newest first, the address and the byte it replaced;
  a reset that abandons the command needs them (R291; log entry 19). -/
  journal : List Host.Cell
  /-- The host's side of the interface. -/
  port : HostPort
deriving DecidableEq, Repr

/-- Why the machine stops with a fault. -/
inductive Fault where
  /-- Raised by a host memory access at an address that the 2^32-byte memory does not have (R60). Safe: the spec has no
  such access (log entry 12). -/
  | addressOutsideMemory
deriving DecidableEq, Repr

/-- Why a step is refused. -/
inductive Refusal where
  /-- Raised by exec for an instruction that has no meaning yet, by its mnemonic. Safe. No arm raises it. -/
  | notModelled (mnemonic : String)
  /-- Raised by a register access that is not one aligned 32-bit word inside the register block: "A model has no step for
  any other access: it is refused" (R21, R296). Safe. -/
  | registerAccessShape
  /-- Raised by a host write into the input region before the end of the command is observed (R297). Safe. -/
  | hostWroteInputRegion
  /-- Raised by a host access to the output region before the end of the command is observed (R71, R297). Safe. -/
  | hostTouchedOutputRegion
deriving DecidableEq, Repr

/-- The registers after reset: `ID` aside, all 0 (R47). -/
def Regs.reset : Regs where
  ie := false
  cmd := 0
  done := false
  err := false
  errcode := .none
  diagClamp := false
  diagLenmm := false
  inBase := 0
  inLen := 0
  outBase := 0
  outLen := 0
  usize := 0
  csize := 0
  slen := 0
  inUsed := 0
  mpos := 0
  mres := 0

/-- The machine right after reset (R47, R290). The latches, the snapshot and the cursors are unspecified after reset and
never read before a command start writes them: DESIGN CHOICE 0 (log entry 9). The memory `m` is an argument: what it holds
is the platform's (R11, R47). -/
def State.resetWith (m : Mem) : State where
  regs := Regs.reset
  phase := .idle
  mem := m
  op := 0
  lat := { inBase := 0, inLen := 0, outBase := 0, outLen := 0, usize := 0, csize := 0, mpos := 0 }
  snap := []
  enc := { container := false, p := 0, o := 0, g := 0, acc := 0, k := 0 }
  dec := { container := false, slen := 0, target := 0, csize := 0, i := 0, j := 0, ctrl := 0, nb := 0 }
  seq := { engine := .dispatch, pace := .whole, stall := 0, progress := 0, draws := 0 }
  journal := []
  port := { inputs := [], rdata := 0, awaiting := false, earlier := [] }

/-- The machine right after reset, with the memory contents the platform gives: a free value (R11; log entry 2). -/
def State.reset : State := State.resetWith Mem.atReset

end Sys2Proof.Machine
end

