-- ==== Sys2Proof/Machine/Ops.lean ====
section
/-! DEFINITION. The named operations every meaning is written over: the input and the checked output write (R65, R66),
the regions the host must keep off (R297), starting a command (R110, R111), ending one with success (R116), and ending one
with an error (R266), the hardware's one form of exception. -/
namespace Sys2Proof.Machine

/-! ## The pieces of the state -/

/-- The state with other registers. -/
def State.withRegs (r : Regs) (s : State) : State := { s with regs := r }

/-- The state with other encoder cursors. -/
def State.withEnc (e : EncCursors) (s : State) : State := { s with enc := e }

/-- The state with other decoder cursors. -/
def State.withDec (d : DecCursors) (s : State) : State := { s with dec := d }

/-- The state whose running command's body stands at `e`. -/
def State.withEngine (e : Engine) (s : State) : State := { s with seq := { s.seq with engine := e } }

/-- `MemWrite(a, 1, v)` by the core (R64); what the byte was is kept for a reset that abandons the command (R291). -/
def State.storeByte (a : Nat) (v : Byte) (s : State) : State :=
  { s with mem := Mem.write s.mem a v, journal := (a, Mem.read s.mem a) :: s.journal }

/-! ## Ending a command -/

/-- `raise Error(CODE)` (R117, R266): `ERR` is set, `DONE` is not, `ERRCODE` is the code, and the core is idle. The
registers of R45's error column are written by the caller before. Nothing is saved elsewhere: there is no vector, mode
or handler, and no return operation (R267). -/
def State.raise (code : ErrCode) (s : State) : State :=
  { s with regs := { s.regs with err := true, done := false, errcode := code }, phase := .idle }

/-- `finish` (R116): `DONE` is set, `ERR` is not, `ERRCODE` is 0, and the core is idle. The registers of R45's success
column are written by the caller before. -/
def State.finish (s : State) : State :=
  { s with regs := { s.regs with done := true, err := false, errcode := .none }, phase := .idle }

/-- `raise Error(CODE)` after `OUT_LEN` is written with its prefix (R45, R118). -/
def State.raiseOutLen (code : ErrCode) (out : Nat) (s : State) : State :=
  (s.withRegs { s.regs with outLen := BitVec.ofNat 32 out }).raise code

/-- `raise Error(CODE)` after `OUT_LEN` and `IN_USED` are written with their prefixes (R45, R118). -/
def State.raisePrefixes (code : ErrCode) (out used : Nat) (s : State) : State :=
  (s.withRegs { s.regs with outLen := BitVec.ofNat 32 out, inUsed := BitVec.ofNat 32 used }).raise code

/-! ## A body that can raise -/

/-- How a part of a command's body ended: it goes on in a state, or it raised an error, with the output prefix R118 gives
and the state at the raising point. -/
inductive Run where
  | go (s : State)
  | raised (code : ErrCode) (out : Nat) (s : State)
deriving DecidableEq, Repr

/-- Go on with `f`, or stop where an error was raised: "nothing after it in the pseudocode runs" (R13). -/
def Run.andThen (r : Run) (f : State → Run) : Run :=
  match r with
  | .go s => f s
  | .raised c n s => .raised c n s

/-! ## The input and the output region -/

/-- The input region's bytes run past `ADDR_TOP` (R67, an unbounded sum). -/
def State.inputOutOfRange (s : State) : Bool := Config.addrTop < s.lat.inBase.toNat + s.lat.inLen.toNat

/-- Address `a` lies in the latched input region `[L.IN_BASE, L.IN_BASE + L.IN_LEN)`. -/
def State.inInput (a : Nat) (s : State) : Bool :=
  s.lat.inBase.toNat ≤ a && a < s.lat.inBase.toNat + s.lat.inLen.toNat

/-- `InRead(i) = Snap[i]` (R65), which R65 gives for `i < L.IN_LEN` only. A byte past the snapshot reads 0x00: DESIGN CHOICE
(log entry 28); of the machine, only the barred region of a container decode shorter than its header reads one. -/
def State.inRead (s : State) (i : Nat) : Byte := Mem.read s.snap (s.lat.inBase.toNat + i)

/-- `n = L.IN_LEN` (R133, R190). -/
def State.inputLen (s : State) : Nat := s.lat.inLen.toNat

/-- A little-endian 32-bit field of the input at offset `f` (R62, R130). -/
def State.inField (f : Nat) (s : State) : Word :=
  BitVec.ofNat 32 (leNat [s.inRead f, s.inRead (f + 1), s.inRead (f + 2), s.inRead (f + 3)])

/-- The address of output byte `j`: `L.OUT_BASE + j`, an unbounded sum (R33, R66). -/
def State.outAddr (j : Nat) (s : State) : Nat := s.lat.outBase.toNat + j

/-- `OutByte(s)` (R68): the output byte `x` the same command wrote. -/
def State.outByte (x : Nat) (s : State) : Byte := Mem.read s.mem (s.outAddr x)

/-- `checksOverlap(op)` (R66): the commands that both read the input region and write memory. -/
def checksOverlap : Instr → Bool
  | .decodeStream | .decodeContainer | .encodeStream | .encodeContainer => true
  | .parseHeader | .writeHeader | .pad | .findMatch | .illegalOp _ | .ctrl _ | .lit _ | .copy _ _ => false

/-- Why `OutWrite(j, v)` raises, if it does: `ADDR_RANGE` is tested before `OVERLAP` (R66, R264). -/
def State.outWriteError (chk : Bool) (j : Nat) (s : State) : Option ErrCode :=
  if Config.addrTop ≤ s.outAddr j then some .addrRange
  else if chk && s.inInput (s.outAddr j) then some .overlap
  else none

/-- `OutWrite(j, v)` (R66); a write that raises writes nothing. -/
def outWrite (chk : Bool) (j : Nat) (v : Byte) (s : State) : Run :=
  match s.outWriteError chk j with
  | some c => .raised c j s
  | none => .go (s.storeByte (s.outAddr j) v)

/-- `OutWrite` of each byte of `bs`, from output offset `j` up. -/
def writeBytes (chk : Bool) : Nat → List Byte → State → Run
  | _, [], s => .go s
  | j, b :: bs, s => (outWrite chk j b s).andThen (writeBytes chk (j + 1) bs)

/-! ## The regions the host must keep off -/

/-- The length of the output region the host must keep off while the command runs (R297). Of a container decode whose input
ends before or within the size field, the field's absent bytes count as 0x00: DESIGN CHOICE (log entry 28). -/
def State.reservedOutputLen (s : State) : Nat :=
  match decodeCommand s.op with
  | .writeHeader => Config.hdrSize
  | .decodeStream => s.lat.usize.toNat
  | .decodeContainer => (s.inField Config.offUsize).toNat
  | .encodeStream => s.inputLen + (s.inputLen + 7) / 8
  | .encodeContainer => Config.sector * ((Config.hdrSize + (s.inputLen + (s.inputLen + 7) / 8) + 2047) / Config.sector)
  | .pad => 2047
  | .parseHeader | .findMatch | .illegalOp _ | .ctrl _ | .lit _ | .copy _ _ => 0

/-- Where that region starts: `PAD` writes behind the buffer it pads (R297). -/
def State.reservedOutputBase (s : State) : Nat :=
  match decodeCommand s.op with
  | .pad => s.lat.outBase.toNat + s.lat.outLen.toNat
  | .parseHeader | .writeHeader | .decodeStream | .decodeContainer | .encodeStream | .encodeContainer | .findMatch
  | .illegalOp _ | .ctrl _ | .lit _ | .copy _ _ => s.lat.outBase.toNat

/-- The regions of the latched command. The ban on writes to the input region is read for every command, and a container
decode's `T` is the size field of the snapshot: DEDUCED (log entry 21); its absent bytes are 0x00: DESIGN CHOICE (log entry
28). -/
def State.regions (s : State) : Regions where
  inBase := s.lat.inBase.toNat
  inLen := s.lat.inLen.toNat
  outBase := s.reservedOutputBase
  outLen := s.reservedOutputLen

/-- Address `a` lies in the input region. -/
def Regions.hasInput (a : Nat) (r : Regions) : Bool := r.inBase ≤ a && a < r.inBase + r.inLen

/-- Address `a` lies in the output region. -/
def Regions.hasOutput (a : Nat) (r : Regions) : Bool := r.outBase ≤ a && a < r.outBase + r.outLen

/-- The regions the host must keep off: from the accepted `CMD` write "until `STATUS.BUSY` is observed 0" (R297), those of
the latched command and of every command before it whose end was not observed (DEDUCED, log entry 11). -/
def State.heldRegions (s : State) : List Regions :=
  if s.phase == .busy || s.port.awaiting then s.regions :: s.port.earlier else []

/-! ## Starting a command -/

/-- R111: a copy of every operand register. -/
def latchOf (r : Regs) : Latch :=
  { inBase := r.inBase, inLen := r.inLen, outBase := r.outBase, outLen := r.outLen, usize := r.usize
    csize := r.csize, mpos := r.mpos }

/-- R110: `CMD` takes the word, and every `STATUS` field but `BUSY` is cleared. -/
def clearedForCommand (w : Word) (r : Regs) : Regs :=
  { r with cmd := w, done := false, err := false, errcode := .none, diagClamp := false, diagLenmm := false }

/-- Command start (R110), with the command's pace and its steps before the body given. Where the host never observed the
end of the command before, that command's regions stay barred beside the new one's (R297; DEDUCED, log entry 11). -/
def State.startWith (pace : Pace) (stall : Nat) (w : Word) (s : State) : State :=
  { s with
    regs := clearedForCommand w s.regs
    phase := .busy
    op := w
    lat := latchOf s.regs
    snap := Mem.region s.mem s.regs.inBase.toNat s.regs.inLen.toNat
    seq := { s.seq with engine := .dispatch, pace := pace, stall := stall, progress := 0 }
    journal := []
    port := { s.port with awaiting := true, earlier := s.heldRegions } }

/-- The pace drawn for the next command (R114; log entry 5). -/
def State.drawPace (s : State) : Pace := if Config.perToken s.seq.draws then .perToken else .whole

/-- The steps drawn for the next command before its body, one less than `BUSY_STEPS` ≥ 1 (R114; log entry 4). -/
def State.drawStall (s : State) : Nat := Config.busySteps s.seq.draws - 1

/-- A free value has been drawn (log entry 24). -/
def State.drawn (s : State) : State := { s with seq := { s.seq with draws := s.seq.draws + 1 } }

/-- Command start (R110) on a `CMD` write of `w` while idle. -/
def State.start (w : Word) (s : State) : State := (s.startWith s.drawPace s.drawStall w).drawn

end Sys2Proof.Machine
end

