-- ==== Sys2Proof/Machine/Flags.lean ====
section
/-! DEFINITION. The status word and everything computed from its fields: R25 to R30, the interrupt output (R275), and
what a host write to `STATUS` or `CTRL` does to the fields. -/
namespace Sys2Proof.Machine

/-- The 4-bit code of R260. -/
def ErrCode.code : ErrCode → Nat
  | .none => 0x0
  | .tooShort => 0x1
  | .invalidSignature => 0x2
  | .emptyStreamNonzeroTarget => 0x3
  | .prematureEnd => 0x4
  | .prematureEndDuringCopy => 0x5
  | .prematureEndDuringLiteral => 0x6
  | .illegalOp => 0x7
  | .addrRange => 0x8
  | .overlap => 0x9
  | .badArg => 0xA

/-- `STATUS.BUSY` (R26, R41). -/
def State.isBusy (s : State) : Bool := s.phase == .busy

/-- `STATUS` as a register read gives it (R25); reserved bits read 0 (R21). -/
def State.statusWord (s : State) : Word :=
  BitVec.ofNat 32
    (s.isBusy.toNat + 2 * s.regs.done.toNat + 4 * s.regs.err.toNat + 0x100 * s.regs.errcode.code
      + 0x10000 * s.regs.diagClamp.toNat + 0x20000 * s.regs.diagLenmm.toNat)

/-- `CTRL` as a register read gives it: `IE` in bit 0; `SRST` and the reserved bits read 0 (R23). -/
def Regs.ctrlWord (r : Regs) : Word := BitVec.ofNat 32 r.ie.toNat

/-- A write of `v` to `STATUS` (R25): bit 1 clears `DONE`, bit 2 clears `ERR`, every other bit is ignored. -/
def Regs.writeStatus (v : Word) (r : Regs) : Regs :=
  { r with done := r.done && !v.getLsbD 1, err := r.err && !v.getLsbD 2 }

/-- A write of `v` to `CTRL` that does not reset (R23): bit 0 is `IE`, the reserved bits are ignored. -/
def Regs.writeCtrl (v : Word) (r : Regs) : Regs := { r with ie := v.getLsbD 0 }

/-- `CTRL` bit 1, `SRST` (R23). -/
def softResetBit (v : Word) : Bool := v.getLsbD 1

/-- The interrupt output (R275): `IRQ = CTRL.IE ∧ (STATUS.DONE ∨ STATUS.ERR)`. -/
def State.irq (s : State) : Bool := s.regs.ie && (s.regs.done || s.regs.err)

end Sys2Proof.Machine
end

