-- ==== Sys2Proof/Machine/Operands.lean ====
section
/-! DEFINITION. The operands a command reads beyond its latched registers: the header parse (R131 to R133), and the bytes
of the token stream (R157). -/
namespace Sys2Proof.Machine

/-- The stream base, 0 or 32 (R150, R157). -/
def streamBase (container : Bool) : Nat := if container then Config.hdrSize else 0

/-- The four signature bytes "PCMP" (R14). -/
def signature : List Byte := [0x50, 0x43, 0x4D, 0x50]

/-- The first four input bytes are the signature (R131). -/
def State.signatureMatches (s : State) : Bool :=
  [s.inRead 0, s.inRead 1, s.inRead 2, s.inRead 3] == signature

/-- What `parse` returns (R133), and whether the declared size was clamped (R132). -/
structure Parsed where
  usize : Word
  csize : Word
  slen : Nat
  clamped : Bool
deriving DecidableEq, Repr

/-- R132: the declared size is zero or exceeds the bytes remaining after the header. -/
def clampNeeded (c rem : Nat) : Bool := c == 0 || rem < c

/-- R132: the effective stream length. -/
def clampedLen (c rem : Nat) : Nat := if clampNeeded c rem then rem else c

/-- `parse()` (R133); the checks are made in the order of R131. -/
def parseHeader (s : State) : Except ErrCode Parsed :=
  if s.inputLen < Config.hdrSize then .error .tooShort
  else if !s.signatureMatches then .error .invalidSignature
  else
    let u := s.inField Config.offUsize
    let c := s.inField Config.offCsize
    let rem := s.inputLen - Config.hdrSize
    .ok { usize := u, csize := c, slen := clampedLen c.toNat rem, clamped := clampNeeded c.toNat rem }

/-- Stream byte `S[x] = InRead(sbase + x)` of the running decode (R157). -/
def State.streamByte (s : State) (x : Nat) : Byte := s.inRead (streamBase s.dec.container + x)

/-- The stream bytes at the read cursor, at most the two an item can have. -/
def State.streamBytes (s : State) : List Byte :=
  (List.range (min 2 (s.dec.slen - s.dec.i))).map (fun k => s.streamByte (s.dec.i + k))

/-- The item of the stream that is due: a control byte when no control bit is left (R158), else the token the next
control bit announces (R87). -/
def State.itemDue (s : State) : ItemKind :=
  if s.dec.nb = 0 then .control else if s.dec.ctrl.msb then .copy else .literal

/-- The next item of the token stream, or the name of why there is none (R158 to R160). -/
def fetchItem (s : State) : Except DecodeError Instr := (decode s.itemDue s.streamBytes).map Prod.fst

/-- The error a stream that holds no due item raises (R158 to R160, R260). -/
def streamErrorCode : DecodeError → ErrCode
  | .prematureEnd => .prematureEnd
  | .prematureEndDuringLiteral => .prematureEndDuringLiteral
  | .prematureEndDuringCopy => .prematureEndDuringCopy
  | .shortCommand => .illegalOp

end Sys2Proof.Machine
end

