-- ==== Sys2Proof/Machine/HeaderCodec.lean ====
section
/-! DEFINITION. The container header codec (spec/41_header_codec.md): `PARSE_HEADER` (R134) and `WRITE_HEADER` (R136). -/
namespace Sys2Proof.Machine

/-- `write(u, c)` (R135): "PCMP" ++ zeros(16) ++ le32(u) ++ le32(c) ++ zeros(4). -/
def headerBytes (u c : Word) : List Byte :=
  signature ++ List.replicate 16 0 ++ le32 u ++ le32 c ++ List.replicate 4 0

/-- R133: the header parse sets `DIAG_CLAMP` when it clamps, and leaves it as it stands otherwise (R29). -/
def Regs.noteClamp (h : Parsed) (r : Regs) : Regs := { r with diagClamp := r.diagClamp || h.clamped }

/-- The result registers of `PARSE_HEADER` (R134). -/
def Regs.parsed (h : Parsed) (r : Regs) : Regs :=
  { r with usize := h.usize, csize := h.csize, slen := BitVec.ofNat 32 h.slen, inUsed := BitVec.ofNat 32 Config.hdrSize }

/-- `PARSE_HEADER` (R134). -/
def execParseHeader (s : State) : Host.Outcome State Fault Refusal :=
  if s.inputOutOfRange then .next (s.raise .addrRange)
  else
    match parseHeader s with
    | .error e => .next ((s.withRegs { s.regs with inUsed := 0 }).raise e)
    | .ok h => .next (s.withRegs ((s.regs.noteClamp h).parsed h)).finish

/-- `WRITE_HEADER` (R136): no overlap check, no input read. -/
def execWriteHeader (s : State) : Host.Outcome State Fault Refusal :=
  match writeBytes (checksOverlap .writeHeader) 0 (headerBytes s.lat.usize s.lat.csize) s with
  | .raised e j t => .next (t.raisePrefixes e j 0)
  | .go t => .next (t.withRegs { t.regs with outLen := BitVec.ofNat 32 Config.hdrSize, inUsed := 0 }).finish

end Sys2Proof.Machine
end

