-- ==== Sys2Proof/Machine/Decoder.lean ====
section
/-! DEFINITION. The decoder (spec/45_decoder.md) and the unpacker it reads the stream with (spec/42_token_codec.md R157 to
R160): the stream items `CTRL` (R158), `LIT` (R213) and `COPY` (R214), and the commands `DECODE_STREAM` (R217) and
`DECODE_CONTAINER` (R218). One turn of the loop of R211 runs one item. -/
namespace Sys2Proof.Machine

/-- The target size `T` (R210). -/
def State.target (s : State) : Nat := s.dec.target.toNat

/-- Input bytes consumed: `sbase + i` (R211). -/
def State.streamUsed (s : State) : Nat := streamBase s.dec.container + s.dec.i

/-- The result registers of a decode that reached its loop, whether it succeeds or not: `SLEN`, the sizes of a
container's header, and the prefixes or totals `OUT_LEN` and `IN_USED` (R45, R211, R217, R218). They are written when
the command ends (R46; DEDUCED, log entry 14). -/
def Regs.decoded (d : DecCursors) (out used : Nat) (r : Regs) : Regs :=
  { r with
    usize := if d.container then d.target else r.usize
    csize := if d.container then d.csize else r.csize
    slen := BitVec.ofNat 32 d.slen
    outLen := BitVec.ofNat 32 out
    inUsed := BitVec.ofNat 32 used }

/-- An error inside a decode, with `OUT_LEN` = `out` and `IN_USED` = `sbase + i` (R211). -/
def decodeError (code : ErrCode) (out : Nat) (s : State) : State :=
  (s.withRegs (s.regs.decoded s.dec out s.streamUsed)).raise code

/-- R217, R218: the length-mismatch test, kept although it is never taken (R30, R221). -/
def Regs.noteMismatch (mismatch : Bool) (r : Regs) : Regs := { r with diagLenmm := r.diagLenmm || mismatch }

/-- The end of a decode that reached its target (R217, R218). -/
def decodeFinish (s : State) : State :=
  (s.withRegs ((s.regs.decoded s.dec s.dec.j s.streamUsed).noteMismatch (s.dec.j != s.target))).finish

/-- The end of an item: where its writes raised, the decode ends with the prefix they give. -/
def decodeSettle : Run → State
  | .go s => s
  | .raised c n s => decodeError c n s

/-- R158: a control byte is loaded and counts as read. -/
def State.loadControl (c : Byte) (s : State) : State :=
  s.withDec { s.dec with ctrl := c, nb := Config.group, i := s.dec.i + 1 }

/-- R158: the control bit that announced a token is consumed, and the token's `n` bytes are read (R159, R160). -/
def State.takeToken (n : Nat) (s : State) : State :=
  s.withDec { s.dec with ctrl := s.dec.ctrl <<< 1, nb := s.dec.nb - 1, i := s.dec.i + n }

/-- `OutWrite(j, v); j <- j + 1` of a decode (R213, R214). -/
def decodeWrite (v : Byte) (s : State) : Run :=
  (outWrite (checksOverlap .decodeStream) s.dec.j v s).andThen
    (fun t => .go (t.withDec { t.dec with j := t.dec.j + 1 }))

/-- The byte a Copy of offset `off` appends next: the output byte `off` back, or zero before the start (R214, R215). -/
def copySource (off : Nat) (s : State) : Byte := if s.dec.j < off then 0 else s.outByte (s.dec.j - off)

/-- The byte loop of a Copy (R214): `len` times, or until the target is reached (R212). -/
def copyBytesOut (off : Nat) : Nat → State → Run
  | 0, s => .go s
  | len + 1, s =>
    if s.dec.j = s.target then .go s
    else (decodeWrite (copySource off s) s).andThen (copyBytesOut off len)

/-- The control byte of a group (R158). -/
def ctrlItem (c : Byte) (s : State) : State := s.loadControl c

/-- `literalToken()` (R213): the failing write leaves `j` and keeps `i` advanced. -/
def litItem (v : Byte) (s : State) : State := decodeSettle (decodeWrite v (s.takeToken 1))

/-- `copyToken()` (R214). -/
def copyItem (off len : Nat) (s : State) : State := decodeSettle (copyBytesOut off len (s.takeToken 2))

/-- The effect of a stream item; no command word is ever fetched from a stream (R158 to R160; log entry 26). -/
def runItem : Instr → State → State
  | .ctrl c, s => ctrlItem c s
  | .lit v, s => litItem v s
  | .copy off len, s => copyItem off len s
  | .parseHeader, s | .writeHeader, s | .decodeStream, s | .decodeContainer, s | .encodeStream, s
  | .encodeContainer, s | .pad, s | .findMatch, s | .illegalOp _, s => s

/-- One turn of the loop of R211: the stop test, the next item, its effect. -/
def decodeTurn (s : State) : State :=
  if s.dec.j < s.target then
    match fetchItem s with
    | .ok i => runItem i s
    | .error e => decodeError (streamErrorCode e) s.dec.j s
  else decodeFinish s

/-- The loop of R211, at most `fuel` turns. -/
def runDecoder : Nat → State → State
  | 0, s => s
  | fuel + 1, s => if s.phase = .idle then s else runDecoder fuel (decodeTurn s)

/-- The start of a decode (R210): `i = 0`, `j = 0`, `nb = 0`; the control byte is read before it is used. -/
def State.startDecode (container : Bool) (slen : Nat) (target csize : Word) (s : State) : State :=
  (s.withDec { s.dec with container := container, slen := slen, target := target, csize := csize, i := 0, j := 0, nb := 0 }).withEngine
    .decode

/-- The turns that are enough for what is left of the stream: each but the last reads a byte (R115). -/
def State.decodeFuel (s : State) : Nat := s.dec.slen - s.dec.i + 1

/-- `decodeStream` (R211) from its start state: the empty-stream check (R216), then the loop, taken whole or left to be
run one item a step (R114). -/
def enterDecoder (s : State) : State :=
  if s.dec.slen = 0 ∧ s.target ≠ 0 then decodeError .emptyStreamNonzeroTarget 0 s
  else
    match s.seq.pace with
    | .perToken => s
    | .whole => runDecoder s.decodeFuel s

/-- `DECODE_STREAM` (R217). -/
def execDecodeStream (s : State) : Host.Outcome State Fault Refusal :=
  if s.inputOutOfRange then .next (s.raise .addrRange)
  else .next (enterDecoder (s.startDecode false s.inputLen s.lat.usize 0))

/-- `DECODE_CONTAINER` (R218). -/
def execDecodeContainer (s : State) : Host.Outcome State Fault Refusal :=
  if s.inputOutOfRange then .next (s.raise .addrRange)
  else
    match parseHeader s with
    | .error e => .next (s.raisePrefixes e 0 0)
    | .ok h => .next (enterDecoder ((s.withRegs (s.regs.noteClamp h)).startDecode true h.slen h.usize h.csize))

/-- `CTRL` (R158). -/
def execCtrl (c : Byte) (s : State) : Host.Outcome State Fault Refusal := .next (ctrlItem c s)

/-- `LIT` (R213). -/
def execLit (v : Byte) (s : State) : Host.Outcome State Fault Refusal := .next (litItem v s)

/-- `COPY` (R214). -/
def execCopy (off len : Nat) (s : State) : Host.Outcome State Fault Refusal := .next (copyItem off len s)

end Sys2Proof.Machine
end

