-- ==== Sys2Proof/Machine/MatchFinder.lean ====
section
/-! DEFINITION. The bounded match finder (spec/43_match_finder.md): `find` (R170 to R173), used by the encoder at every
position, and `FIND_MATCH` (R176). The input is a function from positions to bytes, of length `n`. -/
namespace Sys2Proof.Machine

/-- `W = min(4096, p)` (R170). -/
def matchWindow (p : Nat) : Nat := min Config.window p

/-- `L = min(18, n - p)` (R170). -/
def matchMaxLen (n p : Nat) : Nat := min Config.maxLen (n - p)

/-- R172: `D[s + k] = D[p + k]` for every `k < len`; the occurrence may run past `p`. -/
def matchesAt (D : Nat → Byte) (p s len : Nat) : Bool := (List.range len).all (fun k => D (s + k) == D (p + k))

/-- The offsets tried at one length, in order: under `NEAREST` from 1 up, so the start nearest `p` comes first (R173). -/
def offsetsTried (policy : Config.TiePolicy) (w : Nat) : List Nat :=
  match policy with
  | .nearest => (List.range w).map (· + 1)

/-- The lengths tried, from `l` down to 3; none when `l < 3` (R173). -/
def lengthsTried (l : Nat) : List Nat := (List.range (l - 2)).map (l - ·)

/-- `find(D, p)` (R173): the longest length that occurs, at its nearest occurrence; none when the span is short (R171). -/
def findMatch (D : Nat → Byte) (n p : Nat) : Option (Nat × Nat) :=
  if matchWindow p < Config.minLen then none
  else
    (lengthsTried (matchMaxLen n p)).findSome? (fun len =>
      ((offsetsTried Config.tiePolicy (matchWindow p)).find? (fun off => matchesAt D p (p - off) len)).map
        (fun off => (off, len)))

/-- `MRES` (R39, R176): `FOUND` in bit 31, `LENGTH` in bits 20:16, `OFFSET` in bits 12:0; 0 when nothing was found. -/
def matchResultWord : Option (Nat × Nat) → Word
  | none => 0
  | some (off, len) => (1 : Word) <<< 31 ||| BitVec.ofNat 32 len <<< 16 ||| BitVec.ofNat 32 off

/-- `FIND_MATCH` (R176). -/
def execFindMatch (s : State) : Host.Outcome State Fault Refusal :=
  if s.inputOutOfRange then .next (s.raise .addrRange)
  else if s.inputLen ≤ s.lat.mpos.toNat then .next (s.raise .badArg)
  else
    .next (s.withRegs { s.regs with mres := matchResultWord (findMatch s.inRead s.inputLen s.lat.mpos.toNat) }).finish

end Sys2Proof.Machine
end

