-- ==== Sys2Proof/Machine/Padder.lean ====
section
/-! DEFINITION. The alignment padder (spec/46_padder.md): the padding amount (R241), used by `ENCODE_CONTAINER` too, and
`PAD` (R240, R242). -/
namespace Sys2Proof.Machine

/-- `pad(l)` (R241). -/
def padAmount (l : Nat) : Nat := if l % Config.sector = 0 then 0 else Config.sector - l % Config.sector

/-- The padding of a buffer of `l` output bytes, written from output offset `l` up (R241). -/
def writePadding (chk : Bool) (l : Nat) (s : State) : Run := writeBytes chk l (List.replicate (padAmount l) 0) s

/-- R240: the buffer to pad runs past `ADDR_TOP`. -/
def State.bufferOutOfRange (s : State) : Bool := Config.addrTop < s.lat.outBase.toNat + s.lat.outLen.toNat

/-- `PAD` (R242): a padding byte that cannot be written leaves `OUT_LEN` at its offset, and `IN_USED` is unchanged. -/
def execPad (s : State) : Host.Outcome State Fault Refusal :=
  if s.bufferOutOfRange then .next (s.raise .addrRange)
  else
    match writePadding (checksOverlap .pad) s.lat.outLen.toNat s with
    | .raised e j t => .next (t.raiseOutLen e j)
    | .go t =>
      .next (t.withRegs { t.regs with
        outLen := BitVec.ofNat 32 (s.lat.outLen.toNat + padAmount s.lat.outLen.toNat) }).finish

end Sys2Proof.Machine
end

