-- ==== Sys2Proof/Machine/Encoder.lean ====
section
/-! DEFINITION. The encoder (spec/44_encoder.md) and the packer it writes the stream with (spec/42_token_codec.md R150 to
R155): `ENCODE_STREAM` (R200) and `ENCODE_CONTAINER` (R202). One turn of the loop of R191 emits one token. -/
namespace Sys2Proof.Machine

/-! ## The packer -/

/-- `OutWrite(sb + x, v)`: stream byte `x` (R150). -/
def writeStreamByte (x : Nat) (v : Byte) (s : State) : Run :=
  outWrite (checksOverlap .encodeStream) (streamBase s.enc.container + x) v s

/-- `OutWrite(sb + o, v); o <- o + 1`. -/
def appendStreamByte (v : Byte) (s : State) : Run :=
  (writeStreamByte s.enc.o v s).andThen (fun t => .go (t.withEnc { t.enc with o := t.enc.o + 1 }))

/-- `reserveIfNeeded()` (R151): the placeholder is 0x00. -/
def reserveIfNeeded (s : State) : Run :=
  if s.enc.k = 0 then
    (appendStreamByte 0 (s.withEnc { s.enc with g := s.enc.o })).andThen
      (fun t => .go (t.withEnc { t.enc with acc := 0 }))
  else .go s

/-- `OutWrite(sb + g, acc); k <- 0`: the control byte of the group is patched (R154, R155). -/
def patchGroup (s : State) : Run :=
  (writeStreamByte s.enc.g s.enc.acc s).andThen (fun t => .go (t.withEnc { t.enc with k := 0 }))

/-- `k <- k + 1; closeIfFull()` (R154). -/
def countToken (s : State) : Run :=
  let t := s.withEnc { s.enc with k := s.enc.k + 1 }
  if t.enc.k = Config.group then patchGroup t else .go t

/-- `finalize()` (R155). -/
def finalizeStream (s : State) : Run := if 0 < s.enc.k then patchGroup s else .go s

/-- `emitLiteral(v)` (R152): the control bit stays 0. -/
def emitLiteral (v : Byte) (s : State) : Run :=
  ((reserveIfNeeded s).andThen (appendStreamByte v)).andThen countToken

/-- R153: the control bit of the group's next token is set. -/
def State.markCopy (s : State) : State := s.withEnc { s.enc with acc := s.enc.acc ||| (0x80 : Byte) >>> s.enc.k }

/-- The bytes of a token, appended in order: `OutWrite` of each at the next stream offset. When one raises, those before
it stay written (R118, R153). -/
def appendStreamBytes : List Byte → State → Run
  | [], s => .go s
  | b :: bs, s => (appendStreamByte b s).andThen (appendStreamBytes bs)

/-- `emitCopy(off, len)` (R153). -/
def emitCopy (off len : Nat) (s : State) : Run :=
  ((reserveIfNeeded s).andThen (fun t => appendStreamBytes (copyBytes off len) t.markCopy)).andThen countToken

/-! ## The loop -/

/-- `p <- p + n` (R191). -/
def State.advanceInput (n : Nat) (s : State) : State := s.withEnc { s.enc with p := s.enc.p + n }

/-- The token the encoder emits at its cursor (R191, R194). -/
def encodeToken (s : State) : Run :=
  match findMatch s.inRead s.inputLen s.enc.p with
  | some (off, len) => (emitCopy off len s).andThen (fun t => .go (t.advanceInput len))
  | none => (emitLiteral (s.inRead s.enc.p) s).andThen (fun t => .go (t.advanceInput 1))

/-- An error inside an encode: `OUT_LEN` is the written prefix, `IN_USED` the cursor when the failing token began
(R118, R191). -/
def encodeError (code : ErrCode) (out : Nat) (s : State) : State := s.raisePrefixes code out s.enc.p

/-- Output bytes before padding: the stream base and the stream. -/
def State.encodedLen (s : State) : Nat := streamBase s.enc.container + s.enc.o

/-- The output length an encode reports: the stream's, or the padded container's (R200 to R202). -/
def State.encodeOutLen (s : State) : Nat :=
  if s.enc.container then s.encodedLen + padAmount s.encodedLen else s.enc.o

/-- What follows the loop: `finalize`, and for a container the patch of the declared size and the padding (R202). -/
def encodeTail (s : State) : Run :=
  (finalizeStream s).andThen (fun t =>
    if t.enc.container then
      (writeBytes (checksOverlap .encodeContainer) Config.offCsize (le32 (BitVec.ofNat 32 t.enc.o)) t).andThen (fun t =>
        writePadding (checksOverlap .encodeContainer) t.encodedLen t)
    else .go t)

/-- The result registers of a successful encode (R45, R200, R202). -/
def Regs.encoded (n slen out : Nat) (r : Regs) : Regs :=
  { r with
    usize := BitVec.ofNat 32 n
    csize := BitVec.ofNat 32 slen
    slen := BitVec.ofNat 32 slen
    outLen := BitVec.ofNat 32 out
    inUsed := BitVec.ofNat 32 n }

/-- The end of a successful encode (R200, R202). -/
def encodeFinish (s : State) : State := (s.withRegs (s.regs.encoded s.inputLen s.enc.o s.encodeOutLen)).finish

/-- The end of a part of an encode: where a write raised, the encode ends with the prefix it gives. -/
def encodeSettle (k : State → State) : Run → State
  | .go s => k s
  | .raised c n s => encodeError c n s

/-- One turn of the loop of R191: a token while input is left, else the end of the command. -/
def encodeTurn (s : State) : State :=
  if s.enc.p < s.inputLen then encodeSettle id (encodeToken s)
  else encodeSettle encodeFinish (encodeTail s)

/-- The loop of R191 and what follows it, at most `fuel` turns. -/
def runEncoder : Nat → State → State
  | 0, s => s
  | fuel + 1, s => if s.phase = .idle then s else runEncoder fuel (encodeTurn s)

/-- The start of an encode (R190): `p = 0`, `o = 0`, `k = 0`, `acc = 0`; `g` is set before it is used (R150). -/
def State.startEncode (container : Bool) (s : State) : State :=
  (s.withEnc { s.enc with container := container, p := 0, o := 0, acc := 0, k := 0 }).withEngine .encode

/-- The turns that are enough for what is left of the input: each but the last reads a byte (R115). -/
def State.encodeFuel (s : State) : Nat := s.inputLen - s.enc.p + 1

/-- `encodeStream` (R191) from its start state, taken whole or left to be run one token a step (R114). -/
def enterEncoder (s : State) : State :=
  match s.seq.pace with
  | .perToken => s
  | .whole => runEncoder s.encodeFuel s

/-- `ENCODE_STREAM` (R200). -/
def execEncodeStream (s : State) : Host.Outcome State Fault Refusal :=
  if s.inputOutOfRange then .next (s.raise .addrRange)
  else .next (enterEncoder (s.startEncode false))

/-- `ENCODE_CONTAINER` (R202): the header is written first, with a declared size of 0, and `IN_USED` is 0 if it cannot be
written. -/
def execEncodeContainer (s : State) : Host.Outcome State Fault Refusal :=
  if s.inputOutOfRange then .next (s.raise .addrRange)
  else
    .next (encodeSettle enterEncoder
      (writeBytes (checksOverlap .encodeContainer) 0 (headerBytes s.lat.inLen 0) (s.startEncode true)))

end Sys2Proof.Machine
end

