-- ==== Sys2Proof/Machine/Illegal.lean ====
section
/-! DEFINITION. The illegal command (spec/40_command_lifecycle.md R113). -/
namespace Sys2Proof.Machine

/-- `ILLEGAL_OP` (R113): `raise Error(ILLEGAL_OP)`, whatever the word; it stays readable in `CMD`, which the command's
start wrote. -/
def execIllegalOp (_w : Word) (s : State) : Host.Outcome State Fault Refusal := .next (s.raise .illegalOp)

end Sys2Proof.Machine
end

