-- ==== Sys2Proof/Machine/Dispatch.lean ====
section
/-! DEFINITION. Which meaning each instruction has (spec/40_command_lifecycle.md R112). -/
namespace Sys2Proof.Machine

def exec (i : Instr) (s : State) : Host.Outcome State Fault Refusal :=
  match i with
  | .parseHeader => Sys2Proof.Machine.execParseHeader s
  | .writeHeader => Sys2Proof.Machine.execWriteHeader s
  | .decodeStream => Sys2Proof.Machine.execDecodeStream s
  | .decodeContainer => Sys2Proof.Machine.execDecodeContainer s
  | .encodeStream => Sys2Proof.Machine.execEncodeStream s
  | .encodeContainer => Sys2Proof.Machine.execEncodeContainer s
  | .pad => Sys2Proof.Machine.execPad s
  | .findMatch => Sys2Proof.Machine.execFindMatch s
  | .illegalOp w => Sys2Proof.Machine.execIllegalOp w s
  | .ctrl c => Sys2Proof.Machine.execCtrl c s
  | .lit v => Sys2Proof.Machine.execLit v s
  | .copy off len => Sys2Proof.Machine.execCopy off len s

end Sys2Proof.Machine
end

