-- ==== Sys2Proof/Machine/Sequence.lean ====
section
/-! DEFINITION. The core's own step (spec/40_command_lifecycle.md R112, R114): how a running command is dispatched and
carried on, how a command abandoned by a reset ends (spec/70_reset_and_hazards.md R290 to R292). -/
namespace Sys2Proof.Machine

/-- One step of a decode taken one item a step (R211): while output is missing, the due item is fetched and executed, or
the error of its absence raised (R158 to R160); else the command ends. -/
def decodeStep (s : State) : Host.Outcome State Fault Refusal :=
  if s.dec.j < s.target then
    match fetchItem s with
    | .ok i => exec i s
    | .error e => .next (decodeError (streamErrorCode e) s.dec.j s)
  else .next (decodeFinish s)

/-- One of the steps a command takes before its body (`BUSY_STEPS`, R114): nothing the host sees changes. -/
def State.waitStep (s : State) : State := { s with seq := { s.seq with stall := s.seq.stall - 1 } }

/-- An internal step of the core. While idle it executes nothing (R293); a running command waits out its drawn steps,
is dispatched on its latched word (R112), and, where it is taken one token a step, goes on in its loop. -/
def coreStep (s : State) : Host.Outcome State Fault Refusal :=
  match s.phase with
  | .idle => .next s
  | .busy =>
    if s.seq.stall ≠ 0 then .next s.waitStep
    else
      match s.seq.engine with
      | .dispatch => exec (decodeCommand s.op) s
      | .decode => decodeStep s
      | .encode => .next (encodeTurn s)

/-! ## Reset -/

/-- A running command carried to its end. Commands never refuse, so the last line is never met while one runs. -/
def runToEnd (s : State) : State :=
  match s.seq.engine with
  | .decode => runDecoder s.decodeFuel s
  | .encode => runEncoder s.encodeFuel s
  | .dispatch =>
    match exec (decodeCommand s.op) { s with seq := { s.seq with pace := .whole } } with
    | .next t => t
    | .fault _ | .refused _ => s

/-- R291: the memory that holds the first `kept` writes of the running command's write sequence, in pseudocode order,
and no later one: the command is carried to its end, and its later writes are taken back, the newest first. -/
def abandonedMem (kept : Nat) (s : State) : Mem :=
  let t := runToEnd s
  Mem.writeAll t.mem (t.journal.take (t.journal.length - kept))

/-- What a reset leaves in memory: it is not reset (R47), and of a running command any number of its first writes
remains (R291; the number is a free value, log entry 7). -/
def State.memAfterReset (s : State) : Mem :=
  match s.phase with
  | .idle => s.mem
  | .busy => abandonedMem (Config.resetKept s.seq.draws) s

/-- A hard or soft reset (R290, R292): the state of R47. What the host will do, what its last read returned and the
count of draws are not the core's, and stay (log entry 17). -/
def State.resetCore (s : State) : State :=
  { State.resetWith s.memAfterReset with
    seq := { State.reset.seq with draws := s.seq.draws + 1 }
    port := { s.port with awaiting := false, earlier := [] } }

end Sys2Proof.Machine
end

