-- ==== Sys2Proof/Machine/HostPort.lean ====
section
/-! DEFINITION. The host's side (spec/70_reset_and_hazards.md R295 to R297): register reads and writes (spec/10_state.md
R20 to R39, R46), memory accesses and their discipline, and the reset input. -/
namespace Sys2Proof.Machine

/-! ## Register accesses -/

/-- The platform address of the register at byte offset `off` (R20). -/
def regAddress (off : Nat) : Nat := Config.regBase + off

/-- R21, R296: one aligned 32-bit word inside the register block. -/
def regAccessOk (off width : Nat) : Bool := width == 4 && off % 4 == 0 && off < Config.regSpan

/-- `ID` (R22): the signature bytes read as a little-endian value. -/
def idWord : Word := 0x504D4350

/-- What the register at byte offset `off` holds (R20); a reserved offset reads 0 (R21). -/
def State.regValue (off : Nat) (s : State) : Word :=
  match off with
  | 0x00 => idWord
  | 0x04 => s.regs.ctrlWord
  | 0x08 => s.regs.cmd
  | 0x0C => s.statusWord
  | 0x10 => s.regs.inBase
  | 0x14 => s.regs.inLen
  | 0x18 => s.regs.outBase
  | 0x1C => s.regs.outLen
  | 0x20 => s.regs.usize
  | 0x24 => s.regs.csize
  | 0x28 => s.regs.slen
  | 0x2C => s.regs.inUsed
  | 0x30 => s.regs.mpos
  | 0x34 => s.regs.mres
  | _ => 0

/-- R32: a progress value drawn between the last one read and the latched `IN_LEN`. -/
def State.drawProgress (s : State) : Nat :=
  s.seq.progress + Config.progress s.seq.draws % (s.inputLen - s.seq.progress + 1)

/-- The host's read returned `v`. -/
def State.returnData (v : Word) (s : State) : State := { s with port := { s.port with rdata := v } }

/-- The end of the command has been observed (R300), and with it the ends of all commands before it: no region is held
any more. -/
def State.observed (s : State) : State := { s with port := { s.port with awaiting := false, earlier := [] } }

/-- A read of `IN_USED` while a command runs (R32): a draw that never decreases within the command. -/
def State.readProgress (s : State) : State :=
  ({ s with seq := { s.seq with progress := s.drawProgress } }.returnData (BitVec.ofNat 32 s.drawProgress)).drawn

/-- A read of `STATUS`: reading `BUSY` = 0 is how the host observes the end of a command (R300). -/
def State.readStatus (s : State) : State :=
  match s.phase with
  | .idle => (s.returnData s.statusWord).observed
  | .busy => s.returnData s.statusWord

/-- A register read at byte offset `off` (R21, R46). -/
def State.readReg (off : Nat) (s : State) : State :=
  if off = 0x0C then s.readStatus
  else if off = 0x2C ∧ s.phase = .busy then s.readProgress
  else s.returnData (s.regValue off)

/-- The operand and result registers a host write sets while the core is idle (R20, R31 to R38); read-only and reserved
offsets ignore it (R21, R22). -/
def Regs.writeOperand (off : Nat) (v : Word) (r : Regs) : Regs :=
  match off with
  | 0x10 => { r with inBase := v }
  | 0x14 => { r with inLen := v }
  | 0x18 => { r with outBase := v }
  | 0x1C => { r with outLen := v }
  | 0x20 => { r with usize := v }
  | 0x24 => { r with csize := v }
  | 0x30 => { r with mpos := v }
  | _ => r

/-- A write to `CTRL` (R23, R292): taken in any state; with `SRST` it resets, and its other bits are discarded. -/
def State.writeCtrl (v : Word) (s : State) : State :=
  if softResetBit v then s.resetCore else s.withRegs (s.regs.writeCtrl v)

/-- A register write of `v` at byte offset `off`. While a command runs only `CTRL` takes it (R46). -/
def State.writeReg (off : Nat) (v : Word) (s : State) : State :=
  if off = 0x04 then s.writeCtrl v
  else
    match s.phase with
    | .busy => s
    | .idle =>
      if off = 0x08 then s.start v
      else if off = 0x0C then s.withRegs (s.regs.writeStatus v)
      else s.withRegs (s.regs.writeOperand off v)

/-! ## Memory accesses -/

/-- A host read of the memory byte at `a` (R71, R295, R297). -/
def State.hostRead (a : Nat) (s : State) : Host.Outcome State Fault Refusal :=
  if Config.memSize ≤ a then .fault .addressOutsideMemory
  else if s.heldRegions.any (·.hasOutput a) then .refused .hostTouchedOutputRegion
  else .next (s.returnData ((Mem.read s.mem a).setWidth 32))

/-- A host write of the memory byte at `a` (R295, R297). -/
def State.hostWrite (a : Nat) (b : Byte) (s : State) : Host.Outcome State Fault Refusal :=
  if Config.memSize ≤ a then .fault .addressOutsideMemory
  else if s.heldRegions.any (·.hasInput a) then .refused .hostWroteInputRegion
  else if s.heldRegions.any (·.hasOutput a) then .refused .hostTouchedOutputRegion
  else .next { s with mem := Mem.write s.mem a b }

/-! ## One input -/

/-- Where a command has ended and `IRQ` is asserted the host takes it, and has observed that end (R71, R275, R300; DEDUCED, log
entry 11). -/
def State.takeIrq (s : State) : State :=
  match s.phase with
  | .busy => s
  | .idle => if s.irq then s.observed else s

/-- One input of the host or the platform (R295). -/
def inputStep : Input → State → Host.Outcome State Fault Refusal
  | .tick, s => coreStep s
  | .hardReset, s => .next s.resetCore
  | .regRead off width, s => if regAccessOk off width then .next (s.takeIrq.readReg off) else .refused .registerAccessShape
  | .regWrite off width v, s =>
    if regAccessOk off width then .next (s.takeIrq.writeReg off v) else .refused .registerAccessShape
  | .memRead a, s => s.takeIrq.hostRead a
  | .memWrite a b, s => s.takeIrq.hostWrite a b

/-- What happens next: the oldest input, or, when the host has nothing more to do, an internal step of the core
(log entries 10, 15). -/
def machineStep (s : State) : Host.Outcome State Fault Refusal :=
  match s.port.inputs with
  | [] => coreStep s
  | x :: rest => inputStep x { s with port := { s.port with inputs := rest } }

/-! ## Placing one instruction (the host's check) -/

/-- The machine with a command word accepted and about to be dispatched, and the core about to take a step. -/
def placeCommand (w : Word) (s : State) : State :=
  let t := s.startWith .whole 0 w
  { t with port := { t.port with inputs := .tick :: t.port.inputs } }

/-- The machine in a decode that is about to take the item `bytes` of the given kind: they are the whole stream, at
`IN_BASE`, with the output behind it. -/
def placeItem (kind : ItemKind) (bytes : List Byte) (s : State) : State :=
  let base := s.regs.inBase.toNat
  let m := Mem.writeList s.mem base bytes
  { s with
    phase := .busy
    mem := m
    op := commandWord .decodeStream
    lat := { s.lat with
      inBase := s.regs.inBase, inLen := BitVec.ofNat 32 bytes.length
      outBase := BitVec.ofNat 32 (base + bytes.length), usize := BitVec.ofNat 32 Config.maxLen }
    snap := Mem.writeList [] base bytes
    dec := { s.dec with
      container := false, slen := bytes.length, target := BitVec.ofNat 32 Config.maxLen, csize := 0, i := 0, j := 0
      ctrl := if kind = .copy then 0x80 else 0, nb := if kind = .control then 0 else Config.group }
    seq := { s.seq with engine := .decode, pace := .perToken, stall := 0, progress := 0 }
    journal := []
    port := { s.port with awaiting := true, inputs := .tick :: s.port.inputs } }

/-- The machine about to run, as its very next step, the instruction of `nbits` bits `w` (R24, R110, R157). -/
def placeInstr (nbits w : Nat) (s : State) : State :=
  match kindOfWidth nbits with
  | some .command => placeCommand (BitVec.ofNat 32 w) s
  | some k => placeItem k (bytesOfNat (nbits / 8) w) s
  | none => s

end Sys2Proof.Machine
end

