-- ==== Sys2Proof/Machine/Reference.lean ====
section
/-! DEFINITION. The codec's functions as the spec's source sees them, on byte lists: a token stream as a list of tokens
(spec/30_encoding.md R86 to R91), its packing (R156, R195), the greedy parse (R191) and the decode (R211 to R216). The
machine never calls these; claims compare the machine, which works byte by byte on its memory, with them. -/
namespace Sys2Proof.Machine

/-- A token (R16): "either a Literal (one raw byte) or a Copy (offset + length back-reference)". -/
inductive Token where
  | literal (v : Byte)
  | copy (off len : Nat)
deriving DecidableEq, Repr

/-- The control bit that announces a token (R87). -/
def Token.isCopy : Token → Bool
  | .literal _ => false
  | .copy _ _ => true

/-- A token's bytes (R90, R91). -/
def Token.bytes : Token → List Byte
  | .literal v => [v]
  | .copy off len => copyBytes off len

/-- The input bytes a token covers (R191). -/
def Token.span : Token → Nat
  | .literal _ => 1
  | .copy _ len => len

/-- The control byte of the group that begins with the given tokens, from bit `b` down (R88): at most `b + 1` tokens
count, and the bits that announce none are 0 (R89). -/
def controlNat : Nat → List Token → Nat
  | _, [] => 0
  | 0, t :: _ => t.isCopy.toNat
  | b + 1, t :: ts => t.isCopy.toNat * 2 ^ (b + 1) + controlNat b ts

/-- The stream of a token list when `k` tokens of the current group are already out (R86): a group begins with its
control byte. -/
def packFrom : Nat → List Token → List Byte
  | _, [] => []
  | 0, t :: ts => BitVec.ofNat 8 (controlNat 7 (t :: ts)) :: (t.bytes ++ packFrom 1 ts)
  | k + 1, t :: ts => t.bytes ++ packFrom (if k + 2 = Config.group then 0 else k + 2) ts

/-- The stream of a token list (R86 to R91, R195). -/
def packTokens (ts : List Token) : List Byte := packFrom 0 ts

/-- Byte `i` of a list, 0 outside it. -/
def byteAt (X : List Byte) (i : Nat) : Byte := X.getD i 0

/-- The greedy parse of `X` from position `p` on (R191, R192), at most `fuel` tokens. -/
def parseTokens (X : List Byte) : Nat → Nat → List Token
  | 0, _ => []
  | fuel + 1, p =>
    if p < X.length then
      match findMatch (byteAt X) X.length p with
      | some (off, len) => .copy off len :: parseTokens X fuel (p + len)
      | none => .literal (byteAt X p) :: parseTokens X fuel (p + 1)
    else []

/-- The stream the encoder makes of `X` (R191, R198). -/
def refEncode (X : List Byte) : List Byte := packTokens (parseTokens X X.length 0)

/-- The stream bytes of the whole groups `done` and of a group that has only the tokens `grp` yet: its control byte is
still the placeholder 0x00 (R151). -/
def openContent (done grp : List Token) : List Byte := packTokens done ++ 0 :: grp.flatMap Token.bytes

/-- Stream byte `j` of the encoding of `X` belongs to token `k` or to the control byte written for it: the tokens before
`k` end at or before `j`, and `k` does not. -/
def inToken (X : List Byte) (k j : Nat) : Prop :=
  k < (parseTokens X X.length 0).length ∧ (packTokens ((parseTokens X X.length 0).take k)).length ≤ j ∧
    j < (packTokens ((parseTokens X X.length 0).take (k + 1))).length

/-- The input position of token `k` (R191): what the tokens before it cover. -/
def tokenStart (X : List Byte) (k : Nat) : Nat := (((parseTokens X X.length 0).take k).map Token.span).sum

/-- What an encode of `X` that stops at stream byte `j`, in token `k`, has written of the stream (R118, R151). -/
def partialStream (X : List Byte) (k j : Nat) : List Byte :=
  (openContent ((parseTokens X X.length 0).take (8 * (k / 8)))
    (((parseTokens X X.length 0).take (k + 1)).drop (8 * (k / 8)))).take j

/-- The container the encoder makes of `X` (R84, R201, R202). -/
def refContainer (X : List Byte) : List Byte :=
  headerBytes (BitVec.ofNat 32 X.length) (BitVec.ofNat 32 (refEncode X).length) ++ refEncode X ++
    List.replicate (padAmount (Config.hdrSize + (refEncode X).length)) 0

/-- How a decode ended: its output, the stream bytes it read, and the error that ended it, if one did (R222). -/
structure Decoded where
  out : List Byte
  used : Nat
  error : Option ErrCode
deriving DecidableEq, Repr

/-- One output byte appended, unless writing at its offset raises (R66). -/
def refPut (bad : Nat → Option ErrCode) (v : Byte) (out : List Byte) : List Byte × Option ErrCode :=
  match bad out.length with
  | some e => (out, some e)
  | none => (out ++ [v], none)

/-- A Copy's bytes appended up to the target `T` (R214, R215); it stops where a write raises. -/
def refCopy (bad : Nat → Option ErrCode) (T off : Nat) : Nat → List Byte → List Byte × Option ErrCode
  | 0, out => (out, none)
  | len + 1, out =>
    if out.length = T then (out, none)
    else
      match refPut bad (if out.length < off then 0 else byteAt out (out.length - off)) out with
      | (out', some e) => (out', some e)
      | (out', none) => refCopy bad T off len out'

/-- The control bits of a control byte in the order they are consumed (R88). -/
def controlBits (c : Byte) : List Bool := (List.range Config.group).map (fun t => c.getLsbD (7 - t))

/-- The decode of stream `S` toward the target `T` (R211 to R216): `bits` are the control bits not yet consumed, `used`
the bytes read, `out` the output so far; `bad j` is the error writing output byte `j` raises, if it does. -/
def refDecodeFrom (bad : Nat → Option ErrCode) (T : Nat) : List Byte → List Bool → Nat → List Byte → Decoded
  | [], bits, used, out =>
    if T ≤ out.length then { out := out, used := used, error := none }
    else
      match bits with
      | [] => { out := out, used := used, error := some .prematureEnd }
      | false :: _ => { out := out, used := used, error := some .prematureEndDuringLiteral }
      | true :: _ => { out := out, used := used, error := some .prematureEndDuringCopy }
  | [b0], bits, used, out =>
    if T ≤ out.length then { out := out, used := used, error := none }
    else
      match bits with
      | [] => refDecodeFrom bad T [] (controlBits b0) (used + 1) out
      | false :: bs =>
        match refPut bad b0 out with
        | (out', some e) => { out := out', used := used + 1, error := some e }
        | (out', none) => refDecodeFrom bad T [] bs (used + 1) out'
      | true :: _ => { out := out, used := used, error := some .prematureEndDuringCopy }
  | b0 :: b1 :: S, bits, used, out =>
    if T ≤ out.length then { out := out, used := used, error := none }
    else
      match bits with
      | [] => refDecodeFrom bad T (b1 :: S) (controlBits b0) (used + 1) out
      | false :: bs =>
        match refPut bad b0 out with
        | (out', some e) => { out := out', used := used + 1, error := some e }
        | (out', none) => refDecodeFrom bad T (b1 :: S) bs (used + 1) out'
      | true :: bs =>
        match refCopy bad T (copyOffset b0 b1) (copyLength b0) out with
        | (out', some e) => { out := out', used := used + 2, error := some e }
        | (out', none) => refDecodeFrom bad T S bs (used + 2) out'

/-- The decode of a whole stream (R211), the empty-stream check (R216) first. -/
def refDecode (bad : Nat → Option ErrCode) (T : Nat) (S : List Byte) : Decoded :=
  if S.length = 0 ∧ T ≠ 0 then { out := [], used := 0, error := some .emptyStreamNonzeroTarget }
  else refDecodeFrom bad T S [] 0 []

end Sys2Proof.Machine
end

