-- ==== Sys2Proof/Safety.lean ====
section
/-! DEFINITION. The terms claims use: what a command never touches, what output a command has room for, and the invariant
of the machine. -/
namespace Sys2Proof.Machine

/-- Everything that neither a command nor a stream item may change is the same in `s` and `t`: the registers `CTRL`,
`CMD`, `IN_BASE`, `IN_LEN`, `OUT_BASE` and `MPOS` (R31, R33, R38, R45), the latched word and operands (R41), the input
snapshot (R70), the host's side, and the draws. -/
structure SameSetup (s t : State) : Prop where
  ie : t.regs.ie = s.regs.ie
  cmd : t.regs.cmd = s.regs.cmd
  inBase : t.regs.inBase = s.regs.inBase
  inLen : t.regs.inLen = s.regs.inLen
  outBase : t.regs.outBase = s.regs.outBase
  mpos : t.regs.mpos = s.regs.mpos
  op : t.op = s.op
  lat : t.lat = s.lat
  snap : t.snap = s.snap
  port : t.port = s.port
  pace : t.seq.pace = s.seq.pace
  stall : t.seq.stall = s.seq.stall
  progress : t.seq.progress = s.seq.progress
  draws : t.seq.draws = s.seq.draws

/-- Every byte of memory outside the addresses `[lo, hi)` reads in `t` as in `s`. -/
def SameOutside (lo hi : Nat) (s t : State) : Prop :=
  ∀ a, ¬ (lo ≤ a ∧ a < hi) → Mem.read t.mem a = Mem.read s.mem a

/-- The bytes `bs` stand in `t` from address `lo` up, and every other byte of memory reads as in `s`. -/
def Stores (lo : Nat) (bs : List Byte) (s t : State) : Prop :=
  ∀ a, Mem.read t.mem a = if lo ≤ a ∧ a < lo + bs.length then byteAt bs (a - lo) else Mem.read s.mem a

/-- The core itself, all but the host's side, is the same in `s` and `t`. -/
structure SameCore (s t : State) : Prop where
  regs : t.regs = s.regs
  phase : t.phase = s.phase
  mem : t.mem = s.mem
  op : t.op = s.op
  lat : t.lat = s.lat
  snap : t.snap = s.snap
  enc : t.enc = s.enc
  dec : t.dec = s.dec
  seq : t.seq = s.seq
  journal : t.journal = s.journal

/-- The state in which the host and the platform do `xs` next. -/
def State.withInputs (xs : List Input) (s : State) : State := { s with port := { s.port with inputs := xs } }

/-- The next step takes the input `x`. -/
def State.InputNext (x : Input) (s : State) : Prop := s.port.inputs.head? = some x

/-- The next step is one of the core's own (R114). -/
def State.CoreNext (s : State) : Prop := s.port.inputs.head? = none ∨ s.InputNext .tick

/-- The next step is a hard reset, or the soft reset a write to `CTRL` makes (R290, R292). -/
def State.ResetNext (s : State) : Prop := s.InputNext .hardReset ∨ ∃ v, s.InputNext (.regWrite 0x04 4 v) ∧ v.getLsbD 1 = true

/-- The next step is an accepted write of `w` to `CMD` (R24). -/
def State.StartNext (w : Word) (s : State) : Prop := s.phase = .idle ∧ s.InputNext (.regWrite 0x08 4 w)

/-- The next step is an access of the host's. -/
def State.AccessNext (s : State) : Prop := ∃ x, s.InputNext x ∧ x ≠ .tick ∧ x ≠ .hardReset

/-- With the next step the host observes that the core is idle (R297, R300): it reads `STATUS`, or, `IRQ` being asserted,
makes any access (DEDUCED, log entry 11). -/
def State.ObservesNext (s : State) : Prop :=
  s.phase = .idle ∧ (s.InputNext (.regRead 0x0C 4) ∨ (s.irq = true ∧ s.AccessNext))

/-- The step from `s` to `t` ended the command that was running (R300). -/
def Completes (s t : State) : Prop := s.CoreNext ∧ s.phase = .busy ∧ t.phase = .idle

/-- `n` steps, as long as each answers a next state. -/
def steps : Nat → State → Host.Outcome State Fault Refusal
  | 0, s => .next s
  | n + 1, s =>
    match step s with
    | .next t => steps n t
    | .fault f => .fault f
    | .refused r => .refused r

/-- The pairs the match finder chooses from at position `p` of `D` (R170 to R172, R174): `x` is a start in the search
span, and it matches at length `len`. -/
structure Candidate (D : Nat → Byte) (n p x len : Nat) : Prop where
  span : 3 ≤ min 4096 p
  start : p - min 4096 p ≤ x ∧ x + 1 ≤ p
  length : 3 ≤ len ∧ len ≤ min 18 (n - p)
  same : ∀ k, k < len → D (x + k) = D (p + k)

/-- The header's first four bytes are the signature (R131). -/
def State.HasSignature (s : State) : Prop :=
  s.inRead 0 = 0x50 ∧ s.inRead 1 = 0x43 ∧ s.inRead 2 = 0x4D ∧ s.inRead 3 = 0x50

/-- The little-endian field of the input at offset `f` (R62, R130). -/
def State.field (f : Nat) (s : State) : Word := s.inRead (f + 3) ++ s.inRead (f + 2) ++ s.inRead (f + 1) ++ s.inRead f

/-- The declared stream size is zero or more than what follows the header (R132). -/
def State.NeedsClamp (s : State) : Prop := s.field 0x18 = 0 ∨ s.inputLen - 32 < (s.field 0x18).toNat

/-- What the journal of a write sequence over `m` holds: for each write, newest first, its address and the byte it
replaces. -/
def Mem.replaced : Mem → List Host.Cell → List Host.Cell
  | _, [] => []
  | m, c :: ws => Mem.replaced (Mem.write m c.1 c.2) ws ++ [(c.1, Mem.read m c.1)]

/-- Writing any of the output bytes `0 .. n - 1` raises nothing (R66); `chk` says whether the input region is barred. -/
def State.Room (chk : Bool) (n : Nat) (s : State) : Prop := ∀ j, j < n → s.outWriteError chk j = none

/-- A command has ended (R300): the core is idle, with `DONE` or `ERR` (R27) and the code (R28). -/
def State.EndedWith (code : ErrCode) (t : State) : Prop :=
  t.phase = .idle ∧ t.regs.errcode = code ∧ t.regs.done = (code == .none) ∧ t.regs.err = (code != .none)

/-- The input bytes of a command, `Snap` (R70). -/
def State.input (s : State) : List Byte := (List.range s.inputLen).map s.inRead

/-- `MRES` holds 0 or a result in the ranges of R39 and R175. -/
def MresOk (w : Word) : Prop :=
  w = 0 ∨ ∃ off len, (1 ≤ off ∧ off ≤ Config.window) ∧ (Config.minLen ≤ len ∧ len ≤ Config.maxLen) ∧
    w = matchResultWord (some (off, len))

/-- The registers at any time: `DONE` and `ERR` exclude each other and agree with `ERRCODE` (R27, R28), `DIAG_LENMM` is
never set (R221), and `MRES` is in its ranges (R39). -/
structure RegsInv (r : Regs) : Prop where
  exclusive : (r.done && r.err) = false
  doneCode : r.done = true → r.errcode = .none
  errCode : r.err = true → r.errcode ≠ .none
  lenmm : r.diagLenmm = false
  mres : MresOk r.mres

/-- The decoder's cursors while a decode runs (R43, R210). -/
structure DecodeInv (s : State) : Prop where
  i : s.dec.i ≤ s.dec.slen
  j : s.dec.j ≤ s.target
  nb : s.dec.nb ≤ Config.group
  stream : streamBase s.dec.container + s.dec.slen ≤ s.inputLen
  room : 0 < s.dec.j → s.outAddr s.dec.j ≤ Config.addrTop

/-- The encoder's cursors while an encode runs (R42, R150). The slot of an open group and a container's header have been
written, so that patching them raises nothing (R118). -/
structure EncodeInv (s : State) : Prop where
  p : s.enc.p ≤ s.inputLen
  k : s.enc.k < Config.group
  g : 0 < s.enc.k → s.enc.g < s.enc.o
  slot : 0 < s.enc.k → s.outWriteError true (streamBase s.enc.container + s.enc.g) = none
  header : s.enc.container = true → s.Room true Config.hdrSize
  room : 0 < s.enc.o → s.outAddr (streamBase s.enc.container + s.enc.o) ≤ Config.addrTop

/-- The invariant of the machine. -/
structure Inv (s : State) : Prop where
  memWf : Mem.wf s.mem = true
  snapWf : Mem.wf s.snap = true
  memBound : ∀ c ∈ s.mem, c.1 < Config.memSize
  journalBound : ∀ c ∈ s.journal, c.1 < Config.memSize
  regs : RegsInv s.regs
  busy : s.phase = .busy → s.regs.done = false ∧ s.regs.err = false ∧ s.regs.errcode = .none
  awaiting : s.phase = .busy → s.port.awaiting = true
  progress : s.phase = .busy → s.seq.progress ≤ s.inputLen
  range : s.phase = .busy → s.seq.engine ≠ .dispatch → s.inputOutOfRange = false
  decode : s.phase = .busy → s.seq.engine = .decode → DecodeInv s
  encode : s.phase = .busy → s.seq.engine = .encode → EncodeInv s

end Sys2Proof.Machine
end

