-- ==== Sys2Proof/Certificates/Slice0/Obligations.lean ====
section
/-! DEFINITION. The statements for the provers, in the order of spec/: encodings, steps, registers, status, reset, then
each command, the stream items, and what holds of every step. -/
open Sys2Proof Sys2Proof.Machine

/-! ## Encodings -/

/-- Every well-formed instruction is read back from its bytes, with every operand (spec/30_encoding.md). -/
def Obligations.DecodeOfEncodedInstruction : Prop :=
  ∀ (i : Instr) (rest : List Byte), i.wellFormed = true → decode i.kind (encode i ++ rest) = .ok (i, rest)

/-- Every item the decoder reads is well-formed and encodes to the bytes it was read from: no bit is dropped. -/
def Obligations.EncodeOfDecodedBytes : Prop :=
  ∀ (k : ItemKind) (bs rest : List Byte) (i : Instr), decode k bs = .ok (i, rest) →
    encode i ++ rest = bs ∧ i.wellFormed = true ∧ i.kind = k

/-- R82: which word selects which command, by its fields and by its match and mask; every other word is illegal. -/
def Obligations.CommandWordsSelectCommands : Prop :=
  ∀ w : Word,
    (∀ k c, (k, c) ∈ [(1, Instr.parseHeader), (2, .writeHeader), (3, .decodeStream), (4, .decodeContainer),
        (5, .encodeStream), (6, .encodeContainer), (7, .pad), (8, .findMatch)] →
      (decodeCommand w = c ↔ w.extractLsb' 4 28 = 0 ∧ (w.extractLsb' 0 4).toNat = k) ∧
      (decodeCommand w = c ↔ w &&& 0xFFFFFFFF = BitVec.ofNat 32 k)) ∧
    (¬ (w.extractLsb' 4 28 = 0 ∧ 1 ≤ (w.extractLsb' 0 4).toNat ∧ (w.extractLsb' 0 4).toNat ≤ 8) →
      decodeCommand w = .illegalOp w ∧
      ∀ s : State, ∃ t, exec (decodeCommand w) s = .next t ∧ t.EndedWith .illegalOp)

/-- R91, R92: where a Copy's operands stand in its two bytes, and how they are assembled from any two bytes. -/
def Obligations.CopyTokenFields : Prop :=
  (∀ off len : Nat, 1 ≤ off → off ≤ 4096 → 3 ≤ len → len ≤ 18 →
    ∃ b0 b1 : Byte, encode (.copy off len) = [b0, b1] ∧
      b0.toNat = ((off - 1) <<< 4 ||| ((len - 3) &&& 0xF)) &&& 0xFF ∧
      b1.toNat = (((off - 1) <<< 4 ||| ((len - 3) &&& 0xF)) >>> 8) &&& 0xFF ∧
      b0.extractLsb' 0 4 = BitVec.ofNat 4 (len - 3) ∧
      b0.extractLsb' 4 4 = (BitVec.ofNat 12 (off - 1)).extractLsb' 0 4 ∧
      b1 = (BitVec.ofNat 12 (off - 1)).extractLsb' 4 8) ∧
  ∀ (b0 b1 : Byte) (rest : List Byte), ∃ off len : Nat, decode .copy (b0 :: b1 :: rest) = .ok (.copy off len, rest) ∧
    off = ((b0.toNat >>> 4) ||| (b1.toNat <<< 4)) + 1 ∧ len = (b0.toNat &&& 0xF) + 3 ∧
    (1 ≤ off ∧ off ≤ 4096) ∧ 3 ≤ len ∧ len ≤ 18

/-- R94 and the command words of R81: words written out from the spec decode to the instructions they stand for. -/
def Obligations.ListedWordsDecode : Prop :=
  (decode .copy [0x00, 0x00] = .ok (.copy 1 3, []) ∧ decode .copy [0x0F, 0x00] = .ok (.copy 1 18, []) ∧
    decode .copy [0x04, 0x00] = .ok (.copy 1 7, []) ∧ decode .copy [0xF0, 0x00] = .ok (.copy 16 3, []) ∧
    decode .copy [0x00, 0x01] = .ok (.copy 17 3, []) ∧ decode .copy [0xF0, 0xFF] = .ok (.copy 4096 3, []) ∧
    decode .copy [0xFF, 0xFF] = .ok (.copy 4096 18, []) ∧ decode .copy [0x37, 0x12] = .ok (.copy 292 10, [])) ∧
  (encode (.copy 1 3) = [0x00, 0x00] ∧ encode (.copy 1 18) = [0x0F, 0x00] ∧ encode (.copy 1 7) = [0x04, 0x00] ∧
    encode (.copy 16 3) = [0xF0, 0x00] ∧ encode (.copy 17 3) = [0x00, 0x01] ∧ encode (.copy 4096 3) = [0xF0, 0xFF] ∧
    encode (.copy 4096 18) = [0xFF, 0xFF] ∧ encode (.copy 292 10) = [0x37, 0x12]) ∧
  (copyEncoded 1 3 = 0x0000 ∧ copyEncoded 1 18 = 0x000F ∧ copyEncoded 1 7 = 0x0004 ∧ copyEncoded 16 3 = 0x00F0 ∧
    copyEncoded 17 3 = 0x0100 ∧ copyEncoded 4096 3 = 0xFFF0 ∧ copyEncoded 4096 18 = 0xFFFF ∧
    copyEncoded 292 10 = 0x1237) ∧
  decodeCommand 0x00000004 = .decodeContainer ∧ decodeCommand 0x00000008 = .findMatch ∧
    decodeCommand 0x00000000 = .illegalOp 0 ∧ decodeCommand 0x00000011 = .illegalOp 0x11

/-- R87, with the bit order of R88 as the decoder consumes it: token `t` of a group is announced by bit `7 - t` of its
control byte, its kind fixes its length, and the item after it begins where it ends; after eight tokens that item is a
control byte. -/
def Obligations.ControlBitsAnnounceTokens : Prop :=
  ∀ (c : Byte) (s : State),
    exec (.ctrl c) s = .next { s with dec := { s.dec with ctrl := c, nb := 8, i := s.dec.i + 1 } } ∧
    ∀ t, t < 8 → s.dec.ctrl = c <<< t → s.dec.nb = 8 - t →
      s.itemDue = (if c.getLsbD (7 - t) then ItemKind.copy else ItemKind.literal) ∧
      (∀ v u, exec (.lit v) s = .next u →
        u.dec.ctrl = c <<< (t + 1) ∧ u.dec.nb = 8 - (t + 1) ∧ u.dec.i = s.dec.i + 1 ∧
          (t = 7 → u.itemDue = ItemKind.control)) ∧
      ∀ off len u, exec (.copy off len) s = .next u →
        u.dec.ctrl = c <<< (t + 1) ∧ u.dec.nb = 8 - (t + 1) ∧ u.dec.i = s.dec.i + 2 ∧
          (t = 7 → u.itemDue = ItemKind.control)

/-! ## Steps -/

/-- A step runs the dispatched command: when the core is to step, and the drawn steps before the body are over, the
latched word decodes to an instruction and the step is that instruction's. While drawn steps are left, a step only counts
one of them off (the drawing of `BUSY_STEPS` is the model's: log entry 4). -/
def Obligations.StepRunsDispatchedCommand : Prop :=
  ∀ s : State, s.phase = .busy → s.seq.engine = .dispatch →
    (s.seq.stall = 0 → (∀ rest, step (s.withInputs (.tick :: rest)) = exec (decodeCommand s.op) (s.withInputs rest)) ∧
      step (s.withInputs []) = exec (decodeCommand s.op) (s.withInputs [])) ∧
    (s.seq.stall ≠ 0 → ∀ rest, step (s.withInputs (.tick :: rest)) =
      .next { s.withInputs rest with seq := { s.seq with stall := s.seq.stall - 1 } })

/-- A step runs the item of the token stream that is due: while a decode is taken one item a step and output is missing,
the stream bytes at the cursor decode to an instruction and the step is that instruction's. -/
def Obligations.StepRunsStreamItem : Prop :=
  ∀ (s : State) (i : Instr) (rest : List Byte), s.phase = .busy → s.seq.engine = .decode → s.seq.stall = 0 →
    s.dec.j < s.dec.target.toNat → decode s.itemDue s.streamBytes = .ok (i, rest) →
    i.wellFormed = true ∧
    (∀ xs, step (s.withInputs (.tick :: xs)) = exec i (s.withInputs xs)) ∧
    step (s.withInputs []) = exec i (s.withInputs [])

/-- R220 with R158 to R160 and R211: a stream that runs out before the target raises the error of the item that was due,
at the cursors of that point, and stores nothing; a decode that succeeds is never short. -/
def Obligations.TruncatedStreamRaises : Prop :=
  (∀ s : State, s.phase = .busy → s.seq.engine = .decode → s.seq.stall = 0 → s.dec.j < s.dec.target.toNat →
    ∀ e : ErrCode,
      ((s.dec.nb = 0 ∧ s.dec.i = s.dec.slen ∧ e = .prematureEnd) ∨
        (s.dec.nb ≠ 0 ∧ s.dec.ctrl.getLsbD 7 = false ∧ s.dec.i = s.dec.slen ∧ e = .prematureEndDuringLiteral) ∨
        (s.dec.nb ≠ 0 ∧ s.dec.ctrl.getLsbD 7 = true ∧ s.dec.slen - s.dec.i < 2 ∧ e = .prematureEndDuringCopy)) →
      ∃ t, step (s.withInputs []) = .next t ∧ t.EndedWith e ∧ t.mem = s.mem ∧
        t.regs.outLen = BitVec.ofNat 32 s.dec.j ∧
        t.regs.inUsed = BitVec.ofNat 32 ((if s.dec.container then 32 else 0) + s.dec.i)) ∧
  (∀ s : State, s.inputOutOfRange = false → s.lat.inLen = 0 → s.lat.usize ≠ 0 →
    ∃ t, exec .decodeStream s = .next t ∧ t.EndedWith .emptyStreamNonzeroTarget ∧ t.mem = s.mem) ∧
  ∀ s t : State, s.phase = .busy → s.seq.pace = .whole → s.inputOutOfRange = false → Mem.wf s.mem = true →
    exec .decodeStream s = .next t → t.regs.done = true → t.regs.outLen = s.lat.usize

/-! ## Registers -/

/-- R110 with the copy of R111 and the snapshot of R70: what an accepted `CMD` write does; while a command runs it does
nothing. -/
def Obligations.CommandStart : Prop :=
  ∀ (s : State) (w : Word) (rest : List Input),
    (s.phase = .idle → ∃ t, step (s.withInputs (.regWrite 0x08 4 w :: rest)) = .next t ∧
      t.regs = { s.regs with
        cmd := w, done := false, err := false, errcode := .none, diagClamp := false, diagLenmm := false } ∧
      t.phase = .busy ∧ t.statusWord.getLsbD 0 = true ∧ t.op = w ∧
      t.lat = { inBase := s.regs.inBase, inLen := s.regs.inLen, outBase := s.regs.outBase, outLen := s.regs.outLen,
                usize := s.regs.usize, csize := s.regs.csize, mpos := s.regs.mpos } ∧
      (∀ i, i < s.regs.inLen.toNat → t.inRead i = Mem.read s.mem (s.regs.inBase.toNat + i)) ∧
      t.mem = s.mem ∧ t.seq.engine = .dispatch) ∧
    (s.phase = .busy → ∃ t, step (s.withInputs (.regWrite 0x08 4 w :: rest)) = .next t ∧ SameCore s t)

/-- R46: while a command runs, register writes but those to `CTRL` change nothing, reads give the current values, and the
result registers keep theirs until the command ends. -/
def Obligations.BusyRegisterDiscipline : Prop :=
  ∀ s : State, s.phase = .busy →
    (∀ off v rest, off % 4 = 0 → off < 0x100 → off ≠ 0x04 →
      ∃ t, step (s.withInputs (.regWrite off 4 v :: rest)) = .next t ∧ SameCore s t) ∧
    (∀ v rest, ∃ t, step (s.withInputs (.regWrite 0x04 4 v :: rest)) = .next t ∧
      if v.getLsbD 1 then t.phase = .idle ∧ t.regs = State.reset.regs
      else SameCore (s.withRegs { s.regs with ie := v.getLsbD 0 }) t) ∧
    (∀ off rest, off % 4 = 0 → off < 0x100 → off ≠ 0x2C →
      ∃ t, step (s.withInputs (.regRead off 4 :: rest)) = .next t ∧ SameCore s t ∧ t.port.rdata = s.regValue off) ∧
    (∀ rest, s.seq.progress ≤ s.inputLen → ∃ t, step (s.withInputs (.regRead 0x2C 4 :: rest)) = .next t ∧
      t.regs = s.regs ∧ t.mem = s.mem ∧ s.seq.progress ≤ t.port.rdata.toNat ∧ t.port.rdata.toNat ≤ s.inputLen ∧
      t.seq.progress = t.port.rdata.toNat) ∧
    ∀ xs t, step (s.withInputs xs) = .next t → t.phase = .busy →
      t.regs.usize = s.regs.usize ∧ t.regs.csize = s.regs.csize ∧ t.regs.slen = s.regs.slen ∧
      t.regs.outLen = s.regs.outLen ∧ t.regs.mres = s.regs.mres ∧ t.regs.inUsed = s.regs.inUsed

/-- R25: the fields of `STATUS`, its reset value, and what a write to it does; while a command runs both bits a write could
clear are 0 already. -/
def Obligations.StatusFields : Prop :=
  (∀ s : State,
    s.statusWord.getLsbD 0 = (s.phase == .busy) ∧ s.statusWord.getLsbD 1 = s.regs.done ∧
    s.statusWord.getLsbD 2 = s.regs.err ∧ s.statusWord.extractLsb' 3 5 = 0 ∧
    (s.statusWord.extractLsb' 8 4).toNat = s.regs.errcode.code ∧ s.statusWord.extractLsb' 12 4 = 0 ∧
    s.statusWord.getLsbD 16 = s.regs.diagClamp ∧ s.statusWord.getLsbD 17 = s.regs.diagLenmm ∧
    s.statusWord.extractLsb' 18 14 = 0) ∧
  State.reset.statusWord = 0 ∧
  (∀ (s : State) (v : Word) (rest : List Input), s.phase = .idle →
    ∃ t, step (s.withInputs (.regWrite 0x0C 4 v :: rest)) = .next t ∧
      SameCore (s.withRegs { s.regs with
        done := if v.getLsbD 1 then false else s.regs.done, err := if v.getLsbD 2 then false else s.regs.err }) t) ∧
  ∀ (s : State) (v : Word) (rest : List Input), Inv s → s.phase = .busy →
    s.regs.done = false ∧ s.regs.err = false ∧
      ∃ t, step (s.withInputs (.regWrite 0x0C 4 v :: rest)) = .next t ∧ SameCore s t

/-- R23: the fields of `CTRL`, in any state of the core. -/
def Obligations.ControlRegisterFields : Prop :=
  State.reset.regs.ie = false ∧
  ∀ (s : State) (rest : List Input),
    (∃ t, step (s.withInputs (.regRead 0x04 4 :: rest)) = .next t ∧ SameCore s t ∧
      t.port.rdata.getLsbD 0 = s.regs.ie ∧ t.port.rdata.getLsbD 1 = false ∧ t.port.rdata.extractLsb' 2 30 = 0) ∧
    ∀ v : Word, ∃ t, step (s.withInputs (.regWrite 0x04 4 v :: rest)) = .next t ∧
      if v.getLsbD 1 then t.phase = .idle ∧ t.regs = State.reset.regs ∧ t.irq = false
      else SameCore (s.withRegs { s.regs with ie := v.getLsbD 0 }) t

/-- R22: `ID` reads as the signature bytes in any state, and ignores writes. -/
def Obligations.IdentificationRegister : Prop :=
  ∀ (s : State) (rest : List Input),
    (∃ t, step (s.withInputs (.regRead 0x00 4 :: rest)) = .next t ∧ SameCore s t ∧
      t.port.rdata = 0x504D4350 ∧ t.port.rdata = (0x50 : Byte) ++ (0x4D : Byte) ++ (0x43 : Byte) ++ (0x50 : Byte)) ∧
    ∀ v : Word, ∃ t, step (s.withInputs (.regWrite 0x00 4 v :: rest)) = .next t ∧ SameCore s t

/-- R20, R296: what each offset reads as, what a write to it while idle sets, and that any access that is not one aligned
word inside the block is refused. -/
def Obligations.RegisterMap : Prop :=
  ∀ (s : State) (rest : List Input),
    (∀ off v, (off, v) ∈ [(0x00, (0x504D4350 : Word)), (0x04, s.regs.ctrlWord), (0x08, s.regs.cmd), (0x0C, s.statusWord),
        (0x10, s.regs.inBase), (0x14, s.regs.inLen), (0x18, s.regs.outBase), (0x1C, s.regs.outLen),
        (0x20, s.regs.usize), (0x24, s.regs.csize), (0x28, s.regs.slen), (0x2C, s.regs.inUsed), (0x30, s.regs.mpos),
        (0x34, s.regs.mres)] → (off = 0x2C → s.phase = .idle) →
      ∃ t, step (s.withInputs (.regRead off 4 :: rest)) = .next t ∧ SameCore s t ∧ t.port.rdata = v) ∧
    (∀ off, off % 4 = 0 → 0x38 ≤ off → off < 0x100 →
      ∃ t, step (s.withInputs (.regRead off 4 :: rest)) = .next t ∧ SameCore s t ∧ t.port.rdata = 0) ∧
    (s.phase = .idle → ∀ (v : Word) (off : Nat) (r : Regs),
      (off, r) ∈ [(0x10, { s.regs with inBase := v }), (0x14, { s.regs with inLen := v }),
        (0x18, { s.regs with outBase := v }), (0x1C, { s.regs with outLen := v }), (0x20, { s.regs with usize := v }),
        (0x24, { s.regs with csize := v }), (0x30, { s.regs with mpos := v }),
        (0x00, s.regs), (0x28, s.regs), (0x2C, s.regs), (0x34, s.regs)] ∨
        (off % 4 = 0 ∧ 0x38 ≤ off ∧ off < 0x100 ∧ r = s.regs) →
      ∃ t, step (s.withInputs (.regWrite off 4 v :: rest)) = .next t ∧ SameCore (s.withRegs r) t) ∧
    (∀ off width v, ¬ (width = 4 ∧ off % 4 = 0 ∧ off < 0x100) →
      step (s.withInputs (.regRead off width :: rest)) = .refused .registerAccessShape ∧
      step (s.withInputs (.regWrite off width v :: rest)) = .refused .registerAccessShape) ∧
    State.reset.regValue 0x00 = 0x504D4350 ∧ ∀ off, off ≠ 0x00 → State.reset.regValue off = 0

/-- R32, its part about a running command: a read of `IN_USED` gives a value the machine draws (log entry 6), no smaller
than the last one read, and at most the latched `IN_LEN`; no register, no byte of memory and no cursor changes. -/
def Obligations.ProgressReadsAreBoundedAndMonotone : Prop :=
  ∀ (s : State) (rest : List Input), s.phase = .busy → s.seq.progress ≤ s.inputLen →
    ∃ t, step (s.withInputs (.regRead 0x2C 4 :: rest)) = .next t ∧
      s.seq.progress ≤ t.port.rdata.toNat ∧ t.port.rdata.toNat ≤ s.lat.inLen.toNat ∧
      t.seq.progress = t.port.rdata.toNat ∧ t.regs = s.regs ∧ t.phase = s.phase ∧ t.mem = s.mem ∧ t.op = s.op ∧
      t.lat = s.lat ∧ t.snap = s.snap ∧ t.enc = s.enc ∧ t.dec = s.dec ∧ t.seq.engine = s.seq.engine ∧
      t.seq.stall = s.seq.stall ∧ t.seq.pace = s.seq.pace

/-! ## Status and interrupt -/

/-- R26: what sets and what clears `BUSY`. -/
def Obligations.BusyFollowsCommands : Prop :=
  ∀ s t : State, step s = .next t →
    t.statusWord.getLsbD 0 = (t.phase == .busy) ∧
    (s.phase = .idle → (t.phase = .busy ↔ ∃ w, s.StartNext w)) ∧
    (s.phase = .busy → t.phase = .idle →
      s.ResetNext ∨ (Completes s t ∧ t.regs.done ≠ t.regs.err)) ∧
    (s.ResetNext → t.phase = .idle)

/-- R27: when `DONE` and `ERR` are set and cleared, over every state of the invariant. -/
def Obligations.DoneAndErrFollowCommands : Prop :=
  ∀ s t : State, Inv s → step s = .next t →
    (∀ w, s.StartNext w → t.regs.done = false ∧ t.regs.err = false) ∧
    (Completes s t → (t.regs.done = true ∧ t.regs.err = false ∧ t.regs.errcode = .none) ∨
      (t.regs.done = false ∧ t.regs.err = true ∧ t.regs.errcode ≠ .none)) ∧
    (s.regs.done = true → t.regs.done = false →
      s.ResetNext ∨ (∃ w, s.StartNext w) ∨ ∃ v, s.InputNext (.regWrite 0x0C 4 v) ∧ v.getLsbD 1 = true) ∧
    (s.regs.err = true → t.regs.err = false →
      s.ResetNext ∨ (∃ w, s.StartNext w) ∨ ∃ v, s.InputNext (.regWrite 0x0C 4 v) ∧ v.getLsbD 2 = true)

/-- R28: when `ERRCODE` changes. -/
def Obligations.ErrcodeFollowsCommands : Prop :=
  ∀ s t : State, step s = .next t →
    (∀ w, s.StartNext w → t.regs.errcode = .none) ∧
    (s.ResetNext → t.regs.errcode = .none) ∧
    (Completes s t → (t.regs.errcode = .none ↔ t.regs.err = false)) ∧
    ((∀ w, ¬ s.StartNext w) → ¬ s.ResetNext → ¬ Completes s t → t.regs.errcode = s.regs.errcode)

/-- R29, R30: when the diagnostics change, over every state of the invariant: only the header parse of `PARSE_HEADER` and
`DECODE_CONTAINER` sets `DIAG_CLAMP`, and nothing ever sets `DIAG_LENMM`. -/
def Obligations.DiagnosticsFollowCommands : Prop :=
  ∀ s t : State, Inv s → step s = .next t →
    t.regs.diagLenmm = false ∧
    (∀ w, s.StartNext w → t.regs.diagClamp = false) ∧
    (s.ResetNext → t.regs.diagClamp = false) ∧
    ((∀ w, ¬ s.StartNext w) → ¬ s.ResetNext →
      (t.regs.diagClamp = true ↔ s.regs.diagClamp = true ∨
        (s.CoreNext ∧ s.phase = .busy ∧ s.seq.stall = 0 ∧ s.seq.engine = .dispatch ∧
          (decodeCommand s.op = .parseHeader ∨ decodeCommand s.op = .decodeContainer) ∧
          s.lat.inBase.toNat + s.lat.inLen.toNat ≤ 0xFFFFFFFF ∧ 32 ≤ s.inputLen ∧ s.HasSignature ∧ s.NeedsClamp)))

/-- R275: the interrupt output, and the events that assert and deassert it. -/
def Obligations.InterruptOutput : Prop :=
  ∀ s t : State, Inv s → step s = .next t →
    (t.irq = true ↔ t.regs.ie = true ∧ (t.regs.done = true ∨ t.regs.err = true)) ∧
    (Completes s t → s.regs.ie = true → t.irq = true) ∧
    (∀ v, s.InputNext (.regWrite 0x04 4 v) → v.getLsbD 1 = false →
      (v.getLsbD 0 = true → (s.regs.done = true ∨ s.regs.err = true) → t.irq = true) ∧
      (v.getLsbD 0 = false → t.irq = false)) ∧
    (∀ v, s.InputNext (.regWrite 0x0C 4 v) → s.phase = .idle → (s.regs.done = true → v.getLsbD 1 = true) →
      (s.regs.err = true → v.getLsbD 2 = true) → t.irq = false) ∧
    (∀ w, s.StartNext w → t.irq = false) ∧
    (s.ResetNext → t.irq = false)

/-! ## Reset -/

/-- R47: what either reset leaves, and that the machine starts so. -/
def Obligations.ResetValues : Prop :=
  (∀ (s : State) (rest : List Input) (x : Input), (x = .hardReset ∨ ∃ v, x = .regWrite 0x04 4 v ∧ v.getLsbD 1 = true) →
    ∃ t, step (s.withInputs (x :: rest)) = .next t ∧ t.regValue 0x00 = 0x504D4350 ∧
      (∀ off, off ≠ 0x00 → t.regValue off = 0) ∧ t.regs.ie = false ∧ t.regs.done = false ∧ t.regs.err = false ∧
      t.regs.errcode = .none ∧ t.regs.diagClamp = false ∧ t.regs.diagLenmm = false ∧ t.phase = .idle ∧ t.irq = false ∧
      (s.phase = .idle → t.mem = s.mem)) ∧
  State.reset.regValue 0x00 = 0x504D4350 ∧ (∀ off, off ≠ 0x00 → State.reset.regValue off = 0) ∧
  State.reset.phase = .idle ∧ State.reset.irq = false

/-- R292: a write to `CTRL` with `SRST` does exactly what the reset input does, in any state, whatever its other bits. -/
def Obligations.SoftResetActsAsHardReset : Prop :=
  ∀ (s : State) (v : Word) (rest : List Input), v.getLsbD 1 = true →
    step (s.withInputs (.regWrite 0x04 4 v :: rest)) = step (s.withInputs (.hardReset :: rest)) ∧
    ∀ t, step (s.withInputs (.regWrite 0x04 4 v :: rest)) = .next t →
      t.regs.ie = false ∧ (t.regValue 0x04).getLsbD 1 = false

/-- R291: a reset while a command runs abandons it. Of the writes the command would have made, some first ones stand in
memory (how many is drawn) and no later one; no result register is written. `m` is the memory when the command started,
`made` the writes it has made so far and `more` those it would still have made: the memory and the journal at its end are
those of `made ++ more`. -/
def Obligations.ResetAbandonsCommand : Prop :=
  ∀ (s : State) (m : Mem) (made : List Host.Cell) (rest : List Input) (x : Input),
    (x = .hardReset ∨ ∃ v, x = .regWrite 0x04 4 v ∧ v.getLsbD 1 = true) →
    s.phase = .busy → Mem.wf m = true → s.mem = Mem.writeAll m made → s.journal = Mem.replaced m made →
    ∃ more n t, (runToEnd (s.withInputs rest)).mem = Mem.writeAll m (made ++ more) ∧
      (runToEnd (s.withInputs rest)).journal = Mem.replaced m (made ++ more) ∧
      step (s.withInputs (x :: rest)) = .next t ∧ t.mem = Mem.writeAll m ((made ++ more).take n) ∧
      t.phase = .idle ∧ t.regs = State.reset.regs

/-- R293: an idle core executes nothing until `CMD` is written: a step changes its latches, its snapshot and its cursors
only by a reset, and memory only by a host write. -/
def Obligations.IdleCoreExecutesNothing : Prop :=
  ∀ s t : State, s.phase = .idle → (∀ w, ¬ s.StartNext w) → step s = .next t →
    t.phase = .idle ∧
    (¬ s.ResetNext → t.op = s.op ∧ t.lat = s.lat ∧ t.snap = s.snap ∧ t.enc = s.enc ∧ t.dec = s.dec ∧ t.seq = s.seq ∧
      t.regs.slen = s.regs.slen ∧ t.regs.inUsed = s.regs.inUsed ∧ t.regs.mres = s.regs.mres) ∧
    (∀ a, Mem.wf s.mem = true → Mem.read t.mem a ≠ Mem.read s.mem a → ∃ b, s.InputNext (.memWrite a b))

/-! ## The header codec and the illegal command -/

/-- R113: an illegal word ends in `ILLEGAL_OP`; no register but `STATUS` and no byte of memory changes. -/
def Obligations.IllegalCommandOnlySetsStatus : Prop :=
  (∀ (w : Word) (s : State),
    exec (.illegalOp w) s =
      .next { s with phase := .idle, regs := { s.regs with err := true, done := false, errcode := .illegalOp } }) ∧
  (∀ w : Word, ((w.extractLsb' 0 4).toNat = 0 ∨ 9 ≤ (w.extractLsb' 0 4).toNat ∨ w.extractLsb' 4 28 ≠ 0) →
    decodeCommand w = .illegalOp w) ∧
  ∀ s : State, s.phase = .idle → ∃ t u,
    step (s.withInputs [.regWrite 0x08 4 0x00000011]) = .next t ∧ exec (decodeCommand t.op) t = .next u ∧
      u.statusWord = 0x00000704 ∧ u.regValue 0x08 = 0x00000011

/-- R67 with the start check of `PAD` (R240): a region that runs past `ADDR_TOP` raises `ADDR_RANGE` before any other
step, and no register but `STATUS` and no byte of memory changes. -/
def Obligations.RegionCheckComesFirst : Prop :=
  ∀ s : State,
    (0xFFFFFFFF < s.lat.inBase.toNat + s.lat.inLen.toNat →
      ∀ i ∈ [Instr.parseHeader, .decodeStream, .decodeContainer, .encodeStream, .encodeContainer, .findMatch],
        exec i s = .next { s with phase := .idle, regs := { s.regs with err := true, done := false, errcode := .addrRange } }) ∧
    (0xFFFFFFFF < s.lat.outBase.toNat + s.lat.outLen.toNat →
      exec .pad s = .next { s with phase := .idle, regs := { s.regs with err := true, done := false, errcode := .addrRange } })

/-- R134 with R130, R131 and R132: every outcome of `PARSE_HEADER`, in the order its checks are made; nothing else of the
state changes. -/
def Obligations.ParseHeaderOutcome : Prop :=
  ∀ s : State,
    (0xFFFFFFFF < s.lat.inBase.toNat + s.lat.inLen.toNat →
      exec .parseHeader s =
        .next { s with phase := .idle, regs := { s.regs with err := true, done := false, errcode := .addrRange } }) ∧
    (s.lat.inBase.toNat + s.lat.inLen.toNat ≤ 0xFFFFFFFF →
      (s.lat.inLen.toNat < 32 → exec .parseHeader s =
        .next { s with phase := .idle, regs := { s.regs with inUsed := 0, err := true, done := false, errcode := .tooShort } }) ∧
      (32 ≤ s.lat.inLen.toNat → ¬ s.HasSignature → exec .parseHeader s =
        .next { s with phase := .idle, regs := { s.regs with inUsed := 0, err := true, done := false, errcode := .invalidSignature } }) ∧
      (32 ≤ s.lat.inLen.toNat → s.HasSignature → ∀ clamp : Bool, (clamp = true ↔ s.NeedsClamp) → exec .parseHeader s =
        .next { s with phase := .idle, regs := { s.regs with
          usize := s.field 0x14, csize := s.field 0x18
          slen := if clamp then BitVec.ofNat 32 (s.lat.inLen.toNat - 32) else s.field 0x18
          diagClamp := s.regs.diagClamp || clamp, inUsed := 32, done := true, err := false, errcode := .none } }))

/-- R135, R136: `WRITE_HEADER` stores the header, or the part of it below `ADDR_TOP`. -/
def Obligations.WriteHeaderOutcome : Prop :=
  ∀ s : State, Mem.wf s.mem = true →
    ∃ t, exec .writeHeader s = .next t ∧ t.phase = .idle ∧ SameSetup s t ∧ t.enc = s.enc ∧ t.dec = s.dec ∧
      if s.lat.outBase.toNat + 32 ≤ 0xFFFFFFFF then
        Stores s.lat.outBase.toNat
          ([0x50, 0x43, 0x4D, 0x50] ++ List.replicate 16 0 ++ le32 s.lat.usize ++ le32 s.lat.csize ++ List.replicate 4 0) s t ∧
        t.regs = { s.regs with outLen := 32, inUsed := 0, done := true, err := false, errcode := .none }
      else
        Stores s.lat.outBase.toNat
          (([0x50, 0x43, 0x4D, 0x50] ++ List.replicate 16 0 ++ le32 s.lat.usize ++ le32 s.lat.csize ++
            List.replicate 4 0).take (0xFFFFFFFF - s.lat.outBase.toNat)) s t ∧
        t.regs = { s.regs with
          outLen := BitVec.ofNat 32 (0xFFFFFFFF - s.lat.outBase.toNat), inUsed := 0
          done := false, err := true, errcode := .addrRange }

/-- R137: `PARSE_HEADER`, on an input that begins with the bytes `WRITE_HEADER` wrote, gives both sizes back. -/
def Obligations.WrittenHeaderParsesBack : Prop :=
  ∀ s t q : State, Mem.wf s.mem = true → s.lat.outBase.toNat + 32 ≤ 0xFFFFFFFF → exec .writeHeader s = .next t →
    32 ≤ q.lat.inLen.toNat → q.lat.inBase.toNat + q.lat.inLen.toNat ≤ 0xFFFFFFFF →
    (∀ i, i < 32 → q.inRead i = Mem.read t.mem (s.lat.outBase.toNat + i)) →
    ∃ r, exec .parseHeader q = .next r ∧ r.EndedWith .none ∧ r.regs.usize = s.lat.usize ∧ r.regs.csize = s.lat.csize ∧
      (s.lat.csize ≠ 0 → s.lat.csize.toNat ≤ q.lat.inLen.toNat - 32 →
        r.regs.slen = s.lat.csize ∧ r.regs.diagClamp = q.regs.diagClamp) ∧
      (q.lat.inLen.toNat = 32 → r.regs.slen = 0 ∧ r.regs.diagClamp = true)

/-! ## The match finder -/

/-- R176: every outcome of `FIND_MATCH`; nothing else of the state changes. -/
def Obligations.FindMatchOutcome : Prop :=
  (∀ s : State,
    (0xFFFFFFFF < s.lat.inBase.toNat + s.lat.inLen.toNat →
      exec .findMatch s =
        .next { s with phase := .idle, regs := { s.regs with err := true, done := false, errcode := .addrRange } }) ∧
    (s.lat.inBase.toNat + s.lat.inLen.toNat ≤ 0xFFFFFFFF →
      (s.lat.inLen.toNat ≤ s.lat.mpos.toNat → exec .findMatch s =
        .next { s with phase := .idle, regs := { s.regs with err := true, done := false, errcode := .badArg } }) ∧
      (s.lat.mpos.toNat < s.lat.inLen.toNat → ∃ r : Word, exec .findMatch s =
          .next { s with phase := .idle, regs := { s.regs with mres := r, done := true, err := false, errcode := .none } } ∧
        match findMatch s.inRead s.lat.inLen.toNat s.lat.mpos.toNat with
        | none => r = 0
        | some (off, len) =>
          r.toNat = 2 ^ 31 + len * 2 ^ 16 + off ∧ r.getLsbD 31 = true ∧ (r.extractLsb' 16 5).toNat = len ∧
            (r.extractLsb' 0 13).toNat = off))) ∧
  findMatch (fun _ => 0x41) 10 3 = some (1, 7) ∧ findMatch (fun _ => 0x41) 10 1 = none

/-- R174: the match finder's result is the longest candidate length, at its nearest start. -/
def Obligations.FindMatchIsLongestThenNearest : Prop :=
  ∀ (D : Nat → Byte) (n p : Nat), p < n →
    (findMatch D n p = none ↔ ∀ x len, ¬ Candidate D n p x len) ∧
    ∀ off len, findMatch D n p = some (off, len) ↔
      ∃ x, off = p - x ∧ Candidate D n p x len ∧ (∀ x' len', Candidate D n p x' len' → len' ≤ len) ∧
        ∀ x', Candidate D n p x' len → x' ≤ x

/-- R175: the ranges of a match, which make its Copy encodable; none is found where fewer than three bytes remain. -/
def Obligations.FindMatchRanges : Prop :=
  ∀ (D : Nat → Byte) (n p : Nat), p < n →
    (∀ off len, findMatch D n p = some (off, len) →
      (1 ≤ off ∧ off ≤ min 4096 p ∧ min 4096 p ≤ 4096) ∧ (3 ≤ len ∧ len ≤ min 18 (n - p) ∧ min 18 (n - p) ≤ 18) ∧
      p + len ≤ n ∧ (Instr.copy off len).wellFormed = true ∧ ∀ k, k < len → off ≤ p + k) ∧
    (min 18 (n - p) < 3 → findMatch D n p = none)

/-! ## The decoder -/

/-- R213: a Literal appends its byte. -/
def Obligations.LiteralAppendsItsByte : Prop :=
  ∀ (v : Byte) (s : State), Mem.wf s.mem = true → s.outWriteError true s.dec.j = none →
    ∃ t, exec (.lit v) s = .next t ∧ t.regs = s.regs ∧ t.phase = s.phase ∧ SameSetup s t ∧ t.enc = s.enc ∧
      t.seq = s.seq ∧
      t.dec = { s.dec with
        ctrl := s.dec.ctrl <<< 1, nb := s.dec.nb - 1, i := s.dec.i + 1, j := s.dec.j + 1 } ∧
      Stores (s.lat.outBase.toNat + s.dec.j) [v] s t

/-- R214, R215: a Copy appends its bytes, cut at the target: each is the output byte `off` back, which the same Copy may
have written, or zero before the start of the output. -/
def Obligations.CopyRepeatsOutput : Prop :=
  ∀ (off len n : Nat) (s : State), 1 ≤ off → Mem.wf s.mem = true → s.dec.j ≤ s.dec.target.toNat →
    n = min len (s.dec.target.toNat - s.dec.j) → (∀ k, k < n → s.outWriteError true (s.dec.j + k) = none) →
    ∃ t, exec (.copy off len) s = .next t ∧ t.regs = s.regs ∧ t.phase = s.phase ∧ SameSetup s t ∧ t.enc = s.enc ∧
      t.seq = s.seq ∧
      t.dec = { s.dec with
        ctrl := s.dec.ctrl <<< 1, nb := s.dec.nb - 1, i := s.dec.i + 2, j := s.dec.j + n } ∧
      (∀ k, k < n → t.outByte (s.dec.j + k) = if s.dec.j + k < off then 0 else t.outByte (s.dec.j + k - off)) ∧
      SameOutside (s.lat.outBase.toNat + s.dec.j) (s.lat.outBase.toNat + s.dec.j + n) s t

/-- R211, R213, R214 and the prefixes of R118: a stream item stops at its first byte that cannot be written; the bytes
before it stay, and the item's own stream bytes count as read. -/
def Obligations.StreamItemWriteErrors : Prop :=
  ∀ (s : State) (e : ErrCode), Mem.wf s.mem = true → s.dec.j ≤ s.dec.target.toNat →
    (∀ v, s.outWriteError true s.dec.j = some e →
      ∃ t, exec (.lit v) s = .next t ∧ t.EndedWith e ∧ SameSetup s t ∧ t.mem = s.mem ∧
        t.regs.outLen = BitVec.ofNat 32 s.dec.j ∧
        t.regs.inUsed = BitVec.ofNat 32 ((if s.dec.container then 32 else 0) + (s.dec.i + 1))) ∧
    ∀ off len m, 1 ≤ off → m < len → s.dec.j + m < s.dec.target.toNat →
      (∀ k, k < m → s.outWriteError true (s.dec.j + k) = none) → s.outWriteError true (s.dec.j + m) = some e →
      ∃ t, exec (.copy off len) s = .next t ∧ t.EndedWith e ∧ SameSetup s t ∧
        t.regs.outLen = BitVec.ofNat 32 (s.dec.j + m) ∧
        t.regs.inUsed = BitVec.ofNat 32 ((if s.dec.container then 32 else 0) + (s.dec.i + 2)) ∧
        (∀ k, k < m → t.outByte (s.dec.j + k) = if s.dec.j + k < off then 0 else t.outByte (s.dec.j + k - off)) ∧
        SameOutside (s.lat.outBase.toNat + s.dec.j) (s.lat.outBase.toNat + s.dec.j + m) s t

/-- R216: a stream of no bytes fails at once when the target is not zero, and decodes to no output when it is. -/
def Obligations.EmptyStreamCheck : Prop :=
  ∀ s : State, s.phase = .busy → s.seq.pace = .whole → s.lat.inBase.toNat + s.lat.inLen.toNat ≤ 0xFFFFFFFF →
    (s.lat.inLen = 0 → ∃ t, exec .decodeStream s = .next t ∧ t.mem = s.mem ∧ t.regs.outLen = 0 ∧ t.regs.inUsed = 0 ∧
      t.EndedWith (if s.lat.usize = 0 then .none else .emptyStreamNonzeroTarget)) ∧
    (s.lat.inLen = 32 → s.HasSignature →
      ∃ t, exec .decodeContainer s = .next t ∧ t.mem = s.mem ∧ t.regs.outLen = 0 ∧ t.regs.inUsed = 32 ∧
        t.EndedWith (if s.field 0x14 = 0 then .none else .emptyStreamNonzeroTarget))

/-- R217 with R211 to R216: `DECODE_STREAM` leaves in memory and in its registers exactly the decode of its input toward
`USIZE`, whether that ends in success or in an error; nothing else changes. -/
def Obligations.DecodeStreamOutcome : Prop :=
  (∀ s : State, s.phase = .busy → s.seq.pace = .whole → Mem.wf s.mem = true →
    (0xFFFFFFFF < s.lat.inBase.toNat + s.lat.inLen.toNat →
      exec .decodeStream s =
        .next { s with phase := .idle, regs := { s.regs with err := true, done := false, errcode := .addrRange } }) ∧
    (s.lat.inBase.toNat + s.lat.inLen.toNat ≤ 0xFFFFFFFF →
      ∃ t d, d = refDecode (s.outWriteError true) s.lat.usize.toNat s.input ∧
        exec .decodeStream s = .next t ∧ t.phase = .idle ∧ SameSetup s t ∧ t.enc = s.enc ∧
        Stores s.lat.outBase.toNat d.out s t ∧
        t.regs = { s.regs with
          slen := s.lat.inLen, outLen := BitVec.ofNat 32 d.out.length, inUsed := BitVec.ofNat 32 d.used
          done := d.error.isNone, err := d.error.isSome, errcode := d.error.getD .none })) ∧
  refDecode (fun _ => none) 10 [0x10, 0x41, 0x41, 0x41, 0x04, 0x00] =
    { out := List.replicate 10 0x41, used := 6, error := none }

/-- R218: `DECODE_CONTAINER` parses the header and decodes the clamped stream toward the declared size; every outcome. -/
def Obligations.DecodeContainerOutcome : Prop :=
  ∀ s : State, s.phase = .busy → s.seq.pace = .whole → Mem.wf s.mem = true →
    (0xFFFFFFFF < s.lat.inBase.toNat + s.lat.inLen.toNat →
      exec .decodeContainer s =
        .next { s with phase := .idle, regs := { s.regs with err := true, done := false, errcode := .addrRange } }) ∧
    (s.lat.inBase.toNat + s.lat.inLen.toNat ≤ 0xFFFFFFFF →
      (∀ e, ((s.lat.inLen.toNat < 32 ∧ e = .tooShort) ∨
          (32 ≤ s.lat.inLen.toNat ∧ ¬ s.HasSignature ∧ e = .invalidSignature)) →
        exec .decodeContainer s = .next { s with phase := .idle, regs := { s.regs with
          outLen := 0, inUsed := 0, err := true, done := false, errcode := e } }) ∧
      (32 ≤ s.lat.inLen.toNat → s.HasSignature → ∀ clamp : Bool, (clamp = true ↔ s.NeedsClamp) →
        ∃ t d n, n = (if clamp then s.lat.inLen.toNat - 32 else (s.field 0x18).toNat) ∧
          d = refDecode (s.outWriteError true) (s.field 0x14).toNat ((s.input.drop 32).take n) ∧
          exec .decodeContainer s = .next t ∧ t.phase = .idle ∧ SameSetup s t ∧ t.enc = s.enc ∧
          Stores s.lat.outBase.toNat d.out s t ∧
          t.regs = { s.regs with
            usize := s.field 0x14, csize := s.field 0x18, slen := BitVec.ofNat 32 n
            diagClamp := s.regs.diagClamp || clamp
            outLen := BitVec.ofNat 32 d.out.length, inUsed := BitVec.ofNat 32 (32 + d.used)
            done := d.error.isNone, err := d.error.isSome, errcode := d.error.getD .none }))

/-- R221: a decode that returns has reached its target, so the length-mismatch branch is never taken. -/
def Obligations.DecodeNeverEndsShort : Prop :=
  (∀ (bad : Nat → Option ErrCode) (T : Nat) (S : List Byte),
    (refDecode bad T S).out.length ≤ T ∧ ((refDecode bad T S).error = none → (refDecode bad T S).out.length = T)) ∧
  ∀ (s t : State) (i : Instr), (i = .decodeStream ∨ i = .decodeContainer) → s.phase = .busy → s.seq.pace = .whole →
    Mem.wf s.mem = true → exec i s = .next t → t.regs.diagLenmm = s.regs.diagLenmm

/-! ## The encoder and the padder -/

/-- R200 with R191 and the prefixes of R118: `ENCODE_STREAM` stores exactly the encoding of its input, or, where a byte of
it cannot be written, what precedes that byte; every outcome, and nothing else changes. -/
def Obligations.EncodeStreamOutcome : Prop :=
  (∀ s : State, s.phase = .busy → s.seq.pace = .whole → Mem.wf s.mem = true →
    (0xFFFFFFFF < s.lat.inBase.toNat + s.lat.inLen.toNat →
      exec .encodeStream s =
        .next { s with phase := .idle, regs := { s.regs with err := true, done := false, errcode := .addrRange } }) ∧
    (s.lat.inBase.toNat + s.lat.inLen.toNat ≤ 0xFFFFFFFF →
      (s.Room true (refEncode s.input).length →
        ∃ t, exec .encodeStream s = .next t ∧ t.phase = .idle ∧ SameSetup s t ∧ t.dec = s.dec ∧
          Stores s.lat.outBase.toNat (refEncode s.input) s t ∧
          t.regs = { s.regs with
            usize := s.lat.inLen, csize := BitVec.ofNat 32 (refEncode s.input).length
            slen := BitVec.ofNat 32 (refEncode s.input).length, outLen := BitVec.ofNat 32 (refEncode s.input).length
            inUsed := s.lat.inLen, done := true, err := false, errcode := .none }) ∧
      (¬ s.Room true (refEncode s.input).length →
        ∃ t k j e, inToken s.input k j ∧ s.Room true j ∧ s.outWriteError true j = some e ∧
          exec .encodeStream s = .next t ∧ t.phase = .idle ∧ SameSetup s t ∧ t.dec = s.dec ∧
          Stores s.lat.outBase.toNat (partialStream s.input k j) s t ∧
          t.regs = { s.regs with
            outLen := BitVec.ofNat 32 j, inUsed := BitVec.ofNat 32 (tokenStart s.input k)
            done := false, err := true, errcode := e }))) ∧
  refEncode (List.replicate 10 0x41) = [0x10, 0x41, 0x41, 0x41, 0x04, 0x00]

/-- R202 with R201: `ENCODE_CONTAINER` stores the padded container, or, where a byte of it cannot be written, what precedes
that byte, with the declared stream size still 0 before the patch; every outcome, and nothing else changes. -/
def Obligations.EncodeContainerOutcome : Prop :=
  ∀ s : State, s.phase = .busy → s.seq.pace = .whole → Mem.wf s.mem = true →
    (0xFFFFFFFF < s.lat.inBase.toNat + s.lat.inLen.toNat →
      exec .encodeContainer s =
        .next { s with phase := .idle, regs := { s.regs with err := true, done := false, errcode := .addrRange } }) ∧
    (s.lat.inBase.toNat + s.lat.inLen.toNat ≤ 0xFFFFFFFF →
      (s.Room true (refContainer s.input).length →
        ∃ t, exec .encodeContainer s = .next t ∧ t.phase = .idle ∧ SameSetup s t ∧ t.dec = s.dec ∧
          Stores s.lat.outBase.toNat (refContainer s.input) s t ∧
          t.regs = { s.regs with
            usize := s.lat.inLen, csize := BitVec.ofNat 32 (refEncode s.input).length
            slen := BitVec.ofNat 32 (refEncode s.input).length, outLen := BitVec.ofNat 32 (refContainer s.input).length
            inUsed := s.lat.inLen, done := true, err := false, errcode := .none }) ∧
      (¬ s.Room true (refContainer s.input).length →
        ∃ t j e used written, j < (refContainer s.input).length ∧ s.Room true j ∧ s.outWriteError true j = some e ∧
          ((j < 32 ∧ used = 0 ∧ written = (headerBytes s.lat.inLen 0).take j) ∨
            (32 ≤ j ∧ ∃ k, inToken s.input k (j - 32) ∧ used = tokenStart s.input k ∧
              written = headerBytes s.lat.inLen 0 ++ partialStream s.input k (j - 32)) ∨
            (32 + (refEncode s.input).length ≤ j ∧ used = s.lat.inLen.toNat ∧
              written = (refContainer s.input).take j)) ∧
          exec .encodeContainer s = .next t ∧ t.phase = .idle ∧ SameSetup s t ∧ t.dec = s.dec ∧
          Stores s.lat.outBase.toNat written s t ∧
          t.regs = { s.regs with
            outLen := BitVec.ofNat 32 j, inUsed := BitVec.ofNat 32 used, done := false, err := true, errcode := e }))

/-- R201: the length of a container, and when it is one sector. -/
def Obligations.ContainerLength : Prop :=
  ∀ X : List Byte,
    (refContainer X).length = 2048 * ((32 + (refEncode X).length + 2047) / 2048) ∧
    refContainer X = headerBytes (BitVec.ofNat 32 X.length) (BitVec.ofNat 32 (refEncode X).length) ++ refEncode X ++
      List.replicate ((refContainer X).length - 32 - (refEncode X).length) 0 ∧
    2048 ≤ (refContainer X).length ∧ ((refContainer X).length = 2048 ↔ (refEncode X).length ≤ 2016)

/-- R156, R196: the length of a stream of `T` tokens with `C` Copies, and its bounds by the input's length. -/
def Obligations.StreamLengthLaw : Prop :=
  (∀ ts : List Token, (packTokens ts).length = (ts.length + 7) / 8 + ts.length + ts.countP Token.isCopy) ∧
  ∀ X : List Byte,
    (refEncode X).length ≤ X.length + (X.length + 7) / 8 ∧
    ((∀ t ∈ parseTokens X X.length 0, t.isCopy = false) → (refEncode X).length = X.length + (X.length + 7) / 8) ∧
    ((refEncode X).length = 0 ↔ X.length = 0)

/-- R197: decoding an encoding toward the input's own length gives the input, reading the whole stream. -/
def Obligations.EncodingDecodesToInput : Prop :=
  ∀ X : List Byte, refDecode (fun _ => none) X.length (refEncode X) =
    { out := X, used := (refEncode X).length, error := none }

/-- The round trip through the machine: what `ENCODE_CONTAINER` stored, decoded by `DECODE_CONTAINER` in any machine that
reads those bytes and has room, is the input that was encoded. -/
def Obligations.EncodedContainerDecodesBack : Prop :=
  ∀ s t q : State, s.phase = .busy → s.seq.pace = .whole → Mem.wf s.mem = true →
    s.lat.inBase.toNat + s.lat.inLen.toNat ≤ 0xFFFFFFFF → s.Room true (refContainer s.input).length →
    exec .encodeContainer s = .next t →
    q.phase = .busy → q.seq.pace = .whole → Mem.wf q.mem = true →
    q.lat.inBase.toNat + q.lat.inLen.toNat ≤ 0xFFFFFFFF → q.lat.inLen = t.regs.outLen →
    (∀ i, i < q.lat.inLen.toNat → q.inRead i = Mem.read t.mem (s.lat.outBase.toNat + i)) →
    q.Room true s.lat.inLen.toNat →
    ∃ r, exec .decodeContainer q = .next r ∧ r.EndedWith .none ∧ r.regs.usize = s.lat.inLen ∧
      r.regs.outLen = s.lat.inLen ∧ Stores q.lat.outBase.toNat s.input q r

/-- R240, R241, R242: every outcome of `PAD`. -/
def Obligations.PadOutcome : Prop :=
  ∀ (s : State) (l q : Nat), Mem.wf s.mem = true → l = s.lat.outLen.toNat →
    q = (if l % 2048 = 0 then 0 else 2048 - l % 2048) →
    l + q = 2048 * ((l + 2047) / 2048) ∧
    (0xFFFFFFFF < s.lat.outBase.toNat + l →
      exec .pad s = .next { s with phase := .idle, regs := { s.regs with err := true, done := false, errcode := .addrRange } }) ∧
    (s.lat.outBase.toNat + l ≤ 0xFFFFFFFF →
      ∃ t, exec .pad s = .next t ∧ t.phase = .idle ∧ SameSetup s t ∧ t.enc = s.enc ∧ t.dec = s.dec ∧
        if s.lat.outBase.toNat + l + q ≤ 0xFFFFFFFF then
          Stores (s.lat.outBase.toNat + l) (List.replicate q 0) s t ∧
          t.regs = { s.regs with outLen := BitVec.ofNat 32 (l + q), done := true, err := false, errcode := .none }
        else
          Stores (s.lat.outBase.toNat + l) (List.replicate (0xFFFFFFFF - (s.lat.outBase.toNat + l)) 0) s t ∧
          t.regs = { s.regs with
            outLen := BitVec.ofNat 32 (l + (0xFFFFFFFF - (s.lat.outBase.toNat + l)))
            done := false, err := true, errcode := .addrRange })

/-! ## Every instruction -/

/-- R31, R33, R38, R45: every instruction answers a next state, and leaves `CTRL`, `CMD`, `IN_BASE`, `IN_LEN`, `OUT_BASE`,
`MPOS`, the latched word and operands, the snapshot and the host's side as they are. -/
def Obligations.InstructionsKeepOperands : Prop :=
  ∀ (i : Instr) (s : State), ∃ t, exec i s = .next t ∧ SameSetup s t

/-- R69: a command writes no byte of memory outside its output region, which its final `OUT_LEN` bounds. -/
def Obligations.WritesStayInOutputRegion : Prop :=
  ∀ (i : Instr) (s t : State), i.kind = .command → s.phase = .busy → s.seq.pace = .whole → Mem.wf s.mem = true →
    exec i s = .next t →
    match i with
    | .writeHeader | .decodeStream | .decodeContainer | .encodeStream | .encodeContainer =>
      SameOutside s.lat.outBase.toNat (s.lat.outBase.toNat + t.regs.outLen.toNat) s t
    | .pad =>
      SameOutside (s.lat.outBase.toNat + s.lat.outLen.toNat) (s.lat.outBase.toNat + t.regs.outLen.toNat) s t
    | .parseHeader | .findMatch | .illegalOp _ | .ctrl _ | .lit _ | .copy _ _ => t.mem = s.mem

/-- R66: the commands that read the input region, and the stream items, never write a byte of it, nor the byte at
`ADDR_TOP` or above. -/
def Obligations.InputRegionIsNeverWritten : Prop :=
  ∀ (i : Instr) (s t : State) (a : Nat), Mem.wf s.mem = true → exec i s = .next t →
    ((i ≠ .writeHeader ∧ i ≠ .pad ∧ s.lat.inBase.toNat ≤ a ∧ a < s.lat.inBase.toNat + s.lat.inLen.toNat) ∨
      0xFFFFFFFF ≤ a ∨ a < s.lat.outBase.toNat) →
    Mem.read t.mem a = Mem.read s.mem a

/-- R27, R116, R266: every command taken whole completes, with `DONE` and no code or with `ERR` and its code. -/
def Obligations.EveryCommandCompletes : Prop :=
  ∀ (i : Instr) (s : State), i.kind = .command → s.phase = .busy → s.seq.pace = .whole →
    ∃ t e, exec i s = .next t ∧ t.EndedWith e

/-- R260: the codes, and which instruction raises which; `allowed` lists the codes of each. -/
def Obligations.ErrorCodesByInstruction : Prop :=
  ([ErrCode.none, .tooShort, .invalidSignature, .emptyStreamNonzeroTarget, .prematureEnd, .prematureEndDuringCopy,
    .prematureEndDuringLiteral, .illegalOp, .addrRange, .overlap, .badArg].map ErrCode.code =
    [0x0, 0x1, 0x2, 0x3, 0x4, 0x5, 0x6, 0x7, 0x8, 0x9, 0xA]) ∧
  ∀ (i : Instr) (s t : State) (allowed : List ErrCode), s.regs.errcode = .none → Mem.wf s.mem = true →
    exec i s = .next t →
    allowed = (match i with
      | .parseHeader => [.none, .tooShort, .invalidSignature, .addrRange]
      | .writeHeader | .pad => [.none, .addrRange]
      | .decodeStream => [.none, .emptyStreamNonzeroTarget, .prematureEnd, .prematureEndDuringCopy,
          .prematureEndDuringLiteral, .addrRange, .overlap]
      | .decodeContainer => [.none, .tooShort, .invalidSignature, .emptyStreamNonzeroTarget, .prematureEnd,
          .prematureEndDuringCopy, .prematureEndDuringLiteral, .addrRange, .overlap]
      | .encodeStream | .encodeContainer | .lit _ | .copy _ _ => [.none, .addrRange, .overlap]
      | .findMatch => [.none, .addrRange, .badArg]
      | .illegalOp _ => [.illegalOp]
      | .ctrl _ => [.none]) →
    t.regs.errcode ∈ allowed

/-- R111, R119, R198: what a command leaves depends on its latched operands and the snapshot of its input, beside the
registers and memory it keeps: not on earlier cursors, on other memory, on the host's side or on what was drawn. -/
def Obligations.ResultDependsOnLatchAndSnapshot : Prop :=
  ∀ (i : Instr) (s s' t t' : State), i.kind = .command → s.phase = .busy → s'.phase = .busy → s.seq.pace = .whole →
    s'.seq.pace = .whole → Mem.wf s.mem = true → Mem.wf s'.mem = true →
    s'.lat = s.lat → s'.regs = s.regs → (∀ k, k < s.lat.inLen.toNat → s'.inRead k = s.inRead k) →
    exec i s = .next t → exec i s' = .next t' →
    t'.regs = t.regs ∧ t'.phase = t.phase ∧
      ∃ lo bs, Stores lo bs s t ∧ Stores lo bs s' t'

/-- R114: however many steps a command takes, whatever is drawn for it and whether it is taken whole or one token a step,
it ends with the registers and the memory its body gives when taken whole. -/
def Obligations.ResultIndependentOfSteps : Prop :=
  ∀ s : State, Mem.wf s.mem = true → s.phase = .busy → s.seq.engine = .dispatch →
    ∃ n t u, steps n (s.withInputs []) = .next u ∧
      exec (decodeCommand s.op) { s with seq := { s.seq with pace := .whole } } = .next t ∧
      u.phase = .idle ∧ t.phase = .idle ∧ u.regs = t.regs ∧ u.mem = t.mem

/-- R115: a running command ends after finitely many steps of the core, and waits for nothing outside it. -/
def Obligations.EveryRunningCommandEnds : Prop :=
  ∀ s : State, Inv s → s.phase = .busy →
    ∃ n u, n ≤ s.seq.stall + s.inputLen + 2 ∧ steps n (s.withInputs []) = .next u ∧ u.phase = .idle ∧
      u.regs.done ≠ u.regs.err

/-! ## The host's memory accesses -/

/-- R297 with the bounds of R203: from the `CMD` write until the end of the command is observed, host writes into the input
region (`inB`) and host accesses to the output region (`outB`) are refused, and all others are taken. Four points of it are
the model's. How it notes that the end was observed (`awaiting`, and an asserted `IRQ`), and that the regions of a command
whose end was never observed stay barred beside those of the next (`earlier`): log entry 11. That a container decode's
region is the size field of the snapshot before the header is checked, and that a command which reads no input bars the
input region too: log entry 21. That the bytes of that size field past the end of the input count as 0x00: log entry 28. -/
def Obligations.HostMemoryDiscipline : Prop :=
  ∀ (s : State) (a lo len : Nat) (b : Byte) (rest : List Input), a < 0x100000000 →
    (s.phase = .busy ∨ (s.port.awaiting = true ∧ s.irq = false)) →
    (lo, len) = (match decodeCommand s.op with
      | .writeHeader => (s.lat.outBase.toNat, 32)
      | .decodeStream => (s.lat.outBase.toNat, s.lat.usize.toNat)
      | .decodeContainer => (s.lat.outBase.toNat, (s.field 0x14).toNat)
      | .encodeStream => (s.lat.outBase.toNat, s.lat.inLen.toNat + (s.lat.inLen.toNat + 7) / 8)
      | .encodeContainer => (s.lat.outBase.toNat,
          2048 * ((32 + s.lat.inLen.toNat + (s.lat.inLen.toNat + 7) / 8 + 2047) / 2048))
      | .pad => (s.lat.outBase.toNat + s.lat.outLen.toNat, 2047)
      | .parseHeader | .findMatch | .illegalOp _ | .ctrl _ | .lit _ | .copy _ _ => (0, 0)) →
    ∀ inB outB : Prop,
    (inB ↔ (s.lat.inBase.toNat ≤ a ∧ a < s.lat.inBase.toNat + s.lat.inLen.toNat) ∨
      ∃ r ∈ s.port.earlier, r.inBase ≤ a ∧ a < r.inBase + r.inLen) →
    (outB ↔ (lo ≤ a ∧ a < lo + len) ∨ ∃ r ∈ s.port.earlier, r.outBase ≤ a ∧ a < r.outBase + r.outLen) →
    (inB → step (s.withInputs (.memWrite a b :: rest)) = .refused .hostWroteInputRegion) ∧
    (outB → (∃ r, step (s.withInputs (.memWrite a b :: rest)) = .refused r) ∧
      step (s.withInputs (.memRead a :: rest)) = .refused .hostTouchedOutputRegion) ∧
    (¬ outB → ∃ t, step (s.withInputs (.memRead a :: rest)) = .next t ∧ SameCore s t ∧
      t.port.rdata = (Mem.read s.mem a).setWidth 32) ∧
    (¬ outB → ¬ inB →
      ∃ t, step (s.withInputs (.memWrite a b :: rest)) = .next t ∧ (Mem.wf s.mem = true → Stores a [b] s t))

/-- R60, R71, R295: once the end of the command has been observed (log entry 11), the host reads any byte, sees what was
written, and writes any byte; an address outside the memory is a fault (log entry 12). -/
def Obligations.HostMemoryAccess : Prop :=
  ∀ (s : State) (a : Nat) (b : Byte) (rest : List Input),
    (a < 0x100000000 → s.phase = .idle → (s.port.awaiting = false ∨ s.irq = true) →
      (∃ t, step (s.withInputs (.memRead a :: rest)) = .next t ∧ SameCore s t ∧
        t.port.rdata = (Mem.read s.mem a).setWidth 32) ∧
      ∃ t, step (s.withInputs (.memWrite a b :: rest)) = .next t ∧ t.regs = s.regs ∧ t.phase = s.phase ∧
        (Mem.wf s.mem = true → Stores a [b] s t)) ∧
    (0x100000000 ≤ a →
      step (s.withInputs (.memRead a :: rest)) = .fault .addressOutsideMemory ∧
      step (s.withInputs (.memWrite a b :: rest)) = .fault .addressOutsideMemory)

/-! ## The invariant -/

/-- The machine starts in the invariant, whatever the memory holds then (R11, R47). -/
def Obligations.InvHoldsAtReset : Prop :=
  Inv State.reset ∧
  ∀ m : Mem, Mem.wf m = true → (∀ c ∈ m, c.1 < 0x100000000) → Inv (State.resetWith m)

/-- Every step keeps the invariant: the memory its canonical form and its bound, `DONE` and `ERR` exclusive and in
agreement with `ERRCODE`, `MRES` in its ranges, the end of a running command not yet observed, and its cursors in their
ranges. -/
def Obligations.InvKeptByEveryStep : Prop :=
  ∀ s t : State, Inv s → step s = .next t → Inv t

/-! ## How long the host is kept off -/

/-- R297, how long the ban lasts, and R300: an accepted `CMD` write bars the new command's regions beside those still
barred; they stay as they are, whatever else happens, until an end is observed or the machine is reset; then none is
barred. What counts as observing, and the regions of an earlier command, are the model's: log entry 11. -/
def Obligations.HeldRegionsStayUntilObserved : Prop :=
  ∀ s t : State, Inv s → step s = .next t →
    (∀ w, s.StartNext w → t.op = w ∧ t.heldRegions = t.regions :: (if s.irq then [] else s.heldRegions)) ∧
    ((∀ w, ¬ s.StartNext w) → ¬ s.ResetNext → ¬ s.ObservesNext → t.heldRegions = s.heldRegions) ∧
    ((∀ w, ¬ s.StartNext w) → (s.ResetNext ∨ s.ObservesNext) → t.heldRegions = [])
end

