-- ==== Sys2Proof/Laws/Codec.lean ====
section
/-! SUPPORT. The arithmetic of the encodings: little-endian words, Copy tokens, and the command words. -/
namespace Sys2Proof

theorem leNat_le32 (v : Word) : leNat (le32 v) = v.toNat := by
  simp only [le32, leNat, BitVec.extractLsb'_toNat, Nat.shiftRight_eq_div_pow]
  omega

theorem le32_length (v : Word) : (le32 v).length = 4 := rfl

/-- Four bytes, read as a little-endian word and written again, are the same bytes (R62). -/
theorem le32_leNat (b0 b1 b2 b3 : Byte) : le32 (BitVec.ofNat 32 (leNat [b0, b1, b2, b3])) = [b0, b1, b2, b3] := by
  have h0 := b0.isLt
  have h1 := b1.isLt
  have h2 := b2.isLt
  have h3 := b3.isLt
  simp only [le32, leNat, List.cons.injEq, and_true]
  refine ⟨?_, ?_, ?_, ?_⟩ <;>
    · apply BitVec.eq_of_toNat_eq
      simp only [BitVec.extractLsb'_toNat, BitVec.toNat_ofNat, Nat.shiftRight_eq_div_pow]
      omega

theorem leNat_lt (b0 b1 b2 b3 : Byte) : leNat [b0, b1, b2, b3] < 2 ^ 32 := by
  have h0 := b0.isLt
  have h1 := b1.isLt
  have h2 := b2.isLt
  have h3 := b3.isLt
  simp only [leNat]
  omega

/-- R92 in sums: the fields of the offset do not overlap. -/
theorem copyOffset_eq (b0 b1 : Byte) : copyOffset b0 b1 = b0.toNat / 16 + 16 * b1.toNat + 1 := by
  have h0 := b0.isLt
  unfold copyOffset
  rw [Nat.or_comm, ← Nat.shiftLeft_add_eq_or_of_lt (by rw [Nat.shiftRight_eq_div_pow]; omega),
    Nat.shiftRight_eq_div_pow, Nat.shiftLeft_eq]
  omega

theorem copyLength_eq (b0 : Byte) : copyLength b0 = b0.toNat % 16 + 3 := by
  unfold copyLength
  rw [show (0xF : Nat) = 2 ^ 4 - 1 from rfl, Nat.and_two_pow_sub_one_eq_mod]

/-- R91 in sums, inside the ranges of R93. -/
theorem copyEncoded_eq {off len : Nat} (hl : 3 ≤ len ∧ len ≤ 18) :
    copyEncoded off len = 16 * (off - 1) + (len - 3) := by
  unfold copyEncoded
  rw [show (0xF : Nat) = 2 ^ 4 - 1 from rfl, Nat.and_two_pow_sub_one_eq_mod,
    ← Nat.shiftLeft_add_eq_or_of_lt (Nat.mod_lt _ (by decide)), Nat.shiftLeft_eq]
  omega

/-- R92: every pair of bytes gives an offset in 1..4096 and a length in 3..18. -/
theorem copy_ranges (b0 b1 : Byte) :
    (1 ≤ copyOffset b0 b1 ∧ copyOffset b0 b1 ≤ 4096) ∧ (3 ≤ copyLength b0 ∧ copyLength b0 ≤ 18) := by
  have h0 := b0.isLt
  have h1 := b1.isLt
  rw [copyOffset_eq, copyLength_eq]
  omega

/-- R93: decode after encode of a Copy returns the same offset and length. -/
theorem copy_decode_encode {off len : Nat} (ho : 1 ≤ off ∧ off ≤ 4096) (hl : 3 ≤ len ∧ len ≤ 18) :
    copyOffset (BitVec.ofNat 8 (copyEncoded off len)) (BitVec.ofNat 8 (copyEncoded off len >>> 8)) = off ∧
      copyLength (BitVec.ofNat 8 (copyEncoded off len)) = len := by
  rw [copyOffset_eq, copyLength_eq, copyEncoded_eq hl]
  simp only [BitVec.toNat_ofNat, Nat.shiftRight_eq_div_pow]
  omega

/-- R92: encode after decode of a Copy returns the same bytes. -/
theorem copy_encode_decode (b0 b1 : Byte) : copyBytes (copyOffset b0 b1) (copyLength b0) = [b0, b1] := by
  have h0 := b0.isLt
  have h1 := b1.isLt
  unfold copyBytes
  rw [copyEncoded_eq (copy_ranges b0 b1).2, copyOffset_eq, copyLength_eq]
  simp only [List.cons.injEq, and_true]
  constructor <;>
    · apply BitVec.eq_of_toNat_eq
      simp only [BitVec.toNat_ofNat, Nat.shiftRight_eq_div_pow]
      omega

/-- R82: a word other than the eight defined ones is illegal. -/
theorem decodeCommand_undefined {w : Word} (h : definedCommandWord w = false) : decodeCommand w = .illegalOp w := by
  unfold decodeCommand
  split
  · rename_i h0
    have h1 : ∀ k, 1 ≤ k → k ≤ 8 → (w.extractLsb' 0 4).toNat ≠ k := by
      intro k hk hk' heq
      rw [definedCommandWord, h0, heq] at h
      simp [hk, hk'] at h
    split <;> first | rfl | (rename_i heq; exact absurd heq (h1 _ (by decide) (by decide)))
  · rfl

/-- R82: the defined words are 1 to 8. -/
theorem definedCommandWord_iff (w : Word) : definedCommandWord w = true ↔ 1 ≤ w.toNat ∧ w.toNat ≤ 8 := by
  have hw := w.isLt
  have h28 : w.extractLsb' 4 28 = 0 ↔ w.toNat < 16 := by
    rw [← BitVec.toNat_inj]
    simp only [BitVec.extractLsb'_toNat, Nat.shiftRight_eq_div_pow, BitVec.toNat_ofNat, BitVec.ofNat_eq_ofNat]
    omega
  simp only [definedCommandWord, Bool.and_eq_true, beq_iff_eq, decide_eq_true_eq, h28, BitVec.extractLsb'_toNat,
    Nat.shiftRight_eq_div_pow]
  omega

end Sys2Proof
end

