-- ==== Sys2Proof/Laws/Memory.lean ====
section
/-! SUPPORT. The laws of the memory: a read after a write, canonical form and the address bound kept by every operation,
and equal reads give equal memories. -/
namespace Sys2Proof.Machine

@[simp] theorem Mem.read_nil (a : Nat) : Mem.read [] a = Mem.unlisted := rfl

theorem Mem.read_cons (c : Host.Cell) (m : Mem) (a : Nat) :
    Mem.read (c :: m) a = if c.1 = a then c.2 else Mem.read m a := rfl

theorem Mem.wfFrom_cons {lo : Nat} {c : Host.Cell} {m : Mem} :
    Mem.wfFrom lo (c :: m) = true ↔ lo ≤ c.1 ∧ c.2 ≠ Mem.unlisted ∧ Mem.wfFrom (c.1 + 1) m = true := by
  simp [Mem.wfFrom, and_assoc]

/-- Canonical form from a higher address is canonical form from a lower one. -/
theorem Mem.wfFrom_mono {lo lo' : Nat} {m : Mem} (h : lo ≤ lo') (hm : Mem.wfFrom lo' m = true) :
    Mem.wfFrom lo m = true := by
  cases m with
  | nil => rfl
  | cons c m =>
    rw [Mem.wfFrom_cons] at hm ⊢
    exact ⟨h.trans hm.1, hm.2⟩

/-- An address below a canonical memory's first one is unlisted. -/
theorem Mem.read_below {lo a : Nat} {m : Mem} (h : a < lo) (hm : Mem.wfFrom lo m = true) :
    Mem.read m a = Mem.unlisted := by
  induction m generalizing lo with
  | nil => rfl
  | cons c m ih =>
    rw [Mem.wfFrom_cons] at hm
    have hne : c.1 ≠ a := by have := hm.1; omega
    rw [Mem.read_cons, if_neg hne]
    exact ih (by have := hm.1; omega) hm.2.2

theorem Mem.wfFrom_write {lo a : Nat} {b : Byte} {m : Mem} (h : lo ≤ a) (hm : Mem.wfFrom lo m = true) :
    Mem.wfFrom lo (Mem.write m a b) = true := by
  induction m generalizing lo with
  | nil =>
    unfold Mem.write
    split
    · rfl
    · rw [Mem.wfFrom_cons]; exact ⟨h, ‹_›, rfl⟩
  | cons c m ih =>
    obtain ⟨a', b'⟩ := c
    have hm' := Mem.wfFrom_cons.1 hm
    unfold Mem.write
    split
    · split
      · exact hm
      · rw [Mem.wfFrom_cons]
        exact ⟨h, ‹_›, Mem.wfFrom_cons.2 ⟨by simp; omega, hm'.2⟩⟩
    · split
      · split
        · exact Mem.wfFrom_mono (by have := hm'.1; simp at this; omega) hm'.2.2
        · rw [Mem.wfFrom_cons]
          refine ⟨h, ‹_›, ?_⟩
          subst_vars
          exact hm'.2.2
      · rw [Mem.wfFrom_cons]
        exact ⟨hm'.1, hm'.2.1, ih (by simp; omega) hm'.2.2⟩

/-- A write keeps the canonical form. -/
theorem Mem.write_wf {a : Nat} {b : Byte} {m : Mem} (hm : Mem.wf m = true) : Mem.wf (Mem.write m a b) = true :=
  Mem.wfFrom_write (Nat.zero_le a) hm

theorem Mem.read_writeFrom {lo a x : Nat} {b : Byte} {m : Mem} (hm : Mem.wfFrom lo m = true) :
    Mem.read (Mem.write m a b) x = if a = x then b else Mem.read m x := by
  induction m generalizing lo with
  | nil =>
    unfold Mem.write
    split
    · subst_vars; simp
    · rw [Mem.read_cons]
  | cons c m ih =>
    obtain ⟨a', b'⟩ := c
    have hm' := Mem.wfFrom_cons.1 hm
    unfold Mem.write
    split
    · rename_i hlt
      split
      · split
        · subst_vars
          rw [Mem.read_below (lo := a') hlt (Mem.wfFrom_cons.2 ⟨Nat.le_refl _, hm'.2⟩)]
        · rfl
      · rw [Mem.read_cons]
    · split
      · rename_i heq
        subst heq
        split
        · subst_vars
          by_cases hx : a = x
          · subst hx
            rw [if_pos rfl, Mem.read_below (Nat.lt_succ_self _) hm'.2.2]
          · rw [if_neg hx, Mem.read_cons, if_neg hx]
        · rw [Mem.read_cons, Mem.read_cons]
          simp only
          split <;> rfl
      · rename_i h1 h2
        rw [Mem.read_cons, Mem.read_cons, ih hm'.2.2]
        simp only
        by_cases hx : a' = x
        · subst hx
          rw [if_pos rfl, if_pos rfl, if_neg h2]
        · rw [if_neg hx, if_neg hx]

/-- A read after a write: the written byte at its address, the old byte elsewhere. -/
theorem Mem.read_write {a x : Nat} {b : Byte} {m : Mem} (hm : Mem.wf m = true) :
    Mem.read (Mem.write m a b) x = if a = x then b else Mem.read m x :=
  Mem.read_writeFrom hm

theorem Mem.ext_wfFrom {lo : Nat} {m m' : Mem} (hm : Mem.wfFrom lo m = true) (hm' : Mem.wfFrom lo m' = true)
    (h : ∀ a, Mem.read m a = Mem.read m' a) : m = m' := by
  induction m generalizing lo m' with
  | nil =>
    cases m' with
    | nil => rfl
    | cons c m' =>
      have hc := Mem.wfFrom_cons.1 hm'
      have := h c.1
      rw [Mem.read_cons, if_pos rfl] at this
      exact absurd this.symm hc.2.1
  | cons c m ih =>
    have hc := Mem.wfFrom_cons.1 hm
    cases m' with
    | nil =>
      have := h c.1
      rw [Mem.read_cons, if_pos rfl] at this
      exact absurd this hc.2.1
    | cons c' m' =>
      have hc' := Mem.wfFrom_cons.1 hm'
      have hcc : c.1 = c'.1 := by
        rcases Nat.lt_trichotomy c.1 c'.1 with hlt | heq | hgt
        · have := h c.1
          rw [Mem.read_cons, if_pos rfl,
            Mem.read_below hlt (Mem.wfFrom_cons.2 ⟨Nat.le_refl _, hc'.2⟩)] at this
          exact absurd this hc.2.1
        · exact heq
        · have := h c'.1
          rw [Mem.read_cons (c := c'), if_pos rfl,
            Mem.read_below hgt (Mem.wfFrom_cons.2 ⟨Nat.le_refl _, hc.2⟩)] at this
          exact absurd this.symm hc'.2.1
      have hb : c.2 = c'.2 := by
        have := h c.1
        rwa [Mem.read_cons, if_pos rfl, Mem.read_cons, if_pos hcc.symm] at this
      have hcell : c = c' := Prod.ext hcc hb
      subst hcell
      have : m = m' := by
        refine ih hc.2.2 hc'.2.2 (fun a => ?_)
        by_cases ha : c.1 = a
        · rw [Mem.read_below (lo := c.1 + 1) (by omega) hc.2.2, Mem.read_below (lo := c.1 + 1) (by omega) hc'.2.2]
        · have := h a
          rwa [Mem.read_cons, if_neg ha, Mem.read_cons, if_neg ha] at this
      rw [this]

/-- Memories in canonical form that read alike at every address are equal. -/
theorem Mem.ext {m m' : Mem} (hm : Mem.wf m = true) (hm' : Mem.wf m' = true)
    (h : ∀ a, Mem.read m a = Mem.read m' a) : m = m' :=
  Mem.ext_wfFrom hm hm' h

/-- Writing back the byte that was read, after a write to the same address, restores the memory. -/
theorem Mem.write_back {a : Nat} {b : Byte} {m : Mem} (hm : Mem.wf m = true) :
    Mem.write (Mem.write m a b) a (Mem.read m a) = m := by
  refine Mem.ext (Mem.write_wf (Mem.write_wf hm)) hm (fun x => ?_)
  rw [Mem.read_write (Mem.write_wf hm), Mem.read_write hm]
  by_cases hx : a = x
  · rw [if_pos hx, hx]
  · rw [if_neg hx, if_neg hx]

/-- Every cell of a written memory is the written one or an old one. -/
theorem Mem.mem_write {a : Nat} {b : Byte} {m : Mem} {c : Host.Cell} (h : c ∈ Mem.write m a b) :
    c.1 = a ∨ c ∈ m := by
  induction m with
  | nil =>
    unfold Mem.write at h
    split at h
    · cases h
    · simp at h; exact .inl (by rw [h])
  | cons d m ih =>
    obtain ⟨a', b'⟩ := d
    unfold Mem.write at h
    split at h
    · split at h
      · exact .inr h
      · rcases List.mem_cons.1 h with rfl | h
        · exact .inl rfl
        · exact .inr h
    · split at h
      · split at h
        · exact .inr (List.mem_cons_of_mem _ h)
        · rcases List.mem_cons.1 h with rfl | h
          · exact .inl rfl
          · exact .inr (List.mem_cons_of_mem _ h)
      · rcases List.mem_cons.1 h with rfl | h
        · exact .inr List.mem_cons_self
        · rcases ih h with h | h
          · exact .inl h
          · exact .inr (List.mem_cons_of_mem _ h)

/-- A write below a bound keeps every address below it. -/
theorem Mem.write_bound {a n : Nat} {b : Byte} {m : Mem} (ha : a < n) (hm : ∀ c ∈ m, c.1 < n) :
    ∀ c ∈ Mem.write m a b, c.1 < n := by
  intro c hc
  rcases Mem.mem_write hc with h | h
  · omega
  · exact hm c h

theorem Mem.wfFrom_filter {lo : Nat} {m : Mem} (f : Host.Cell → Bool) (hm : Mem.wfFrom lo m = true) :
    Mem.wfFrom lo (m.filter f) = true := by
  induction m generalizing lo with
  | nil => rfl
  | cons c m ih =>
    have hc := Mem.wfFrom_cons.1 hm
    rw [List.filter_cons]
    split
    · exact Mem.wfFrom_cons.2 ⟨hc.1, hc.2.1, ih hc.2.2⟩
    · exact Mem.wfFrom_mono (by have := hc.1; omega) (ih hc.2.2)

/-- The snapshot of a region is in canonical form. -/
theorem Mem.region_wf {base len : Nat} {m : Mem} (hm : Mem.wf m = true) : Mem.wf (Mem.region m base len) = true :=
  Mem.wfFrom_filter _ hm

/-- The snapshot of a region reads as the memory did, inside the region. -/
theorem Mem.read_region {base len a : Nat} {m : Mem} (h : base ≤ a ∧ a < base + len) :
    Mem.read (Mem.region m base len) a = Mem.read m a := by
  induction m with
  | nil => rfl
  | cons c m ih =>
    have hr : Mem.region (c :: m) base len =
        if (decide (base ≤ c.1) && decide (c.1 < base + len)) = true then c :: Mem.region m base len
        else Mem.region m base len := List.filter_cons
    rw [hr]
    split
    · rw [Mem.read_cons, Mem.read_cons, ih]
    · rename_i hn
      have hne : c.1 ≠ a := by
        rintro rfl
        simp [h.1, h.2] at hn
      rw [ih, Mem.read_cons, if_neg hne]

/-! ## Lists of writes -/

theorem Mem.writeList_wf {m : Mem} {a : Nat} {bs : List Byte} (hm : Mem.wf m = true) :
    Mem.wf (Mem.writeList m a bs) = true := by
  induction bs generalizing m a with
  | nil => exact hm
  | cons b bs ih => exact ih (Mem.write_wf hm)

/-- A read after a list of writes. -/
theorem Mem.read_writeList {m : Mem} {a x : Nat} {bs : List Byte} (hm : Mem.wf m = true) :
    Mem.read (Mem.writeList m a bs) x =
      if a ≤ x ∧ x < a + bs.length then bs.getD (x - a) 0 else Mem.read m x := by
  induction bs generalizing m a with
  | nil => simp [Mem.writeList]
  | cons b bs ih =>
    rw [Mem.writeList, ih (Mem.write_wf hm), Mem.read_write hm, List.length_cons]
    by_cases hx : a = x
    · subst hx
      rw [if_neg (by omega), if_pos rfl, if_pos (by omega), Nat.sub_self]
      rfl
    · by_cases h1 : a + 1 ≤ x ∧ x < a + 1 + bs.length
      · rw [if_pos h1, if_pos (by omega)]
        obtain ⟨k, rfl⟩ : ∃ k, x = a + 1 + k := ⟨x - (a + 1), by omega⟩
        rw [show a + 1 + k - (a + 1) = k by omega, show a + 1 + k - a = k + 1 by omega]
        rfl
      · rw [if_neg h1, if_neg hx, if_neg (by omega)]

/-- A list of writes in two parts. -/
theorem Mem.writeList_append {m : Mem} {a : Nat} {xs ys : List Byte} :
    Mem.writeList m a (xs ++ ys) = Mem.writeList (Mem.writeList m a xs) (a + xs.length) ys := by
  induction xs generalizing m a with
  | nil => rfl
  | cons x xs ih =>
    rw [List.cons_append, Mem.writeList, Mem.writeList, ih, List.length_cons, Nat.add_right_comm, Nat.add_assoc]

/-- One more write at the end of a list of writes. -/
theorem Mem.writeList_concat {m : Mem} {a : Nat} {xs : List Byte} {v : Byte} :
    Mem.writeList m a (xs ++ [v]) = Mem.write (Mem.writeList m a xs) (a + xs.length) v := by
  rw [Mem.writeList_append]; rfl

/-- Writing again over one byte of a list of writes. -/
theorem Mem.write_writeList_set {m : Mem} {a g : Nat} {xs : List Byte} {v : Byte} (hm : Mem.wf m = true)
    (hg : g < xs.length) : Mem.write (Mem.writeList m a xs) (a + g) v = Mem.writeList m a (xs.set g v) := by
  refine Mem.ext (Mem.write_wf (Mem.writeList_wf hm)) (Mem.writeList_wf hm) (fun x => ?_)
  rw [Mem.read_write (Mem.writeList_wf hm), Mem.read_writeList hm, Mem.read_writeList hm, List.length_set]
  by_cases hx : a + g = x
  · subst hx
    rw [if_pos rfl, if_pos (by omega), Nat.add_sub_cancel_left]
    simp [hg]
  · rw [if_neg hx]
    split
    · rw [List.getD_eq_getElem?_getD, List.getD_eq_getElem?_getD, List.getElem?_set_ne (by omega)]
    · rfl

@[simp] theorem Mem.bytes_length (m : Mem) (a n : Nat) : (Mem.bytes m a n).length = n := by
  simp [Mem.bytes]

/-- The bytes just written are read back. -/
theorem Mem.bytes_writeList {m : Mem} {a : Nat} {bs : List Byte} (hm : Mem.wf m = true) :
    Mem.bytes (Mem.writeList m a bs) a bs.length = bs := by
  refine List.ext_getElem (by simp) (fun i h1 h2 => ?_)
  simp only [Mem.bytes, List.getElem_map, List.getElem_range]
  rw [Mem.read_writeList hm, if_pos (by omega), Nat.add_sub_cancel_left]
  simp [h2]

/-! ## Sequences of writes and taking them back -/

@[simp] theorem Mem.writeAll_nil (m : Mem) : Mem.writeAll m [] = m := rfl

@[simp] theorem Mem.writeAll_cons (m : Mem) (c : Host.Cell) (ws : List Host.Cell) :
    Mem.writeAll m (c :: ws) = Mem.writeAll (Mem.write m c.1 c.2) ws := rfl

theorem Mem.writeAll_append (m : Mem) (xs ys : List Host.Cell) :
    Mem.writeAll m (xs ++ ys) = Mem.writeAll (Mem.writeAll m xs) ys := by
  simp [Mem.writeAll, List.foldl_append]

theorem Mem.writeAll_wf {m : Mem} {ws : List Host.Cell} (hm : Mem.wf m = true) :
    Mem.wf (Mem.writeAll m ws) = true := by
  induction ws generalizing m with
  | nil => exact hm
  | cons c ws ih => exact ih (Mem.write_wf hm)

theorem Mem.writeAll_bound {m : Mem} {ws : List Host.Cell} {n : Nat} (hw : ∀ c ∈ ws, c.1 < n) (hm : ∀ c ∈ m, c.1 < n) :
    ∀ c ∈ Mem.writeAll m ws, c.1 < n := by
  induction ws generalizing m with
  | nil => exact hm
  | cons c ws ih =>
    exact ih (fun d hd => hw d (List.mem_cons_of_mem _ hd)) (Mem.write_bound (hw c List.mem_cons_self) hm)

/-- A sequence of writes leaves every address it does not name. -/
theorem Mem.read_writeAll_other {m : Mem} {ws : List Host.Cell} {a : Nat} (hm : Mem.wf m = true)
    (h : ∀ c ∈ ws, c.1 ≠ a) : Mem.read (Mem.writeAll m ws) a = Mem.read m a := by
  induction ws generalizing m with
  | nil => rfl
  | cons c ws ih =>
    rw [Mem.writeAll_cons, ih (Mem.write_wf hm) (fun d hd => h d (List.mem_cons_of_mem _ hd)), Mem.read_write hm,
      if_neg (h c List.mem_cons_self)]

@[simp] theorem Mem.replaced_length (m : Mem) (ws : List Host.Cell) : (Mem.replaced m ws).length = ws.length := by
  induction ws generalizing m with
  | nil => rfl
  | cons c ws ih => simp [Mem.replaced, ih]

theorem Mem.replaced_append (m : Mem) (xs ys : List Host.Cell) :
    Mem.replaced m (xs ++ ys) = Mem.replaced (Mem.writeAll m xs) ys ++ Mem.replaced m xs := by
  induction xs generalizing m with
  | nil => simp [Mem.replaced]
  | cons x xs ih => simp [Mem.replaced, ih]

theorem Mem.replaced_addr {m : Mem} {ws : List Host.Cell} {d : Host.Cell} (h : d ∈ Mem.replaced m ws) :
    ∃ c ∈ ws, c.1 = d.1 := by
  induction ws generalizing m with
  | nil => cases h
  | cons c ws ih =>
    rcases List.mem_append.1 h with h | h
    · obtain ⟨e, he, hd⟩ := ih h
      exact ⟨e, List.mem_cons_of_mem _ he, hd⟩
    · simp at h
      exact ⟨c, List.mem_cons_self, by rw [h]⟩

/-- Taking back every write of a sequence, newest first, restores the memory. -/
theorem Mem.undo_all {m : Mem} {ws : List Host.Cell} (hm : Mem.wf m = true) :
    Mem.writeAll (Mem.writeAll m ws) (Mem.replaced m ws) = m := by
  induction ws generalizing m with
  | nil => rfl
  | cons c ws ih =>
    rw [Mem.writeAll_cons, Mem.replaced, Mem.writeAll_append, ih (Mem.write_wf hm)]
    exact Mem.write_back hm

/-- Taking back all but the first `k` writes of a sequence leaves just those. -/
theorem Mem.undo_to {m : Mem} {ws : List Host.Cell} (k : Nat) (hm : Mem.wf m = true) :
    Mem.writeAll (Mem.writeAll m ws) ((Mem.replaced m ws).take (ws.length - k)) = Mem.writeAll m (ws.take k) := by
  have hsplit : Mem.replaced m ws = Mem.replaced (Mem.writeAll m (ws.take k)) (ws.drop k) ++ Mem.replaced m (ws.take k) := by
    rw [← Mem.replaced_append, List.take_append_drop]
  have hlen : ws.length - k = (Mem.replaced (Mem.writeAll m (ws.take k)) (ws.drop k)).length := by simp
  rw [hsplit, hlen, List.take_left']
  · have hw : Mem.writeAll m ws = Mem.writeAll (Mem.writeAll m (ws.take k)) (ws.drop k) := by
      rw [← Mem.writeAll_append, List.take_append_drop]
    rw [hw]
    exact Mem.undo_all (Mem.writeAll_wf hm)
  · rfl

/-- A memory made of cells is in canonical form. -/
theorem Mem.ofCells_wf (cells : List Host.Cell) : Mem.wf (Mem.ofCells cells) = true := Mem.writeAll_wf rfl

/-- A memory made of cells lists addresses of the address space only. -/
theorem Mem.ofCells_bound (cells : List Host.Cell) : ∀ c ∈ Mem.ofCells cells, c.1 < Config.memSize :=
  Mem.writeAll_bound (fun _ hc => of_decide_eq_true (List.mem_filter.1 hc).2) (fun _ h => by cases h)

theorem Mem.atReset_wf : Mem.wf Mem.atReset = true := Mem.ofCells_wf _

theorem Mem.atReset_bound : ∀ c ∈ Mem.atReset, c.1 < Config.memSize := Mem.ofCells_bound _

end Sys2Proof.Machine
end

