-- ==== Sys2Proof/Laws/State.lean ====
section
/-! SUPPORT. For each named update of the state and of the registers, what each field holds after it: true by rfl, and
tagged for simp, so that no later proof unfolds a record update. -/
namespace Sys2Proof.Machine

/-! ## State.withRegs -/

@[simp] theorem State.withRegs_regs (r : Regs) (s : State) : (s.withRegs r).regs = r := rfl
@[simp] theorem State.withRegs_phase (r : Regs) (s : State) : (s.withRegs r).phase = s.phase := rfl
@[simp] theorem State.withRegs_mem (r : Regs) (s : State) : (s.withRegs r).mem = s.mem := rfl
@[simp] theorem State.withRegs_op (r : Regs) (s : State) : (s.withRegs r).op = s.op := rfl
@[simp] theorem State.withRegs_lat (r : Regs) (s : State) : (s.withRegs r).lat = s.lat := rfl
@[simp] theorem State.withRegs_snap (r : Regs) (s : State) : (s.withRegs r).snap = s.snap := rfl
@[simp] theorem State.withRegs_enc (r : Regs) (s : State) : (s.withRegs r).enc = s.enc := rfl
@[simp] theorem State.withRegs_dec (r : Regs) (s : State) : (s.withRegs r).dec = s.dec := rfl
@[simp] theorem State.withRegs_seq (r : Regs) (s : State) : (s.withRegs r).seq = s.seq := rfl
@[simp] theorem State.withRegs_journal (r : Regs) (s : State) : (s.withRegs r).journal = s.journal := rfl
@[simp] theorem State.withRegs_port (r : Regs) (s : State) : (s.withRegs r).port = s.port := rfl

/-! ## State.withEnc -/

@[simp] theorem State.withEnc_regs (e : EncCursors) (s : State) : (s.withEnc e).regs = s.regs := rfl
@[simp] theorem State.withEnc_phase (e : EncCursors) (s : State) : (s.withEnc e).phase = s.phase := rfl
@[simp] theorem State.withEnc_mem (e : EncCursors) (s : State) : (s.withEnc e).mem = s.mem := rfl
@[simp] theorem State.withEnc_op (e : EncCursors) (s : State) : (s.withEnc e).op = s.op := rfl
@[simp] theorem State.withEnc_lat (e : EncCursors) (s : State) : (s.withEnc e).lat = s.lat := rfl
@[simp] theorem State.withEnc_snap (e : EncCursors) (s : State) : (s.withEnc e).snap = s.snap := rfl
@[simp] theorem State.withEnc_enc (e : EncCursors) (s : State) : (s.withEnc e).enc = e := rfl
@[simp] theorem State.withEnc_dec (e : EncCursors) (s : State) : (s.withEnc e).dec = s.dec := rfl
@[simp] theorem State.withEnc_seq (e : EncCursors) (s : State) : (s.withEnc e).seq = s.seq := rfl
@[simp] theorem State.withEnc_journal (e : EncCursors) (s : State) : (s.withEnc e).journal = s.journal := rfl
@[simp] theorem State.withEnc_port (e : EncCursors) (s : State) : (s.withEnc e).port = s.port := rfl

/-! ## State.withDec -/

@[simp] theorem State.withDec_regs (d : DecCursors) (s : State) : (s.withDec d).regs = s.regs := rfl
@[simp] theorem State.withDec_phase (d : DecCursors) (s : State) : (s.withDec d).phase = s.phase := rfl
@[simp] theorem State.withDec_mem (d : DecCursors) (s : State) : (s.withDec d).mem = s.mem := rfl
@[simp] theorem State.withDec_op (d : DecCursors) (s : State) : (s.withDec d).op = s.op := rfl
@[simp] theorem State.withDec_lat (d : DecCursors) (s : State) : (s.withDec d).lat = s.lat := rfl
@[simp] theorem State.withDec_snap (d : DecCursors) (s : State) : (s.withDec d).snap = s.snap := rfl
@[simp] theorem State.withDec_enc (d : DecCursors) (s : State) : (s.withDec d).enc = s.enc := rfl
@[simp] theorem State.withDec_dec (d : DecCursors) (s : State) : (s.withDec d).dec = d := rfl
@[simp] theorem State.withDec_seq (d : DecCursors) (s : State) : (s.withDec d).seq = s.seq := rfl
@[simp] theorem State.withDec_journal (d : DecCursors) (s : State) : (s.withDec d).journal = s.journal := rfl
@[simp] theorem State.withDec_port (d : DecCursors) (s : State) : (s.withDec d).port = s.port := rfl

/-! ## State.withEngine -/

@[simp] theorem State.withEngine_regs (e : Engine) (s : State) : (s.withEngine e).regs = s.regs := rfl
@[simp] theorem State.withEngine_phase (e : Engine) (s : State) : (s.withEngine e).phase = s.phase := rfl
@[simp] theorem State.withEngine_mem (e : Engine) (s : State) : (s.withEngine e).mem = s.mem := rfl
@[simp] theorem State.withEngine_op (e : Engine) (s : State) : (s.withEngine e).op = s.op := rfl
@[simp] theorem State.withEngine_lat (e : Engine) (s : State) : (s.withEngine e).lat = s.lat := rfl
@[simp] theorem State.withEngine_snap (e : Engine) (s : State) : (s.withEngine e).snap = s.snap := rfl
@[simp] theorem State.withEngine_enc (e : Engine) (s : State) : (s.withEngine e).enc = s.enc := rfl
@[simp] theorem State.withEngine_dec (e : Engine) (s : State) : (s.withEngine e).dec = s.dec := rfl
@[simp] theorem State.withEngine_seq (e : Engine) (s : State) : (s.withEngine e).seq = { s.seq with engine := e } := rfl
@[simp] theorem State.withEngine_journal (e : Engine) (s : State) : (s.withEngine e).journal = s.journal := rfl
@[simp] theorem State.withEngine_port (e : Engine) (s : State) : (s.withEngine e).port = s.port := rfl

/-! ## State.storeByte -/

@[simp] theorem State.storeByte_regs (a : Nat) (v : Byte) (s : State) : (s.storeByte a v).regs = s.regs := rfl
@[simp] theorem State.storeByte_phase (a : Nat) (v : Byte) (s : State) : (s.storeByte a v).phase = s.phase := rfl
@[simp] theorem State.storeByte_mem (a : Nat) (v : Byte) (s : State) : (s.storeByte a v).mem = Mem.write s.mem a v := rfl
@[simp] theorem State.storeByte_op (a : Nat) (v : Byte) (s : State) : (s.storeByte a v).op = s.op := rfl
@[simp] theorem State.storeByte_lat (a : Nat) (v : Byte) (s : State) : (s.storeByte a v).lat = s.lat := rfl
@[simp] theorem State.storeByte_snap (a : Nat) (v : Byte) (s : State) : (s.storeByte a v).snap = s.snap := rfl
@[simp] theorem State.storeByte_enc (a : Nat) (v : Byte) (s : State) : (s.storeByte a v).enc = s.enc := rfl
@[simp] theorem State.storeByte_dec (a : Nat) (v : Byte) (s : State) : (s.storeByte a v).dec = s.dec := rfl
@[simp] theorem State.storeByte_seq (a : Nat) (v : Byte) (s : State) : (s.storeByte a v).seq = s.seq := rfl
@[simp] theorem State.storeByte_journal (a : Nat) (v : Byte) (s : State) : (s.storeByte a v).journal = (a, Mem.read s.mem a) :: s.journal := rfl
@[simp] theorem State.storeByte_port (a : Nat) (v : Byte) (s : State) : (s.storeByte a v).port = s.port := rfl

/-! ## State.raise -/

@[simp] theorem State.raise_regs (c : ErrCode) (s : State) : (s.raise c).regs = { s.regs with err := true, done := false, errcode := c } := rfl
@[simp] theorem State.raise_phase (c : ErrCode) (s : State) : (s.raise c).phase = .idle := rfl
@[simp] theorem State.raise_mem (c : ErrCode) (s : State) : (s.raise c).mem = s.mem := rfl
@[simp] theorem State.raise_op (c : ErrCode) (s : State) : (s.raise c).op = s.op := rfl
@[simp] theorem State.raise_lat (c : ErrCode) (s : State) : (s.raise c).lat = s.lat := rfl
@[simp] theorem State.raise_snap (c : ErrCode) (s : State) : (s.raise c).snap = s.snap := rfl
@[simp] theorem State.raise_enc (c : ErrCode) (s : State) : (s.raise c).enc = s.enc := rfl
@[simp] theorem State.raise_dec (c : ErrCode) (s : State) : (s.raise c).dec = s.dec := rfl
@[simp] theorem State.raise_seq (c : ErrCode) (s : State) : (s.raise c).seq = s.seq := rfl
@[simp] theorem State.raise_journal (c : ErrCode) (s : State) : (s.raise c).journal = s.journal := rfl
@[simp] theorem State.raise_port (c : ErrCode) (s : State) : (s.raise c).port = s.port := rfl

/-! ## State.finish -/

@[simp] theorem State.finish_regs (s : State) : (s.finish).regs = { s.regs with done := true, err := false, errcode := .none } := rfl
@[simp] theorem State.finish_phase (s : State) : (s.finish).phase = .idle := rfl
@[simp] theorem State.finish_mem (s : State) : (s.finish).mem = s.mem := rfl
@[simp] theorem State.finish_op (s : State) : (s.finish).op = s.op := rfl
@[simp] theorem State.finish_lat (s : State) : (s.finish).lat = s.lat := rfl
@[simp] theorem State.finish_snap (s : State) : (s.finish).snap = s.snap := rfl
@[simp] theorem State.finish_enc (s : State) : (s.finish).enc = s.enc := rfl
@[simp] theorem State.finish_dec (s : State) : (s.finish).dec = s.dec := rfl
@[simp] theorem State.finish_seq (s : State) : (s.finish).seq = s.seq := rfl
@[simp] theorem State.finish_journal (s : State) : (s.finish).journal = s.journal := rfl
@[simp] theorem State.finish_port (s : State) : (s.finish).port = s.port := rfl

/-! ## State.raiseOutLen -/

@[simp] theorem State.raiseOutLen_regs (c : ErrCode) (n : Nat) (s : State) : (s.raiseOutLen c n).regs = { s.regs with outLen := BitVec.ofNat 32 n, err := true, done := false, errcode := c } := rfl
@[simp] theorem State.raiseOutLen_phase (c : ErrCode) (n : Nat) (s : State) : (s.raiseOutLen c n).phase = .idle := rfl
@[simp] theorem State.raiseOutLen_mem (c : ErrCode) (n : Nat) (s : State) : (s.raiseOutLen c n).mem = s.mem := rfl
@[simp] theorem State.raiseOutLen_op (c : ErrCode) (n : Nat) (s : State) : (s.raiseOutLen c n).op = s.op := rfl
@[simp] theorem State.raiseOutLen_lat (c : ErrCode) (n : Nat) (s : State) : (s.raiseOutLen c n).lat = s.lat := rfl
@[simp] theorem State.raiseOutLen_snap (c : ErrCode) (n : Nat) (s : State) : (s.raiseOutLen c n).snap = s.snap := rfl
@[simp] theorem State.raiseOutLen_enc (c : ErrCode) (n : Nat) (s : State) : (s.raiseOutLen c n).enc = s.enc := rfl
@[simp] theorem State.raiseOutLen_dec (c : ErrCode) (n : Nat) (s : State) : (s.raiseOutLen c n).dec = s.dec := rfl
@[simp] theorem State.raiseOutLen_seq (c : ErrCode) (n : Nat) (s : State) : (s.raiseOutLen c n).seq = s.seq := rfl
@[simp] theorem State.raiseOutLen_journal (c : ErrCode) (n : Nat) (s : State) : (s.raiseOutLen c n).journal = s.journal := rfl
@[simp] theorem State.raiseOutLen_port (c : ErrCode) (n : Nat) (s : State) : (s.raiseOutLen c n).port = s.port := rfl

/-! ## State.raisePrefixes -/

@[simp] theorem State.raisePrefixes_regs (c : ErrCode) (n u : Nat) (s : State) : (s.raisePrefixes c n u).regs = { s.regs with outLen := BitVec.ofNat 32 n, inUsed := BitVec.ofNat 32 u, err := true, done := false, errcode := c } := rfl
@[simp] theorem State.raisePrefixes_phase (c : ErrCode) (n u : Nat) (s : State) : (s.raisePrefixes c n u).phase = .idle := rfl
@[simp] theorem State.raisePrefixes_mem (c : ErrCode) (n u : Nat) (s : State) : (s.raisePrefixes c n u).mem = s.mem := rfl
@[simp] theorem State.raisePrefixes_op (c : ErrCode) (n u : Nat) (s : State) : (s.raisePrefixes c n u).op = s.op := rfl
@[simp] theorem State.raisePrefixes_lat (c : ErrCode) (n u : Nat) (s : State) : (s.raisePrefixes c n u).lat = s.lat := rfl
@[simp] theorem State.raisePrefixes_snap (c : ErrCode) (n u : Nat) (s : State) : (s.raisePrefixes c n u).snap = s.snap := rfl
@[simp] theorem State.raisePrefixes_enc (c : ErrCode) (n u : Nat) (s : State) : (s.raisePrefixes c n u).enc = s.enc := rfl
@[simp] theorem State.raisePrefixes_dec (c : ErrCode) (n u : Nat) (s : State) : (s.raisePrefixes c n u).dec = s.dec := rfl
@[simp] theorem State.raisePrefixes_seq (c : ErrCode) (n u : Nat) (s : State) : (s.raisePrefixes c n u).seq = s.seq := rfl
@[simp] theorem State.raisePrefixes_journal (c : ErrCode) (n u : Nat) (s : State) : (s.raisePrefixes c n u).journal = s.journal := rfl
@[simp] theorem State.raisePrefixes_port (c : ErrCode) (n u : Nat) (s : State) : (s.raisePrefixes c n u).port = s.port := rfl

/-! ## State.startWith -/

@[simp] theorem State.startWith_regs (p : Pace) (n : Nat) (w : Word) (s : State) : (s.startWith p n w).regs = clearedForCommand w s.regs := rfl
@[simp] theorem State.startWith_phase (p : Pace) (n : Nat) (w : Word) (s : State) : (s.startWith p n w).phase = .busy := rfl
@[simp] theorem State.startWith_mem (p : Pace) (n : Nat) (w : Word) (s : State) : (s.startWith p n w).mem = s.mem := rfl
@[simp] theorem State.startWith_op (p : Pace) (n : Nat) (w : Word) (s : State) : (s.startWith p n w).op = w := rfl
@[simp] theorem State.startWith_lat (p : Pace) (n : Nat) (w : Word) (s : State) : (s.startWith p n w).lat = latchOf s.regs := rfl
@[simp] theorem State.startWith_snap (p : Pace) (n : Nat) (w : Word) (s : State) : (s.startWith p n w).snap = Mem.region s.mem s.regs.inBase.toNat s.regs.inLen.toNat := rfl
@[simp] theorem State.startWith_enc (p : Pace) (n : Nat) (w : Word) (s : State) : (s.startWith p n w).enc = s.enc := rfl
@[simp] theorem State.startWith_dec (p : Pace) (n : Nat) (w : Word) (s : State) : (s.startWith p n w).dec = s.dec := rfl
@[simp] theorem State.startWith_seq (p : Pace) (n : Nat) (w : Word) (s : State) : (s.startWith p n w).seq = { s.seq with engine := .dispatch, pace := p, stall := n, progress := 0 } := rfl
@[simp] theorem State.startWith_journal (p : Pace) (n : Nat) (w : Word) (s : State) : (s.startWith p n w).journal = [] := rfl
@[simp] theorem State.startWith_port (p : Pace) (n : Nat) (w : Word) (s : State) : (s.startWith p n w).port =
  { s.port with awaiting := true, earlier := s.heldRegions } := rfl

/-! ## State.start -/

@[simp] theorem State.start_regs (w : Word) (s : State) : (s.start w).regs = clearedForCommand w s.regs := rfl
@[simp] theorem State.start_phase (w : Word) (s : State) : (s.start w).phase = .busy := rfl
@[simp] theorem State.start_mem (w : Word) (s : State) : (s.start w).mem = s.mem := rfl
@[simp] theorem State.start_op (w : Word) (s : State) : (s.start w).op = w := rfl
@[simp] theorem State.start_lat (w : Word) (s : State) : (s.start w).lat = latchOf s.regs := rfl
@[simp] theorem State.start_snap (w : Word) (s : State) : (s.start w).snap = Mem.region s.mem s.regs.inBase.toNat s.regs.inLen.toNat := rfl
@[simp] theorem State.start_enc (w : Word) (s : State) : (s.start w).enc = s.enc := rfl
@[simp] theorem State.start_dec (w : Word) (s : State) : (s.start w).dec = s.dec := rfl
@[simp] theorem State.start_seq (w : Word) (s : State) : (s.start w).seq = { engine := .dispatch, pace := s.drawPace, stall := s.drawStall, progress := 0, draws := s.seq.draws + 1 } := rfl
@[simp] theorem State.start_journal (w : Word) (s : State) : (s.start w).journal = [] := rfl
@[simp] theorem State.start_port (w : Word) (s : State) : (s.start w).port = { s.port with awaiting := true, earlier := s.heldRegions } := rfl

/-! ## State.drawn -/

@[simp] theorem State.drawn_regs (s : State) : (s.drawn).regs = s.regs := rfl
@[simp] theorem State.drawn_phase (s : State) : (s.drawn).phase = s.phase := rfl
@[simp] theorem State.drawn_mem (s : State) : (s.drawn).mem = s.mem := rfl
@[simp] theorem State.drawn_op (s : State) : (s.drawn).op = s.op := rfl
@[simp] theorem State.drawn_lat (s : State) : (s.drawn).lat = s.lat := rfl
@[simp] theorem State.drawn_snap (s : State) : (s.drawn).snap = s.snap := rfl
@[simp] theorem State.drawn_enc (s : State) : (s.drawn).enc = s.enc := rfl
@[simp] theorem State.drawn_dec (s : State) : (s.drawn).dec = s.dec := rfl
@[simp] theorem State.drawn_seq (s : State) : (s.drawn).seq = { s.seq with draws := s.seq.draws + 1 } := rfl
@[simp] theorem State.drawn_journal (s : State) : (s.drawn).journal = s.journal := rfl
@[simp] theorem State.drawn_port (s : State) : (s.drawn).port = s.port := rfl

/-! ## State.returnData -/

@[simp] theorem State.returnData_regs (v : Word) (s : State) : (s.returnData v).regs = s.regs := rfl
@[simp] theorem State.returnData_phase (v : Word) (s : State) : (s.returnData v).phase = s.phase := rfl
@[simp] theorem State.returnData_mem (v : Word) (s : State) : (s.returnData v).mem = s.mem := rfl
@[simp] theorem State.returnData_op (v : Word) (s : State) : (s.returnData v).op = s.op := rfl
@[simp] theorem State.returnData_lat (v : Word) (s : State) : (s.returnData v).lat = s.lat := rfl
@[simp] theorem State.returnData_snap (v : Word) (s : State) : (s.returnData v).snap = s.snap := rfl
@[simp] theorem State.returnData_enc (v : Word) (s : State) : (s.returnData v).enc = s.enc := rfl
@[simp] theorem State.returnData_dec (v : Word) (s : State) : (s.returnData v).dec = s.dec := rfl
@[simp] theorem State.returnData_seq (v : Word) (s : State) : (s.returnData v).seq = s.seq := rfl
@[simp] theorem State.returnData_journal (v : Word) (s : State) : (s.returnData v).journal = s.journal := rfl
@[simp] theorem State.returnData_port (v : Word) (s : State) : (s.returnData v).port = { s.port with rdata := v } := rfl

/-! ## State.observed -/

@[simp] theorem State.observed_regs (s : State) : (s.observed).regs = s.regs := rfl
@[simp] theorem State.observed_phase (s : State) : (s.observed).phase = s.phase := rfl
@[simp] theorem State.observed_mem (s : State) : (s.observed).mem = s.mem := rfl
@[simp] theorem State.observed_op (s : State) : (s.observed).op = s.op := rfl
@[simp] theorem State.observed_lat (s : State) : (s.observed).lat = s.lat := rfl
@[simp] theorem State.observed_snap (s : State) : (s.observed).snap = s.snap := rfl
@[simp] theorem State.observed_enc (s : State) : (s.observed).enc = s.enc := rfl
@[simp] theorem State.observed_dec (s : State) : (s.observed).dec = s.dec := rfl
@[simp] theorem State.observed_seq (s : State) : (s.observed).seq = s.seq := rfl
@[simp] theorem State.observed_journal (s : State) : (s.observed).journal = s.journal := rfl
@[simp] theorem State.observed_port (s : State) : (s.observed).port = { s.port with awaiting := false, earlier := [] } := rfl

/-! ## State.waitStep -/

@[simp] theorem State.waitStep_regs (s : State) : (s.waitStep).regs = s.regs := rfl
@[simp] theorem State.waitStep_phase (s : State) : (s.waitStep).phase = s.phase := rfl
@[simp] theorem State.waitStep_mem (s : State) : (s.waitStep).mem = s.mem := rfl
@[simp] theorem State.waitStep_op (s : State) : (s.waitStep).op = s.op := rfl
@[simp] theorem State.waitStep_lat (s : State) : (s.waitStep).lat = s.lat := rfl
@[simp] theorem State.waitStep_snap (s : State) : (s.waitStep).snap = s.snap := rfl
@[simp] theorem State.waitStep_enc (s : State) : (s.waitStep).enc = s.enc := rfl
@[simp] theorem State.waitStep_dec (s : State) : (s.waitStep).dec = s.dec := rfl
@[simp] theorem State.waitStep_seq (s : State) : (s.waitStep).seq = { s.seq with stall := s.seq.stall - 1 } := rfl
@[simp] theorem State.waitStep_journal (s : State) : (s.waitStep).journal = s.journal := rfl
@[simp] theorem State.waitStep_port (s : State) : (s.waitStep).port = s.port := rfl

/-! ## State.loadControl -/

@[simp] theorem State.loadControl_regs (c : Byte) (s : State) : (s.loadControl c).regs = s.regs := rfl
@[simp] theorem State.loadControl_phase (c : Byte) (s : State) : (s.loadControl c).phase = s.phase := rfl
@[simp] theorem State.loadControl_mem (c : Byte) (s : State) : (s.loadControl c).mem = s.mem := rfl
@[simp] theorem State.loadControl_op (c : Byte) (s : State) : (s.loadControl c).op = s.op := rfl
@[simp] theorem State.loadControl_lat (c : Byte) (s : State) : (s.loadControl c).lat = s.lat := rfl
@[simp] theorem State.loadControl_snap (c : Byte) (s : State) : (s.loadControl c).snap = s.snap := rfl
@[simp] theorem State.loadControl_enc (c : Byte) (s : State) : (s.loadControl c).enc = s.enc := rfl
@[simp] theorem State.loadControl_dec (c : Byte) (s : State) : (s.loadControl c).dec = { s.dec with ctrl := c, nb := Config.group, i := s.dec.i + 1 } := rfl
@[simp] theorem State.loadControl_seq (c : Byte) (s : State) : (s.loadControl c).seq = s.seq := rfl
@[simp] theorem State.loadControl_journal (c : Byte) (s : State) : (s.loadControl c).journal = s.journal := rfl
@[simp] theorem State.loadControl_port (c : Byte) (s : State) : (s.loadControl c).port = s.port := rfl

/-! ## State.takeToken -/

@[simp] theorem State.takeToken_regs (n : Nat) (s : State) : (s.takeToken n).regs = s.regs := rfl
@[simp] theorem State.takeToken_phase (n : Nat) (s : State) : (s.takeToken n).phase = s.phase := rfl
@[simp] theorem State.takeToken_mem (n : Nat) (s : State) : (s.takeToken n).mem = s.mem := rfl
@[simp] theorem State.takeToken_op (n : Nat) (s : State) : (s.takeToken n).op = s.op := rfl
@[simp] theorem State.takeToken_lat (n : Nat) (s : State) : (s.takeToken n).lat = s.lat := rfl
@[simp] theorem State.takeToken_snap (n : Nat) (s : State) : (s.takeToken n).snap = s.snap := rfl
@[simp] theorem State.takeToken_enc (n : Nat) (s : State) : (s.takeToken n).enc = s.enc := rfl
@[simp] theorem State.takeToken_dec (n : Nat) (s : State) : (s.takeToken n).dec = { s.dec with ctrl := s.dec.ctrl <<< 1, nb := s.dec.nb - 1, i := s.dec.i + n } := rfl
@[simp] theorem State.takeToken_seq (n : Nat) (s : State) : (s.takeToken n).seq = s.seq := rfl
@[simp] theorem State.takeToken_journal (n : Nat) (s : State) : (s.takeToken n).journal = s.journal := rfl
@[simp] theorem State.takeToken_port (n : Nat) (s : State) : (s.takeToken n).port = s.port := rfl

/-! ## State.startDecode -/

@[simp] theorem State.startDecode_regs (b : Bool) (n : Nat) (t c : Word) (s : State) : (s.startDecode b n t c).regs = s.regs := rfl
@[simp] theorem State.startDecode_phase (b : Bool) (n : Nat) (t c : Word) (s : State) : (s.startDecode b n t c).phase = s.phase := rfl
@[simp] theorem State.startDecode_mem (b : Bool) (n : Nat) (t c : Word) (s : State) : (s.startDecode b n t c).mem = s.mem := rfl
@[simp] theorem State.startDecode_op (b : Bool) (n : Nat) (t c : Word) (s : State) : (s.startDecode b n t c).op = s.op := rfl
@[simp] theorem State.startDecode_lat (b : Bool) (n : Nat) (t c : Word) (s : State) : (s.startDecode b n t c).lat = s.lat := rfl
@[simp] theorem State.startDecode_snap (b : Bool) (n : Nat) (t c : Word) (s : State) : (s.startDecode b n t c).snap = s.snap := rfl
@[simp] theorem State.startDecode_enc (b : Bool) (n : Nat) (t c : Word) (s : State) : (s.startDecode b n t c).enc = s.enc := rfl
@[simp] theorem State.startDecode_dec (b : Bool) (n : Nat) (t c : Word) (s : State) : (s.startDecode b n t c).dec = { s.dec with container := b, slen := n, target := t, csize := c, i := 0, j := 0, nb := 0 } := rfl
@[simp] theorem State.startDecode_seq (b : Bool) (n : Nat) (t c : Word) (s : State) : (s.startDecode b n t c).seq = { s.seq with engine := .decode } := rfl
@[simp] theorem State.startDecode_journal (b : Bool) (n : Nat) (t c : Word) (s : State) : (s.startDecode b n t c).journal = s.journal := rfl
@[simp] theorem State.startDecode_port (b : Bool) (n : Nat) (t c : Word) (s : State) : (s.startDecode b n t c).port = s.port := rfl

/-! ## State.markCopy -/

@[simp] theorem State.markCopy_regs (s : State) : (s.markCopy).regs = s.regs := rfl
@[simp] theorem State.markCopy_phase (s : State) : (s.markCopy).phase = s.phase := rfl
@[simp] theorem State.markCopy_mem (s : State) : (s.markCopy).mem = s.mem := rfl
@[simp] theorem State.markCopy_op (s : State) : (s.markCopy).op = s.op := rfl
@[simp] theorem State.markCopy_lat (s : State) : (s.markCopy).lat = s.lat := rfl
@[simp] theorem State.markCopy_snap (s : State) : (s.markCopy).snap = s.snap := rfl
@[simp] theorem State.markCopy_enc (s : State) : (s.markCopy).enc = { s.enc with acc := s.enc.acc ||| (0x80 : Byte) >>> s.enc.k } := rfl
@[simp] theorem State.markCopy_dec (s : State) : (s.markCopy).dec = s.dec := rfl
@[simp] theorem State.markCopy_seq (s : State) : (s.markCopy).seq = s.seq := rfl
@[simp] theorem State.markCopy_journal (s : State) : (s.markCopy).journal = s.journal := rfl
@[simp] theorem State.markCopy_port (s : State) : (s.markCopy).port = s.port := rfl

/-! ## State.advanceInput -/

@[simp] theorem State.advanceInput_regs (n : Nat) (s : State) : (s.advanceInput n).regs = s.regs := rfl
@[simp] theorem State.advanceInput_phase (n : Nat) (s : State) : (s.advanceInput n).phase = s.phase := rfl
@[simp] theorem State.advanceInput_mem (n : Nat) (s : State) : (s.advanceInput n).mem = s.mem := rfl
@[simp] theorem State.advanceInput_op (n : Nat) (s : State) : (s.advanceInput n).op = s.op := rfl
@[simp] theorem State.advanceInput_lat (n : Nat) (s : State) : (s.advanceInput n).lat = s.lat := rfl
@[simp] theorem State.advanceInput_snap (n : Nat) (s : State) : (s.advanceInput n).snap = s.snap := rfl
@[simp] theorem State.advanceInput_enc (n : Nat) (s : State) : (s.advanceInput n).enc = { s.enc with p := s.enc.p + n } := rfl
@[simp] theorem State.advanceInput_dec (n : Nat) (s : State) : (s.advanceInput n).dec = s.dec := rfl
@[simp] theorem State.advanceInput_seq (n : Nat) (s : State) : (s.advanceInput n).seq = s.seq := rfl
@[simp] theorem State.advanceInput_journal (n : Nat) (s : State) : (s.advanceInput n).journal = s.journal := rfl
@[simp] theorem State.advanceInput_port (n : Nat) (s : State) : (s.advanceInput n).port = s.port := rfl

/-! ## State.startEncode -/

@[simp] theorem State.startEncode_regs (b : Bool) (s : State) : (s.startEncode b).regs = s.regs := rfl
@[simp] theorem State.startEncode_phase (b : Bool) (s : State) : (s.startEncode b).phase = s.phase := rfl
@[simp] theorem State.startEncode_mem (b : Bool) (s : State) : (s.startEncode b).mem = s.mem := rfl
@[simp] theorem State.startEncode_op (b : Bool) (s : State) : (s.startEncode b).op = s.op := rfl
@[simp] theorem State.startEncode_lat (b : Bool) (s : State) : (s.startEncode b).lat = s.lat := rfl
@[simp] theorem State.startEncode_snap (b : Bool) (s : State) : (s.startEncode b).snap = s.snap := rfl
@[simp] theorem State.startEncode_enc (b : Bool) (s : State) : (s.startEncode b).enc = { s.enc with container := b, p := 0, o := 0, acc := 0, k := 0 } := rfl
@[simp] theorem State.startEncode_dec (b : Bool) (s : State) : (s.startEncode b).dec = s.dec := rfl
@[simp] theorem State.startEncode_seq (b : Bool) (s : State) : (s.startEncode b).seq = { s.seq with engine := .encode } := rfl
@[simp] theorem State.startEncode_journal (b : Bool) (s : State) : (s.startEncode b).journal = s.journal := rfl
@[simp] theorem State.startEncode_port (b : Bool) (s : State) : (s.startEncode b).port = s.port := rfl

/-! ## State.resetCore -/

@[simp] theorem State.resetCore_regs (s : State) : (s.resetCore).regs = Regs.reset := rfl
@[simp] theorem State.resetCore_phase (s : State) : (s.resetCore).phase = .idle := rfl
@[simp] theorem State.resetCore_mem (s : State) : (s.resetCore).mem = s.memAfterReset := rfl
@[simp] theorem State.resetCore_op (s : State) : (s.resetCore).op = 0 := rfl
@[simp] theorem State.resetCore_lat (s : State) : (s.resetCore).lat = State.reset.lat := rfl
@[simp] theorem State.resetCore_snap (s : State) : (s.resetCore).snap = [] := rfl
@[simp] theorem State.resetCore_enc (s : State) : (s.resetCore).enc = State.reset.enc := rfl
@[simp] theorem State.resetCore_dec (s : State) : (s.resetCore).dec = State.reset.dec := rfl
@[simp] theorem State.resetCore_seq (s : State) : (s.resetCore).seq = { State.reset.seq with draws := s.seq.draws + 1 } := rfl
@[simp] theorem State.resetCore_journal (s : State) : (s.resetCore).journal = [] := rfl
@[simp] theorem State.resetCore_port (s : State) : (s.resetCore).port = { s.port with awaiting := false, earlier := [] } := rfl

/-! ## Regs.noteClamp -/

@[simp] theorem Regs.noteClamp_ie (h : Parsed) (r : Regs) : (r.noteClamp h).ie = r.ie := rfl
@[simp] theorem Regs.noteClamp_cmd (h : Parsed) (r : Regs) : (r.noteClamp h).cmd = r.cmd := rfl
@[simp] theorem Regs.noteClamp_done (h : Parsed) (r : Regs) : (r.noteClamp h).done = r.done := rfl
@[simp] theorem Regs.noteClamp_err (h : Parsed) (r : Regs) : (r.noteClamp h).err = r.err := rfl
@[simp] theorem Regs.noteClamp_errcode (h : Parsed) (r : Regs) : (r.noteClamp h).errcode = r.errcode := rfl
@[simp] theorem Regs.noteClamp_diagClamp (h : Parsed) (r : Regs) : (r.noteClamp h).diagClamp = (r.diagClamp || h.clamped) := rfl
@[simp] theorem Regs.noteClamp_diagLenmm (h : Parsed) (r : Regs) : (r.noteClamp h).diagLenmm = r.diagLenmm := rfl
@[simp] theorem Regs.noteClamp_inBase (h : Parsed) (r : Regs) : (r.noteClamp h).inBase = r.inBase := rfl
@[simp] theorem Regs.noteClamp_inLen (h : Parsed) (r : Regs) : (r.noteClamp h).inLen = r.inLen := rfl
@[simp] theorem Regs.noteClamp_outBase (h : Parsed) (r : Regs) : (r.noteClamp h).outBase = r.outBase := rfl
@[simp] theorem Regs.noteClamp_outLen (h : Parsed) (r : Regs) : (r.noteClamp h).outLen = r.outLen := rfl
@[simp] theorem Regs.noteClamp_usize (h : Parsed) (r : Regs) : (r.noteClamp h).usize = r.usize := rfl
@[simp] theorem Regs.noteClamp_csize (h : Parsed) (r : Regs) : (r.noteClamp h).csize = r.csize := rfl
@[simp] theorem Regs.noteClamp_slen (h : Parsed) (r : Regs) : (r.noteClamp h).slen = r.slen := rfl
@[simp] theorem Regs.noteClamp_inUsed (h : Parsed) (r : Regs) : (r.noteClamp h).inUsed = r.inUsed := rfl
@[simp] theorem Regs.noteClamp_mpos (h : Parsed) (r : Regs) : (r.noteClamp h).mpos = r.mpos := rfl
@[simp] theorem Regs.noteClamp_mres (h : Parsed) (r : Regs) : (r.noteClamp h).mres = r.mres := rfl

/-! ## Regs.parsed -/

@[simp] theorem Regs.parsed_ie (h : Parsed) (r : Regs) : (r.parsed h).ie = r.ie := rfl
@[simp] theorem Regs.parsed_cmd (h : Parsed) (r : Regs) : (r.parsed h).cmd = r.cmd := rfl
@[simp] theorem Regs.parsed_done (h : Parsed) (r : Regs) : (r.parsed h).done = r.done := rfl
@[simp] theorem Regs.parsed_err (h : Parsed) (r : Regs) : (r.parsed h).err = r.err := rfl
@[simp] theorem Regs.parsed_errcode (h : Parsed) (r : Regs) : (r.parsed h).errcode = r.errcode := rfl
@[simp] theorem Regs.parsed_diagClamp (h : Parsed) (r : Regs) : (r.parsed h).diagClamp = r.diagClamp := rfl
@[simp] theorem Regs.parsed_diagLenmm (h : Parsed) (r : Regs) : (r.parsed h).diagLenmm = r.diagLenmm := rfl
@[simp] theorem Regs.parsed_inBase (h : Parsed) (r : Regs) : (r.parsed h).inBase = r.inBase := rfl
@[simp] theorem Regs.parsed_inLen (h : Parsed) (r : Regs) : (r.parsed h).inLen = r.inLen := rfl
@[simp] theorem Regs.parsed_outBase (h : Parsed) (r : Regs) : (r.parsed h).outBase = r.outBase := rfl
@[simp] theorem Regs.parsed_outLen (h : Parsed) (r : Regs) : (r.parsed h).outLen = r.outLen := rfl
@[simp] theorem Regs.parsed_usize (h : Parsed) (r : Regs) : (r.parsed h).usize = h.usize := rfl
@[simp] theorem Regs.parsed_csize (h : Parsed) (r : Regs) : (r.parsed h).csize = h.csize := rfl
@[simp] theorem Regs.parsed_slen (h : Parsed) (r : Regs) : (r.parsed h).slen = BitVec.ofNat 32 h.slen := rfl
@[simp] theorem Regs.parsed_inUsed (h : Parsed) (r : Regs) : (r.parsed h).inUsed = BitVec.ofNat 32 Config.hdrSize := rfl
@[simp] theorem Regs.parsed_mpos (h : Parsed) (r : Regs) : (r.parsed h).mpos = r.mpos := rfl
@[simp] theorem Regs.parsed_mres (h : Parsed) (r : Regs) : (r.parsed h).mres = r.mres := rfl

/-! ## Regs.decoded -/

@[simp] theorem Regs.decoded_ie (d : DecCursors) (n u : Nat) (r : Regs) : (r.decoded d n u).ie = r.ie := rfl
@[simp] theorem Regs.decoded_cmd (d : DecCursors) (n u : Nat) (r : Regs) : (r.decoded d n u).cmd = r.cmd := rfl
@[simp] theorem Regs.decoded_done (d : DecCursors) (n u : Nat) (r : Regs) : (r.decoded d n u).done = r.done := rfl
@[simp] theorem Regs.decoded_err (d : DecCursors) (n u : Nat) (r : Regs) : (r.decoded d n u).err = r.err := rfl
@[simp] theorem Regs.decoded_errcode (d : DecCursors) (n u : Nat) (r : Regs) : (r.decoded d n u).errcode = r.errcode := rfl
@[simp] theorem Regs.decoded_diagClamp (d : DecCursors) (n u : Nat) (r : Regs) : (r.decoded d n u).diagClamp = r.diagClamp := rfl
@[simp] theorem Regs.decoded_diagLenmm (d : DecCursors) (n u : Nat) (r : Regs) : (r.decoded d n u).diagLenmm = r.diagLenmm := rfl
@[simp] theorem Regs.decoded_inBase (d : DecCursors) (n u : Nat) (r : Regs) : (r.decoded d n u).inBase = r.inBase := rfl
@[simp] theorem Regs.decoded_inLen (d : DecCursors) (n u : Nat) (r : Regs) : (r.decoded d n u).inLen = r.inLen := rfl
@[simp] theorem Regs.decoded_outBase (d : DecCursors) (n u : Nat) (r : Regs) : (r.decoded d n u).outBase = r.outBase := rfl
@[simp] theorem Regs.decoded_outLen (d : DecCursors) (n u : Nat) (r : Regs) : (r.decoded d n u).outLen = BitVec.ofNat 32 n := rfl
@[simp] theorem Regs.decoded_usize (d : DecCursors) (n u : Nat) (r : Regs) : (r.decoded d n u).usize = if d.container then d.target else r.usize := rfl
@[simp] theorem Regs.decoded_csize (d : DecCursors) (n u : Nat) (r : Regs) : (r.decoded d n u).csize = if d.container then d.csize else r.csize := rfl
@[simp] theorem Regs.decoded_slen (d : DecCursors) (n u : Nat) (r : Regs) : (r.decoded d n u).slen = BitVec.ofNat 32 d.slen := rfl
@[simp] theorem Regs.decoded_inUsed (d : DecCursors) (n u : Nat) (r : Regs) : (r.decoded d n u).inUsed = BitVec.ofNat 32 u := rfl
@[simp] theorem Regs.decoded_mpos (d : DecCursors) (n u : Nat) (r : Regs) : (r.decoded d n u).mpos = r.mpos := rfl
@[simp] theorem Regs.decoded_mres (d : DecCursors) (n u : Nat) (r : Regs) : (r.decoded d n u).mres = r.mres := rfl

/-! ## Regs.noteMismatch -/

@[simp] theorem Regs.noteMismatch_ie (b : Bool) (r : Regs) : (r.noteMismatch b).ie = r.ie := rfl
@[simp] theorem Regs.noteMismatch_cmd (b : Bool) (r : Regs) : (r.noteMismatch b).cmd = r.cmd := rfl
@[simp] theorem Regs.noteMismatch_done (b : Bool) (r : Regs) : (r.noteMismatch b).done = r.done := rfl
@[simp] theorem Regs.noteMismatch_err (b : Bool) (r : Regs) : (r.noteMismatch b).err = r.err := rfl
@[simp] theorem Regs.noteMismatch_errcode (b : Bool) (r : Regs) : (r.noteMismatch b).errcode = r.errcode := rfl
@[simp] theorem Regs.noteMismatch_diagClamp (b : Bool) (r : Regs) : (r.noteMismatch b).diagClamp = r.diagClamp := rfl
@[simp] theorem Regs.noteMismatch_diagLenmm (b : Bool) (r : Regs) : (r.noteMismatch b).diagLenmm = (r.diagLenmm || b) := rfl
@[simp] theorem Regs.noteMismatch_inBase (b : Bool) (r : Regs) : (r.noteMismatch b).inBase = r.inBase := rfl
@[simp] theorem Regs.noteMismatch_inLen (b : Bool) (r : Regs) : (r.noteMismatch b).inLen = r.inLen := rfl
@[simp] theorem Regs.noteMismatch_outBase (b : Bool) (r : Regs) : (r.noteMismatch b).outBase = r.outBase := rfl
@[simp] theorem Regs.noteMismatch_outLen (b : Bool) (r : Regs) : (r.noteMismatch b).outLen = r.outLen := rfl
@[simp] theorem Regs.noteMismatch_usize (b : Bool) (r : Regs) : (r.noteMismatch b).usize = r.usize := rfl
@[simp] theorem Regs.noteMismatch_csize (b : Bool) (r : Regs) : (r.noteMismatch b).csize = r.csize := rfl
@[simp] theorem Regs.noteMismatch_slen (b : Bool) (r : Regs) : (r.noteMismatch b).slen = r.slen := rfl
@[simp] theorem Regs.noteMismatch_inUsed (b : Bool) (r : Regs) : (r.noteMismatch b).inUsed = r.inUsed := rfl
@[simp] theorem Regs.noteMismatch_mpos (b : Bool) (r : Regs) : (r.noteMismatch b).mpos = r.mpos := rfl
@[simp] theorem Regs.noteMismatch_mres (b : Bool) (r : Regs) : (r.noteMismatch b).mres = r.mres := rfl

/-! ## Regs.encoded -/

@[simp] theorem Regs.encoded_ie (n l o : Nat) (r : Regs) : (r.encoded n l o).ie = r.ie := rfl
@[simp] theorem Regs.encoded_cmd (n l o : Nat) (r : Regs) : (r.encoded n l o).cmd = r.cmd := rfl
@[simp] theorem Regs.encoded_done (n l o : Nat) (r : Regs) : (r.encoded n l o).done = r.done := rfl
@[simp] theorem Regs.encoded_err (n l o : Nat) (r : Regs) : (r.encoded n l o).err = r.err := rfl
@[simp] theorem Regs.encoded_errcode (n l o : Nat) (r : Regs) : (r.encoded n l o).errcode = r.errcode := rfl
@[simp] theorem Regs.encoded_diagClamp (n l o : Nat) (r : Regs) : (r.encoded n l o).diagClamp = r.diagClamp := rfl
@[simp] theorem Regs.encoded_diagLenmm (n l o : Nat) (r : Regs) : (r.encoded n l o).diagLenmm = r.diagLenmm := rfl
@[simp] theorem Regs.encoded_inBase (n l o : Nat) (r : Regs) : (r.encoded n l o).inBase = r.inBase := rfl
@[simp] theorem Regs.encoded_inLen (n l o : Nat) (r : Regs) : (r.encoded n l o).inLen = r.inLen := rfl
@[simp] theorem Regs.encoded_outBase (n l o : Nat) (r : Regs) : (r.encoded n l o).outBase = r.outBase := rfl
@[simp] theorem Regs.encoded_outLen (n l o : Nat) (r : Regs) : (r.encoded n l o).outLen = BitVec.ofNat 32 o := rfl
@[simp] theorem Regs.encoded_usize (n l o : Nat) (r : Regs) : (r.encoded n l o).usize = BitVec.ofNat 32 n := rfl
@[simp] theorem Regs.encoded_csize (n l o : Nat) (r : Regs) : (r.encoded n l o).csize = BitVec.ofNat 32 l := rfl
@[simp] theorem Regs.encoded_slen (n l o : Nat) (r : Regs) : (r.encoded n l o).slen = BitVec.ofNat 32 l := rfl
@[simp] theorem Regs.encoded_inUsed (n l o : Nat) (r : Regs) : (r.encoded n l o).inUsed = BitVec.ofNat 32 n := rfl
@[simp] theorem Regs.encoded_mpos (n l o : Nat) (r : Regs) : (r.encoded n l o).mpos = r.mpos := rfl
@[simp] theorem Regs.encoded_mres (n l o : Nat) (r : Regs) : (r.encoded n l o).mres = r.mres := rfl

/-! ## Regs.writeStatus -/

@[simp] theorem Regs.writeStatus_ie (v : Word) (r : Regs) : (r.writeStatus v).ie = r.ie := rfl
@[simp] theorem Regs.writeStatus_cmd (v : Word) (r : Regs) : (r.writeStatus v).cmd = r.cmd := rfl
@[simp] theorem Regs.writeStatus_done (v : Word) (r : Regs) : (r.writeStatus v).done = (r.done && !v.getLsbD 1) := rfl
@[simp] theorem Regs.writeStatus_err (v : Word) (r : Regs) : (r.writeStatus v).err = (r.err && !v.getLsbD 2) := rfl
@[simp] theorem Regs.writeStatus_errcode (v : Word) (r : Regs) : (r.writeStatus v).errcode = r.errcode := rfl
@[simp] theorem Regs.writeStatus_diagClamp (v : Word) (r : Regs) : (r.writeStatus v).diagClamp = r.diagClamp := rfl
@[simp] theorem Regs.writeStatus_diagLenmm (v : Word) (r : Regs) : (r.writeStatus v).diagLenmm = r.diagLenmm := rfl
@[simp] theorem Regs.writeStatus_inBase (v : Word) (r : Regs) : (r.writeStatus v).inBase = r.inBase := rfl
@[simp] theorem Regs.writeStatus_inLen (v : Word) (r : Regs) : (r.writeStatus v).inLen = r.inLen := rfl
@[simp] theorem Regs.writeStatus_outBase (v : Word) (r : Regs) : (r.writeStatus v).outBase = r.outBase := rfl
@[simp] theorem Regs.writeStatus_outLen (v : Word) (r : Regs) : (r.writeStatus v).outLen = r.outLen := rfl
@[simp] theorem Regs.writeStatus_usize (v : Word) (r : Regs) : (r.writeStatus v).usize = r.usize := rfl
@[simp] theorem Regs.writeStatus_csize (v : Word) (r : Regs) : (r.writeStatus v).csize = r.csize := rfl
@[simp] theorem Regs.writeStatus_slen (v : Word) (r : Regs) : (r.writeStatus v).slen = r.slen := rfl
@[simp] theorem Regs.writeStatus_inUsed (v : Word) (r : Regs) : (r.writeStatus v).inUsed = r.inUsed := rfl
@[simp] theorem Regs.writeStatus_mpos (v : Word) (r : Regs) : (r.writeStatus v).mpos = r.mpos := rfl
@[simp] theorem Regs.writeStatus_mres (v : Word) (r : Regs) : (r.writeStatus v).mres = r.mres := rfl

/-! ## Regs.writeCtrl -/

@[simp] theorem Regs.writeCtrl_ie (v : Word) (r : Regs) : (r.writeCtrl v).ie = v.getLsbD 0 := rfl
@[simp] theorem Regs.writeCtrl_cmd (v : Word) (r : Regs) : (r.writeCtrl v).cmd = r.cmd := rfl
@[simp] theorem Regs.writeCtrl_done (v : Word) (r : Regs) : (r.writeCtrl v).done = r.done := rfl
@[simp] theorem Regs.writeCtrl_err (v : Word) (r : Regs) : (r.writeCtrl v).err = r.err := rfl
@[simp] theorem Regs.writeCtrl_errcode (v : Word) (r : Regs) : (r.writeCtrl v).errcode = r.errcode := rfl
@[simp] theorem Regs.writeCtrl_diagClamp (v : Word) (r : Regs) : (r.writeCtrl v).diagClamp = r.diagClamp := rfl
@[simp] theorem Regs.writeCtrl_diagLenmm (v : Word) (r : Regs) : (r.writeCtrl v).diagLenmm = r.diagLenmm := rfl
@[simp] theorem Regs.writeCtrl_inBase (v : Word) (r : Regs) : (r.writeCtrl v).inBase = r.inBase := rfl
@[simp] theorem Regs.writeCtrl_inLen (v : Word) (r : Regs) : (r.writeCtrl v).inLen = r.inLen := rfl
@[simp] theorem Regs.writeCtrl_outBase (v : Word) (r : Regs) : (r.writeCtrl v).outBase = r.outBase := rfl
@[simp] theorem Regs.writeCtrl_outLen (v : Word) (r : Regs) : (r.writeCtrl v).outLen = r.outLen := rfl
@[simp] theorem Regs.writeCtrl_usize (v : Word) (r : Regs) : (r.writeCtrl v).usize = r.usize := rfl
@[simp] theorem Regs.writeCtrl_csize (v : Word) (r : Regs) : (r.writeCtrl v).csize = r.csize := rfl
@[simp] theorem Regs.writeCtrl_slen (v : Word) (r : Regs) : (r.writeCtrl v).slen = r.slen := rfl
@[simp] theorem Regs.writeCtrl_inUsed (v : Word) (r : Regs) : (r.writeCtrl v).inUsed = r.inUsed := rfl
@[simp] theorem Regs.writeCtrl_mpos (v : Word) (r : Regs) : (r.writeCtrl v).mpos = r.mpos := rfl
@[simp] theorem Regs.writeCtrl_mres (v : Word) (r : Regs) : (r.writeCtrl v).mres = r.mres := rfl

/-! ## clearedForCommand -/

@[simp] theorem clearedForCommand_ie (w : Word) (r : Regs) : (clearedForCommand w r).ie = r.ie := rfl
@[simp] theorem clearedForCommand_cmd (w : Word) (r : Regs) : (clearedForCommand w r).cmd = w := rfl
@[simp] theorem clearedForCommand_done (w : Word) (r : Regs) : (clearedForCommand w r).done = false := rfl
@[simp] theorem clearedForCommand_err (w : Word) (r : Regs) : (clearedForCommand w r).err = false := rfl
@[simp] theorem clearedForCommand_errcode (w : Word) (r : Regs) : (clearedForCommand w r).errcode = .none := rfl
@[simp] theorem clearedForCommand_diagClamp (w : Word) (r : Regs) : (clearedForCommand w r).diagClamp = false := rfl
@[simp] theorem clearedForCommand_diagLenmm (w : Word) (r : Regs) : (clearedForCommand w r).diagLenmm = false := rfl
@[simp] theorem clearedForCommand_inBase (w : Word) (r : Regs) : (clearedForCommand w r).inBase = r.inBase := rfl
@[simp] theorem clearedForCommand_inLen (w : Word) (r : Regs) : (clearedForCommand w r).inLen = r.inLen := rfl
@[simp] theorem clearedForCommand_outBase (w : Word) (r : Regs) : (clearedForCommand w r).outBase = r.outBase := rfl
@[simp] theorem clearedForCommand_outLen (w : Word) (r : Regs) : (clearedForCommand w r).outLen = r.outLen := rfl
@[simp] theorem clearedForCommand_usize (w : Word) (r : Regs) : (clearedForCommand w r).usize = r.usize := rfl
@[simp] theorem clearedForCommand_csize (w : Word) (r : Regs) : (clearedForCommand w r).csize = r.csize := rfl
@[simp] theorem clearedForCommand_slen (w : Word) (r : Regs) : (clearedForCommand w r).slen = r.slen := rfl
@[simp] theorem clearedForCommand_inUsed (w : Word) (r : Regs) : (clearedForCommand w r).inUsed = r.inUsed := rfl
@[simp] theorem clearedForCommand_mpos (w : Word) (r : Regs) : (clearedForCommand w r).mpos = r.mpos := rfl
@[simp] theorem clearedForCommand_mres (w : Word) (r : Regs) : (clearedForCommand w r).mres = r.mres := rfl

end Sys2Proof.Machine
end

