-- ==== Sys2Proof/Laws/Touches.lean ====
section
/-! SUPPORT. What any part of a command can do to the state, said once: it keeps the setup (`SameSetup`), and it changes
memory only by a sequence of writes that its journal records, at addresses that `OutWrite` allows (R66, R69). -/
namespace Sys2Proof.Machine

/-- From `s` to `t` the setup is kept, and memory and journal change by a sequence of writes at addresses in `P`. -/
structure Touches (P : Nat → Prop) (s t : State) : Prop where
  setup : SameSetup s t
  writes : ∃ ws : List Host.Cell, t.mem = Mem.writeAll s.mem ws ∧ t.journal = Mem.replaced s.mem ws ++ s.journal ∧
    ∀ c ∈ ws, P c.1

/-- The addresses `OutWrite` allows. -/
def State.Allows (chk : Bool) (s : State) (a : Nat) : Prop := ∃ j, a = s.outAddr j ∧ s.outWriteError chk j = none

theorem SameSetup.rfl' (s : State) : SameSetup s s := by constructor <;> rfl

theorem SameSetup.trans {s t u : State} (h : SameSetup s t) (h' : SameSetup t u) : SameSetup s u where
  ie := h'.ie.trans h.ie
  cmd := h'.cmd.trans h.cmd
  inBase := h'.inBase.trans h.inBase
  inLen := h'.inLen.trans h.inLen
  outBase := h'.outBase.trans h.outBase
  mpos := h'.mpos.trans h.mpos
  op := h'.op.trans h.op
  lat := h'.lat.trans h.lat
  snap := h'.snap.trans h.snap
  port := h'.port.trans h.port
  pace := h'.pace.trans h.pace
  stall := h'.stall.trans h.stall
  progress := h'.progress.trans h.progress
  draws := h'.draws.trans h.draws

theorem Touches.rfl' (P : Nat → Prop) (s : State) : Touches P s s :=
  ⟨SameSetup.rfl' s, [], by simp [Mem.replaced]⟩

theorem Touches.trans {P : Nat → Prop} {s t u : State} (h : Touches P s t) (h' : Touches P t u) : Touches P s u := by
  obtain ⟨hs, ws, hm, hj, hp⟩ := h
  obtain ⟨hs', ws', hm', hj', hp'⟩ := h'
  refine ⟨hs.trans hs', ws ++ ws', ?_, ?_, ?_⟩
  · rw [hm', hm, Mem.writeAll_append]
  · rw [hj', hj, hm, Mem.replaced_append, List.append_assoc]
  · intro c hc
    rcases List.mem_append.1 hc with hc | hc
    · exact hp c hc
    · exact hp' c hc

theorem Touches.mono {P Q : Nat → Prop} {s t : State} (hPQ : ∀ a, P a → Q a) (h : Touches P s t) : Touches Q s t :=
  ⟨h.setup, h.writes.imp fun _ hw => ⟨hw.1, hw.2.1, fun c hc => hPQ _ (hw.2.2 c hc)⟩⟩

/-- A change of the state that leaves the setup, the memory and the journal. -/
theorem Touches.of_setup {P : Nat → Prop} {s t : State} (h : SameSetup s t) (hm : t.mem = s.mem)
    (hj : t.journal = s.journal) : Touches P s t :=
  ⟨h, [], by simp [Mem.replaced, hm, hj]⟩

/-- A sequence of writes reads, at an address outside `P`, as before. -/
theorem Touches.read_outside {P : Nat → Prop} {s t : State} (h : Touches P s t) (hm : Mem.wf s.mem = true) {a : Nat}
    (ha : ¬ P a) : Mem.read t.mem a = Mem.read s.mem a := by
  obtain ⟨ws, hw, -, hp⟩ := h.writes
  rw [hw]
  exact Mem.read_writeAll_other hm (fun c hc heq => ha (heq ▸ hp c hc))

theorem Touches.mem_wf {P : Nat → Prop} {s t : State} (h : Touches P s t) (hm : Mem.wf s.mem = true) :
    Mem.wf t.mem = true := by
  obtain ⟨ws, hw, -, -⟩ := h.writes
  rw [hw]
  exact Mem.writeAll_wf hm

/-! ## What depends on the latch alone -/

theorem State.outAddr_congr {s t : State} (h : t.lat = s.lat) (j : Nat) : t.outAddr j = s.outAddr j := by
  simp [State.outAddr, h]

theorem State.inInput_congr {s t : State} (h : t.lat = s.lat) (a : Nat) : t.inInput a = s.inInput a := by
  simp [State.inInput, h]

theorem State.outWriteError_congr {s t : State} (h : t.lat = s.lat) (chk : Bool) (j : Nat) :
    t.outWriteError chk j = s.outWriteError chk j := by
  simp [State.outWriteError, State.outAddr_congr h, State.inInput_congr h]

theorem State.Allows_congr {s t : State} (h : t.lat = s.lat) (chk : Bool) : t.Allows chk = s.Allows chk := by
  funext a
  simp [State.Allows, State.outAddr_congr h, State.outWriteError_congr h]

theorem State.Room_congr {s t : State} (h : t.lat = s.lat) (chk : Bool) (n : Nat) : t.Room chk n ↔ s.Room chk n := by
  simp [State.Room, State.outWriteError_congr h]

theorem State.inputLen_congr {s t : State} (h : t.lat = s.lat) : t.inputLen = s.inputLen := by
  simp [State.inputLen, h]

theorem State.inRead_congr {s t : State} (hl : t.lat = s.lat) (hs : t.snap = s.snap) : t.inRead = s.inRead := by
  funext i
  simp [State.inRead, hl, hs]

theorem State.inputOutOfRange_congr {s t : State} (h : t.lat = s.lat) : t.inputOutOfRange = s.inputOutOfRange := by
  rw [State.inputOutOfRange, State.inputOutOfRange, h]

/-- `OutWrite` raises nothing exactly below `ADDR_TOP` and, where it is barred, outside the input region (R66). -/
theorem State.outWriteError_eq_none {chk : Bool} {j : Nat} {s : State} :
    s.outWriteError chk j = none ↔ s.outAddr j < Config.addrTop ∧ (chk = true → s.inInput (s.outAddr j) = false) := by
  unfold State.outWriteError
  split
  · rename_i h; simp; intro h'; simp at h; omega
  · rename_i h
    split
    · rename_i h2; simp at h2; simp [h2]
    · rename_i h2; simp at h2 h; exact ⟨fun _ => ⟨by simpa using h, by simpa using h2⟩, fun _ => rfl⟩

/-- An address `OutWrite` allows lies in `[L.OUT_BASE, ADDR_TOP)`, and outside the input region where that is barred. -/
theorem State.Allows.bounds {chk : Bool} {s : State} {a : Nat} (h : s.Allows chk a) :
    s.lat.outBase.toNat ≤ a ∧ a < Config.addrTop ∧ (chk = true → s.inInput a = false) := by
  obtain ⟨j, rfl, hj⟩ := h
  have := State.outWriteError_eq_none.1 hj
  exact ⟨by simp [State.outAddr], this⟩

theorem State.Allows.weaken {chk : Bool} {s : State} {a : Nat} (h : s.Allows true a) : s.Allows chk a := by
  obtain ⟨j, rfl, hj⟩ := h
  have := State.outWriteError_eq_none.1 hj
  exact ⟨j, rfl, State.outWriteError_eq_none.2 ⟨this.1, fun _ => this.2 rfl⟩⟩

/-! ## The shared operations -/

/-- The state a part of a body ends in, gone on or raised. -/
def Run.state : Run → State
  | .go s => s
  | .raised _ _ s => s

@[simp] theorem Run.state_go (s : State) : (Run.go s).state = s := rfl

@[simp] theorem Run.state_raised (c : ErrCode) (n : Nat) (s : State) : (Run.raised c n s).state = s := rfl

@[simp] theorem Run.andThen_go (s : State) (f : State → Run) : (Run.go s).andThen f = f s := rfl

@[simp] theorem Run.andThen_raised (c : ErrCode) (n : Nat) (s : State) (f : State → Run) :
    (Run.raised c n s).andThen f = .raised c n s := rfl

theorem Touches.andThen {P : Nat → Prop} {s : State} {r : Run} {f : State → Run} (h : Touches P s r.state)
    (hf : ∀ t, r = .go t → Touches P t (f t).state) : Touches P s (r.andThen f).state := by
  cases r with
  | go t => exact h.trans (hf t rfl)
  | raised c n t => exact h

/-- `OutWrite` either raises its error and changes nothing, or writes one allowed byte. -/
theorem outWrite_cases (chk : Bool) (j : Nat) (v : Byte) (s : State) :
    (∃ c, s.outWriteError chk j = some c ∧ outWrite chk j v s = .raised c j s) ∨
    (s.outWriteError chk j = none ∧ outWrite chk j v s = .go (s.storeByte (s.outAddr j) v)) := by
  unfold outWrite
  split
  · exact .inl ⟨_, ‹_›, rfl⟩
  · exact .inr ⟨‹_›, rfl⟩

theorem storeByte_touches {P : Nat → Prop} {s : State} {a : Nat} {v : Byte} (h : P a) : Touches P s (s.storeByte a v) :=
  ⟨by constructor <;> rfl, [(a, v)], by simp [Mem.replaced, h]⟩

theorem outWrite_touches (chk : Bool) (j : Nat) (v : Byte) (s : State) :
    Touches (s.Allows chk) s (outWrite chk j v s).state := by
  rcases outWrite_cases chk j v s with ⟨c, -, h⟩ | ⟨he, h⟩
  · rw [h]; exact Touches.rfl' _ _
  · rw [h]; exact storeByte_touches ⟨j, rfl, he⟩

/-- Chaining under the same latch: the second part's allowed addresses are the first's. -/
theorem Touches.andThen_allows {chk : Bool} {s : State} {r : Run} {f : State → Run}
    (h : Touches (s.Allows chk) s r.state) (hf : ∀ t, r = .go t → Touches (t.Allows chk) t (f t).state) :
    Touches (s.Allows chk) s (r.andThen f).state := by
  refine h.andThen (fun t ht => ?_)
  subst ht
  rw [← State.Allows_congr h.setup.lat]
  exact hf t rfl

theorem Touches.trans_allows {chk : Bool} {s t u : State} (h : Touches (s.Allows chk) s t)
    (h' : Touches (t.Allows chk) t u) : Touches (s.Allows chk) s u := by
  refine h.trans ?_
  rw [← State.Allows_congr h.setup.lat]
  exact h'

theorem writeBytes_touches (chk : Bool) (j : Nat) (bs : List Byte) (s : State) :
    Touches (s.Allows chk) s (writeBytes chk j bs s).state := by
  induction bs generalizing j s with
  | nil => exact Touches.rfl' _ _
  | cons b bs ih => exact (outWrite_touches chk j b s).andThen_allows (fun t _ => ih (j + 1) t)

theorem withEnc_touches (P : Nat → Prop) (e : EncCursors) (s : State) : Touches P s (s.withEnc e) :=
  .of_setup (by constructor <;> rfl) rfl rfl

theorem withDec_touches (P : Nat → Prop) (d : DecCursors) (s : State) : Touches P s (s.withDec d) :=
  .of_setup (by constructor <;> rfl) rfl rfl

/-! ## The decoder -/

theorem decodeWrite_touches (v : Byte) (s : State) : Touches (s.Allows true) s (decodeWrite v s).state :=
  (outWrite_touches true s.dec.j v s).andThen_allows (fun t _ => withDec_touches _ _ t)

theorem copyBytesOut_touches (off len : Nat) (s : State) : Touches (s.Allows true) s (copyBytesOut off len s).state := by
  induction len generalizing s with
  | zero => exact Touches.rfl' _ _
  | succ len ih =>
    unfold copyBytesOut
    split
    · exact Touches.rfl' _ _
    · exact (decodeWrite_touches _ s).andThen_allows (fun t _ => ih t)

theorem decodeError_touches (P : Nat → Prop) (c : ErrCode) (n : Nat) (s : State) : Touches P s (decodeError c n s) :=
  .of_setup (by constructor <;> rfl) rfl rfl

theorem decodeFinish_touches (P : Nat → Prop) (s : State) : Touches P s (decodeFinish s) :=
  .of_setup (by constructor <;> rfl) rfl rfl

theorem decodeSettle_touches {P : Nat → Prop} {s : State} {r : Run} (h : Touches P s r.state) :
    Touches P s (decodeSettle r) := by
  cases r with
  | go t => exact h
  | raised c n t => exact h.trans (decodeError_touches _ _ _ _)

theorem ctrlItem_touches (P : Nat → Prop) (c : Byte) (s : State) : Touches P s (ctrlItem c s) :=
  withDec_touches _ _ s

theorem litItem_touches (v : Byte) (s : State) : Touches (s.Allows true) s (litItem v s) :=
  (withDec_touches (s.Allows true) _ s).trans_allows (decodeSettle_touches (decodeWrite_touches v _))

theorem copyItem_touches (off len : Nat) (s : State) : Touches (s.Allows true) s (copyItem off len s) :=
  (withDec_touches (s.Allows true) _ s).trans_allows (decodeSettle_touches (copyBytesOut_touches off len _))

theorem runItem_touches (i : Instr) (s : State) : Touches (s.Allows true) s (runItem i s) := by
  cases i with
  | ctrl c => exact ctrlItem_touches _ c s
  | lit v => exact litItem_touches v s
  | copy off len => exact copyItem_touches off len s
  | _ => exact Touches.rfl' _ _

theorem decodeTurn_touches (s : State) : Touches (s.Allows true) s (decodeTurn s) := by
  unfold decodeTurn
  split
  · split
    · exact runItem_touches _ s
    · exact decodeError_touches _ _ _ s
  · exact decodeFinish_touches _ s

theorem runDecoder_touches (fuel : Nat) (s : State) : Touches (s.Allows true) s (runDecoder fuel s) := by
  induction fuel generalizing s with
  | zero => exact Touches.rfl' _ _
  | succ fuel ih =>
    unfold runDecoder
    split
    · exact Touches.rfl' _ _
    · exact (decodeTurn_touches s).trans_allows (ih _)

theorem enterDecoder_touches (s : State) : Touches (s.Allows true) s (enterDecoder s) := by
  unfold enterDecoder
  split
  · exact decodeError_touches _ _ _ s
  · split
    · exact Touches.rfl' _ _
    · exact runDecoder_touches _ s

/-! ## The encoder -/

theorem writeStreamByte_touches (x : Nat) (v : Byte) (s : State) :
    Touches (s.Allows true) s (writeStreamByte x v s).state := outWrite_touches true _ v s

theorem appendStreamByte_touches (v : Byte) (s : State) : Touches (s.Allows true) s (appendStreamByte v s).state :=
  (writeStreamByte_touches _ v s).andThen_allows (fun t _ => withEnc_touches _ _ t)

theorem appendStreamBytes_touches (bs : List Byte) (s : State) :
    Touches (s.Allows true) s (appendStreamBytes bs s).state := by
  induction bs generalizing s with
  | nil => exact Touches.rfl' _ _
  | cons b bs ih => exact (appendStreamByte_touches b s).andThen_allows (fun t _ => ih t)

theorem reserveIfNeeded_touches (s : State) : Touches (s.Allows true) s (reserveIfNeeded s).state := by
  unfold reserveIfNeeded
  split
  · refine Touches.andThen_allows ?_ (fun t _ => withEnc_touches _ _ t)
    exact (withEnc_touches (s.Allows true) _ s).trans_allows (appendStreamByte_touches 0 _)
  · exact Touches.rfl' _ _

theorem patchGroup_touches (s : State) : Touches (s.Allows true) s (patchGroup s).state :=
  (writeStreamByte_touches _ _ s).andThen_allows (fun t _ => withEnc_touches _ _ t)

theorem countToken_touches (s : State) : Touches (s.Allows true) s (countToken s).state := by
  unfold countToken
  simp only
  split
  · exact (withEnc_touches (s.Allows true) _ s).trans_allows (patchGroup_touches _)
  · exact withEnc_touches _ _ s

theorem finalizeStream_touches (s : State) : Touches (s.Allows true) s (finalizeStream s).state := by
  unfold finalizeStream
  split
  · exact patchGroup_touches s
  · exact Touches.rfl' _ _

theorem emitLiteral_touches (v : Byte) (s : State) : Touches (s.Allows true) s (emitLiteral v s).state :=
  ((reserveIfNeeded_touches s).andThen_allows (fun t _ => appendStreamByte_touches v t)).andThen_allows
    (fun t _ => countToken_touches t)

theorem emitCopy_touches (off len : Nat) (s : State) : Touches (s.Allows true) s (emitCopy off len s).state :=
  ((reserveIfNeeded_touches s).andThen_allows (fun t _ =>
    (withEnc_touches (t.Allows true) _ t).trans_allows (appendStreamBytes_touches _ t.markCopy))).andThen_allows
    (fun t _ => countToken_touches t)

theorem encodeToken_touches (s : State) : Touches (s.Allows true) s (encodeToken s).state := by
  unfold encodeToken
  split
  · exact (emitCopy_touches _ _ s).andThen_allows (fun t _ => withEnc_touches _ _ t)
  · exact (emitLiteral_touches _ s).andThen_allows (fun t _ => withEnc_touches _ _ t)

theorem encodeTail_touches (s : State) : Touches (s.Allows true) s (encodeTail s).state := by
  refine (finalizeStream_touches s).andThen_allows (fun t _ => ?_)
  split
  · exact (writeBytes_touches true _ _ t).andThen_allows (fun u _ => writeBytes_touches true _ _ u)
  · exact Touches.rfl' _ _

theorem encodeError_touches (P : Nat → Prop) (c : ErrCode) (n : Nat) (s : State) : Touches P s (encodeError c n s) :=
  .of_setup (by constructor <;> rfl) rfl rfl

theorem encodeFinish_touches (P : Nat → Prop) (s : State) : Touches P s (encodeFinish s) :=
  .of_setup (by constructor <;> rfl) rfl rfl

theorem encodeSettle_touches {s : State} {r : Run} {k : State → State} (h : Touches (s.Allows true) s r.state)
    (hk : ∀ t, r = .go t → Touches (t.Allows true) t (k t)) : Touches (s.Allows true) s (encodeSettle k r) := by
  cases r with
  | go t => exact h.trans_allows (hk t rfl)
  | raised c n t => exact h.trans (encodeError_touches _ _ _ _)

theorem encodeTurn_touches (s : State) : Touches (s.Allows true) s (encodeTurn s) := by
  unfold encodeTurn
  split
  · exact encodeSettle_touches (encodeToken_touches s) (fun t _ => Touches.rfl' _ t)
  · exact encodeSettle_touches (encodeTail_touches s) (fun t _ => encodeFinish_touches _ t)

theorem runEncoder_touches (fuel : Nat) (s : State) : Touches (s.Allows true) s (runEncoder fuel s) := by
  induction fuel generalizing s with
  | zero => exact Touches.rfl' _ _
  | succ fuel ih =>
    unfold runEncoder
    split
    · exact Touches.rfl' _ _
    · exact (encodeTurn_touches s).trans_allows (ih _)

theorem enterEncoder_touches (s : State) : Touches (s.Allows true) s (enterEncoder s) := by
  unfold enterEncoder
  split
  · exact Touches.rfl' _ _
  · exact runEncoder_touches _ s

/-! ## Every instruction -/

/-- The instructions that bar the input region to their writes (R66): the codec commands and the stream items. -/
def barsInput : Instr → Bool
  | .writeHeader | .pad => false
  | .parseHeader | .decodeStream | .decodeContainer | .encodeStream | .encodeContainer | .findMatch | .illegalOp _
  | .ctrl _ | .lit _ | .copy _ _ => true

theorem raise_touches (P : Nat → Prop) (c : ErrCode) (s : State) : Touches P s (s.raise c) :=
  .of_setup (by constructor <;> rfl) rfl rfl

/-- Every instruction answers a next state, and touches only what `Touches` allows. -/
theorem exec_touches (i : Instr) (s : State) :
    ∃ t, exec i s = .next t ∧ Touches (s.Allows (barsInput i)) s t := by
  cases i with
  | parseHeader =>
    simp only [exec, execParseHeader]
    split
    · exact ⟨_, rfl, raise_touches _ _ s⟩
    · split
      · exact ⟨_, rfl, .of_setup (by constructor <;> rfl) rfl rfl⟩
      · exact ⟨_, rfl, .of_setup (by constructor <;> rfl) rfl rfl⟩
  | writeHeader =>
    simp only [exec, execWriteHeader]
    have h := writeBytes_touches (checksOverlap .writeHeader) 0 (headerBytes s.lat.usize s.lat.csize) s
    split <;> rename_i heq <;> rw [heq] at h
    · exact ⟨_, rfl, h.trans (.of_setup (by constructor <;> rfl) rfl rfl)⟩
    · exact ⟨_, rfl, h.trans (.of_setup (by constructor <;> rfl) rfl rfl)⟩
  | decodeStream =>
    simp only [exec, execDecodeStream]
    split
    · exact ⟨_, rfl, raise_touches _ _ s⟩
    · exact ⟨_, rfl, (Touches.of_setup (P := s.Allows true) (s := s) (t := s.startDecode false s.inputLen s.lat.usize 0)
        (by constructor <;> rfl) rfl rfl).trans_allows (enterDecoder_touches _)⟩
  | decodeContainer =>
    simp only [exec, execDecodeContainer]
    split
    · exact ⟨_, rfl, raise_touches _ _ s⟩
    · split
      · exact ⟨_, rfl, .of_setup (by constructor <;> rfl) rfl rfl⟩
      · rename_i h _
        exact ⟨_, rfl, (Touches.of_setup (P := s.Allows true) (s := s)
          (t := (s.withRegs (s.regs.noteClamp h)).startDecode true h.slen h.usize h.csize)
          (by constructor <;> rfl) rfl rfl).trans_allows (enterDecoder_touches _)⟩
  | encodeStream =>
    simp only [exec, execEncodeStream]
    split
    · exact ⟨_, rfl, raise_touches _ _ s⟩
    · exact ⟨_, rfl, (Touches.of_setup (P := s.Allows true) (s := s) (t := s.startEncode false)
        (by constructor <;> rfl) rfl rfl).trans_allows (enterEncoder_touches _)⟩
  | encodeContainer =>
    simp only [exec, execEncodeContainer]
    split
    · exact ⟨_, rfl, raise_touches _ _ s⟩
    · refine ⟨_, rfl, ?_⟩
      refine Touches.trans_allows (t := s.startEncode true) (.of_setup (by constructor <;> rfl) rfl rfl) ?_
      exact encodeSettle_touches (writeBytes_touches true _ _ _) (fun t _ => enterEncoder_touches t)
  | pad =>
    simp only [exec, execPad]
    split
    · exact ⟨_, rfl, raise_touches _ _ s⟩
    · have h := writeBytes_touches (checksOverlap .pad) s.lat.outLen.toNat
        (List.replicate (padAmount s.lat.outLen.toNat) 0) s
      unfold writePadding
      split <;> rename_i heq <;> rw [heq] at h
      · exact ⟨_, rfl, h.trans (.of_setup (by constructor <;> rfl) rfl rfl)⟩
      · exact ⟨_, rfl, h.trans (.of_setup (by constructor <;> rfl) rfl rfl)⟩
  | findMatch =>
    simp only [exec, execFindMatch]
    split
    · exact ⟨_, rfl, raise_touches _ _ s⟩
    · split
      · exact ⟨_, rfl, raise_touches _ _ s⟩
      · exact ⟨_, rfl, .of_setup (by constructor <;> rfl) rfl rfl⟩
  | illegalOp w => exact ⟨_, rfl, raise_touches _ _ s⟩
  | ctrl c => exact ⟨_, rfl, ctrlItem_touches _ c s⟩
  | lit v => exact ⟨_, rfl, litItem_touches v s⟩
  | copy off len => exact ⟨_, rfl, copyItem_touches off len s⟩

end Sys2Proof.Machine
end

