-- ==== Sys2Proof/Laws/Cursors.lean ====
section
/-! SUPPORT. Which cursors a part of a command leaves alone: a decode keeps the encoder's cursors (R42), an encode the
decoder's (R43). -/
namespace Sys2Proof.Machine

/-! ## A decode keeps the encoder's cursors -/

theorem andThen_enc {r : Run} {f : State → Run} (h : ∀ t, (f t).state.enc = t.enc) : (r.andThen f).state.enc = r.state.enc := by
  cases r with
  | go t => exact h t
  | raised c n t => rfl

theorem andThen_dec {r : Run} {f : State → Run} (h : ∀ t, (f t).state.dec = t.dec) : (r.andThen f).state.dec = r.state.dec := by
  cases r with
  | go t => exact h t
  | raised c n t => rfl

theorem outWrite_enc (chk : Bool) (j : Nat) (v : Byte) (s : State) : (outWrite chk j v s).state.enc = s.enc := by
  rcases outWrite_cases chk j v s with ⟨c, -, h⟩ | ⟨-, h⟩ <;> rw [h] <;> rfl

theorem outWrite_dec (chk : Bool) (j : Nat) (v : Byte) (s : State) : (outWrite chk j v s).state.dec = s.dec := by
  rcases outWrite_cases chk j v s with ⟨c, -, h⟩ | ⟨-, h⟩ <;> rw [h] <;> rfl

theorem decodeWrite_enc (v : Byte) (s : State) : (decodeWrite v s).state.enc = s.enc :=
  (andThen_enc fun _ => rfl).trans (outWrite_enc _ _ _ _)

theorem copyBytesOut_enc (off len : Nat) (s : State) : (copyBytesOut off len s).state.enc = s.enc := by
  induction len generalizing s with
  | zero => rfl
  | succ len ih =>
    unfold copyBytesOut
    split
    · rfl
    · exact (andThen_enc ih).trans (decodeWrite_enc _ _)

theorem decodeSettle_enc (r : Run) : (decodeSettle r).enc = r.state.enc := by cases r <;> rfl

theorem runItem_enc (i : Instr) (s : State) : (runItem i s).enc = s.enc := by
  cases i with
  | lit v => exact (decodeSettle_enc _).trans (decodeWrite_enc v _)
  | copy off len => exact (decodeSettle_enc _).trans (copyBytesOut_enc off len _)
  | _ => rfl

theorem decodeTurn_enc (s : State) : (decodeTurn s).enc = s.enc := by
  unfold decodeTurn
  split
  · split
    · exact runItem_enc _ s
    · rfl
  · rfl

theorem runDecoder_enc (fuel : Nat) (s : State) : (runDecoder fuel s).enc = s.enc := by
  induction fuel generalizing s with
  | zero => rfl
  | succ n ih =>
    unfold runDecoder
    split
    · rfl
    · exact (ih _).trans (decodeTurn_enc s)

theorem enterDecoder_enc (s : State) : (enterDecoder s).enc = s.enc := by
  unfold enterDecoder
  split
  · rfl
  · split
    · rfl
    · exact runDecoder_enc _ s

/-! ## An encode keeps the decoder's cursors -/

theorem appendStreamByte_dec (v : Byte) (s : State) : (appendStreamByte v s).state.dec = s.dec :=
  (andThen_dec fun _ => rfl).trans (outWrite_dec _ _ _ _)

theorem appendStreamBytes_dec (bs : List Byte) (s : State) : (appendStreamBytes bs s).state.dec = s.dec := by
  induction bs generalizing s with
  | nil => rfl
  | cons b bs ih => exact (andThen_dec ih).trans (appendStreamByte_dec b s)

theorem reserveIfNeeded_dec (s : State) : (reserveIfNeeded s).state.dec = s.dec := by
  unfold reserveIfNeeded
  split
  · exact (andThen_dec fun _ => rfl).trans (appendStreamByte_dec 0 _)
  · rfl

theorem patchGroup_dec (s : State) : (patchGroup s).state.dec = s.dec :=
  (andThen_dec fun _ => rfl).trans (outWrite_dec _ _ _ _)

theorem countToken_dec (s : State) : (countToken s).state.dec = s.dec := by
  unfold countToken
  simp only
  split
  · exact patchGroup_dec _
  · rfl

theorem writeBytes_dec (chk : Bool) (j : Nat) (bs : List Byte) (s : State) : (writeBytes chk j bs s).state.dec = s.dec := by
  induction bs generalizing j s with
  | nil => rfl
  | cons b bs ih => exact (andThen_dec (ih (j + 1))).trans (outWrite_dec chk j b s)

theorem encodeToken_dec (s : State) : (encodeToken s).state.dec = s.dec := by
  unfold encodeToken
  split
  · refine (andThen_dec fun _ => rfl).trans ?_
    unfold emitCopy
    exact (andThen_dec countToken_dec).trans ((andThen_dec fun t => appendStreamBytes_dec _ t.markCopy).trans
      (reserveIfNeeded_dec s))
  · refine (andThen_dec fun _ => rfl).trans ?_
    unfold emitLiteral
    exact (andThen_dec countToken_dec).trans ((andThen_dec (appendStreamByte_dec _)).trans (reserveIfNeeded_dec s))

theorem encodeTail_dec (s : State) : (encodeTail s).state.dec = s.dec := by
  unfold encodeTail
  refine (andThen_dec fun t => ?_).trans ?_
  · split
    · exact (andThen_dec fun u => writeBytes_dec _ _ _ u).trans (writeBytes_dec _ _ _ t)
    · rfl
  · unfold finalizeStream
    split
    · exact patchGroup_dec s
    · rfl

theorem encodeSettle_dec {k : State → State} (hk : ∀ t, (k t).dec = t.dec) (r : Run) :
    (encodeSettle k r).dec = r.state.dec := by
  cases r with
  | go t => exact hk t
  | raised c n t => rfl

theorem encodeTurn_dec (s : State) : (encodeTurn s).dec = s.dec := by
  unfold encodeTurn
  split
  · exact (encodeSettle_dec (fun _ => rfl) _).trans (encodeToken_dec s)
  · exact (encodeSettle_dec (k := encodeFinish) (fun _ => rfl) _).trans (encodeTail_dec s)

theorem runEncoder_dec (fuel : Nat) (s : State) : (runEncoder fuel s).dec = s.dec := by
  induction fuel generalizing s with
  | zero => rfl
  | succ n ih =>
    unfold runEncoder
    split
    · rfl
    · exact (ih _).trans (encodeTurn_dec s)

theorem enterEncoder_dec (s : State) : (enterEncoder s).dec = s.dec := by
  unfold enterEncoder
  split
  · rfl
  · exact runEncoder_dec _ s

end Sys2Proof.Machine
end

