-- ==== Sys2Proof/Laws/Decoder.lean ====
section
/-! SUPPORT. The decoder's loop, said once: from a state whose memory holds the output so far, the loop ends as the
reference decode of what is left of the stream says (R211 to R216). -/
namespace Sys2Proof.Machine

/-! ## The reference decode, one item at a time -/

section Reference

variable {bad : Nat → Option ErrCode} {T used : Nat} {S : List Byte} {bits : List Bool} {out : List Byte}

theorem refDecodeFrom_reached (h : T ≤ out.length) :
    refDecodeFrom bad T S bits used out = { out := out, used := used, error := none } := by
  rcases S with _ | ⟨b0, _ | ⟨b1, S⟩⟩ <;> simp [refDecodeFrom, h]

theorem refDecodeFrom_control {b0 : Byte} (h : out.length < T) :
    refDecodeFrom bad T (b0 :: S) [] used out = refDecodeFrom bad T S (controlBits b0) (used + 1) out := by
  rcases S with _ | ⟨b1, S⟩ <;> simp [refDecodeFrom, h]

theorem refDecodeFrom_noControl (h : out.length < T) :
    refDecodeFrom bad T [] [] used out = { out := out, used := used, error := some .prematureEnd } := by
  simp [refDecodeFrom, h]

theorem refDecodeFrom_literal {b0 : Byte} {bs : List Bool} (h : out.length < T) :
    refDecodeFrom bad T (b0 :: S) (false :: bs) used out =
      match bad out.length with
      | some e => { out := out, used := used + 1, error := some e }
      | none => refDecodeFrom bad T S bs (used + 1) (out ++ [b0]) := by
  rcases S with _ | ⟨b1, S⟩ <;> simp only [refDecodeFrom, refPut] <;> rw [if_neg (by omega)] <;>
    cases bad out.length <;> rfl

theorem refDecodeFrom_noLiteral {bs : List Bool} (h : out.length < T) :
    refDecodeFrom bad T [] (false :: bs) used out =
      { out := out, used := used, error := some .prematureEndDuringLiteral } := by
  simp [refDecodeFrom, h]

theorem refDecodeFrom_copy {b0 b1 : Byte} {bs : List Bool} (h : out.length < T) :
    refDecodeFrom bad T (b0 :: b1 :: S) (true :: bs) used out =
      match refCopy bad T (copyOffset b0 b1) (copyLength b0) out with
      | (out', some e) => { out := out', used := used + 2, error := some e }
      | (out', none) => refDecodeFrom bad T S bs (used + 2) out' := by
  simp only [refDecodeFrom]
  rw [if_neg (by omega)] <;> rfl

theorem refDecodeFrom_noCopy {bs : List Bool} (h : out.length < T) (hS : S.length < 2) :
    refDecodeFrom bad T S (true :: bs) used out =
      { out := out, used := used, error := some .prematureEndDuringCopy } := by
  rcases S with _ | ⟨b0, _ | ⟨b1, S⟩⟩
  · simp [refDecodeFrom, h]
  · simp [refDecodeFrom, h]
  · simp at hS

theorem refCopy_bound (off len : Nat) (h : out.length ≤ T) : (refCopy bad T off len out).1.length ≤ T := by
  induction len generalizing out with
  | zero => exact h
  | succ len ih =>
    unfold refCopy
    split
    · exact h
    · rename_i hne
      simp only [refPut]
      cases bad out.length with
      | some e => exact h
      | none => exact ih (by simp; omega)

end Reference

/-! ## The output so far -/

/-- The output of the running decode so far is `out`, written over the memory `m0`. -/
structure Produced (m0 : Mem) (out : List Byte) (s : State) : Prop where
  wf : Mem.wf m0 = true
  mem : s.mem = Mem.writeList m0 (s.outAddr 0) out
  len : s.dec.j = out.length

theorem outAddr_eq (s : State) (j : Nat) : s.outAddr j = s.outAddr 0 + j := by
  simp [State.outAddr]

/-- An earlier output byte is read from memory (R68). -/
theorem Produced.outByte {m0 : Mem} {out : List Byte} {s : State} (h : Produced m0 out s) {x : Nat}
    (hx : x < out.length) : s.outByte x = byteAt out x := by
  rw [State.outByte, h.mem, Mem.read_writeList h.wf, outAddr_eq s x, if_pos (by omega), Nat.add_sub_cancel_left]
  rfl

theorem Produced.copySource {m0 : Mem} {out : List Byte} {s : State} (h : Produced m0 out s) {off : Nat}
    (hoff : 1 ≤ off) :
    copySource off s = if out.length < off then 0 else byteAt out (out.length - off) := by
  unfold Machine.copySource
  rw [h.len]
  split
  · rfl
  · exact h.outByte (by omega)

/-- `t` differs from `s` only by output: memory, journal and the output cursor. -/
structure OutputOnly (s t : State) : Prop where
  regs : t.regs = s.regs
  phase : t.phase = s.phase
  lat : t.lat = s.lat
  snap : t.snap = s.snap
  seq : t.seq = s.seq
  dec : t.dec = { s.dec with j := t.dec.j }

theorem OutputOnly.rfl' (s : State) : OutputOnly s s := by constructor <;> rfl

theorem OutputOnly.trans {s t u : State} (h : OutputOnly s t) (h' : OutputOnly t u) : OutputOnly s u where
  regs := h'.regs.trans h.regs
  phase := h'.phase.trans h.phase
  lat := h'.lat.trans h.lat
  snap := h'.snap.trans h.snap
  seq := h'.seq.trans h.seq
  dec := by rw [h'.dec, h.dec]

/-- One output byte of a decode: written, or its error raised. -/
theorem decodeWrite_spec {m0 : Mem} {out : List Byte} {s : State} (h : Produced m0 out s) (v : Byte) :
    match s.outWriteError true out.length with
    | some e => decodeWrite v s = .raised e out.length s
    | none => ∃ t, decodeWrite v s = .go t ∧ Produced m0 (out ++ [v]) t ∧ OutputOnly s t := by
  unfold decodeWrite
  rw [h.len]
  rcases outWrite_cases true out.length v s with ⟨c, hc, ho⟩ | ⟨hc, ho⟩
  · rw [hc]
    show (outWrite true _ v s).andThen _ = _
    rw [ho]
    rfl
  · rw [hc]
    refine ⟨(s.storeByte (s.outAddr out.length) v).withDec { s.dec with j := s.dec.j + 1 }, ?_, ?_, ?_⟩
    · show (outWrite true _ v s).andThen _ = _
      rw [ho]
      rfl
    · refine ⟨h.wf, ?_, ?_⟩
      · show Mem.write s.mem _ v = _
        rw [h.mem, Mem.writeList_concat, outAddr_eq s out.length]
        rfl
      · show s.dec.j + 1 = _
        rw [h.len, List.length_append]
        rfl
    · constructor <;> rfl

/-- The byte loop of a Copy does what `refCopy` says. -/
theorem copyBytesOut_spec {m0 : Mem} {off : Nat} (hoff : 1 ≤ off) (len : Nat) {out : List Byte} {s : State}
    (h : Produced m0 out s) {bad : Nat → Option ErrCode} (hbad : ∀ j, bad j = s.outWriteError true j) :
    ∃ t, Produced m0 (refCopy bad s.target off len out).1 t ∧ OutputOnly s t ∧
      copyBytesOut off len s =
        match (refCopy bad s.target off len out).2 with
        | some e => .raised e (refCopy bad s.target off len out).1.length t
        | none => .go t := by
  induction len generalizing out s with
  | zero => exact ⟨s, h, OutputOnly.rfl' s, rfl⟩
  | succ len ih =>
    unfold refCopy copyBytesOut
    rw [h.len]
    split
    · exact ⟨s, h, OutputOnly.rfl' s, rfl⟩
    · have hw := decodeWrite_spec h (Machine.copySource off s)
      rw [h.copySource hoff] at hw ⊢
      simp only [refPut, hbad]
      cases hE : s.outWriteError true out.length with
      | some e =>
        rw [hE] at hw
        simp only at hw ⊢
        exact ⟨s, h, OutputOnly.rfl' s, by rw [hw]; rfl⟩
      | none =>
        rw [hE] at hw
        simp only at hw ⊢
        obtain ⟨t, ht, hp, ho⟩ := hw
        have htar : t.target = s.target := by rw [State.target, State.target, ho.dec]
        obtain ⟨u, hu, ho', he⟩ := ih hp (fun j => by rw [hbad, State.outWriteError_congr ho.lat])
        rw [htar] at hu he
        exact ⟨u, hu, ho.trans ho', by rw [ht]; exact he⟩

/-! ## The stream -/

/-- The stream of the running decode (R157). -/
def State.stream (s : State) : List Byte := (List.range s.dec.slen).map s.streamByte

@[simp] theorem State.stream_length (s : State) : s.stream.length = s.dec.slen := by simp [State.stream]

/-- The control bits not yet consumed, in order. -/
def bitsLeft (ctrl : Byte) (nb : Nat) : List Bool := (List.range nb).map (fun t => ctrl.getLsbD (7 - t))

theorem bitsLeft_group (c : Byte) : bitsLeft c Config.group = controlBits c := rfl

@[simp] theorem bitsLeft_zero (c : Byte) : bitsLeft c 0 = [] := rfl

theorem bitsLeft_succ (c : Byte) {n : Nat} (h : n < 8) : bitsLeft c (n + 1) = c.msb :: bitsLeft (c <<< 1) n := by
  rw [bitsLeft, List.range_succ_eq_map, List.map_cons, List.map_map, BitVec.msb_eq_getLsbD_last]
  congr 1
  apply List.map_congr_left
  intro t ht
  have := List.mem_range.1 ht
  simp only [Function.comp_apply, BitVec.getLsbD_shiftLeft]
  rw [show 7 - t.succ = 7 - t - 1 by omega]
  simp
  omega

theorem State.streamBytes_eq (s : State) : s.streamBytes = (s.stream.drop s.dec.i).take 2 := by
  apply List.ext_getElem
  · simp [State.streamBytes]
  · intro k h1 h2
    simp [State.streamBytes, State.stream]

/-- Where the loop of a decode stands: output so far, cursors in range. -/
structure Decoding (m0 : Mem) (out : List Byte) (s : State) : Prop where
  produced : Produced m0 out s
  busy : s.phase = .busy
  i : s.dec.i ≤ s.dec.slen
  j : out.length ≤ s.target
  nb : s.dec.nb ≤ Config.group

/-- What is left for the reference decode from state `s`. -/
def State.remaining (bad : Nat → Option ErrCode) (out : List Byte) (s : State) : Decoded :=
  refDecodeFrom bad s.target (s.stream.drop s.dec.i) (bitsLeft s.dec.ctrl s.dec.nb) s.dec.i out

/-- A decode of `s` that ended as `r` says: R45's columns, R116 and R266. -/
structure DecodeEnded (m0 : Mem) (r : Decoded) (s t : State) : Prop where
  phase : t.phase = .idle
  mem : t.mem = Mem.writeList m0 (s.outAddr 0) r.out
  regs : t.regs =
    { s.regs.decoded s.dec r.out.length (streamBase s.dec.container + r.used) with
      done := r.error.isNone, err := r.error.isSome, errcode := r.error.getD .none }

/-- What the end of a decode depends on does not change while the loop runs. -/
structure SameDecode (s t : State) : Prop where
  regs : t.regs = s.regs
  lat : t.lat = s.lat
  snap : t.snap = s.snap
  container : t.dec.container = s.dec.container
  slen : t.dec.slen = s.dec.slen
  target : t.dec.target = s.dec.target
  csize : t.dec.csize = s.dec.csize

theorem SameDecode.stream {s t : State} (h : SameDecode s t) : t.stream = s.stream := by
  unfold State.stream
  rw [h.slen]
  congr 1
  funext x
  rw [State.streamByte, State.streamByte, h.container, State.inRead_congr h.lat h.snap]

theorem DecodeEnded.congr {m0 : Mem} {r : Decoded} {s t u : State} (h : SameDecode s t) (he : DecodeEnded m0 r t u) :
    DecodeEnded m0 r s u where
  phase := he.phase
  mem := by rw [he.mem, State.outAddr_congr h.lat]
  regs := by rw [he.regs, Regs.decoded, Regs.decoded, h.regs, h.container, h.slen, h.target, h.csize]

theorem decodeError_ended {m0 : Mem} {out : List Byte} {s : State} (h : Produced m0 out s) (e : ErrCode) :
    DecodeEnded m0 { out := out, used := s.dec.i, error := some e } s (decodeError e out.length s) where
  phase := rfl
  mem := h.mem
  regs := rfl

theorem decodeFinish_ended {m0 : Mem} {out : List Byte} {s : State} (h : Produced m0 out s)
    (hT : out.length = s.target) :
    DecodeEnded m0 { out := out, used := s.dec.i, error := none } s (decodeFinish s) where
  phase := rfl
  mem := h.mem
  regs := by
    have : (s.dec.j != s.target) = false := by simp [h.len, hT]
    simp [decodeFinish, h.len, Regs.noteMismatch, hT, State.streamUsed, Regs.decoded]

/-- One turn of the loop: it ends the decode as the reference says, or goes on with a byte of the stream consumed and the
same reference result ahead. -/
theorem decodeTurn_spec {m0 : Mem} {out : List Byte} {s : State} (h : Decoding m0 out s)
    {bad : Nat → Option ErrCode} (hbad : ∀ j, bad j = s.outWriteError true j) :
    DecodeEnded m0 (s.remaining bad out) s (decodeTurn s) ∨
    ∃ out', Decoding m0 out' (decodeTurn s) ∧ SameDecode s (decodeTurn s) ∧ s.dec.i < (decodeTurn s).dec.i ∧
      (decodeTurn s).remaining bad out' = s.remaining bad out := by
  unfold decodeTurn
  rw [h.produced.len]
  split
  case isFalse hT =>
    left
    rw [State.remaining, refDecodeFrom_reached (by omega)]
    exact decodeFinish_ended h.produced (by have := h.j; omega)
  case isTrue hT =>
  have hlen : (s.stream.drop s.dec.i).length = s.dec.slen - s.dec.i := by simp
  unfold fetchItem
  rw [State.streamBytes_eq]
  unfold State.itemDue
  cases hnb : s.dec.nb with
  | zero =>
    rw [if_pos rfl]
    have hrem : s.remaining bad out = refDecodeFrom bad s.target (s.stream.drop s.dec.i) [] s.dec.i out := by
      rw [State.remaining, hnb, bitsLeft_zero]
    cases hS : s.stream.drop s.dec.i with
    | nil =>
      left
      rw [hrem, hS, refDecodeFrom_noControl hT]
      exact decodeError_ended h.produced _
    | cons b0 S =>
      right
      have hi : s.dec.i < s.dec.slen := by rw [hS] at hlen; simp at hlen; omega
      refine ⟨out, ⟨⟨h.produced.wf, h.produced.mem, h.produced.len⟩, h.busy, hi, h.j, Nat.le_refl _⟩,
        by constructor <;> rfl, Nat.lt_succ_self _, ?_⟩
      rw [hrem, hS, refDecodeFrom_control hT]
      show refDecodeFrom bad s.target (s.stream.drop (s.dec.i + 1)) (controlBits b0) (s.dec.i + 1) out = _
      rw [← List.drop_drop, hS]
      rfl
  | succ n =>
    rw [if_neg (by omega)]
    have hn : n < 8 := by have := h.nb; rw [hnb] at this; simpa using this
    have hrem : s.remaining bad out =
        refDecodeFrom bad s.target (s.stream.drop s.dec.i) (s.dec.ctrl.msb :: bitsLeft (s.dec.ctrl <<< 1) n) s.dec.i out := by
      rw [State.remaining, hnb, bitsLeft_succ _ hn]
    have htake : ∀ k, Produced m0 out (s.takeToken k) := fun k =>
      ⟨h.produced.wf, h.produced.mem, h.produced.len⟩
    cases hmsb : s.dec.ctrl.msb with
    | false =>
      rw [if_neg (by decide)]
      rw [hmsb] at hrem
      cases hS : s.stream.drop s.dec.i with
      | nil =>
        left
        rw [hrem, hS, refDecodeFrom_noLiteral hT]
        exact decodeError_ended h.produced _
      | cons b0 S =>
        have hi : s.dec.i < s.dec.slen := by rw [hS] at hlen; simp at hlen; omega
        rw [hrem, hS, refDecodeFrom_literal hT]
        show DecodeEnded _ _ _ (litItem b0 s) ∨ ∃ out', Decoding m0 out' (litItem b0 s) ∧ SameDecode s (litItem b0 s) ∧
          s.dec.i < (litItem b0 s).dec.i ∧ (litItem b0 s).remaining bad out' = _
        unfold litItem
        have hw := decodeWrite_spec (htake 1) b0
        rw [State.outWriteError_congr (t := s.takeToken 1) (s := s) rfl] at hw
        rw [hbad]
        cases hE : s.outWriteError true out.length with
        | some e =>
          rw [hE] at hw
          simp only at hw ⊢
          left
          rw [hw]
          exact (decodeError_ended (htake 1) e).congr (by constructor <;> rfl)
        | none =>
          rw [hE] at hw
          simp only at hw ⊢
          right
          obtain ⟨t, ht, hp, ho⟩ := hw
          rw [ht]
          show ∃ out', Decoding m0 out' t ∧ SameDecode s t ∧ s.dec.i < t.dec.i ∧ t.remaining bad out' = _
          have hti : t.dec.i = s.dec.i + 1 := by rw [ho.dec]; rfl
          have htn : t.dec.nb = n := by rw [ho.dec]; simp [hnb]
          have htc : t.dec.ctrl = s.dec.ctrl <<< 1 := by rw [ho.dec]; rfl
          have hsame : SameDecode s t := by
            constructor
            · exact ho.regs
            · exact ho.lat
            · exact ho.snap
            all_goals rw [ho.dec]; rfl
          have htT : t.target = s.target := by rw [State.target, State.target, hsame.target]
          refine ⟨out ++ [b0], ⟨hp, ho.phase.trans h.busy, ?_, ?_, ?_⟩, hsame, by omega, ?_⟩
          · rw [hti, hsame.slen]; exact hi
          · rw [htT]; simp; omega
          · rw [htn]; simp; omega
          · rw [State.remaining, htT, hsame.stream, hti, htc, htn, ← List.drop_drop, hS]
            rfl
    | true =>
      rw [if_pos rfl]
      rw [hmsb] at hrem
      rcases hS : s.stream.drop s.dec.i with _ | ⟨b0, _ | ⟨b1, S⟩⟩
      · left
        rw [hrem, hS, refDecodeFrom_noCopy hT (by simp)]
        exact decodeError_ended h.produced _
      · left
        rw [hrem, hS, refDecodeFrom_noCopy hT (by simp)]
        exact decodeError_ended h.produced _
      · have hi : s.dec.i + 2 ≤ s.dec.slen := by rw [hS] at hlen; simp at hlen; omega
        rw [hrem, hS, refDecodeFrom_copy hT]
        have hr := (copy_ranges b0 b1).1.1
        show DecodeEnded _ _ _ (copyItem (copyOffset b0 b1) (copyLength b0) s) ∨
          ∃ out', Decoding m0 out' (copyItem (copyOffset b0 b1) (copyLength b0) s) ∧
            SameDecode s (copyItem (copyOffset b0 b1) (copyLength b0) s) ∧
            s.dec.i < (copyItem (copyOffset b0 b1) (copyLength b0) s).dec.i ∧
            (copyItem (copyOffset b0 b1) (copyLength b0) s).remaining bad out' = _
        unfold copyItem
        obtain ⟨t, hp, ho, he⟩ := copyBytesOut_spec hr (copyLength b0) (htake 2) (bad := bad)
          (fun j => by rw [hbad, State.outWriteError_congr (t := s.takeToken 2) (s := s) rfl])
        have htT' : (s.takeToken 2).target = s.target := rfl
        rw [htT'] at hp he
        rw [he]
        have hti : t.dec.i = s.dec.i + 2 := by rw [ho.dec]; rfl
        have htn : t.dec.nb = n := by rw [ho.dec]; simp [hnb]
        have htc : t.dec.ctrl = s.dec.ctrl <<< 1 := by rw [ho.dec]; rfl
        have hsame : SameDecode s t := by
          constructor
          · exact ho.regs
          · exact ho.lat
          · exact ho.snap
          all_goals rw [ho.dec]; rfl
        have htT : t.target = s.target := by rw [State.target, State.target, hsame.target]
        have hbound := refCopy_bound (bad := bad) (T := s.target) (copyOffset b0 b1) (copyLength b0) h.j
        rcases hC : refCopy bad s.target (copyOffset b0 b1) (copyLength b0) out with ⟨out', _ | e⟩
        · rw [hC] at hp hbound
          right
          show ∃ out', Decoding m0 out' t ∧ SameDecode s t ∧ s.dec.i < t.dec.i ∧ t.remaining bad out' = _
          refine ⟨out', ⟨hp, ho.phase.trans h.busy, ?_, ?_, ?_⟩, hsame, by omega, ?_⟩
          · rw [hti, hsame.slen]; exact hi
          · rw [htT]; exact hbound
          · rw [htn]; simp; omega
          · rw [State.remaining, htT, hsame.stream, hti, htc, htn, ← List.drop_drop, hS]
            rfl
        · rw [hC] at hp
          left
          have := decodeError_ended hp e
          rw [hti] at this
          exact this.congr hsame

/-- The loop of R211 ends as the reference decode says, once it has turns enough for what is left of the stream. -/
theorem runDecoder_spec {m0 : Mem} (fuel : Nat) {out : List Byte} {s : State} (h : Decoding m0 out s)
    {bad : Nat → Option ErrCode} (hbad : ∀ j, bad j = s.outWriteError true j) (hf : s.decodeFuel ≤ fuel) :
    DecodeEnded m0 (s.remaining bad out) s (runDecoder fuel s) := by
  induction fuel generalizing out s with
  | zero => simp [State.decodeFuel] at hf
  | succ fuel ih =>
    unfold runDecoder
    rw [if_neg (by rw [h.busy]; decide)]
    rcases decodeTurn_spec h hbad with he | ⟨out', hd, hs, hi, hr⟩
    · have : runDecoder fuel (decodeTurn s) = decodeTurn s := by
        cases fuel with
        | zero => rfl
        | succ f => unfold runDecoder; rw [if_pos he.phase]
      rw [this]
      exact he
    · rw [← hr]
      refine (ih hd (fun j => by rw [hbad, State.outWriteError_congr hs.lat]) ?_).congr hs
      have hle := hd.i
      rw [hs.slen] at hle
      simp only [State.decodeFuel, hs.slen] at hf ⊢
      omega

/-- The decode entered at its start state and taken whole ends as the reference decode of its stream says (R211, R216). -/
theorem enterDecoder_spec {s : State} (hb : s.phase = .busy) (hp : s.seq.pace = .whole) (hm : Mem.wf s.mem = true)
    (hi : s.dec.i = 0) (hj : s.dec.j = 0) (hn : s.dec.nb = 0) {bad : Nat → Option ErrCode}
    (hbad : ∀ j, bad j = s.outWriteError true j) :
    DecodeEnded s.mem (refDecode bad s.target s.stream) s (enterDecoder s) := by
  have hprod : Produced s.mem [] s := ⟨hm, rfl, hj⟩
  unfold enterDecoder refDecode
  rw [State.stream_length]
  split
  · have := decodeError_ended hprod .emptyStreamNonzeroTarget
    rw [hi] at this
    exact this
  · rw [hp]
    have := runDecoder_spec s.decodeFuel (s := s) ⟨hprod, hb, by omega, Nat.zero_le _, by rw [hn]; exact Nat.zero_le _⟩
      hbad (Nat.le_refl _)
    rw [State.remaining, hi, hn] at this
    exact this

end Sys2Proof.Machine
end

