-- ==== Sys2Proof/Laws/HostPort.lean ====
section
/-! SUPPORT. The host's side, said once: what one step does with the input at the front, and what a register read, a
register write and a reset give (R20 to R28, R47, R292). -/
namespace Sys2Proof.Machine

/-! ## The same core -/

theorem SameCore.rfl' (s : State) : SameCore s s := by constructor <;> rfl

theorem SameCore.trans {s t u : State} (h : SameCore s t) (h' : SameCore t u) : SameCore s u where
  regs := h'.regs.trans h.regs
  phase := h'.phase.trans h.phase
  mem := h'.mem.trans h.mem
  op := h'.op.trans h.op
  lat := h'.lat.trans h.lat
  snap := h'.snap.trans h.snap
  enc := h'.enc.trans h.enc
  dec := h'.dec.trans h.dec
  seq := h'.seq.trans h.seq
  journal := h'.journal.trans h.journal

theorem withInputs_same (xs : List Input) (s : State) : SameCore s (s.withInputs xs) := by constructor <;> rfl

theorem takeIrq_cases (s : State) : s.takeIrq = s ∨ s.takeIrq = s.observed := by
  unfold State.takeIrq
  split
  · exact .inl rfl
  · split <;> simp

theorem takeIrq_busy {s : State} (h : s.phase = .busy) : s.takeIrq = s := by
  unfold State.takeIrq
  rw [h]

theorem takeIrq_same (s : State) : SameCore s s.takeIrq := by
  rcases takeIrq_cases s with h | h <;> rw [h] <;> constructor <;> rfl

@[simp] theorem takeIrq_inputs (s : State) : s.takeIrq.port.inputs = s.port.inputs := by
  rcases takeIrq_cases s with h | h <;> rw [h]
  rfl

theorem SameCore.regValue {s t : State} (h : SameCore s t) (off : Nat) : t.regValue off = s.regValue off := by
  unfold State.regValue State.statusWord State.isBusy
  rw [h.regs, h.phase]

theorem SameCore.withRegs {s t : State} (h : SameCore s t) (r : Regs) : SameCore (s.withRegs r) (t.withRegs r) :=
  ⟨rfl, h.phase, h.mem, h.op, h.lat, h.snap, h.enc, h.dec, h.seq, h.journal⟩

/-! ## One input -/

theorem step_nil (s : State) : step (s.withInputs []) = coreStep (s.withInputs []) := rfl

theorem step_tick (xs : List Input) (s : State) : step (s.withInputs (.tick :: xs)) = coreStep (s.withInputs xs) := rfl

theorem step_hardReset (xs : List Input) (s : State) :
    step (s.withInputs (.hardReset :: xs)) = .next (s.withInputs xs).resetCore := rfl

theorem step_regRead (off width : Nat) (xs : List Input) (s : State) :
    step (s.withInputs (.regRead off width :: xs)) =
      if regAccessOk off width then .next ((s.withInputs xs).takeIrq.readReg off) else .refused .registerAccessShape := rfl

theorem step_regWrite (off width : Nat) (v : Word) (xs : List Input) (s : State) :
    step (s.withInputs (.regWrite off width v :: xs)) =
      if regAccessOk off width then .next ((s.withInputs xs).takeIrq.writeReg off v)
      else .refused .registerAccessShape := rfl

theorem step_memRead (a : Nat) (xs : List Input) (s : State) :
    step (s.withInputs (.memRead a :: xs)) = (s.withInputs xs).takeIrq.hostRead a := rfl

theorem step_memWrite (a : Nat) (b : Byte) (xs : List Input) (s : State) :
    step (s.withInputs (.memWrite a b :: xs)) = (s.withInputs xs).takeIrq.hostWrite a b := rfl

theorem regAccessOk_iff {off width : Nat} :
    regAccessOk off width = true ↔ width = 4 ∧ off % 4 = 0 ∧ off < 0x100 := by
  simp [regAccessOk, and_assoc]

/-- Every state is one whose inputs are its own. -/
theorem withInputs_self (s : State) : s.withInputs s.port.inputs = s := rfl

/-- What the host's step sees: the core as it was. -/
theorem seen_same (s : State) (xs : List Input) : SameCore s (s.withInputs xs).takeIrq :=
  (withInputs_same xs s).trans (takeIrq_same _)

/-! ## Register reads -/

theorem readReg_spec {off : Nat} {s : State} (h : off ≠ 0x2C ∨ s.phase = .idle) :
    SameCore s (s.readReg off) ∧ (s.readReg off).port.rdata = s.regValue off := by
  unfold State.readReg
  split
  · rename_i ho
    subst ho
    unfold State.readStatus
    split <;> exact ⟨by constructor <;> rfl, rfl⟩
  · rw [if_neg (by rintro ⟨h1, h2⟩; rcases h with h | h <;> simp_all)]
    exact ⟨by constructor <;> rfl, rfl⟩

/-- A register read outside `IN_USED`'s progress: nothing of the core changes, and the register's value is returned. -/
theorem step_regRead_spec {off : Nat} (h4 : off % 4 = 0) (h : off < 0x100) {s : State}
    (hb : off ≠ 0x2C ∨ s.phase = .idle) (xs : List Input) :
    ∃ t, step (s.withInputs (.regRead off 4 :: xs)) = .next t ∧ SameCore s t ∧ t.port.rdata = s.regValue off := by
  rw [step_regRead, if_pos (regAccessOk_iff.2 ⟨rfl, h4, h⟩)]
  have hs := seen_same s xs
  obtain ⟨h1, h2⟩ := readReg_spec (s := (s.withInputs xs).takeIrq) (off := off) (by rw [hs.phase]; exact hb)
  exact ⟨_, rfl, hs.trans h1, by rw [h2, hs.regValue]⟩

theorem drawProgress_bounds {s : State} (h : s.seq.progress ≤ s.inputLen) :
    s.seq.progress ≤ s.drawProgress ∧ s.drawProgress ≤ s.inputLen := by
  unfold State.drawProgress
  have := Nat.mod_lt (Config.progress s.seq.draws) (Nat.succ_pos (s.inputLen - s.seq.progress))
  simp only [Nat.succ_eq_add_one] at this
  omega

theorem readProgress_value {s : State} (h : s.seq.progress ≤ s.inputLen) :
    s.readProgress.port.rdata.toNat = s.drawProgress := by
  show (BitVec.ofNat 32 s.drawProgress).toNat = _
  rw [BitVec.toNat_ofNat, Nat.mod_eq_of_lt]
  have := (drawProgress_bounds h).2
  have := s.lat.inLen.isLt
  unfold State.inputLen at *
  omega

theorem regValue_reserved {s : State} {off : Nat} (h : 0x38 ≤ off) : s.regValue off = 0 := by
  unfold State.regValue
  split <;> first | omega | rfl

theorem ctrlWord_fields (r : Regs) :
    r.ctrlWord.getLsbD 0 = r.ie ∧ r.ctrlWord.getLsbD 1 = false ∧ r.ctrlWord.extractLsb' 2 30 = 0 := by
  unfold Regs.ctrlWord
  cases r.ie <;> decide

theorem errCode_code_lt (e : ErrCode) : e.code < 11 := by cases e <;> decide

/-- The bits of a word made of `STATUS`'s fields (R25). -/
theorem status_bits (b0 b1 b2 b3 b4 : Bool) (e : ErrCode) :
    let w := BitVec.ofNat 32 (b0.toNat + 2 * b1.toNat + 4 * b2.toNat + 0x100 * e.code + 0x10000 * b3.toNat + 0x20000 * b4.toNat)
    w.getLsbD 0 = b0 ∧ w.getLsbD 1 = b1 ∧ w.getLsbD 2 = b2 ∧ w.extractLsb' 3 5 = 0 ∧
      (w.extractLsb' 8 4).toNat = e.code ∧ w.extractLsb' 12 4 = 0 ∧ w.getLsbD 16 = b3 ∧ w.getLsbD 17 = b4 ∧
      w.extractLsb' 18 14 = 0 := by
  revert b0 b1 b2 b3 b4
  cases e <;> decide

/-! ## Register writes -/

/-- A register write: what it does to the core the host sees. -/
theorem step_regWrite_ok {off : Nat} (h4 : off % 4 = 0) (h : off < 0x100) (v : Word) (xs : List Input) (s : State) :
    step (s.withInputs (.regWrite off 4 v :: xs)) = .next ((s.withInputs xs).takeIrq.writeReg off v) := by
  rw [step_regWrite, if_pos (regAccessOk_iff.2 ⟨rfl, h4, h⟩)]

theorem writeReg_busy {off : Nat} {s : State} (v : Word) (h : off ≠ 0x04) (hb : s.phase = .busy) : s.writeReg off v = s := by
  unfold State.writeReg
  rw [if_neg h, hb]

theorem writeReg_ctrl (v : Word) (s : State) : s.writeReg 0x04 v = s.writeCtrl v := rfl

theorem writeReg_cmd {s : State} (v : Word) (hp : s.phase = .idle) : s.writeReg 0x08 v = s.start v := by
  unfold State.writeReg
  rw [hp]
  rfl

theorem writeReg_status {s : State} (v : Word) (hp : s.phase = .idle) :
    s.writeReg 0x0C v = s.withRegs (s.regs.writeStatus v) := by
  unfold State.writeReg
  rw [hp]
  rfl

theorem writeReg_operand {off : Nat} {s : State} (v : Word) (h1 : off ≠ 0x04) (h2 : off ≠ 0x08) (h3 : off ≠ 0x0C)
    (hp : s.phase = .idle) : s.writeReg off v = s.withRegs (s.regs.writeOperand off v) := by
  unfold State.writeReg
  rw [if_neg h1, hp]
  simp only [if_neg h2, if_neg h3]

theorem writeOperand_reserved {r : Regs} {off : Nat} {v : Word} (h : 0x38 ≤ off) : r.writeOperand off v = r := by
  unfold Regs.writeOperand
  split <;> first | omega | rfl

theorem writeStatus_eq (v : Word) (r : Regs) : r.writeStatus v = { r with
    done := if v.getLsbD 1 then false else r.done, err := if v.getLsbD 2 then false else r.err } := by
  unfold Regs.writeStatus
  cases v.getLsbD 1 <;> cases v.getLsbD 2 <;> simp

theorem writeCtrl_reset {v : Word} (s : State) (h : v.getLsbD 1 = true) : s.writeCtrl v = s.resetCore := by
  unfold State.writeCtrl softResetBit
  rw [if_pos h]

theorem writeCtrl_ie {v : Word} (s : State) (h : v.getLsbD 1 = false) :
    s.writeCtrl v = s.withRegs { s.regs with ie := v.getLsbD 0 } := by
  unfold State.writeCtrl softResetBit
  rw [if_neg (by rw [h]; decide)]
  rfl

/-- Where the inputs come from: every step takes one of these forms. -/
theorem withInputs_cons {s : State} {x : Input} (h : s.port.inputs.head? = some x) :
    ∃ xs, s = s.withInputs (x :: xs) := by
  obtain ⟨xs, hxs⟩ := List.head?_eq_some_iff.1 h
  exact ⟨xs, by rw [← hxs]; rfl⟩

theorem withInputs_none {s : State} (h : s.port.inputs.head? = none) : s = s.withInputs [] := by
  rw [List.head?_eq_none_iff] at h
  rw [← h]
  rfl

/-! ## Reset -/

@[simp] theorem State.resetCore_irq (s : State) : s.resetCore.irq = false := rfl

/-- The reset does not see whether the end of the last command was observed. -/
theorem takeIrq_resetCore (s : State) : s.takeIrq.resetCore = s.resetCore := by
  cases hp : s.phase with
  | busy => rw [takeIrq_busy hp]
  | idle =>
    rcases takeIrq_cases s with h | h <;> rw [h]
    have : s.observed.memAfterReset = s.memAfterReset := by
      unfold State.memAfterReset
      rw [show s.observed.phase = .idle from hp, hp]
      rfl
    unfold State.resetCore
    rw [this]
    rfl

/-- Either reset (R290, R292). -/
theorem step_reset {x : Input} (hx : x = .hardReset ∨ ∃ v, x = .regWrite 0x04 4 v ∧ v.getLsbD 1 = true)
    (xs : List Input) (s : State) : step (s.withInputs (x :: xs)) = .next (s.withInputs xs).resetCore := by
  rcases hx with rfl | ⟨v, rfl, hv⟩
  · rfl
  · rw [step_regWrite_ok (by decide) (by decide), writeReg_ctrl, writeCtrl_reset _ hv, takeIrq_resetCore]

/-- What the registers of a machine that has been reset read as (R47). -/
theorem reset_regValue {s : State} (hr : s.regs = Regs.reset) (hp : s.phase = .idle) :
    s.regValue 0x00 = 0x504D4350 ∧ ∀ off, off ≠ 0x00 → s.regValue off = 0 := by
  have : ∀ off, s.regValue off = State.reset.regValue off := by
    intro off
    unfold State.regValue State.statusWord State.isBusy
    rw [hr, hp]
    rfl
  simp only [this]
  refine ⟨rfl, fun off h => ?_⟩
  unfold State.regValue
  split <;> first | rfl | exact absurd rfl h

/-! ## The host's memory discipline -/

theorem Regions.hasInput_iff (a : Nat) (r : Regions) : r.hasInput a = true ↔ r.inBase ≤ a ∧ a < r.inBase + r.inLen := by
  unfold Regions.hasInput
  rw [Bool.and_eq_true, decide_eq_true_eq, decide_eq_true_eq]

theorem Regions.hasOutput_iff (a : Nat) (r : Regions) :
    r.hasOutput a = true ↔ r.outBase ≤ a ∧ a < r.outBase + r.outLen := by
  unfold Regions.hasOutput
  rw [Bool.and_eq_true, decide_eq_true_eq, decide_eq_true_eq]

theorem inInput_iff (a : Nat) (s : State) :
    s.inInput a = true ↔ s.lat.inBase.toNat ≤ a ∧ a < s.lat.inBase.toNat + s.lat.inLen.toNat := by
  unfold State.inInput
  rw [Bool.and_eq_true, decide_eq_true_eq, decide_eq_true_eq]

theorem SameCore.regions {s t : State} (h : SameCore s t) : t.regions = s.regions := by
  unfold State.regions State.reservedOutputBase State.reservedOutputLen State.inField State.inRead State.inputLen
  rw [h.lat, h.op, h.snap]

theorem heldRegions_busy {s : State} (h : s.phase = .busy) : s.heldRegions = s.regions :: s.port.earlier := by
  unfold State.heldRegions
  rw [h]
  rfl

theorem heldRegions_awaiting {s : State} (h : s.port.awaiting = true) : s.heldRegions = s.regions :: s.port.earlier := by
  unfold State.heldRegions
  rw [h, Bool.or_true, if_pos rfl]

theorem heldRegions_free {s : State} (h : s.phase = .idle) (ha : s.port.awaiting = false) : s.heldRegions = [] := by
  unfold State.heldRegions
  rw [h, ha]
  rfl

/-- What an access of the host finds held: the regions as they stood, or none where the core is idle and `IRQ` is
asserted. -/
theorem takeIrq_heldRegions (xs : List Input) (s : State) :
    (s.withInputs xs).takeIrq.heldRegions = if s.phase = .idle ∧ s.irq = true then [] else s.heldRegions := by
  cases hp : s.phase with
  | busy =>
    rw [if_neg (by simp), takeIrq_busy (s := s.withInputs xs) hp]
    rfl
  | idle =>
    have he : (s.withInputs xs).takeIrq = if s.irq then (s.withInputs xs).observed else s.withInputs xs := by
      unfold State.takeIrq
      rw [show (s.withInputs xs).phase = .idle from hp]
      rfl
    rw [he]
    cases hi : s.irq with
    | true =>
      rw [if_pos rfl, if_pos ⟨rfl, rfl⟩]
      exact heldRegions_free hp rfl
    | false =>
      rw [if_neg (by simp), if_neg (by simp)]
      rfl

/-- While a command runs, or its end has not been observed, the host's accesses are bound. -/
theorem takeIrq_held {s : State} (xs : List Input) (h : s.phase = .busy ∨ (s.port.awaiting = true ∧ s.irq = false)) :
    (s.withInputs xs).takeIrq.heldRegions = s.regions :: s.port.earlier := by
  rw [takeIrq_heldRegions]
  rcases h with h | ⟨h1, h2⟩
  · rw [if_neg (by rw [h]; rintro ⟨h, -⟩; cases h), heldRegions_busy h]
  · rw [if_neg (by rw [h2]; rintro ⟨-, h⟩; cases h), heldRegions_awaiting h1]

end Sys2Proof.Machine
end

