-- ==== Sys2Proof/Laws/Ops.lean ====
section
/-! SUPPORT. What a sequence of checked output writes can do: all of it is written, or it raises at its first byte that
cannot be, with those before it written (R66, R118). -/
namespace Sys2Proof.Machine

/-- `t` differs from `s` only by stores: in memory and journal. -/
structure StoreOnly (s t : State) : Prop where
  regs : t.regs = s.regs
  phase : t.phase = s.phase
  lat : t.lat = s.lat
  op : t.op = s.op
  snap : t.snap = s.snap
  enc : t.enc = s.enc
  dec : t.dec = s.dec
  seq : t.seq = s.seq
  port : t.port = s.port

theorem StoreOnly.rfl' (s : State) : StoreOnly s s := by constructor <;> rfl

theorem StoreOnly.trans {s t u : State} (h : StoreOnly s t) (h' : StoreOnly t u) : StoreOnly s u where
  regs := h'.regs.trans h.regs
  phase := h'.phase.trans h.phase
  lat := h'.lat.trans h.lat
  op := h'.op.trans h.op
  snap := h'.snap.trans h.snap
  enc := h'.enc.trans h.enc
  dec := h'.dec.trans h.dec
  seq := h'.seq.trans h.seq
  port := h'.port.trans h.port

theorem storeByte_storeOnly (a : Nat) (v : Byte) (s : State) : StoreOnly s (s.storeByte a v) := by
  constructor <;> rfl

/-- Writes that all pass their checks are all made. -/
theorem writeBytes_go {chk : Bool} {j : Nat} {bs : List Byte} {s : State}
    (h : ∀ i, i < bs.length → s.outWriteError chk (j + i) = none) :
    ∃ t, writeBytes chk j bs s = .go t ∧ t.mem = Mem.writeList s.mem (s.outAddr j) bs ∧ StoreOnly s t := by
  induction bs generalizing j s with
  | nil => exact ⟨s, rfl, rfl, StoreOnly.rfl' s⟩
  | cons b bs ih =>
    have h0 := h 0 (by simp)
    rcases outWrite_cases chk j b s with ⟨c, hc, -⟩ | ⟨-, ho⟩
    · rw [Nat.add_zero] at h0
      rw [h0] at hc
      cases hc
    · have hs := storeByte_storeOnly (s.outAddr j) b s
      obtain ⟨t, ht, hm, hst⟩ := ih (j := j + 1) (s := s.storeByte (s.outAddr j) b) (fun i hi => by
        rw [State.outWriteError_congr hs.lat, Nat.add_right_comm, Nat.add_assoc]
        exact h (i + 1) (by simpa using hi))
      refine ⟨t, ?_, ?_, hs.trans hst⟩
      · show (outWrite chk j b s).andThen _ = _
        rw [ho]
        exact ht
      · rw [hm]
        rfl

/-- The first write that does not pass its check raises, and those before it are made. -/
theorem writeBytes_raised {chk : Bool} {j i : Nat} {bs : List Byte} {s : State} {e : ErrCode} (hi : i < bs.length)
    (h : ∀ x, x < i → s.outWriteError chk (j + x) = none) (he : s.outWriteError chk (j + i) = some e) :
    ∃ t, writeBytes chk j bs s = .raised e (j + i) t ∧ t.mem = Mem.writeList s.mem (s.outAddr j) (bs.take i) ∧
      StoreOnly s t := by
  induction bs generalizing i j s with
  | nil => cases hi
  | cons b bs ih =>
    cases i with
    | zero =>
      rcases outWrite_cases chk j b s with ⟨c, hc, ho⟩ | ⟨hn, -⟩
      · rw [Nat.add_zero] at he
        rw [he, Option.some.injEq] at hc
        subst hc
        refine ⟨s, ?_, rfl, StoreOnly.rfl' s⟩
        show (outWrite chk j b s).andThen _ = _
        rw [ho]
        rfl
      · rw [Nat.add_zero, hn] at he
        cases he
    | succ i =>
      have h0 := h 0 (by omega)
      rcases outWrite_cases chk j b s with ⟨c, hc, -⟩ | ⟨-, ho⟩
      · rw [Nat.add_zero] at h0
        rw [h0] at hc
        cases hc
      · have hs := storeByte_storeOnly (s.outAddr j) b s
        obtain ⟨t, ht, hm, hst⟩ := ih (i := i) (j := j + 1) (s := s.storeByte (s.outAddr j) b)
          (by simpa using hi)
          (fun x hx => by
            rw [State.outWriteError_congr hs.lat, Nat.add_right_comm, Nat.add_assoc]
            exact h (x + 1) (by omega))
          (by rw [State.outWriteError_congr hs.lat, Nat.add_right_comm, Nat.add_assoc]; exact he)
        refine ⟨t, ?_, ?_, hs.trans hst⟩
        · show (outWrite chk j b s).andThen _ = _
          rw [ho, Run.andThen_go, ht, Nat.add_right_comm, Nat.add_assoc]
        · rw [hm]
          rfl

end Sys2Proof.Machine
end

