-- ==== Sys2Proof/Laws/MatchFinder.lean ====
section
/-! SUPPORT. What the match finder finds (R174): the longest length that occurs in the span, at its nearest start. -/
namespace Sys2Proof.Machine

/-- R172: the candidate test. -/
theorem matchesAt_iff {D : Nat → Byte} {p s len : Nat} :
    matchesAt D p s len = true ↔ ∀ k, k < len → D (s + k) = D (p + k) := by
  simp [matchesAt]

/-- The first value a search over `0 .. n - 1` yields. -/
theorem findSome_range {β : Type} (f : Nat → Option β) (n : Nat) (b : β) :
    (List.range n).findSome? f = some b ↔ ∃ i, i < n ∧ f i = some b ∧ ∀ j, j < i → f j = none := by
  induction n with
  | zero => simp
  | succ n ih =>
    rw [List.range_succ, List.findSome?_append, Option.or_eq_some_iff, ih]
    constructor
    · rintro (⟨i, hi, h⟩ | ⟨hn, h⟩)
      · exact ⟨i, by omega, h⟩
      · refine ⟨n, by omega, by simpa using h, fun j hj => ?_⟩
        exact List.findSome?_eq_none_iff.1 hn j (List.mem_range.2 hj)
    · rintro ⟨i, hi, h, hlt⟩
      by_cases hin : i < n
      · exact .inl ⟨i, hin, h, hlt⟩
      · have : i = n := by omega
        subst this
        refine .inr ⟨List.findSome?_eq_none_iff.2 (fun j hj => hlt j (List.mem_range.1 hj)), by simpa using h⟩

/-- The nearest start at one length. -/
theorem nearest_some {D : Nat → Byte} {p w len off : Nat} :
    (offsetsTried Config.tiePolicy w).find? (fun off => matchesAt D p (p - off) len) = some off ↔
      (1 ≤ off ∧ off ≤ w) ∧ matchesAt D p (p - off) len = true ∧
        ∀ off', 1 ≤ off' → off' < off → matchesAt D p (p - off') len = false := by
  have h : (offsetsTried Config.tiePolicy w).find? (fun off => matchesAt D p (p - off) len) =
      ((List.range w).find? (fun x => matchesAt D p (p - (x + 1)) len)).map (· + 1) := by
    simp [offsetsTried, List.find?_map]
  rw [h, Option.map_eq_some_iff]
  constructor
  · rintro ⟨x, hx, rfl⟩
    rw [List.find?_range_eq_some] at hx
    refine ⟨⟨by omega, by have := hx.2.1; simp at this; omega⟩, hx.1, fun off' h1 h2 => ?_⟩
    have := hx.2.2 (off' - 1) (by omega)
    rw [show off' - 1 + 1 = off' by omega] at this
    simpa using this
  · rintro ⟨⟨h1, h2⟩, hm, hlt⟩
    refine ⟨off - 1, ?_, by omega⟩
    rw [List.find?_range_eq_some]
    refine ⟨by rwa [show off - 1 + 1 = off by omega], by simp; omega, fun j hj => ?_⟩
    simpa using hlt (j + 1) (by omega) (by omega)

theorem nearest_none {D : Nat → Byte} {p w len : Nat} :
    (offsetsTried Config.tiePolicy w).find? (fun off => matchesAt D p (p - off) len) = none ↔
      ∀ off, 1 ≤ off → off ≤ w → matchesAt D p (p - off) len = false := by
  rw [List.find?_eq_none]
  simp only [offsetsTried, List.mem_map, List.mem_range]
  constructor
  · intro h off h1 h2
    simpa using h off ⟨off - 1, by omega, by omega⟩
  · rintro h off ⟨x, hx, rfl⟩
    simpa using h (x + 1) (by omega) (by omega)

/-- R174: the result is a match of the greatest length that occurs, at the nearest start of that length. -/
theorem findMatch_some {D : Nat → Byte} {n p off len : Nat} :
    findMatch D n p = some (off, len) ↔
      3 ≤ p ∧ (1 ≤ off ∧ off ≤ min 4096 p) ∧ (3 ≤ len ∧ len ≤ min 18 (n - p)) ∧
      matchesAt D p (p - off) len = true ∧
      (∀ off', 1 ≤ off' → off' < off → matchesAt D p (p - off') len = false) ∧
      (∀ len', len < len' → len' ≤ min 18 (n - p) → ∀ off', 1 ≤ off' → off' ≤ min 4096 p →
        matchesAt D p (p - off') len' = false) := by
  unfold findMatch
  split
  · rename_i h
    simp only [matchWindow, Config.window, Config.minLen] at h
    simp only [reduceCtorEq, false_iff]
    omega
  · rename_i h
    simp only [matchWindow, Config.window, Config.minLen] at h
    rw [lengthsTried, List.findSome?_map, findSome_range]
    simp only [Function.comp_apply, Option.map_eq_some_iff, Option.map_eq_none_iff, nearest_some, nearest_none,
      Prod.mk.injEq, matchWindow, matchMaxLen, Config.window, Config.maxLen]
    constructor
    · rintro ⟨i, hi, ⟨off', ⟨hr, hm, hn⟩, rfl, rfl⟩, hlong⟩
      refine ⟨by omega, hr, by omega, hm, hn, fun len' h1 h2 off'' h3 h4 => ?_⟩
      have := hlong (min 18 (n - p) - len') (by omega) off'' h3 h4
      rwa [show min 18 (n - p) - (min 18 (n - p) - len') = len' by omega] at this
    · rintro ⟨hp, hr, hl, hm, hn, hlong⟩
      refine ⟨min 18 (n - p) - len, by omega, ⟨off, ⟨hr, ?_, ?_⟩, rfl, by omega⟩, fun j hj => ?_⟩
      · rwa [show min 18 (n - p) - (min 18 (n - p) - len) = len by omega]
      · rwa [show min 18 (n - p) - (min 18 (n - p) - len) = len by omega]
      · exact hlong _ (by omega) (by omega)

/-- R174: there is no result exactly when the span is short or no length from 3 up occurs in it. -/
theorem findMatch_none {D : Nat → Byte} {n p : Nat} :
    findMatch D n p = none ↔
      p < 3 ∨ ∀ off len, 1 ≤ off → off ≤ min 4096 p → 3 ≤ len → len ≤ min 18 (n - p) →
        matchesAt D p (p - off) len = false := by
  unfold findMatch
  split
  · rename_i h
    simp only [matchWindow, Config.window, Config.minLen] at h
    exact ⟨fun _ => .inl (by omega), fun _ => rfl⟩
  · rename_i h
    simp only [matchWindow, Config.window, Config.minLen] at h
    rw [List.findSome?_eq_none_iff]
    simp only [lengthsTried, List.mem_map, List.mem_range, Option.map_eq_none_iff, nearest_none, matchWindow,
      matchMaxLen, Config.window, Config.maxLen]
    constructor
    · intro hall
      refine .inr (fun off len h1 h2 h3 h4 => ?_)
      exact hall len ⟨min 18 (n - p) - len, by omega, by omega⟩ off h1 h2
    · rintro (hp | hall)
      · omega
      · rintro len ⟨x, hx, rfl⟩ off h1 h2
        exact hall off _ h1 h2 (by omega) (by omega)

/-- R175: the ranges of a result. -/
theorem findMatch_ranges {D : Nat → Byte} {n p off len : Nat} (h : findMatch D n p = some (off, len)) :
    (1 ≤ off ∧ off ≤ min 4096 p) ∧ (3 ≤ len ∧ len ≤ 18) ∧ p + len ≤ n := by
  have := findMatch_some.1 h
  omega

/-- R172: the match of a result. -/
theorem findMatch_eq {D : Nat → Byte} {n p off len : Nat} (h : findMatch D n p = some (off, len)) :
    ∀ k, k < len → D (p - off + k) = D (p + k) :=
  matchesAt_iff.1 (findMatch_some.1 h).2.2.2.1

end Sys2Proof.Machine
end

