-- ==== Sys2Proof/Laws/Packer.lean ====
section
/-! SUPPORT. The packed form of a token list (R86 to R91, R156, R195), group by group, its length, and the greedy parse
(R191 to R196). -/
namespace Sys2Proof.Machine

/-! ## Control bytes -/

theorem controlNat_lt (b : Nat) (ts : List Token) : controlNat b ts < 2 ^ (b + 1) := by
  induction b generalizing ts with
  | zero =>
    cases ts with
    | nil => simp [controlNat]
    | cons t ts => cases h : t.isCopy <;> simp [controlNat, h]
  | succ b ih =>
    cases ts with
    | nil => simp [controlNat]
    | cons t ts =>
      have := ih ts
      cases h : t.isCopy <;> simp [controlNat, h] <;> omega

/-- R88: bit `b - t` of the control value announces token `t`; the bits that announce none are 0 (R89). -/
theorem controlNat_testBit (b : Nat) (ts : List Token) (t : Nat) (ht : t ≤ b) :
    (controlNat b ts).testBit (b - t) = (ts[t]?.map Token.isCopy).getD false := by
  induction b generalizing ts t with
  | zero =>
    obtain rfl : t = 0 := by omega
    cases ts with
    | nil => simp [controlNat]
    | cons x ts => cases h : x.isCopy <;> simp [controlNat, h]
  | succ b ih =>
    cases ts with
    | nil => simp [controlNat]
    | cons x ts =>
      have hlt := controlNat_lt b ts
      cases t with
      | zero =>
        simp only [controlNat, Nat.sub_zero, List.getElem?_cons_zero, Option.map_some, Option.getD_some]
        rw [Nat.testBit_eq_decide_div_mod_eq]
        cases h : x.isCopy
        · simp only [Bool.toNat_false, Nat.zero_mul, Nat.zero_add, Nat.div_eq_of_lt hlt]
          decide
        · simp only [Bool.toNat_true, Nat.one_mul]
          rw [Nat.add_div_left _ (Nat.two_pow_pos _), Nat.div_eq_of_lt hlt]
          decide
      | succ t =>
        have h1 := ih ts t (by omega)
        simp only [controlNat, List.getElem?_cons_succ]
        rw [← h1, show b + 1 - (t + 1) = b - t by omega]
        cases h : x.isCopy
        · simp
        · simp only [Bool.toNat_true, Nat.one_mul]
          exact Nat.testBit_two_pow_add_gt (by omega) _

theorem controlNat_full (b : Nat) (xs ys : List Token) (h : xs.length = b + 1) :
    controlNat b (xs ++ ys) = controlNat b xs := by
  induction b generalizing xs with
  | zero =>
    match xs, h with
    | [x], _ => simp [controlNat]
  | succ b ih =>
    match xs, h with
    | x :: xs, h => simp [controlNat, ih xs (by simpa using h)]

theorem controlNat_concat (b : Nat) (xs : List Token) (t : Token) (h : xs.length ≤ b) :
    controlNat b (xs ++ [t]) = controlNat b xs + t.isCopy.toNat * 2 ^ (b - xs.length) := by
  induction b generalizing xs with
  | zero =>
    match xs, h with
    | [], _ => simp [controlNat]
  | succ b ih =>
    match xs, h with
    | [], _ => simp [controlNat]
    | x :: xs, h =>
      simp only [List.cons_append, controlNat, List.length_cons]
      rw [ih xs (by simpa using h), show b + 1 - (xs.length + 1) = b - xs.length by omega]
      omega

theorem controlNat_dvd (b : Nat) (xs : List Token) (h : xs.length ≤ b) : 2 ^ (b - xs.length + 1) ∣ controlNat b xs := by
  induction b generalizing xs with
  | zero =>
    match xs, h with
    | [], _ => simp [controlNat]
  | succ b ih =>
    match xs, h with
    | [], _ => simp [controlNat]
    | x :: xs, h =>
      simp only [controlNat, List.length_cons]
      rw [show b + 1 - (xs.length + 1) + 1 = b - xs.length + 1 by omega]
      exact Nat.dvd_add (Dvd.dvd.mul_left (Nat.pow_dvd_pow 2 (by omega)) _) (ih xs (by simpa using h))

/-- R153: setting bit `7 - k` for a Copy, and leaving the bits for a Literal, gives the control byte of the longer
group. -/
theorem controlByte_concat (xs : List Token) (t : Token) (h : xs.length ≤ 7) :
    BitVec.ofNat 8 (controlNat 7 (xs ++ [t])) =
      if t.isCopy then BitVec.ofNat 8 (controlNat 7 xs) ||| (0x80 : Byte) >>> xs.length
      else BitVec.ofNat 8 (controlNat 7 xs) := by
  rw [controlNat_concat 7 xs t h]
  cases ht : t.isCopy
  · simp
  · simp only [Bool.toNat_true, Nat.one_mul, if_true]
    obtain ⟨q, hq⟩ := controlNat_dvd 7 xs h
    have hlt := controlNat_lt 7 xs
    have hpow : (0x80 : Byte) >>> xs.length = BitVec.ofNat 8 (2 ^ (7 - xs.length)) := by
      have : ∀ k, k ≤ 7 → (0x80 : Byte) >>> k = BitVec.ofNat 8 (2 ^ (7 - k)) := by decide
      exact this _ h
    rw [hpow]
    apply BitVec.eq_of_toNat_eq
    have hor : controlNat 7 xs ||| 2 ^ (7 - xs.length) = controlNat 7 xs + 2 ^ (7 - xs.length) := by
      rw [hq, Nat.mul_comm, ← Nat.shiftLeft_eq]
      exact (Nat.shiftLeft_add_eq_or_of_lt (Nat.pow_lt_pow_right (by decide) (Nat.lt_succ_self _)) q).symm
    have hp7 : 2 ^ (7 - xs.length) < 2 ^ 8 := Nat.pow_lt_pow_right (by decide) (by omega)
    simp only [BitVec.toNat_ofNat, BitVec.toNat_or]
    rw [Nat.mod_eq_of_lt hlt, Nat.mod_eq_of_lt hp7, hor, Nat.mod_eq_of_lt]
    rw [← hor]
    exact Nat.or_lt_two_pow hlt hp7

/-! ## Groups -/

@[simp] theorem packFrom_nil (k : Nat) : packFrom k [] = [] := by cases k <;> rfl

/-- The tokens of an open group follow one another. -/
theorem packFrom_open (k : Nat) (xs ys : List Token) (hk : 0 < k) (h : k + xs.length ≤ 8) :
    packFrom k (xs ++ ys) = xs.flatMap Token.bytes ++ packFrom (if k + xs.length = 8 ∧ xs ≠ [] then 0 else k + xs.length) ys := by
  induction xs generalizing k with
  | nil => simp
  | cons x xs ih =>
    obtain ⟨k, rfl⟩ : ∃ k', k = k' + 1 := ⟨k - 1, by omega⟩
    simp only [List.cons_append, packFrom, List.flatMap_cons, List.append_assoc, Config.group, List.length_cons] at h ⊢
    congr 1
    by_cases h8 : k + 2 = 8
    · have hxs : xs = [] := List.length_eq_zero_iff.1 (by omega)
      subst hxs
      simp [h8]
    · rw [if_neg h8, ih (k + 2) (by omega) (by omega)]
      congr 1
      by_cases hf : k + 2 + xs.length = 8
      · have hne : xs ≠ [] := by rintro rfl; simp at hf; omega
        rw [if_pos ⟨hf, hne⟩, if_pos ⟨by omega, by simp⟩]
      · rw [if_neg (by simp [hf]), if_neg (by simp; omega)]
        congr 1
        omega

/-- A group: its control byte, then its tokens. -/
theorem packTokens_group (xs ys : List Token) (hne : xs ≠ []) (h : xs.length ≤ 8) :
    packTokens (xs ++ ys) = BitVec.ofNat 8 (controlNat 7 (xs ++ ys)) ::
      (xs.flatMap Token.bytes ++ packFrom (if xs.length = 8 then 0 else xs.length) ys) := by
  match xs, hne with
  | x :: xs, _ =>
    simp only [packTokens, List.cons_append, packFrom, List.flatMap_cons, List.append_assoc]
    congr 2
    simp only [List.length_cons] at h
    by_cases hxs : xs = []
    · subst hxs; simp
    · rw [packFrom_open 1 xs ys (by decide) (by omega)]
      congr 1
      simp only [List.length_cons, hxs, ne_eq, not_false_eq_true, and_true]
      rw [show 1 + xs.length = xs.length + 1 by omega]

/-- R86: whole groups are packed one after the other. -/
theorem packTokens_append (done ys : List Token) (h : done.length % 8 = 0) :
    packTokens (done ++ ys) = packTokens done ++ packTokens ys := by
  induction hn : done.length using Nat.strong_induction_on generalizing done with
  | _ n ih =>
    by_cases hd : done = []
    · subst hd; simp [packTokens]
    · have hlen : 8 ≤ done.length := by
        have : done.length ≠ 0 := fun h0 => hd (List.length_eq_zero_iff.1 h0)
        omega
      have htake : (done.take 8).length = 8 := by simp; omega
      have hne : done.take 8 ≠ [] := by intro h0; rw [h0] at htake; simp at htake
      have hrec := ih (done.drop 8).length (by simp; omega) (done.drop 8) (by simp; omega) rfl
      have hsplit : ∀ zs, packTokens (done ++ zs) =
          BitVec.ofNat 8 (controlNat 7 (done.take 8)) ::
            ((done.take 8).flatMap Token.bytes ++ packTokens (done.drop 8 ++ zs)) := by
        intro zs
        have : done ++ zs = done.take 8 ++ (done.drop 8 ++ zs) := by rw [← List.append_assoc, List.take_append_drop]
        rw [this, packTokens_group _ _ hne (by omega), controlNat_full 7 _ _ htake, htake, if_pos rfl]
        rfl
      have h0 := hsplit []
      rw [List.append_nil, List.append_nil] at h0
      rw [hsplit ys, hrec, h0]
      simp

theorem packTokens_small (xs : List Token) (hne : xs ≠ []) (h : xs.length ≤ 8) :
    packTokens xs = BitVec.ofNat 8 (controlNat 7 xs) :: xs.flatMap Token.bytes := by
  have := packTokens_group xs [] hne h
  rw [List.append_nil] at this
  rw [this, packFrom_nil, List.append_nil]

/-! ## Length -/

theorem token_bytes_length (t : Token) : t.bytes.length = 1 + t.isCopy.toNat := by
  cases t <;> rfl

theorem packFrom_length (k : Nat) (hk : k < 8) (ts : List Token) :
    (packFrom k ts).length = ts.length + ts.countP Token.isCopy + (ts.length + (if k = 0 then 7 else k - 1)) / 8 := by
  induction ts generalizing k with
  | nil =>
    simp only [packFrom_nil, List.length_nil, List.countP_nil]
    split <;> omega
  | cons t ts ih =>
    have hc : (t :: ts).countP Token.isCopy = ts.countP Token.isCopy + t.isCopy.toNat := by
      rw [List.countP_cons]
      cases t.isCopy <;> rfl
    cases k with
    | zero =>
      simp only [packFrom, List.length_cons, List.length_append, token_bytes_length, ih 1 (by decide), hc]
      simp only [if_true, Nat.one_ne_zero, if_false]
      omega
    | succ k =>
      simp only [packFrom, List.length_cons, List.length_append, token_bytes_length, Config.group, hc]
      by_cases h8 : k + 2 = 8
      · rw [if_pos h8, ih 0 (by decide)]
        simp only [if_true, Nat.add_eq_zero_iff, Nat.one_ne_zero, and_false, if_false]
        omega
      · rw [if_neg h8, ih (k + 2) (by omega)]
        simp only [Nat.add_eq_zero_iff, Nat.one_ne_zero, OfNat.ofNat_ne_zero, and_false, if_false]
        omega

/-- R156: `ceil(T / 8) + T + C`. -/
theorem packTokens_length (ts : List Token) :
    (packTokens ts).length = (ts.length + 7) / 8 + ts.length + ts.countP Token.isCopy := by
  rw [packTokens, packFrom_length 0 (by decide)]
  simp only [if_true]
  omega

/-! ## The greedy parse -/

theorem parseTokens_succ {X : List Byte} {fuel p : Nat} (hp : p < X.length) :
    parseTokens X (fuel + 1) p =
      match findMatch (byteAt X) X.length p with
      | some (off, len) => .copy off len :: parseTokens X fuel (p + len)
      | none => .literal (byteAt X p) :: parseTokens X fuel (p + 1) := by
  rw [parseTokens, if_pos hp] <;> rfl

theorem parseTokens_step {X : List Byte} {fuel p : Nat} (hp : p < X.length) :
    ∃ t, parseTokens X (fuel + 1) p = t :: parseTokens X fuel (p + t.span) ∧ 1 ≤ t.span ∧ p + t.span ≤ X.length ∧
      1 + t.isCopy.toNat ≤ t.span := by
  rw [parseTokens_succ hp]
  cases h : findMatch (byteAt X) X.length p with
  | none => exact ⟨.literal _, rfl, Nat.le_refl _, hp, Nat.le_refl _⟩
  | some r =>
    obtain ⟨off, len⟩ := r
    have := findMatch_ranges h
    exact ⟨.copy off len, rfl, by show 1 ≤ len; omega, by show p + len ≤ _; omega, by show 1 + 1 ≤ len; omega⟩

theorem parseTokens_end {X : List Byte} {fuel p : Nat} (hp : X.length ≤ p) : parseTokens X fuel p = [] := by
  cases fuel with
  | zero => rfl
  | succ fuel => unfold parseTokens; rw [if_neg (by omega)]

theorem parseTokens_count {X : List Byte} (fuel p : Nat) :
    (parseTokens X fuel p).length + (parseTokens X fuel p).countP Token.isCopy ≤ X.length - p := by
  induction fuel generalizing p with
  | zero => simp [parseTokens]
  | succ fuel ih =>
    by_cases hp : p < X.length
    · obtain ⟨t, ht, h1, h2, h3⟩ := parseTokens_step (fuel := fuel) hp
      have := ih (p + t.span)
      rw [ht, List.countP_cons]
      have hc : (if t.isCopy = true then 1 else 0) = t.isCopy.toNat := by cases t.isCopy <;> rfl
      simp only [List.length_cons, hc]
      omega
    · rw [parseTokens_end (by omega)]
      simp

/-- R196: a stream is at most `n + ceil(n / 8)` bytes long. -/
theorem refEncode_length_le (X : List Byte) : (refEncode X).length ≤ X.length + (X.length + 7) / 8 := by
  have h := parseTokens_count (X := X) X.length 0
  rw [refEncode, packTokens_length]
  omega

/-- The parse does not depend on fuel it does not need. -/
theorem parseTokens_fuel {X : List Byte} (fuel fuel' p : Nat) (h : X.length - p ≤ fuel) (h' : X.length - p ≤ fuel') :
    parseTokens X fuel p = parseTokens X fuel' p := by
  induction fuel generalizing fuel' p with
  | zero => rw [parseTokens_end (by omega), parseTokens_end (by omega)]
  | succ fuel ih =>
    by_cases hp : p < X.length
    · obtain ⟨f', rfl⟩ : ∃ f', fuel' = f' + 1 := ⟨fuel' - 1, by omega⟩
      obtain ⟨t, ht, h1, -⟩ := parseTokens_step (fuel := fuel) hp
      obtain ⟨t', ht', h1', -⟩ := parseTokens_step (fuel := f') hp
      have : t = t' := by
        rw [parseTokens_succ hp] at ht ht'
        cases hf : findMatch (byteAt X) X.length p with
        | none => rw [hf] at ht ht'; simp at ht ht'; rw [← ht.1, ← ht'.1]
        | some r => rw [hf] at ht ht'; simp at ht ht'; rw [← ht.1, ← ht'.1]
      subst this
      rw [ht, ht', ih f' (p + t.span) (by omega) (by omega)]
    · rw [parseTokens_end (by omega), parseTokens_end (by omega)]

end Sys2Proof.Machine
end

