-- ==== Sys2Proof/Laws/Encoder.lean ====
section
/-! SUPPORT. The encoder's loop, said once: each part of it appends to the stream in memory or raises at the first byte
that cannot be written, and the whole loop writes the packed greedy parse of the input (R151 to R155, R191). -/
namespace Sys2Proof.Machine

/-! ## What the packer has written -/

/-- Over the memory `m0`, the running encode has written the stream bytes `C`, and they all passed their check. -/
structure Content (m0 : Mem) (C : List Byte) (s : State) : Prop where
  wf : Mem.wf m0 = true
  mem : s.mem = Mem.writeList m0 (s.outAddr (streamBase s.enc.container)) C
  o : s.enc.o = C.length
  room : s.Room true (streamBase s.enc.container + C.length)

/-- `t` differs from `s` only by packing: memory, journal, and the packer's cursors; the input cursor stays. -/
structure PackOnly (s t : State) : Prop where
  regs : t.regs = s.regs
  phase : t.phase = s.phase
  lat : t.lat = s.lat
  snap : t.snap = s.snap
  seq : t.seq = s.seq
  container : t.enc.container = s.enc.container
  p : t.enc.p = s.enc.p
  o : s.enc.o ≤ t.enc.o

theorem PackOnly.rfl' (s : State) : PackOnly s s := by constructor <;> rfl

theorem PackOnly.trans {s t u : State} (h : PackOnly s t) (h' : PackOnly t u) : PackOnly s u where
  regs := h'.regs.trans h.regs
  phase := h'.phase.trans h.phase
  lat := h'.lat.trans h.lat
  snap := h'.snap.trans h.snap
  seq := h'.seq.trans h.seq
  container := h'.container.trans h.container
  p := h'.p.trans h.p
  o := h.o.trans h'.o

/-- A part of an encode from `s` either goes on with the stream `C` written and `Q` holding, or raises at the first stream
byte that cannot be written, with a proper initial part of `F` written. -/
def Emits (m0 : Mem) (s : State) (C F : List Byte) (Q : State → Prop) (r : Run) : Prop :=
  (∃ t, r = .go t ∧ Content m0 C t ∧ PackOnly s t ∧ Q t) ∨
  ∃ e C' t, r = .raised e (streamBase s.enc.container + C'.length) t ∧ Content m0 C' t ∧ PackOnly s t ∧
    (C' <+: F ∧ C'.length < F.length) ∧ s.outWriteError true (streamBase s.enc.container + C'.length) = some e

theorem Emits.andThen {m0 : Mem} {s : State} {C C' F F' : List Byte} {Q Q' : State → Prop} {r : Run} {f : State → Run}
    (h : Emits m0 s C F Q r) (hF : F <+: F')
    (hf : ∀ t, Content m0 C t → PackOnly s t → Q t → Emits m0 t C' F' Q' (f t)) : Emits m0 s C' F' Q' (r.andThen f) := by
  rcases h with ⟨t, rfl, hc, hp, hq⟩ | ⟨e, C1, t, rfl, hc, hp, hl, he⟩
  · rcases hf t hc hp hq with ⟨u, hu, hc', hp', hq'⟩ | ⟨e, C1, u, hu, hc', hp', hl, he⟩
    · exact .inl ⟨u, hu, hc', hp.trans hp', hq'⟩
    · refine .inr ⟨e, C1, u, ?_, hc', hp.trans hp', hl, ?_⟩
      · rw [Run.andThen_go, hu, hp.container]
      · rw [← hp.container, ← State.outWriteError_congr hp.lat]
        exact he
  · exact .inr ⟨e, C1, t, rfl, hc, hp, ⟨hl.1.trans hF, hl.2.trans_le hF.length_le⟩, he⟩

theorem Emits.go {m0 : Mem} {s t : State} {C F : List Byte} {Q : State → Prop} (hc : Content m0 C t) (hp : PackOnly s t)
    (hq : Q t) : Emits m0 s C F Q (.go t) :=
  .inl ⟨t, rfl, hc, hp, hq⟩

/-- Starting from a state that differs only by packing. -/
theorem Emits.of_packOnly {m0 : Mem} {s t : State} {C F : List Byte} {Q : State → Prop} {r : Run} (hp : PackOnly s t)
    (h : Emits m0 t C F Q r) : Emits m0 s C F Q r := by
  rcases h with ⟨u, hu, hc, hp', hq⟩ | ⟨e, C1, u, hu, hc, hp', hl, he⟩
  · exact .inl ⟨u, hu, hc, hp.trans hp', hq⟩
  · rw [hp.container] at hu he
    exact .inr ⟨e, C1, u, hu, hc, hp.trans hp', hl, by rw [← State.outWriteError_congr hp.lat]; exact he⟩

theorem Content.withEnc {m0 : Mem} {C : List Byte} {s : State} {e : EncCursors} (h : Content m0 C s)
    (hc : e.container = s.enc.container) (ho : e.o = s.enc.o) : Content m0 C (s.withEnc e) where
  wf := h.wf
  mem := by
    show s.mem = Mem.writeList m0 (s.outAddr (streamBase e.container)) C
    rw [hc]
    exact h.mem
  o := ho.trans h.o
  room := by
    show s.Room true (streamBase e.container + C.length)
    rw [hc]
    exact h.room

theorem packOnly_withEnc {s : State} {e : EncCursors} (hc : e.container = s.enc.container) (hp : e.p = s.enc.p)
    (ho : e.o = s.enc.o) : PackOnly s (s.withEnc e) := by
  constructor <;> first | rfl | assumption | exact ho.ge

/-- One stream byte appended. -/
theorem appendStreamByte_emits {m0 : Mem} {C : List Byte} {s : State} (h : Content m0 C s) (v : Byte) :
    Emits m0 s (C ++ [v]) (C ++ [v]) (fun t => t.enc = { s.enc with o := s.enc.o + 1 }) (appendStreamByte v s) := by
  unfold appendStreamByte writeStreamByte
  rw [h.o]
  rcases outWrite_cases true (streamBase s.enc.container + C.length) v s with ⟨e, he, ho⟩ | ⟨hn, ho⟩
  · right
    refine ⟨e, C, s, ?_, h, PackOnly.rfl' s, by simp, he⟩
    show (outWrite true _ v s).andThen _ = _
    rw [ho]
    rfl
  · left
    refine ⟨(s.storeByte (s.outAddr (streamBase s.enc.container + C.length)) v).withEnc { s.enc with o := s.enc.o + 1 },
      ?_, ?_, ?_, ?_⟩
    · show (outWrite true _ v s).andThen _ = _
      rw [ho]
      rfl
    · refine ⟨h.wf, ?_, ?_, ?_⟩
      · show Mem.write s.mem (s.outAddr (streamBase s.enc.container + C.length)) v =
          Mem.writeList m0 (s.outAddr (streamBase s.enc.container)) (C ++ [v])
        rw [Mem.writeList_concat, ← h.mem]
        simp only [State.outAddr, Nat.add_assoc]
      · show s.enc.o + 1 = _
        rw [h.o, List.length_append]
        rfl
      · intro j hj
        show s.outWriteError true j = none
        by_cases hlt : j < streamBase s.enc.container + C.length
        · exact h.room j hlt
        · have hje : j = streamBase s.enc.container + C.length := by
            have : j < streamBase s.enc.container + (C ++ [v]).length := hj
            simp at this
            omega
          rw [hje]
          exact hn
    · constructor <;> first | rfl | exact Nat.le_succ _
    · rw [h.o]
      rfl

/-- Several stream bytes appended. -/
theorem appendStreamBytes_emits {m0 : Mem} {C : List Byte} {s : State} (bs : List Byte) (h : Content m0 C s) :
    Emits m0 s (C ++ bs) (C ++ bs) (fun t => t.enc = { s.enc with o := s.enc.o + bs.length }) (appendStreamBytes bs s) := by
  induction bs generalizing C s with
  | nil =>
    rw [List.append_nil]
    exact Emits.go h (PackOnly.rfl' s) rfl
  | cons b bs ih =>
    refine (appendStreamByte_emits h b).andThen ⟨bs, by simp⟩ (fun t hc _ hq => ?_)
    have := ih hc
    rw [List.append_assoc, List.singleton_append] at this
    rw [hq] at this
    simp only [List.length_cons]
    rw [show s.enc.o + (bs.length + 1) = s.enc.o + 1 + bs.length by omega]
    exact this

/-- A patch of a written slot raises nothing (R118, R154, R155). -/
theorem patchGroup_go {m0 : Mem} {C : List Byte} {s : State} (h : Content m0 C s) (hg : s.enc.g < C.length) :
    ∃ t, patchGroup s = .go t ∧ Content m0 (C.set s.enc.g s.enc.acc) t ∧ PackOnly s t ∧ t.enc = { s.enc with k := 0 } := by
  unfold patchGroup writeStreamByte
  have hok := h.room (streamBase s.enc.container + s.enc.g) (by omega)
  rcases outWrite_cases true (streamBase s.enc.container + s.enc.g) s.enc.acc s with ⟨e, he, -⟩ | ⟨-, ho⟩
  · rw [hok] at he
    cases he
  · refine ⟨(s.storeByte (s.outAddr (streamBase s.enc.container + s.enc.g)) s.enc.acc).withEnc { s.enc with k := 0 },
      ?_, ?_, ?_, ?_⟩
    · show (outWrite true _ _ s).andThen _ = _
      rw [ho]
      rfl
    · refine ⟨h.wf, ?_, ?_, ?_⟩
      · show Mem.write s.mem (s.outAddr (streamBase s.enc.container + s.enc.g)) s.enc.acc =
          Mem.writeList m0 (s.outAddr (streamBase s.enc.container)) (C.set s.enc.g s.enc.acc)
        rw [← Mem.write_writeList_set h.wf hg, ← h.mem]
        simp only [State.outAddr, Nat.add_assoc]
      · show s.enc.o = _
        rw [h.o, List.length_set]
      · intro j hj
        exact h.room j (by simpa using hj)
    · constructor <;> rfl
    · rfl

/-! ## Groups of tokens -/

/-- The stream bytes written when `done` are whole groups and `grp` an open one, if it has a token. -/
def groupContent (done grp : List Token) : List Byte := if grp = [] then packTokens done else openContent done grp

/-- Where the packer stands between tokens. -/
structure Grouped (m0 : Mem) (done grp : List Token) (s : State) : Prop where
  content : Content m0 (groupContent done grp) s
  whole : done.length % 8 = 0
  small : grp.length < 8
  k : s.enc.k = grp.length
  g : grp ≠ [] → s.enc.g = (packTokens done).length
  acc : grp ≠ [] → s.enc.acc = BitVec.ofNat 8 (controlNat 7 grp)

/-- The packer's cursors inside a group whose slot has been reserved. -/
def OpenGroup (done grp : List Token) (e : EncCursors) : Prop :=
  e.k = grp.length ∧ e.g = (packTokens done).length ∧ e.acc = BitVec.ofNat 8 (controlNat 7 grp)

theorem reserveIfNeeded_emits {m0 : Mem} {done grp : List Token} {s : State} (h : Grouped m0 done grp s) :
    Emits m0 s (openContent done grp) (openContent done grp) (fun t => OpenGroup done grp t.enc) (reserveIfNeeded s) := by
  unfold reserveIfNeeded
  split
  · rename_i hk
    have hgrp : grp = [] := List.length_eq_zero_iff.1 (by rw [← h.k]; exact hk)
    subst hgrp
    have hc : Content m0 (packTokens done) (s.withEnc { s.enc with g := s.enc.o }) := h.content.withEnc rfl rfl
    refine Emits.of_packOnly (packOnly_withEnc (e := { s.enc with g := s.enc.o }) rfl rfl rfl) ?_
    refine (appendStreamByte_emits hc 0).andThen (by simp [openContent]) (fun t ht _ hq => ?_)
    refine Emits.go (ht.withEnc rfl rfl) (packOnly_withEnc rfl rfl rfl) ⟨?_, ?_, rfl⟩
    · show t.enc.k = _
      rw [hq]
      exact hk
    · show t.enc.g = _
      rw [hq]
      show s.enc.o = _
      rw [h.content.o]
      rfl
  · rename_i hk
    have hgrp : grp ≠ [] := by rintro rfl; exact hk h.k
    have := h.content
    rw [groupContent, if_neg hgrp] at this
    exact Emits.go this (PackOnly.rfl' s) ⟨h.k, h.g hgrp, h.acc hgrp⟩

/-- The whole groups and the open group after one more token. -/
def nextGroups (done grp : List Token) (t : Token) : List Token × List Token :=
  if grp.length = 7 then (done ++ (grp ++ [t]), []) else (done, grp ++ [t])

theorem nextGroups_append (done grp : List Token) (t : Token) :
    (nextGroups done grp t).1 ++ (nextGroups done grp t).2 = done ++ grp ++ [t] := by
  unfold nextGroups
  split <;> simp

theorem openContent_set (done grp : List Token) (hw : done.length % 8 = 0) (hne : grp ≠ []) (h : grp.length ≤ 8) :
    (openContent done grp).set (packTokens done).length (BitVec.ofNat 8 (controlNat 7 grp)) =
      packTokens (done ++ grp) := by
  rw [packTokens_append _ _ hw, packTokens_small grp hne h, openContent]
  simp

theorem openContent_concat (done grp : List Token) (t : Token) :
    openContent done grp ++ t.bytes = openContent done (grp ++ [t]) := by
  simp [openContent]

theorem openContent_length (done grp : List Token) (hw : done.length % 8 = 0) (hne : grp ≠ []) (h : grp.length ≤ 8) :
    (openContent done grp).length = (packTokens (done ++ grp)).length := by
  rw [← openContent_set done grp hw hne h, List.length_set]

/-- The token is counted and a full group closed; this raises nothing. -/
theorem countToken_emits {m0 : Mem} {done grp : List Token} {t : Token} {s : State} {F : List Byte} (hw : done.length % 8 = 0)
    (hs : grp.length < 8) (hc : Content m0 (openContent done (grp ++ [t])) s)
    (ho : s.enc.k = grp.length ∧ s.enc.g = (packTokens done).length ∧
      s.enc.acc = BitVec.ofNat 8 (controlNat 7 (grp ++ [t]))) :
    Emits m0 s (groupContent (nextGroups done grp t).1 (nextGroups done grp t).2) F
      (Grouped m0 (nextGroups done grp t).1 (nextGroups done grp t).2) (countToken s) := by
  unfold countToken
  simp only
  have hc' : Content m0 (openContent done (grp ++ [t])) (s.withEnc { s.enc with k := s.enc.k + 1 }) := hc.withEnc rfl rfl
  have hp' : PackOnly s (s.withEnc { s.enc with k := s.enc.k + 1 }) := packOnly_withEnc rfl rfl rfl
  have hk : (s.withEnc { s.enc with k := s.enc.k + 1 }).enc.k = grp.length + 1 := by
    show s.enc.k + 1 = _
    rw [ho.1]
  rw [hk]
  by_cases h7 : grp.length = 7
  · rw [if_pos (by simp [h7])]
    have hlen8 : (grp ++ [t]).length = 8 := by simp [h7]
    have hset : (openContent done (grp ++ [t])).set s.enc.g s.enc.acc = packTokens (done ++ (grp ++ [t])) := by
      rw [ho.2.1, ho.2.2]
      exact openContent_set done _ hw (by simp) (by omega)
    have hnext : nextGroups done grp t = (done ++ (grp ++ [t]), []) := by rw [nextGroups, if_pos h7]
    rw [hnext]
    obtain ⟨u, hu, hcu, hpu, hqu⟩ := patchGroup_go hc' (by
      show s.enc.g < _
      rw [ho.2.1, openContent]
      simp)
    have hset' : (openContent done (grp ++ [t])).set (s.withEnc { s.enc with k := s.enc.k + 1 }).enc.g
        (s.withEnc { s.enc with k := s.enc.k + 1 }).enc.acc = packTokens (done ++ (grp ++ [t])) := hset
    rw [hset'] at hcu
    refine Emits.of_packOnly hp' (.inl ⟨u, hu, hcu, hpu, ⟨hcu, ?_, by simp, ?_, ?_, ?_⟩⟩)
    · rw [List.length_append, hlen8]; omega
    · rw [hqu]; rfl
    · intro hn; exact absurd rfl hn
    · intro hn; exact absurd rfl hn
  · rw [if_neg (by simp; omega)]
    have hnext : nextGroups done grp t = (done, grp ++ [t]) := by rw [nextGroups, if_neg h7]
    rw [hnext]
    have hg : groupContent done (grp ++ [t]) = openContent done (grp ++ [t]) := by
      rw [groupContent, if_neg (by simp)]
    rw [hg]
    refine Emits.go hc' hp' ⟨by rw [hg]; exact hc', hw, by simp; omega, ?_, ?_, ?_⟩
    · rw [hk, List.length_append]; rfl
    · intro _; exact ho.2.1
    · intro _; exact ho.2.2

/-- The emission of a token (R152, R153). -/
def emitToken : Token → State → Run
  | .literal v => emitLiteral v
  | .copy off len => emitCopy off len

theorem emitToken_emits {m0 : Mem} {done grp : List Token} {s : State} (h : Grouped m0 done grp s) (t : Token) :
    Emits m0 s (groupContent (nextGroups done grp t).1 (nextGroups done grp t).2) (openContent done (grp ++ [t]))
      (Grouped m0 (nextGroups done grp t).1 (nextGroups done grp t).2) (emitToken t s) := by
  have hpre : openContent done grp <+: openContent done (grp ++ [t]) := ⟨t.bytes, openContent_concat done grp t⟩
  cases t with
  | literal v =>
    refine Emits.andThen (C := openContent done (grp ++ [.literal v])) (F := openContent done (grp ++ [.literal v]))
      (Q := fun u => u.enc.k = grp.length ∧ u.enc.g = (packTokens done).length ∧
        u.enc.acc = BitVec.ofNat 8 (controlNat 7 (grp ++ [.literal v]))) ?_ (List.prefix_refl _)
      (fun u hc _ ho => countToken_emits h.whole h.small hc ho)
    refine (reserveIfNeeded_emits h).andThen hpre (fun u hc _ ho => ?_)
    have ha := appendStreamByte_emits hc v
    rw [show [v] = (Token.literal v).bytes from rfl, openContent_concat] at ha
    rcases ha with ⟨w, hw, hcw, hpw, hqw⟩ | hr
    · refine .inl ⟨w, hw, hcw, hpw, ?_⟩
      show w.enc.k = _ ∧ w.enc.g = _ ∧ w.enc.acc = _
      rw [hqw, controlByte_concat _ _ (by have := h.small; omega)]
      exact ⟨ho.1, ho.2.1, ho.2.2⟩
    · exact .inr hr
  | copy off len =>
    refine Emits.andThen (C := openContent done (grp ++ [.copy off len])) (F := openContent done (grp ++ [.copy off len]))
      (Q := fun u => u.enc.k = grp.length ∧ u.enc.g = (packTokens done).length ∧
        u.enc.acc = BitVec.ofNat 8 (controlNat 7 (grp ++ [.copy off len]))) ?_ (List.prefix_refl _)
      (fun u hc _ ho => countToken_emits h.whole h.small hc ho)
    refine (reserveIfNeeded_emits h).andThen hpre (fun u hc _ ho => ?_)
    have hcm : Content m0 (openContent done grp) u.markCopy := hc.withEnc rfl rfl
    have ha := appendStreamBytes_emits (copyBytes off len) hcm
    rw [show copyBytes off len = (Token.copy off len).bytes from rfl, openContent_concat] at ha
    have hpm : PackOnly u u.markCopy := packOnly_withEnc rfl rfl rfl
    refine Emits.of_packOnly hpm ?_
    rcases ha with ⟨w, hw, hcw, hpw, hqw⟩ | hr
    · refine .inl ⟨w, hw, hcw, hpw, ?_⟩
      show w.enc.k = _ ∧ w.enc.g = _ ∧ w.enc.acc = _
      rw [hqw, controlByte_concat _ _ (by have := h.small; omega)]
      refine ⟨ho.1, ho.2.1, ?_⟩
      show u.enc.acc ||| (0x80 : Byte) >>> u.enc.k = _
      rw [ho.1, ho.2.2]
      rfl
    · exact .inr hr

/-- R155: what is left of a partial group is patched; the stream is the packed token list. -/
theorem finalizeStream_emits {m0 : Mem} {done grp : List Token} {s : State} (h : Grouped m0 done grp s) :
    ∃ t, finalizeStream s = .go t ∧ Content m0 (packTokens (done ++ grp)) t ∧ PackOnly s t := by
  unfold finalizeStream
  by_cases hgrp : grp = []
  · subst hgrp
    rw [if_neg (by rw [h.k]; simp)]
    refine ⟨s, rfl, ?_, PackOnly.rfl' s⟩
    rw [List.append_nil]
    exact h.content
  · have hpos : 0 < grp.length := List.length_pos_iff.2 hgrp
    rw [if_pos (by rw [h.k]; exact hpos)]
    have hc := h.content
    rw [groupContent, if_neg hgrp] at hc
    have hg : s.enc.g < (openContent done grp).length := by rw [h.g hgrp, openContent]; simp
    have hset := openContent_set done grp h.whole hgrp (by have := h.small; omega)
    obtain ⟨t, ht, hct, hpt, -⟩ := patchGroup_go hc hg
    rw [h.g hgrp, h.acc hgrp, hset] at hct
    exact ⟨t, ht, hct, hpt⟩

/-! ## The loop -/

/-- The match finder reads no byte at or past `n`. -/
theorem findMatch_congr {D D' : Nat → Byte} {n p : Nat} (h : ∀ i, i < n → D i = D' i) (hp : p ≤ n) :
    findMatch D n p = findMatch D' n p := by
  have hm : ∀ off len, 1 ≤ off → off ≤ min 4096 p → len ≤ min 18 (n - p) →
      matchesAt D p (p - off) len = matchesAt D' p (p - off) len := by
    intro off len h1 h2 h3
    rw [Bool.eq_iff_iff, matchesAt_iff, matchesAt_iff]
    refine forall_congr' fun k => ?_
    by_cases hk : k < len
    · rw [h (p - off + k) (by omega), h (p + k) (by omega)]
    · simp [hk]
  cases hD : findMatch D n p with
  | none =>
    symm
    rw [findMatch_none] at hD ⊢
    refine hD.imp_right fun hall off len h1 h2 h3 h4 => ?_
    rw [← hm off len h1 h2 h4]
    exact hall off len h1 h2 h3 h4
  | some r =>
    obtain ⟨off, len⟩ := r
    symm
    rw [findMatch_some] at hD ⊢
    obtain ⟨hp3, ho, hl, hmat, hnear, hlong⟩ := hD
    refine ⟨hp3, ho, hl, ?_, fun off' h1 h2 => ?_, fun len' h1 h2 off' h3 h4 => ?_⟩
    · rw [← hm off len ho.1 ho.2 hl.2]; exact hmat
    · rw [← hm off' len h1 (by omega) hl.2]; exact hnear off' h1 h2
    · rw [← hm off' len' h3 h4 h2]; exact hlong len' h1 h2 off' h3 h4

@[simp] theorem State.input_length (s : State) : s.input.length = s.inputLen := by simp [State.input]

theorem State.byteAt_input (s : State) {i : Nat} (h : i < s.inputLen) : byteAt s.input i = s.inRead i := by
  unfold byteAt State.input
  rw [List.getD_eq_getElem?_getD]
  simp [h]

theorem PackOnly.input {s t : State} (h : PackOnly s t) : t.input = s.input := by
  rw [State.input, State.input, State.inputLen_congr h.lat, State.inRead_congr h.lat h.snap]

/-- The token of the greedy parse at the input cursor. -/
def State.tokenAt (s : State) : Token :=
  match findMatch s.inRead s.inputLen s.enc.p with
  | some (off, len) => .copy off len
  | none => .literal (s.inRead s.enc.p)

theorem encodeToken_eq (s : State) :
    encodeToken s = (emitToken s.tokenAt s).andThen (fun t => .go (t.advanceInput s.tokenAt.span)) := by
  unfold encodeToken State.tokenAt
  cases findMatch s.inRead s.inputLen s.enc.p <;> rfl

theorem parseTokens_tokenAt (s : State) (fuel : Nat) (h : s.enc.p < s.inputLen) :
    parseTokens s.input (fuel + 1) s.enc.p = s.tokenAt :: parseTokens s.input fuel (s.enc.p + s.tokenAt.span) := by
  have hD : findMatch (byteAt s.input) s.inputLen s.enc.p = findMatch s.inRead s.inputLen s.enc.p :=
    findMatch_congr (fun i hi => s.byteAt_input hi) (by omega)
  rw [parseTokens_succ (by simpa using h), State.input_length, hD]
  unfold State.tokenAt
  cases findMatch s.inRead s.inputLen s.enc.p with
  | some r => rfl
  | none => simp only [s.byteAt_input h]; rfl

/-- `t` is an encode of `s` over the memory `m0` that ended with the error of its first unwritable stream byte, `j`, in
token `k` (R118, R191). -/
structure EncodeFailedAt (m0 : Mem) (k j : Nat) (e : ErrCode) (s t : State) : Prop where
  token : inToken s.input k j
  room : s.Room true (streamBase s.enc.container + j)
  error : s.outWriteError true (streamBase s.enc.container + j) = some e
  phase : t.phase = .idle
  mem : t.mem = Mem.writeList m0 (s.outAddr (streamBase s.enc.container)) (partialStream s.input k j)
  regs : t.regs = { s.regs with
    outLen := BitVec.ofNat 32 (streamBase s.enc.container + j), inUsed := BitVec.ofNat 32 (tokenStart s.input k)
    err := true, done := false, errcode := e }

/-- `t` differs from `s` only by encoding: memory, journal and the encoder's cursors. -/
structure EncodeOnly (s t : State) : Prop where
  regs : t.regs = s.regs
  phase : t.phase = s.phase
  lat : t.lat = s.lat
  snap : t.snap = s.snap
  seq : t.seq = s.seq
  container : t.enc.container = s.enc.container

theorem EncodeOnly.rfl' (s : State) : EncodeOnly s s := by constructor <;> rfl

theorem EncodeOnly.trans {s t u : State} (h : EncodeOnly s t) (h' : EncodeOnly t u) : EncodeOnly s u where
  regs := h'.regs.trans h.regs
  phase := h'.phase.trans h.phase
  lat := h'.lat.trans h.lat
  snap := h'.snap.trans h.snap
  seq := h'.seq.trans h.seq
  container := h'.container.trans h.container

theorem PackOnly.encodeOnly {s t : State} (h : PackOnly s t) : EncodeOnly s t :=
  ⟨h.regs, h.phase, h.lat, h.snap, h.seq, h.container⟩

theorem EncodeOnly.input {s t : State} (h : EncodeOnly s t) : t.input = s.input := by
  rw [State.input, State.input, State.inputLen_congr h.lat, State.inRead_congr h.lat h.snap]

theorem EncodeFailedAt.congr {m0 : Mem} {k j : Nat} {e : ErrCode} {s t u : State} (h : EncodeOnly s t)
    (hf : EncodeFailedAt m0 k j e t u) : EncodeFailedAt m0 k j e s u where
  token := by rw [← h.input]; exact hf.token
  room := by rw [← State.Room_congr h.lat, ← h.container]; exact hf.room
  error := by rw [← State.outWriteError_congr h.lat, ← h.container]; exact hf.error
  phase := hf.phase
  mem := by rw [hf.mem, State.outAddr_congr h.lat, h.container, h.input]
  regs := by rw [hf.regs, h.container, h.regs, h.input]

/-- The greedy parse with the tokens that are out already. -/
structure Parsing (done grp : List Token) (s : State) : Prop where
  tokens : parseTokens s.input s.inputLen 0 = done ++ grp ++ parseTokens s.input (s.inputLen - s.enc.p) s.enc.p
  cursor : s.enc.p = ((done ++ grp).map Token.span).sum
  inside : s.enc.p ≤ s.inputLen

theorem Parsing.turn {done grp : List Token} {s u : State} (h : Parsing done grp s) (hlt : s.enc.p < s.inputLen)
    (hs : EncodeOnly s u) (hp : u.enc.p = s.enc.p + s.tokenAt.span) :
    Parsing (nextGroups done grp s.tokenAt).1 (nextGroups done grp s.tokenAt).2 u ∧ 1 ≤ s.tokenAt.span ∧
      ∃ rest, parseTokens s.input s.inputLen 0 = done ++ grp ++ s.tokenAt :: rest := by
  obtain ⟨m, hm⟩ : ∃ m, s.inputLen - s.enc.p = m + 1 := ⟨s.inputLen - s.enc.p - 1, by omega⟩
  obtain ⟨t', ht', hs1, hs2, -⟩ := parseTokens_step (X := s.input) (fuel := m) (p := s.enc.p) (by simpa using hlt)
  have htok := parseTokens_tokenAt s m hlt
  obtain rfl : t' = s.tokenAt := by
    rw [ht'] at htok
    exact (List.cons.inj htok).1
  rw [State.input_length] at hs2
  have hrest : parseTokens s.input m (s.enc.p + s.tokenAt.span) =
      parseTokens s.input (s.inputLen - (s.enc.p + s.tokenAt.span)) (s.enc.p + s.tokenAt.span) :=
    parseTokens_fuel _ _ _ (by simp; omega) (by simp)
  have hil := State.inputLen_congr hs.lat
  refine ⟨⟨?_, ?_, ?_⟩, hs1, _, by rw [h.tokens, hm, htok]⟩
  · rw [hs.input, hil, hp, h.tokens, hm, htok, hrest, nextGroups_append]
    simp
  · rw [hp, h.cursor, nextGroups_append]
    simp [Nat.add_assoc]
  · rw [hil, hp]
    exact hs2

theorem groupContent_length {done grp : List Token} (hw : done.length % 8 = 0) (hs : grp.length < 8) :
    (groupContent done grp).length = (packTokens (done ++ grp)).length := by
  unfold groupContent
  split
  · rename_i h
    rw [h, List.append_nil]
  · rename_i h
    exact openContent_length done grp hw h (by omega)

/-- Where an encode that fails in its next token has come to. -/
theorem failed_in_token {X C : List Byte} {done grp rest : List Token} {t : Token} (hw : done.length % 8 = 0)
    (hs : grp.length < 8) (hall : parseTokens X X.length 0 = done ++ grp ++ t :: rest)
    (hlo : (packTokens (done ++ grp)).length ≤ C.length) (hpre : C <+: openContent done (grp ++ [t]))
    (hhi : C.length < (openContent done (grp ++ [t])).length) :
    inToken X (done ++ grp).length C.length ∧ C = partialStream X (done ++ grp).length C.length ∧
      tokenStart X (done ++ grp).length = ((done ++ grp).map Token.span).sum := by
  have h1 : (parseTokens X X.length 0).take (done ++ grp).length = done ++ grp := by
    rw [hall]
    exact List.take_left
  have h2 : (parseTokens X X.length 0).take ((done ++ grp).length + 1) = done ++ grp ++ [t] := by
    rw [hall, show done ++ grp ++ t :: rest = done ++ grp ++ [t] ++ rest by simp,
      show (done ++ grp).length + 1 = (done ++ grp ++ [t]).length by simp; omega]
    exact List.take_left
  have h3 : 8 * ((done ++ grp).length / 8) = done.length := by
    rw [List.length_append]
    omega
  have h4 : (parseTokens X X.length 0).take done.length = done := by
    rw [hall, List.append_assoc]
    exact List.take_left
  refine ⟨⟨?_, ?_, ?_⟩, ?_, ?_⟩
  · rw [hall]; simp
  · rw [h1]; exact hlo
  · rw [h2, List.append_assoc, ← openContent_length done _ hw (by simp) (by simp; omega)]
    exact hhi
  · unfold partialStream
    rw [h3, h4, h2, List.append_assoc, List.drop_left]
    exact List.prefix_iff_eq_take.1 hpre
  · rw [tokenStart, h1]

/-- The loop of R191 either fails at its first unwritable byte, or comes to its end with the packed parse of the input in
its groups. -/
theorem runEncoder_spec {m0 : Mem} (fuel : Nat) {done grp : List Token} {s : State} (h : Grouped m0 done grp s)
    (hpar : Parsing done grp s) (hb : s.phase = .busy) (hf : s.encodeFuel ≤ fuel) :
    (∃ k j e, EncodeFailedAt m0 k j e s (runEncoder fuel s)) ∨
    ∃ u done' grp', Grouped m0 done' grp' u ∧ EncodeOnly s u ∧ u.enc.p = s.inputLen ∧
      done' ++ grp' = parseTokens s.input s.inputLen 0 ∧ runEncoder fuel s = encodeSettle encodeFinish (encodeTail u) := by
  induction fuel generalizing done grp s with
  | zero => simp [State.encodeFuel] at hf
  | succ fuel ih =>
    unfold runEncoder
    rw [if_neg (by rw [hb]; decide)]
    have hidle : ∀ t : State, t.phase = .idle → runEncoder fuel t = t := by
      intro t ht
      cases fuel with
      | zero => rfl
      | succ f => unfold runEncoder; rw [if_pos ht]
    have hsettle : ∀ r : Run, (encodeSettle encodeFinish r).phase = .idle := by
      intro r; cases r <;> rfl
    unfold encodeTurn
    split
    case isFalse hn =>
      right
      have hpe : s.enc.p = s.inputLen := by have := hpar.inside; omega
      refine ⟨s, done, grp, h, EncodeOnly.rfl' s, hpe, ?_, hidle _ (hsettle _)⟩
      rw [hpar.tokens, hpe, parseTokens_end (by simp), List.append_nil]
    case isTrue hlt =>
      rw [encodeToken_eq]
      rcases emitToken_emits h s.tokenAt with ⟨u, hu, hc, hpo, hg⟩ | ⟨e, C', u, hu, hc, hpo, ⟨hpre, hlen⟩, he⟩
      · rw [hu]
        show (∃ k j e, EncodeFailedAt m0 k j e s (runEncoder fuel (u.advanceInput s.tokenAt.span))) ∨
          ∃ w done' grp', _ ∧ _ ∧ _ ∧ _ ∧ runEncoder fuel (u.advanceInput s.tokenAt.span) = _
        have heo : EncodeOnly s (u.advanceInput s.tokenAt.span) := by
          have := hpo.encodeOnly
          exact ⟨this.regs, this.phase, this.lat, this.snap, this.seq, this.container⟩
        have hg' : Grouped m0 (nextGroups done grp s.tokenAt).1 (nextGroups done grp s.tokenAt).2
            (u.advanceInput s.tokenAt.span) :=
          ⟨hg.content.withEnc rfl rfl, hg.whole, hg.small, hg.k, hg.g, hg.acc⟩
        have hpu : (u.advanceInput s.tokenAt.span).enc.p = s.enc.p + s.tokenAt.span := by
          show u.enc.p + _ = _
          rw [hpo.p]
        have hil := State.inputLen_congr heo.lat
        obtain ⟨hpar', hs1, -⟩ := hpar.turn hlt heo hpu
        rcases ih hg' hpar' (heo.phase.trans hb) (by simp only [State.encodeFuel, hil, hpu] at hf ⊢; omega) with
          ⟨k, j, e, hfail⟩ | ⟨w, d', g', hgw, hew, hpw, ha, hr⟩
        · exact .inl ⟨k, j, e, hfail.congr heo⟩
        · exact .inr ⟨w, d', g', hgw, heo.trans hew, by rw [hpw, hil], by rw [ha, heo.input, hil], hr⟩
      · left
        obtain ⟨-, -, rest, hall⟩ := hpar.turn (u := u.advanceInput s.tokenAt.span) hlt (by
          have := hpo.encodeOnly
          exact ⟨this.regs, this.phase, this.lat, this.snap, this.seq, this.container⟩) (by
          show u.enc.p + _ = _
          rw [hpo.p])
        rw [← State.input_length] at hall
        have hlo : (packTokens (done ++ grp)).length ≤ C'.length := by
          rw [← groupContent_length h.whole h.small, ← h.content.o, ← hc.o]
          exact hpo.o
        obtain ⟨hin, hcp, hts⟩ := failed_in_token h.whole h.small hall hlo hpre hlen
        rw [hu]
        show ∃ k j e', EncodeFailedAt m0 k j e' s (runEncoder fuel (encodeError e (streamBase s.enc.container + C'.length) u))
        rw [hidle _ rfl]
        refine ⟨(done ++ grp).length, C'.length, e, hin, ?_, he, rfl, ?_, ?_⟩
        · rw [← State.Room_congr hpo.lat, ← hpo.container]
          exact hc.room
        · show u.mem = _
          rw [← hcp, hc.mem, State.outAddr_congr hpo.lat, hpo.container]
        · rw [hts, ← hpar.cursor]
          simp only [encodeError, State.raisePrefixes_regs, hpo.regs, hpo.p]

/-! ## Whole encodes -/

/-- The end of a bare stream's encode (R200). -/
theorem encodeTail_stream {m0 : Mem} {done grp : List Token} {u : State} (h : Grouped m0 done grp u)
    (hc : u.enc.container = false) :
    ∃ t, encodeTail u = .go t ∧ Content m0 (packTokens (done ++ grp)) t ∧ PackOnly u t := by
  obtain ⟨t, ht, hct, hpt⟩ := finalizeStream_emits h
  refine ⟨t, ?_, hct, hpt⟩
  unfold encodeTail
  rw [ht, Run.andThen_go, if_neg (by rw [hpt.container, hc]; decide)]

/-- A header whose declared stream size is patched is the header with that size (R202). -/
theorem header_patch {m : Mem} {a : Nat} {u c : Word} {S : List Byte} (hm : Mem.wf m = true) :
    Mem.writeList (Mem.writeList (Mem.writeList m a (headerBytes u 0)) (a + 32) S) (a + 0x18) (le32 c) =
      Mem.writeList m a (headerBytes u c ++ S) := by
  have hw1 := Mem.writeList_wf (a := a) (bs := headerBytes u 0) hm
  have hw2 := Mem.writeList_wf (a := a + 32) (bs := S) hw1
  refine Mem.ext (Mem.writeList_wf hw2) (Mem.writeList_wf hm) fun x => ?_
  have hlen : ∀ c, (headerBytes u c).length = 32 := fun _ => rfl
  rw [Mem.read_writeList hw2, Mem.read_writeList hw1, Mem.read_writeList hm, Mem.read_writeList hm, le32_length,
    List.length_append, hlen, hlen]
  by_cases hx : a ≤ x ∧ x < a + 32
  · obtain ⟨i, rfl⟩ : ∃ i, x = a + i := ⟨x - a, by omega⟩
    have hi : i < 32 := by omega
    rw [if_pos (show a ≤ a + i ∧ a + i < a + (32 + S.length) by omega), Nat.add_sub_cancel_left,
      List.getD_append _ _ _ _ (by rw [hlen]; exact hi),
      if_neg (show ¬ (a + 32 ≤ a + i ∧ a + i < a + 32 + S.length) by omega), if_pos hx, Nat.add_sub_add_left]
    have : (a + 24 ≤ a + i ∧ a + i < a + 24 + 4) ↔ (24 ≤ i ∧ i < 28) := by omega
    simp only [this]
    clear this hx
    interval_cases i <;> rfl
  · rw [if_neg (by omega)]
    by_cases hy : a + 32 ≤ x ∧ x < a + 32 + S.length
    · rw [if_pos hy, if_pos (by omega), List.getD_append_right _ _ _ _ (by rw [hlen]; omega), hlen, Nat.sub_add_eq]
    · rw [if_neg hy, if_neg hx, if_neg (by omega)]

/-- What follows a container's loop (R202): the patch, then the padding up to the first byte that cannot be written. -/
theorem encodeTail_container {m : Mem} {w : Word} {done grp : List Token} {u : State} (hm : Mem.wf m = true)
    (h : Grouped (Mem.writeList m (u.outAddr 0) (headerBytes w 0)) done grp u) (hc : u.enc.container = true)
    (S : List Byte) (hS : S = packTokens (done ++ grp)) :
    let whole := headerBytes w (BitVec.ofNat 32 S.length) ++ S ++ List.replicate (padAmount (32 + S.length)) 0
    (∃ t, encodeTail u = .go t ∧ t.mem = Mem.writeList m (u.outAddr 0) whole ∧ u.Room true whole.length ∧
      PackOnly u t ∧ t.enc.o = S.length) ∨
    ∃ x e t, encodeTail u = .raised e (32 + S.length + x) t ∧ x < padAmount (32 + S.length) ∧
      u.Room true (32 + S.length + x) ∧ u.outWriteError true (32 + S.length + x) = some e ∧
      t.mem = Mem.writeList m (u.outAddr 0) (whole.take (32 + S.length + x)) ∧ PackOnly u t := by
  subst hS
  obtain ⟨t, ht, hct, hpt⟩ := finalizeStream_emits h
  have htc : t.enc.container = true := by rw [hpt.container, hc]
  have hbase : streamBase t.enc.container = 32 := by rw [htc]; rfl
  have hroom := hct.room
  rw [hbase] at hroom
  obtain ⟨v, hv, hvm, hvs⟩ := writeBytes_go (chk := true) (j := 0x18) (bs := le32 (BitVec.ofNat 32 t.enc.o)) (s := t)
    (fun i hi => hroom _ (by rw [le32_length] at hi; omega))
  have hvo : v.enc.o = (packTokens (done ++ grp)).length := by rw [hvs.enc, hct.o]
  have hvl : v.encodedLen = 32 + (packTokens (done ++ grp)).length := by
    unfold State.encodedLen
    rw [hvo, hvs.enc, hbase]
  have htl : t.lat = u.lat := hpt.lat
  have hvl' : v.lat = u.lat := hvs.lat.trans htl
  have hroom' : u.Room true (32 + (packTokens (done ++ grp)).length) := (State.Room_congr htl _ _).1 hroom
  have hmem : v.mem = Mem.writeList m (u.outAddr 0)
      (headerBytes w (BitVec.ofNat 32 (packTokens (done ++ grp)).length) ++ packTokens (done ++ grp)) := by
    rw [hvm, hct.mem, hbase, hct.o, ← header_patch hm]
    have hb : u.lat.outBase = t.lat.outBase := by rw [htl]
    simp only [State.outAddr, hb, Nat.add_zero]
  have htail : encodeTail u = writeBytes true (32 + (packTokens (done ++ grp)).length)
      (List.replicate (padAmount (32 + (packTokens (done ++ grp)).length)) 0) v := by
    unfold encodeTail writePadding
    rw [ht, Run.andThen_go, if_pos htc]
    show (writeBytes true 0x18 _ t).andThen _ = _
    rw [hv, Run.andThen_go, hvl]
    rfl
  have hpv : PackOnly u v :=
    ⟨hvs.regs.trans hpt.regs, hvs.phase.trans hpt.phase, hvl', hvs.snap.trans hpt.snap, hvs.seq.trans hpt.seq,
      by rw [hvs.enc, hpt.container], by rw [hvs.enc, hpt.p], by rw [hvs.enc]; exact hpt.o⟩
  have hstore : ∀ {z : State}, StoreOnly v z → PackOnly u z := fun {z} hz =>
    hpv.trans ⟨hz.regs, hz.phase, hz.lat, hz.snap, hz.seq, by rw [hz.enc], by rw [hz.enc], by rw [hz.enc]⟩
  have hhl : (headerBytes w (BitVec.ofNat 32 (packTokens (done ++ grp)).length) ++ packTokens (done ++ grp)).length =
      32 + (packTokens (done ++ grp)).length := by
    rw [List.length_append]; rfl
  have hva : v.outAddr (32 + (packTokens (done ++ grp)).length) = u.outAddr 0 + (32 + (packTokens (done ++ grp)).length) := by
    rw [State.outAddr_congr hvl']; simp only [State.outAddr, Nat.add_zero]
  rw [htail]
  by_cases hall : ∀ i, i < padAmount (32 + (packTokens (done ++ grp)).length) →
      v.outWriteError true (32 + (packTokens (done ++ grp)).length + i) = none
  · left
    obtain ⟨z, hz, hzm, hzs⟩ := writeBytes_go (chk := true) (j := 32 + (packTokens (done ++ grp)).length)
      (bs := List.replicate (padAmount (32 + (packTokens (done ++ grp)).length)) 0) (s := v) (by simpa using hall)
    refine ⟨z, hz, ?_, ?_, hstore hzs, by rw [hzs.enc, hvo]⟩
    · rw [hzm, hmem, hva, Mem.writeList_append (xs := _ ++ _), hhl]
    · intro j hj
      rw [List.length_append, hhl, List.length_replicate] at hj
      by_cases hj1 : j < 32 + (packTokens (done ++ grp)).length
      · exact hroom' j hj1
      · have := hall (j - (32 + (packTokens (done ++ grp)).length)) (by omega)
        rw [State.outWriteError_congr hvl', show 32 + (packTokens (done ++ grp)).length +
          (j - (32 + (packTokens (done ++ grp)).length)) = j by omega] at this
        exact this
  · right
    have hex : ∃ i, i < padAmount (32 + (packTokens (done ++ grp)).length) ∧
        v.outWriteError true (32 + (packTokens (done ++ grp)).length + i) ≠ none := by
      push Not at hall
      exact hall
    classical
    obtain ⟨hi, hne⟩ := Nat.find_spec hex
    have hmin : ∀ x, x < Nat.find hex → v.outWriteError true (32 + (packTokens (done ++ grp)).length + x) = none := by
      intro x hx
      by_contra hxe
      exact Nat.find_min hex hx ⟨by omega, hxe⟩
    obtain ⟨e, he⟩ := Option.ne_none_iff_exists'.1 hne
    obtain ⟨z, hz, hzm, hzs⟩ := writeBytes_raised (chk := true) (j := 32 + (packTokens (done ++ grp)).length)
      (bs := List.replicate (padAmount (32 + (packTokens (done ++ grp)).length)) 0) (s := v) (by simpa using hi) hmin he
    refine ⟨Nat.find hex, e, z, hz, hi, ?_, ?_, ?_, hstore hzs⟩
    · intro j hj
      by_cases hj1 : j < 32 + (packTokens (done ++ grp)).length
      · exact hroom' j hj1
      · have := hmin (j - (32 + (packTokens (done ++ grp)).length)) (by omega)
        rw [State.outWriteError_congr hvl', show 32 + (packTokens (done ++ grp)).length +
          (j - (32 + (packTokens (done ++ grp)).length)) = j by omega] at this
        exact this
    · rw [← State.outWriteError_congr hvl']
      exact he
    · have htake : ∀ A Z : List Byte, ∀ n x, A.length = n → (A ++ Z).take (n + x) = A ++ Z.take x := by
        rintro A Z n x rfl
        exact List.take_length_add_append x
      rw [hzm, hmem, hva, htake _ _ _ _ hhl, Mem.writeList_append (xs := _ ++ _), hhl]

/-- The start state of an encode (R190). -/
structure EncodeStart (s : State) : Prop where
  busy : s.phase = .busy
  p : s.enc.p = 0
  o : s.enc.o = 0
  k : s.enc.k = 0

theorem EncodeStart.grouped {m0 : Mem} {s : State} (h : EncodeStart s) (hm : Mem.wf m0 = true) (hs : s.mem = m0)
    (hr : s.Room true (streamBase s.enc.container)) : Grouped m0 [] [] s :=
  ⟨⟨hm, hs, h.o, hr⟩, rfl, by decide, h.k, fun hn => absurd rfl hn, fun hn => absurd rfl hn⟩

theorem EncodeStart.parsing {s : State} (h : EncodeStart s) : Parsing [] [] s :=
  ⟨by rw [h.p]; rfl, h.p, by rw [h.p]; exact Nat.zero_le _⟩

/-- The packed groups of the whole parse are the encoding. -/
theorem packed_input {done grp : List Token} {s : State} (h : done ++ grp = parseTokens s.input s.inputLen 0) :
    packTokens (done ++ grp) = refEncode s.input := by
  rw [h, refEncode, State.input_length]

/-- A whole encode of a bare stream (R191, R200). -/
theorem runEncoder_stream {s : State} (h : EncodeStart s) (hm : Mem.wf s.mem = true) (hc : s.enc.container = false) :
    (∃ k j e, EncodeFailedAt s.mem k j e s (runEncoder s.encodeFuel s)) ∨
    (s.Room true (refEncode s.input).length ∧ (runEncoder s.encodeFuel s).phase = .idle ∧
      (runEncoder s.encodeFuel s).mem = Mem.writeList s.mem (s.outAddr 0) (refEncode s.input) ∧
      (runEncoder s.encodeFuel s).regs =
        { s.regs.encoded s.inputLen (refEncode s.input).length (refEncode s.input).length with
          done := true, err := false, errcode := .none }) := by
  have hb0 : streamBase s.enc.container = 0 := by rw [hc]; rfl
  have hg := h.grouped hm rfl (by rw [hb0]; intro j hj; exact absurd hj (Nat.not_lt_zero j))
  rcases runEncoder_spec _ hg h.parsing h.busy (Nat.le_refl _) with hfail | ⟨u, d, g, hgu, heo, hp, hall, hr⟩
  · exact .inl hfail
  · right
    obtain ⟨t, ht, hct, hpt⟩ := encodeTail_stream hgu (by rw [heo.container, hc])
    have hS := packed_input hall
    rw [hS] at hct
    have htc : t.enc.container = false := by rw [hpt.container, heo.container, hc]
    have htl : t.lat = s.lat := hpt.lat.trans heo.lat
    have hroom := hct.room
    have hmem := hct.mem
    rw [htc, State.Room_congr htl] at hroom
    rw [htc, State.outAddr_congr htl] at hmem
    rw [show streamBase false + (refEncode s.input).length = (refEncode s.input).length from Nat.zero_add _] at hroom
    rw [hr, ht]
    refine ⟨hroom, rfl, hmem, ?_⟩
    show (encodeFinish t).regs = _
    have hout : t.encodeOutLen = (refEncode s.input).length := by
      unfold State.encodeOutLen
      rw [htc, hct.o]
      rfl
    simp only [encodeFinish, State.finish_regs, State.withRegs_regs]
    rw [hout, hct.o, State.inputLen_congr htl, hpt.regs, heo.regs]

/-- A whole encode of a container, from where its header has been written (R202). -/
theorem runEncoder_container {m : Mem} {w : Word} {s : State} (h : EncodeStart s) (hm : Mem.wf m = true)
    (hc : s.enc.container = true) (hs : s.mem = Mem.writeList m (s.outAddr 0) (headerBytes w 0))
    (hr : s.Room true 32) (hw : w = BitVec.ofNat 32 s.input.length) :
    (∃ k j e, EncodeFailedAt s.mem k j e s (runEncoder s.encodeFuel s)) ∨
    (s.Room true (refContainer s.input).length ∧ (runEncoder s.encodeFuel s).phase = .idle ∧
      (runEncoder s.encodeFuel s).mem = Mem.writeList m (s.outAddr 0) (refContainer s.input) ∧
      (runEncoder s.encodeFuel s).regs =
        { s.regs.encoded s.inputLen (refEncode s.input).length (refContainer s.input).length with
          done := true, err := false, errcode := .none }) ∨
    ∃ j e, 32 + (refEncode s.input).length ≤ j ∧ j < (refContainer s.input).length ∧ s.Room true j ∧
      s.outWriteError true j = some e ∧ (runEncoder s.encodeFuel s).phase = .idle ∧
      (runEncoder s.encodeFuel s).mem = Mem.writeList m (s.outAddr 0) ((refContainer s.input).take j) ∧
      (runEncoder s.encodeFuel s).regs =
        { s.regs with
          outLen := BitVec.ofNat 32 j, inUsed := BitVec.ofNat 32 s.inputLen
          err := true, done := false, errcode := e } := by
  have hb0 : streamBase s.enc.container = 32 := by rw [hc]; rfl
  have hwf : Mem.wf s.mem = true := by rw [hs]; exact Mem.writeList_wf hm
  have hg := h.grouped hwf rfl (by rw [hb0]; exact hr)
  rcases runEncoder_spec _ hg h.parsing h.busy (Nat.le_refl _) with hfail | ⟨u, d, g, hgu, heo, hp, hall, hrun⟩
  · exact .inl hfail
  · right
    have hS := packed_input hall
    have huc : u.enc.container = true := by rw [heo.container, hc]
    rw [hs, ← State.outAddr_congr heo.lat] at hgu
    have hlen : (refContainer s.input).length =
        32 + (refEncode s.input).length + padAmount (32 + (refEncode s.input).length) := by
      simp [refContainer, headerBytes, signature, le32_length]
      omega
    have hwhole : headerBytes w (BitVec.ofNat 32 (refEncode s.input).length) ++ refEncode s.input ++
        List.replicate (padAmount (32 + (refEncode s.input).length)) 0 = refContainer s.input := by rw [hw]; rfl
    rcases encodeTail_container hm hgu huc _ hS.symm with ⟨t, ht, htm, hroom, hpt, ho⟩ |
        ⟨x, e, t, ht, hx, hroom, he, htm, hpt⟩
    · left
      rw [hwhole] at htm hroom
      rw [State.outAddr_congr heo.lat] at htm
      rw [State.Room_congr heo.lat] at hroom
      have htl : t.lat = s.lat := hpt.lat.trans heo.lat
      rw [hrun, ht]
      refine ⟨hroom, rfl, htm, ?_⟩
      show (encodeFinish t).regs = _
      have htc : t.enc.container = true := by rw [hpt.container, huc]
      have hout : t.encodeOutLen = (refContainer s.input).length := by
        unfold State.encodeOutLen State.encodedLen
        rw [htc, ho, hlen]
        rfl
      simp only [encodeFinish, State.finish_regs, State.withRegs_regs]
      rw [hout, ho, State.inputLen_congr htl, hpt.regs, heo.regs]
    · right
      rw [hwhole] at htm
      rw [State.outAddr_congr heo.lat] at htm
      rw [State.Room_congr heo.lat] at hroom
      rw [State.outWriteError_congr heo.lat] at he
      refine ⟨32 + (refEncode s.input).length + x, e, by omega, by omega, hroom, he, ?_⟩
      rw [hrun, ht]
      refine ⟨rfl, htm, ?_⟩
      show (encodeError e _ t).regs = _
      simp only [encodeError, State.raisePrefixes_regs, hpt.regs, heo.regs, hpt.p, hp]

end Sys2Proof.Machine
end

