-- ==== Sys2Proof/Laws/Settles.lean ====
section
/-! SUPPORT. How a part of a command leaves the registers and the phase, said once for every instruction: it goes on with
nothing written to them but `DIAG_CLAMP`, or it ends the command (R46, R116, R266). -/
namespace Sys2Proof.Machine

/-- Nothing but `DIAG_CLAMP` has changed of the registers, and the core is in its phase. -/
structure GoesOn (s t : State) : Prop where
  regs : t.regs = { s.regs with diagClamp := t.regs.diagClamp }
  phase : t.phase = s.phase

/-- The command has ended, with `ERRCODE`, `DONE` and `ERR` in agreement; `MRES` is as it was or a match result. -/
structure Ends (s t : State) : Prop where
  ended : ∃ c, t.EndedWith c
  mres : t.regs.mres = s.regs.mres ∨ MresOk t.regs.mres

/-- The part goes on or ends the command. -/
def Settles (s t : State) : Prop := GoesOn s t ∨ Ends s t

theorem GoesOn.rfl' (s : State) : GoesOn s s := ⟨rfl, rfl⟩

theorem GoesOn.of_eq {s t : State} (hr : t.regs = s.regs) (hp : t.phase = s.phase) : GoesOn s t := ⟨by rw [hr], hp⟩

theorem GoesOn.mres {s t : State} (h : GoesOn s t) : t.regs.mres = s.regs.mres := by rw [h.regs]

theorem GoesOn.trans {s t u : State} (h : GoesOn s t) (h' : GoesOn t u) : GoesOn s u :=
  ⟨by rw [h'.regs, h.regs], h'.phase.trans h.phase⟩

theorem GoesOn.settles {s t u : State} (h : GoesOn s t) (h' : Settles t u) : Settles s u := by
  rcases h' with h' | h'
  · exact .inl (h.trans h')
  · exact .inr ⟨h'.ended, by rw [← h.mres]; exact h'.mres⟩

theorem Settles.after {s t u : State} (h' : Settles t u) (h : GoesOn s t) : Settles s u := h.settles h'

/-- The codes a write can raise are codes of errors (R66). -/
theorem outWriteError_ne_none {chk : Bool} {j : Nat} {s : State} {c : ErrCode} (h : s.outWriteError chk j = some c) :
    c = .addrRange ∨ c = .overlap := by
  unfold State.outWriteError at h
  split at h
  · exact .inl (Option.some.inj h).symm
  · split at h
    · exact .inr (Option.some.inj h).symm
    · cases h

theorem raise_endedWith {c : ErrCode} (s : State) (h : c ≠ .none) : (s.raise c).EndedWith c := by
  refine ⟨rfl, rfl, ?_, ?_⟩ <;> cases c <;> first | rfl | exact absurd rfl h

theorem finish_endedWith (s : State) : s.finish.EndedWith .none := ⟨rfl, rfl, rfl, rfl⟩

theorem raise_ends {s t : State} {c : ErrCode} (h : c ≠ .none) (hm : t.regs.mres = s.regs.mres) : Ends s (t.raise c) :=
  ⟨⟨c, raise_endedWith t h⟩, .inl hm⟩

theorem finish_ends {s t : State} (hm : t.regs.mres = s.regs.mres ∨ MresOk t.regs.mres) : Ends s t.finish :=
  ⟨⟨.none, finish_endedWith t⟩, hm⟩

/-- A run of writes goes on, or raises one of the two write errors; either way nothing of the registers has changed. -/
def WritesOnly (s : State) (r : Run) : Prop :=
  match r with
  | .go t => t.regs = s.regs ∧ t.phase = s.phase ∧ t.seq = s.seq
  | .raised c _ t => (c = .addrRange ∨ c = .overlap) ∧ t.regs = s.regs ∧ t.phase = s.phase ∧ t.seq = s.seq

theorem WritesOnly.andThen {s : State} {r : Run} {f : State → Run} (h : WritesOnly s r)
    (hf : ∀ t, r = .go t → WritesOnly t (f t)) : WritesOnly s (r.andThen f) := by
  cases r with
  | raised c n t => exact h
  | go t =>
    have hgo := hf t rfl
    have ht : t.regs = s.regs ∧ t.phase = s.phase ∧ t.seq = s.seq := h
    show WritesOnly s (f t)
    revert hgo
    unfold WritesOnly
    cases f t with
    | go u => exact fun hu => ⟨hu.1.trans ht.1, hu.2.1.trans ht.2.1, hu.2.2.trans ht.2.2⟩
    | raised c n u => exact fun hu => ⟨hu.1, hu.2.1.trans ht.1, hu.2.2.1.trans ht.2.1, hu.2.2.2.trans ht.2.2⟩

theorem outWrite_writesOnly (chk : Bool) (j : Nat) (v : Byte) (s : State) : WritesOnly s (outWrite chk j v s) := by
  rcases outWrite_cases chk j v s with ⟨c, hc, h⟩ | ⟨-, h⟩ <;> rw [h]
  · exact ⟨outWriteError_ne_none hc, rfl, rfl, rfl⟩
  · exact ⟨rfl, rfl, rfl⟩

theorem writeBytes_writesOnly (chk : Bool) (j : Nat) (bs : List Byte) (s : State) :
    WritesOnly s (writeBytes chk j bs s) := by
  induction bs generalizing j s with
  | nil => exact ⟨rfl, rfl, rfl⟩
  | cons b bs ih => exact (outWrite_writesOnly chk j b s).andThen fun t _ => ih (j + 1) t

theorem decodeWrite_writesOnly (v : Byte) (s : State) : WritesOnly s (decodeWrite v s) :=
  (outWrite_writesOnly _ _ _ s).andThen fun _ _ => ⟨rfl, rfl, rfl⟩

theorem copyBytesOut_writesOnly (off len : Nat) (s : State) : WritesOnly s (copyBytesOut off len s) := by
  induction len generalizing s with
  | zero => exact ⟨rfl, rfl, rfl⟩
  | succ len ih =>
    unfold copyBytesOut
    split
    · exact ⟨rfl, rfl, rfl⟩
    · exact (decodeWrite_writesOnly _ s).andThen fun t _ => ih t

theorem appendStreamByte_writesOnly (v : Byte) (s : State) : WritesOnly s (appendStreamByte v s) :=
  (outWrite_writesOnly _ _ _ s).andThen fun _ _ => ⟨rfl, rfl, rfl⟩

theorem appendStreamBytes_writesOnly (bs : List Byte) (s : State) : WritesOnly s (appendStreamBytes bs s) := by
  induction bs generalizing s with
  | nil => exact ⟨rfl, rfl, rfl⟩
  | cons b bs ih => exact (appendStreamByte_writesOnly b s).andThen fun t _ => ih t

theorem WritesOnly.of_eq {s t : State} {r : Run} (hr : t.regs = s.regs) (hp : t.phase = s.phase) (hq : t.seq = s.seq)
    (h : WritesOnly t r) : WritesOnly s r := by
  cases r with
  | go u => exact ⟨h.1.trans hr, h.2.1.trans hp, h.2.2.trans hq⟩
  | raised c n u => exact ⟨h.1, h.2.1.trans hr, h.2.2.1.trans hp, h.2.2.2.trans hq⟩

theorem reserveIfNeeded_writesOnly (s : State) : WritesOnly s (reserveIfNeeded s) := by
  unfold reserveIfNeeded
  split
  · exact WritesOnly.of_eq (t := s.withEnc { s.enc with g := s.enc.o }) rfl rfl rfl
      ((appendStreamByte_writesOnly 0 _).andThen fun _ _ => ⟨rfl, rfl, rfl⟩)
  · exact ⟨rfl, rfl, rfl⟩

theorem patchGroup_writesOnly (s : State) : WritesOnly s (patchGroup s) :=
  (outWrite_writesOnly _ _ _ s).andThen fun _ _ => ⟨rfl, rfl, rfl⟩

theorem countToken_writesOnly (s : State) : WritesOnly s (countToken s) := by
  unfold countToken
  simp only
  split
  · exact WritesOnly.of_eq (t := s.withEnc { s.enc with k := s.enc.k + 1 }) rfl rfl rfl (patchGroup_writesOnly _)
  · exact ⟨rfl, rfl, rfl⟩

theorem emitToken_writesOnly (t : Token) (s : State) : WritesOnly s (emitToken t s) := by
  cases t with
  | literal v =>
    exact ((reserveIfNeeded_writesOnly s).andThen fun _ _ => appendStreamByte_writesOnly v _).andThen
      fun _ _ => countToken_writesOnly _
  | copy off len =>
    exact ((reserveIfNeeded_writesOnly s).andThen fun u _ =>
      WritesOnly.of_eq (t := u.markCopy) rfl rfl rfl (appendStreamBytes_writesOnly _ _)).andThen
        fun _ _ => countToken_writesOnly _

theorem encodeToken_writesOnly (s : State) : WritesOnly s (encodeToken s) := by
  rw [encodeToken_eq]
  exact (emitToken_writesOnly _ s).andThen fun _ _ => ⟨rfl, rfl, rfl⟩

theorem encodeTail_writesOnly (s : State) : WritesOnly s (encodeTail s) := by
  unfold encodeTail
  refine WritesOnly.andThen ?_ fun t _ => ?_
  · unfold finalizeStream
    split
    · exact patchGroup_writesOnly s
    · exact ⟨rfl, rfl, rfl⟩
  · split
    · exact (writeBytes_writesOnly _ _ _ t).andThen fun u _ => writeBytes_writesOnly _ _ _ u
    · exact ⟨rfl, rfl, rfl⟩

/-! ## The decoder -/

theorem decodeError_ends {s t : State} {c : ErrCode} (n : Nat) (h : c ≠ .none) (hm : t.regs.mres = s.regs.mres) :
    Ends s (decodeError c n t) :=
  raise_ends h hm

theorem decodeFinish_ends {s t : State} (hm : t.regs.mres = s.regs.mres) : Ends s (decodeFinish t) :=
  finish_ends (.inl hm)

theorem write_error_ne {c : ErrCode} (h : c = .addrRange ∨ c = .overlap) : c ≠ .none := by
  rcases h with rfl | rfl <;> decide

theorem decodeSettle_settles {s : State} {r : Run} (h : WritesOnly s r) : Settles s (decodeSettle r) := by
  cases r with
  | go t => exact .inl (GoesOn.of_eq h.1 h.2.1)
  | raised c n t => exact .inr (decodeError_ends n (write_error_ne h.1) (by rw [h.2.1]))

theorem runItem_settles (i : Instr) (s : State) : Settles s (runItem i s) := by
  cases i with
  | ctrl c => exact .inl ⟨rfl, rfl⟩
  | lit v => exact decodeSettle_settles (WritesOnly.of_eq (t := s.takeToken 1) rfl rfl rfl (decodeWrite_writesOnly v _))
  | copy off len =>
    exact decodeSettle_settles (WritesOnly.of_eq (t := s.takeToken 2) rfl rfl rfl (copyBytesOut_writesOnly off len _))
  | _ => exact .inl (GoesOn.rfl' s)

theorem streamErrorCode_ne_none (e : DecodeError) : streamErrorCode e ≠ .none := by cases e <;> decide

theorem decodeTurn_settles (s : State) : Settles s (decodeTurn s) := by
  unfold decodeTurn
  split
  · split
    · exact runItem_settles _ s
    · exact .inr (decodeError_ends _ (streamErrorCode_ne_none _) rfl)
  · exact .inr (decodeFinish_ends rfl)

theorem runDecoder_idle (fuel : Nat) {s : State} (h : s.phase = .idle) : runDecoder fuel s = s := by
  cases fuel with
  | zero => rfl
  | succ n => unfold runDecoder; rw [if_pos h]

theorem runEncoder_idle (fuel : Nat) {s : State} (h : s.phase = .idle) : runEncoder fuel s = s := by
  cases fuel with
  | zero => rfl
  | succ n => unfold runEncoder; rw [if_pos h]

theorem runDecoder_settles (fuel : Nat) (s : State) : Settles s (runDecoder fuel s) := by
  induction fuel generalizing s with
  | zero => exact .inl (GoesOn.rfl' s)
  | succ n ih =>
    unfold runDecoder
    split
    · exact .inl (GoesOn.rfl' s)
    · rcases decodeTurn_settles s with h | h
      · exact h.settles (ih _)
      · rw [runDecoder_idle n h.ended.choose_spec.1]
        exact .inr h

theorem enterDecoder_settles (s : State) : Settles s (enterDecoder s) := by
  unfold enterDecoder
  split
  · exact .inr (decodeError_ends _ (by decide) rfl)
  · split
    · exact .inl (GoesOn.rfl' s)
    · exact runDecoder_settles _ s

/-! ## The encoder -/

theorem encodeSettle_settles {s : State} {r : Run} {k : State → State} (h : WritesOnly s r)
    (hk : ∀ t, r = .go t → Settles t (k t)) : Settles s (encodeSettle k r) := by
  cases r with
  | go t => exact (GoesOn.of_eq h.1 h.2.1).settles (hk t rfl)
  | raised c n t =>
    exact .inr (raise_ends (write_error_ne h.1) (show t.regs.mres = _ by rw [h.2.1]))

theorem encodeFinish_ends (s : State) : Ends s (encodeFinish s) := finish_ends (.inl rfl)

theorem encodeTurn_settles (s : State) : Settles s (encodeTurn s) := by
  unfold encodeTurn
  split
  · exact encodeSettle_settles (encodeToken_writesOnly s) fun t _ => .inl (GoesOn.rfl' t)
  · exact encodeSettle_settles (encodeTail_writesOnly s) fun t _ => .inr (encodeFinish_ends t)

theorem runEncoder_settles (fuel : Nat) (s : State) : Settles s (runEncoder fuel s) := by
  induction fuel generalizing s with
  | zero => exact .inl (GoesOn.rfl' s)
  | succ n ih =>
    unfold runEncoder
    split
    · exact .inl (GoesOn.rfl' s)
    · rcases encodeTurn_settles s with h | h
      · exact h.settles (ih _)
      · rw [runEncoder_idle n h.ended.choose_spec.1]
        exact .inr h

theorem enterEncoder_settles (s : State) : Settles s (enterEncoder s) := by
  unfold enterEncoder
  split
  · exact .inl (GoesOn.rfl' s)
  · exact runEncoder_settles _ s

/-! ## The sequencing -/

theorem decodeSettle_seq {s : State} {r : Run} (h : WritesOnly s r) : (decodeSettle r).seq = s.seq := by
  cases r with
  | go t => exact h.2.2
  | raised c n t => exact h.2.2.2

theorem decodeTurn_seq (s : State) : (decodeTurn s).seq = s.seq := by
  unfold decodeTurn
  split
  · split
    · rename_i i _
      cases i with
      | lit v =>
        exact decodeSettle_seq (WritesOnly.of_eq (t := s.takeToken 1) rfl rfl rfl (decodeWrite_writesOnly v _))
      | copy off len =>
        exact decodeSettle_seq (WritesOnly.of_eq (t := s.takeToken 2) rfl rfl rfl (copyBytesOut_writesOnly off len _))
      | _ => rfl
    · rfl
  · rfl

theorem runDecoder_seq (fuel : Nat) (s : State) : (runDecoder fuel s).seq = s.seq := by
  induction fuel generalizing s with
  | zero => rfl
  | succ n ih =>
    unfold runDecoder
    split
    · rfl
    · rw [ih, decodeTurn_seq]

theorem encodeSettle_seq {s : State} {r : Run} {k : State → State} (h : WritesOnly s r)
    (hk : ∀ t, (k t).seq = t.seq) : (encodeSettle k r).seq = s.seq := by
  cases r with
  | go t => exact (hk t).trans h.2.2
  | raised c n t => exact h.2.2.2

theorem encodeTurn_seq (s : State) : (encodeTurn s).seq = s.seq := by
  unfold encodeTurn
  split
  · exact encodeSettle_seq (encodeToken_writesOnly s) fun _ => rfl
  · exact encodeSettle_seq (encodeTail_writesOnly s) fun _ => rfl

theorem runEncoder_seq (fuel : Nat) (s : State) : (runEncoder fuel s).seq = s.seq := by
  induction fuel generalizing s with
  | zero => rfl
  | succ n ih =>
    unfold runEncoder
    split
    · rfl
    · rw [ih, encodeTurn_seq]

/-! ## Every instruction -/

/-- The header parse raises only its own two errors (R131). -/
theorem parseHeader_error {s : State} {e : ErrCode} (h : parseHeader s = .error e) :
    (s.inputLen < 32 ∧ e = .tooShort) ∨ (32 ≤ s.inputLen ∧ s.signatureMatches = false ∧ e = .invalidSignature) := by
  unfold parseHeader at h
  split at h
  · rename_i hl
    exact .inl ⟨hl, (Except.error.inj h).symm⟩
  · rename_i hl
    split at h
    · rename_i hsig
      exact .inr ⟨Nat.le_of_not_lt hl, by simpa using hsig, (Except.error.inj h).symm⟩
    · cases h

theorem parseHeader_error_ne {s : State} {e : ErrCode} (h : parseHeader s = .error e) : e ≠ .none := by
  rcases parseHeader_error h with ⟨-, rfl⟩ | ⟨-, -, rfl⟩ <;> decide

theorem matchResult_ok (D : Nat → Byte) (n p : Nat) : MresOk (matchResultWord (findMatch D n p)) := by
  cases h : findMatch D n p with
  | none => exact .inl rfl
  | some r =>
    obtain ⟨off, len⟩ := r
    obtain ⟨h1, h2, -⟩ := findMatch_ranges h
    exact .inr ⟨off, len, ⟨h1.1, h1.2.trans (Nat.min_le_left _ _)⟩, h2, rfl⟩

/-- Every instruction answers a next state, in which its command goes on or has ended. -/
theorem exec_settles (i : Instr) (s : State) : ∃ t, exec i s = .next t ∧ Settles s t := by
  cases i with
  | parseHeader =>
    show ∃ t, execParseHeader s = .next t ∧ _
    unfold execParseHeader
    split
    · exact ⟨_, rfl, .inr (raise_ends (by decide) rfl)⟩
    · split
      · rename_i e he
        exact ⟨_, rfl, .inr (raise_ends (parseHeader_error_ne he) rfl)⟩
      · exact ⟨_, rfl, .inr (finish_ends (.inl rfl))⟩
  | writeHeader =>
    show ∃ t, execWriteHeader s = .next t ∧ _
    unfold execWriteHeader
    have h := writeBytes_writesOnly (checksOverlap .writeHeader) 0 (headerBytes s.lat.usize s.lat.csize) s
    revert h
    cases writeBytes (checksOverlap .writeHeader) 0 (headerBytes s.lat.usize s.lat.csize) s with
    | go t => exact fun h => ⟨_, rfl, .inr (finish_ends (.inl (show t.regs.mres = _ by rw [h.1])))⟩
    | raised c n t =>
      exact fun h => ⟨_, rfl, .inr (raise_ends (write_error_ne h.1) (show t.regs.mres = _ by rw [h.2.1]))⟩
  | decodeStream =>
    show ∃ t, execDecodeStream s = .next t ∧ _
    unfold execDecodeStream
    split
    · exact ⟨_, rfl, .inr (raise_ends (by decide) rfl)⟩
    · exact ⟨_, rfl, (enterDecoder_settles _).after ⟨rfl, rfl⟩⟩
  | decodeContainer =>
    show ∃ t, execDecodeContainer s = .next t ∧ _
    unfold execDecodeContainer
    split
    · exact ⟨_, rfl, .inr (raise_ends (by decide) rfl)⟩
    · split
      · rename_i e he
        exact ⟨_, rfl, .inr (raise_ends (parseHeader_error_ne he) rfl)⟩
      · exact ⟨_, rfl, (enterDecoder_settles _).after ⟨rfl, rfl⟩⟩
  | encodeStream =>
    show ∃ t, execEncodeStream s = .next t ∧ _
    unfold execEncodeStream
    split
    · exact ⟨_, rfl, .inr (raise_ends (by decide) rfl)⟩
    · exact ⟨_, rfl, (enterEncoder_settles _).after ⟨rfl, rfl⟩⟩
  | encodeContainer =>
    show ∃ t, execEncodeContainer s = .next t ∧ _
    unfold execEncodeContainer
    split
    · exact ⟨_, rfl, .inr (raise_ends (by decide) rfl)⟩
    · exact ⟨_, rfl, GoesOn.settles (t := s.startEncode true) ⟨rfl, rfl⟩
        (encodeSettle_settles (writeBytes_writesOnly _ _ _ _) fun t _ => enterEncoder_settles t)⟩
  | pad =>
    show ∃ t, execPad s = .next t ∧ _
    unfold execPad
    split
    · exact ⟨_, rfl, .inr (raise_ends (by decide) rfl)⟩
    · have h := writeBytes_writesOnly (checksOverlap .pad) s.lat.outLen.toNat
        (List.replicate (padAmount s.lat.outLen.toNat) 0) s
      unfold writePadding
      revert h
      cases writeBytes (checksOverlap .pad) s.lat.outLen.toNat (List.replicate (padAmount s.lat.outLen.toNat) 0) s with
      | go t => exact fun h => ⟨_, rfl, .inr (finish_ends (.inl (show t.regs.mres = _ by rw [h.1])))⟩
      | raised c n t =>
        exact fun h => ⟨_, rfl, .inr (raise_ends (write_error_ne h.1) (show t.regs.mres = _ by rw [h.2.1]))⟩
  | findMatch =>
    show ∃ t, execFindMatch s = .next t ∧ _
    unfold execFindMatch
    split
    · exact ⟨_, rfl, .inr (raise_ends (by decide) rfl)⟩
    · split
      · exact ⟨_, rfl, .inr (raise_ends (by decide) rfl)⟩
      · exact ⟨_, rfl, .inr (finish_ends (.inr (matchResult_ok _ _ _)))⟩
  | illegalOp w => exact ⟨_, rfl, .inr (raise_ends (by decide) rfl)⟩
  | ctrl c => exact ⟨_, rfl, runItem_settles (.ctrl c) s⟩
  | lit v => exact ⟨_, rfl, runItem_settles (.lit v) s⟩
  | copy off len => exact ⟨_, rfl, runItem_settles (.copy off len) s⟩

end Sys2Proof.Machine
end

