-- ==== Sys2Proof/Laws/Steps.lean ====
section
/-! SUPPORT. What one step can do, said once: a step of the core's own, a reset, the start of a command, or one access of
the host. The rules about the whole machine are derived from this. -/
namespace Sys2Proof.Machine

theorem coreStep_busy {s : State} (h : s.phase = .busy) :
    coreStep s =
      if s.seq.stall ≠ 0 then .next s.waitStep
      else
        match s.seq.engine with
        | .dispatch => exec (decodeCommand s.op) s
        | .decode => decodeStep s
        | .encode => .next (encodeTurn s) := by
  unfold coreStep
  rw [h] <;> rfl

theorem coreStep_idle {s : State} (h : s.phase = .idle) : coreStep s = .next s := by
  unfold coreStep
  rw [h]

theorem fetchItem_item {s : State} {i : Instr} (h : fetchItem s = .ok i) :
    (∃ c, i = .ctrl c) ∨ (∃ v, i = .lit v) ∨ ∃ off len, i = .copy off len := by
  unfold fetchItem at h
  cases hb : decode s.itemDue s.streamBytes with
  | error e => rw [hb] at h; cases h
  | ok r =>
    rw [hb] at h
    obtain rfl : r.1 = i := by simpa [Except.map] using h
    cases hk : s.itemDue with
    | command =>
      unfold State.itemDue at hk
      split at hk
      · cases hk
      · split at hk <;> cases hk
    | control =>
      rw [hk] at hb
      cases hl : s.streamBytes with
      | nil => rw [hl] at hb; cases hb
      | cons b bs => rw [hl] at hb; exact .inl ⟨b, by obtain rfl := Except.ok.inj hb; rfl⟩
    | literal =>
      rw [hk] at hb
      cases hl : s.streamBytes with
      | nil => rw [hl] at hb; cases hb
      | cons b bs => rw [hl] at hb; exact .inr (.inl ⟨b, by obtain rfl := Except.ok.inj hb; rfl⟩)
    | copy =>
      rw [hk] at hb
      rcases hl : s.streamBytes with _ | ⟨b0, _ | ⟨b1, bs⟩⟩ <;> rw [hl] at hb
      · cases hb
      · cases hb
      · exact .inr (.inr ⟨_, _, by obtain rfl := Except.ok.inj hb; rfl⟩)

/-- One turn of the decoder's loop is one step of a decode taken one item a step (R114). -/
theorem decodeStep_eq (s : State) : decodeStep s = .next (decodeTurn s) := by
  unfold decodeStep decodeTurn
  split
  · cases hi : fetchItem s with
    | ok i => rcases fetchItem_item hi with ⟨c, rfl⟩ | ⟨v, rfl⟩ | ⟨off, len, rfl⟩ <;> rfl
    | error e => rfl
  · rfl

/-- A step of the core's own while a command runs. -/
theorem coreStep_settles {s : State} (h : s.phase = .busy) : ∃ t, coreStep s = .next t ∧ Settles s t := by
  rw [coreStep_busy h]
  split
  · exact ⟨_, rfl, .inl ⟨rfl, rfl⟩⟩
  · split
    · exact exec_settles _ s
    · rw [decodeStep_eq]
      exact ⟨_, rfl, decodeTurn_settles s⟩
    · exact ⟨_, rfl, encodeTurn_settles s⟩

theorem InputNext.unique {s : State} {x y : Input} (h : s.InputNext x) (h' : s.InputNext y) : x = y :=
  Option.some.inj (Eq.trans (Eq.symm h) h')

theorem State.CoreNext.not_reset {s : State} (h : s.CoreNext) : ¬ s.ResetNext := by
  rintro (hr | ⟨v, hr, -⟩) <;> rcases h with h0 | h0
  · rw [State.InputNext, h0] at hr; cases hr
  · cases InputNext.unique hr h0
  · rw [State.InputNext, h0] at hr; cases hr
  · cases InputNext.unique hr h0

theorem State.CoreNext.not_start {s : State} (h : s.CoreNext) (w : Word) : ¬ s.StartNext w := by
  rintro ⟨-, hw⟩
  rcases h with h0 | h0
  · rw [State.InputNext, h0] at hw; cases hw
  · cases InputNext.unique hw h0

theorem State.ResetNext.not_start {s : State} (h : s.ResetNext) (w : Word) : ¬ s.StartNext w := by
  rintro ⟨-, hw⟩
  rcases h with h0 | ⟨v, h0, -⟩
  · cases InputNext.unique hw h0
  · have := InputNext.unique hw h0
    simp at this

/-- None of the steps of another kind is due. -/
structure OtherInput (x : Input) (s : State) : Prop where
  next : s.InputNext x
  core : ¬ s.CoreNext
  reset : ¬ s.ResetNext
  start : ∀ w, ¬ s.StartNext w

theorem OtherInput.of {s : State} {x : Input} (h : s.InputNext x) (ht : x ≠ .tick) (hr : x ≠ .hardReset)
    (hs : ∀ v, x = .regWrite 0x04 4 v → v.getLsbD 1 ≠ true) (hc : ∀ w, x = .regWrite 0x08 4 w → s.phase ≠ .idle) :
    OtherInput x s where
  next := h
  core := by
    rintro (h' | h')
    · rw [State.InputNext, h'] at h
      cases h
    · exact ht (InputNext.unique h h')
  reset := by
    rintro (h' | ⟨v, h', hv⟩)
    · exact hr (InputNext.unique h h')
    · exact hs v (InputNext.unique h h') hv
  start := fun w hw => hc w (InputNext.unique h hw.2) hw.1

/-- What one step can do. -/
inductive StepCase (s t : State) : Prop where
  /-- The core takes a step of its own. -/
  | core (u : State) (next : s.CoreNext) (same : SameCore s u) (run : coreStep u = .next t)
  /-- A reset (R290, R292). -/
  | reset (u : State) (next : s.ResetNext) (same : SameCore s u) (eq : t = u.resetCore)
  /-- A command starts (R110). -/
  | start (w : Word) (u : State) (next : s.StartNext w) (same : SameCore s u) (eq : t = u.start w)
  /-- A write to `STATUS` while idle (R25). -/
  | status (v : Word) (other : OtherInput (.regWrite 0x0C 4 v) s) (idle : s.phase = .idle)
      (same : SameCore (s.withRegs (s.regs.writeStatus v)) t)
  /-- A write to `CTRL` that does not reset (R23). -/
  | ctrl (v : Word) (other : OtherInput (.regWrite 0x04 4 v) s) (bit : v.getLsbD 1 = false)
      (same : SameCore (s.withRegs { s.regs with ie := v.getLsbD 0 }) t)
  /-- A write to another register while idle (R20, R21). -/
  | operand (off : Nat) (v : Word) (other : OtherInput (.regWrite off 4 v) s) (idle : s.phase = .idle)
      (offset : off ≠ 0x04 ∧ off ≠ 0x08 ∧ off ≠ 0x0C) (same : SameCore (s.withRegs (s.regs.writeOperand off v)) t)
  /-- A write that a running command ignores (R46). -/
  | ignored (off : Nat) (v : Word) (other : OtherInput (.regWrite off 4 v) s) (busy : s.phase = .busy)
      (offset : off ≠ 0x04) (same : SameCore s t)
  /-- A register read that is not one of the progress (R21). -/
  | read (off : Nat) (other : OtherInput (.regRead off 4) s) (same : SameCore s t)
  /-- A read of the progress while a command runs (R32). -/
  | progress (u : State) (other : OtherInput (.regRead 0x2C 4) s) (busy : s.phase = .busy) (same : SameCore s u)
      (eq : t = u.readProgress)
  /-- A host read of memory (R295). -/
  | memRead (a : Nat) (other : OtherInput (.memRead a) s) (same : SameCore s t)
  /-- A host write to memory (R295). -/
  | memWrite (a : Nat) (b : Byte) (u : State) (other : OtherInput (.memWrite a b) s) (same : SameCore s u)
      (bound : a < 0x100000000) (eq : t = { u with mem := Mem.write u.mem a b })

theorem step_cases {s t : State} (h : step s = .next t) : StepCase s t := by
  cases hh : s.port.inputs.head? with
  | none =>
    rw [withInputs_none hh, step_nil] at h
    exact .core _ (.inl hh) (withInputs_same [] s) h
  | some x =>
    obtain ⟨xs, hs⟩ := withInputs_cons hh
    rw [hs] at h
    have hseen := seen_same s xs
    cases x with
    | tick => exact .core _ (.inr hh) (withInputs_same xs s) h
    | hardReset => exact .reset _ (.inl hh) (withInputs_same xs s) (Host.Outcome.next.inj h).symm
    | regRead off width =>
      rw [step_regRead] at h
      split at h
      case isFalse => cases h
      case isTrue hok =>
        obtain ⟨rfl, h4, hlt⟩ := regAccessOk_iff.1 hok
        have ht := (Host.Outcome.next.inj h).symm
        have ho : OtherInput (.regRead off 4) s := .of hh (by simp) (by simp) (by simp) (by simp)
        by_cases hp : off = 0x2C ∧ s.phase = .busy
        · obtain ⟨rfl, hb⟩ := hp
          refine .progress _ ho hb hseen ?_
          rw [ht]
          unfold State.readReg
          rw [if_neg (by decide), if_pos ⟨rfl, hseen.phase.trans hb⟩]
        · refine .read off ho ?_
          rw [ht]
          refine hseen.trans (readReg_spec ?_).1
          rw [hseen.phase]
          by_cases h0 : off = 0x2C
          · right
            cases hp' : s.phase with
            | idle => rfl
            | busy => exact absurd ⟨h0, hp'⟩ hp
          · exact .inl h0
    | regWrite off width v =>
      rw [step_regWrite] at h
      split at h
      case isFalse => cases h
      case isTrue hok =>
        obtain ⟨rfl, h4, hlt⟩ := regAccessOk_iff.1 hok
        have ht := (Host.Outcome.next.inj h).symm
        by_cases hc : off = 0x04
        · subst hc
          rw [writeReg_ctrl] at ht
          cases hv : v.getLsbD 1 with
          | true => exact .reset _ (.inr ⟨v, hh, hv⟩) hseen (by rw [ht, writeCtrl_reset _ hv])
          | false =>
            refine .ctrl v (.of hh (by simp) (by simp) ?_ (by simp)) hv ?_
            · rintro v' hv'
              cases hv'
              rw [hv]
              decide
            · rw [ht, writeCtrl_ie _ hv, hseen.regs]
              exact hseen.withRegs _
        · have ho : (∀ w, Input.regWrite off 4 v = .regWrite 0x08 4 w → s.phase ≠ .idle) →
              OtherInput (.regWrite off 4 v) s := fun hcmd => .of hh (by simp) (by simp) (by simp [hc]) hcmd
          cases hp : s.phase with
          | busy =>
            refine .ignored off v (ho fun _ _ => by rw [hp]; decide) hp hc ?_
            rw [ht, writeReg_busy _ hc (hseen.phase.trans hp)]
            exact hseen
          | idle =>
            have hup := hseen.phase.trans hp
            by_cases h8 : off = 0x08
            · subst h8
              exact .start v _ ⟨hp, hh⟩ hseen (by rw [ht, writeReg_cmd _ hup])
            · have ho' := ho (by simp [h8])
              by_cases hs : off = 0x0C
              · subst hs
                refine .status v ho' hp ?_
                rw [ht, writeReg_status _ hup, hseen.regs]
                exact hseen.withRegs _
              · refine .operand off v ho' hp ⟨hc, h8, hs⟩ ?_
                rw [ht, writeReg_operand _ hc h8 hs hup, hseen.regs]
                exact hseen.withRegs _
    | memRead a =>
      rw [step_memRead] at h
      unfold State.hostRead at h
      split at h
      · cases h
      · split at h
        · cases h
        · refine .memRead a (.of hh (by simp) (by simp) (by simp) (by simp)) ?_
          rw [← Host.Outcome.next.inj h]
          exact hseen.trans (by constructor <;> rfl)
    | memWrite a b =>
      rw [step_memWrite] at h
      unfold State.hostWrite at h
      split at h
      · cases h
      · rename_i hlt
        split at h
        · cases h
        · split at h
          · cases h
          · exact .memWrite a b _ (.of hh (by simp) (by simp) (by simp) (by simp)) hseen (by simpa using hlt)
              (Host.Outcome.next.inj h).symm

/-- A step that is the core's own is one of `coreStep`, seen from the same core. -/
theorem step_core {s t : State} (h : step s = .next t) (hn : s.CoreNext) : ∃ u, SameCore s u ∧ coreStep u = .next t := by
  cases step_cases h with
  | core u next same run => exact ⟨u, same, run⟩
  | reset u next => exact absurd next hn.not_reset
  | start w u next => exact absurd next (hn.not_start w)
  | status v o => exact absurd hn o.core
  | ctrl v o => exact absurd hn o.core
  | operand off v o => exact absurd hn o.core
  | ignored off v o => exact absurd hn o.core
  | read off o => exact absurd hn o.core
  | progress u o => exact absurd hn o.core
  | memRead a o => exact absurd hn o.core
  | memWrite a b u o => exact absurd hn o.core

/-- A reset step leaves the reset of the same core. -/
theorem step_resetNext {s t : State} (h : step s = .next t) (hn : s.ResetNext) : ∃ u, SameCore s u ∧ t = u.resetCore := by
  cases step_cases h with
  | core u next => exact absurd hn next.not_reset
  | reset u next same eq => exact ⟨u, same, eq⟩
  | start w u next => exact absurd next (hn.not_start w)
  | status v o => exact absurd hn o.reset
  | ctrl v o => exact absurd hn o.reset
  | operand off v o => exact absurd hn o.reset
  | ignored off v o => exact absurd hn o.reset
  | read off o => exact absurd hn o.reset
  | progress u o => exact absurd hn o.reset
  | memRead a o => exact absurd hn o.reset
  | memWrite a b u o => exact absurd hn o.reset

/-- A step that starts a command starts it on the same core. -/
theorem step_startNext {s t : State} {w : Word} (h : step s = .next t) (hn : s.StartNext w) :
    ∃ u, SameCore s u ∧ t = u.start w := by
  cases step_cases h with
  | core u next => exact absurd hn (next.not_start w)
  | reset u next => exact absurd hn (next.not_start w)
  | start w' u next same eq =>
    have hw : w' = w := by simpa using InputNext.unique next.2 hn.2
    subst hw
    exact ⟨u, same, eq⟩
  | status v o => exact absurd hn (o.start w)
  | ctrl v o => exact absurd hn (o.start w)
  | operand off v o => exact absurd hn (o.start w)
  | ignored off v o => exact absurd hn (o.start w)
  | read off o => exact absurd hn (o.start w)
  | progress u o => exact absurd hn (o.start w)
  | memRead a o => exact absurd hn (o.start w)
  | memWrite a b u o => exact absurd hn (o.start w)

end Sys2Proof.Machine
end

