-- ==== Sys2Proof/Laws/Invariant.lean ====
section
/-! SUPPORT. The cursors of a running command stay in their ranges: one lemma for each part of the decoder and of the
encoder, and for every instruction (R42, R43, R115). -/
namespace Sys2Proof.Machine

/-! ## The decoder's cursors -/

theorem DecodeInv.congr {s t : State} (h : DecodeInv s) (hd : t.dec = s.dec) (hl : t.lat = s.lat) : DecodeInv t where
  i := by rw [hd]; exact h.i
  j := by rw [hd, State.target, hd]; exact h.j
  nb := by rw [hd]; exact h.nb
  stream := by rw [hd, State.inputLen_congr hl]; exact h.stream
  room := by rw [hd, State.outAddr_congr hl]; exact h.room

theorem outWriteError_below {chk : Bool} {j : Nat} {s : State} (h : s.outWriteError chk j = none) :
    s.outAddr (j + 1) ≤ Config.addrTop := by
  have := (State.outWriteError_eq_none.1 h).1
  simp only [State.outAddr] at *
  omega

theorem decodeWrite_inv {v : Byte} {s t : State} (h : DecodeInv s) (hj : s.dec.j < s.target)
    (ht : decodeWrite v s = .go t) : DecodeInv t := by
  unfold decodeWrite at ht
  rcases outWrite_cases (checksOverlap .decodeStream) s.dec.j v s with ⟨c, -, hw⟩ | ⟨hn, hw⟩ <;> rw [hw] at ht
  · cases ht
  · obtain rfl := Run.go.inj ht
    exact ⟨h.i, hj, h.nb, h.stream, fun _ => outWriteError_below hn⟩

theorem copyBytesOut_inv {off : Nat} (len : Nat) {s t : State} (h : DecodeInv s) (ht : copyBytesOut off len s = .go t) :
    DecodeInv t := by
  induction len generalizing s with
  | zero =>
    obtain rfl := Run.go.inj ht
    exact h
  | succ len ih =>
    unfold copyBytesOut at ht
    split at ht
    · obtain rfl := Run.go.inj ht
      exact h
    · rename_i hne
      have hlt : s.dec.j < s.target := Nat.lt_of_le_of_ne h.j hne
      cases hw : decodeWrite (copySource off s) s with
      | raised c n u => rw [hw] at ht; cases ht
      | go u =>
        rw [hw] at ht
        exact ih (decodeWrite_inv h hlt hw) ht

/-- What an item that is due leaves to read: its own bytes. -/
theorem fetchItem_bytes {s : State} {i : Instr} (h : fetchItem s = .ok i) :
    s.dec.i + (encode i).length ≤ s.dec.slen := by
  have hlen : s.streamBytes.length = min 2 (s.dec.slen - s.dec.i) := by simp [State.streamBytes]
  unfold fetchItem at h
  cases hb : decode s.itemDue s.streamBytes with
  | error e => rw [hb] at h; cases h
  | ok r =>
    rw [hb] at h
    obtain rfl : r.1 = i := by simpa [Except.map] using h
    cases hk : s.itemDue with
    | command =>
      unfold State.itemDue at hk
      split at hk
      · cases hk
      · split at hk <;> cases hk
    | control =>
      rw [hk] at hb
      cases hl : s.streamBytes with
      | nil => rw [hl] at hb; cases hb
      | cons b bs =>
        rw [hl] at hb hlen
        obtain rfl := Except.ok.inj hb
        simp only [List.length_cons] at hlen
        show s.dec.i + 1 ≤ _
        omega
    | literal =>
      rw [hk] at hb
      cases hl : s.streamBytes with
      | nil => rw [hl] at hb; cases hb
      | cons b bs =>
        rw [hl] at hb hlen
        obtain rfl := Except.ok.inj hb
        simp only [List.length_cons] at hlen
        show s.dec.i + 1 ≤ _
        omega
    | copy =>
      rw [hk] at hb
      rcases hl : s.streamBytes with _ | ⟨b0, _ | ⟨b1, bs⟩⟩ <;> rw [hl] at hb
      · cases hb
      · cases hb
      · obtain rfl := Except.ok.inj hb
        rw [hl] at hlen
        simp only [List.length_cons] at hlen
        show s.dec.i + 2 ≤ _
        omega

/-- A turn of the decoder's loop keeps its cursors in their ranges, or ends the command. -/
theorem decodeTurn_inv {s : State} (h : DecodeInv s) (hb : (decodeTurn s).phase = .busy) : DecodeInv (decodeTurn s) := by
  unfold decodeTurn at hb ⊢
  by_cases hj : s.dec.j < s.target
  · rw [if_pos hj] at hb ⊢
    cases hf : fetchItem s with
    | error e => rw [hf] at hb; cases hb
    | ok i =>
      simp only [hf] at hb ⊢
      have hbytes := fetchItem_bytes hf
      rcases fetchItem_item hf with ⟨c, rfl⟩ | ⟨v, rfl⟩ | ⟨off, len, rfl⟩
      · exact ⟨hbytes, h.j, Nat.le_refl _, h.stream, h.room⟩
      · have h' : DecodeInv (s.takeToken 1) := ⟨hbytes, h.j, (Nat.sub_le _ _).trans h.nb, h.stream, h.room⟩
        change (decodeSettle (decodeWrite v (s.takeToken 1))).phase = .busy at hb
        show DecodeInv (decodeSettle (decodeWrite v (s.takeToken 1)))
        cases hw : decodeWrite v (s.takeToken 1) with
        | raised c n u => rw [hw] at hb; cases hb
        | go u => exact decodeWrite_inv h' hj hw
      · have h' : DecodeInv (s.takeToken 2) := ⟨hbytes, h.j, (Nat.sub_le _ _).trans h.nb, h.stream, h.room⟩
        change (decodeSettle (copyBytesOut off len (s.takeToken 2))).phase = .busy at hb
        show DecodeInv (decodeSettle (copyBytesOut off len (s.takeToken 2)))
        cases hw : copyBytesOut off len (s.takeToken 2) with
        | raised c n u => rw [hw] at hb; cases hb
        | go u => exact copyBytesOut_inv len h' hw
  · rw [if_neg hj] at hb
    cases hb

theorem runDecoder_inv (fuel : Nat) {s : State} (h : DecodeInv s) (hb : (runDecoder fuel s).phase = .busy) :
    DecodeInv (runDecoder fuel s) := by
  induction fuel generalizing s with
  | zero => exact h
  | succ n ih =>
    unfold runDecoder at hb ⊢
    split at hb
    · rename_i hi
      rw [if_pos hi]
      exact h
    · rename_i hi
      rw [if_neg hi]
      cases hp : (decodeTurn s).phase with
      | busy => exact ih (decodeTurn_inv h hp) hb
      | idle =>
        rw [runDecoder_idle n hp, hp] at hb
        cases hb

theorem enterDecoder_inv {s : State} (h : DecodeInv s) (hb : (enterDecoder s).phase = .busy) :
    DecodeInv (enterDecoder s) ∧ (enterDecoder s).seq = s.seq := by
  unfold enterDecoder at hb ⊢
  split at hb
  · cases hb
  · rename_i he
    rw [if_neg he]
    cases hp : s.seq.pace with
    | perToken => exact ⟨h, rfl⟩
    | whole =>
      simp only [hp] at hb ⊢
      exact ⟨runDecoder_inv _ h hb, runDecoder_seq _ _⟩

/-! ## The encoder's cursors -/

/-- The ranges of R42 between tokens and inside one: as `EncodeInv`, with a group that may be full. -/
structure PackInv (s : State) : Prop where
  k : s.enc.k < Config.group
  g : 0 < s.enc.k → s.enc.g < s.enc.o
  slot : 0 < s.enc.k → s.outWriteError true (streamBase s.enc.container + s.enc.g) = none
  header : s.enc.container = true → s.Room true Config.hdrSize
  room : 0 < s.enc.o → s.outAddr (streamBase s.enc.container + s.enc.o) ≤ Config.addrTop

theorem EncodeInv.pack {s : State} (h : EncodeInv s) : PackInv s := ⟨h.k, h.g, h.slot, h.header, h.room⟩

/-- Inside a token: the slot of its group has been written. -/
structure InGroup (s : State) : Prop where
  k : s.enc.k < Config.group
  g : s.enc.g < s.enc.o
  slot : s.outWriteError true (streamBase s.enc.container + s.enc.g) = none
  header : s.enc.container = true → s.Room true Config.hdrSize
  room : s.outAddr (streamBase s.enc.container + s.enc.o) ≤ Config.addrTop

/-- The cursor of the input and the operands have not changed. -/
structure SameInput (s t : State) : Prop where
  lat : t.lat = s.lat
  snap : t.snap = s.snap
  p : t.enc.p = s.enc.p

theorem SameInput.trans {s t u : State} (h : SameInput s t) (h' : SameInput t u) : SameInput s u :=
  ⟨h'.lat.trans h.lat, h'.snap.trans h.snap, h'.p.trans h.p⟩

theorem appendStreamByte_inv {v : Byte} {s t : State} (h : InGroup s) (ht : appendStreamByte v s = .go t) :
    InGroup t ∧ SameInput s t := by
  unfold appendStreamByte writeStreamByte at ht
  rcases outWrite_cases (checksOverlap .encodeStream) (streamBase s.enc.container + s.enc.o) v s with
    ⟨c, -, hw⟩ | ⟨hn, hw⟩ <;> rw [hw] at ht
  · cases ht
  · obtain rfl := Run.go.inj ht
    exact ⟨⟨h.k, Nat.lt_succ_of_lt h.g, h.slot, h.header, outWriteError_below hn⟩, ⟨rfl, rfl, rfl⟩⟩

theorem appendStreamBytes_inv (bs : List Byte) {s t : State} (h : InGroup s) (ht : appendStreamBytes bs s = .go t) :
    InGroup t ∧ SameInput s t := by
  induction bs generalizing s with
  | nil =>
    obtain rfl := Run.go.inj ht
    exact ⟨h, ⟨rfl, rfl, rfl⟩⟩
  | cons b bs ih =>
    unfold appendStreamBytes at ht
    cases hw : appendStreamByte b s with
    | raised c n u => rw [hw] at ht; cases ht
    | go u =>
      rw [hw] at ht
      obtain ⟨h1, h2⟩ := appendStreamByte_inv h hw
      obtain ⟨h3, h4⟩ := ih h1 ht
      exact ⟨h3, h2.trans h4⟩

theorem reserveIfNeeded_inv {s t : State} (h : PackInv s) (ht : reserveIfNeeded s = .go t) :
    InGroup t ∧ SameInput s t := by
  unfold reserveIfNeeded at ht
  split at ht
  · rename_i hk
    unfold appendStreamByte writeStreamByte at ht
    rcases outWrite_cases (checksOverlap .encodeStream) (streamBase s.enc.container + s.enc.o) 0
      (s.withEnc { s.enc with g := s.enc.o }) with ⟨c, -, hw⟩ | ⟨hn, hw⟩
    · change ((outWrite (checksOverlap .encodeStream) (streamBase s.enc.container + s.enc.o) 0
        (s.withEnc { s.enc with g := s.enc.o })).andThen _).andThen _ = _ at ht
      rw [hw] at ht
      cases ht
    · change ((outWrite (checksOverlap .encodeStream) (streamBase s.enc.container + s.enc.o) 0
        (s.withEnc { s.enc with g := s.enc.o })).andThen _).andThen _ = _ at ht
      rw [hw] at ht
      obtain rfl := Run.go.inj ht
      exact ⟨⟨h.k, Nat.lt_succ_self _, hn, h.header, outWriteError_below hn⟩, ⟨rfl, rfl, rfl⟩⟩
  · rename_i hk
    obtain rfl := Run.go.inj ht
    have hpos : 0 < s.enc.k := Nat.pos_of_ne_zero hk
    exact ⟨⟨h.k, h.g hpos, h.slot hpos, h.header, h.room (Nat.lt_of_le_of_lt (Nat.zero_le _) (h.g hpos))⟩, ⟨rfl, rfl, rfl⟩⟩

theorem countToken_inv {s t : State} (h : InGroup s) (ht : countToken s = .go t) : PackInv t ∧ SameInput s t := by
  unfold countToken at ht
  simp only at ht
  split at ht
  · unfold patchGroup writeStreamByte at ht
    rcases outWrite_cases (checksOverlap .encodeStream) (streamBase s.enc.container + s.enc.g) s.enc.acc
      (s.withEnc { s.enc with k := s.enc.k + 1 }) with ⟨c, -, hw⟩ | ⟨hn, hw⟩
    · change (outWrite (checksOverlap .encodeStream) (streamBase s.enc.container + s.enc.g) s.enc.acc
        (s.withEnc { s.enc with k := s.enc.k + 1 })).andThen _ = _ at ht
      rw [hw] at ht
      cases ht
    · change (outWrite (checksOverlap .encodeStream) (streamBase s.enc.container + s.enc.g) s.enc.acc
        (s.withEnc { s.enc with k := s.enc.k + 1 })).andThen _ = _ at ht
      rw [hw] at ht
      obtain rfl := Run.go.inj ht
      exact ⟨⟨Nat.zero_lt_succ 7, fun h0 => absurd h0 (Nat.lt_irrefl 0), fun h0 => absurd h0 (Nat.lt_irrefl 0), h.header,
        fun _ => h.room⟩, ⟨rfl, rfl, rfl⟩⟩
  · rename_i hk
    obtain rfl := Run.go.inj ht
    refine ⟨⟨?_, fun _ => h.g, fun _ => h.slot, h.header, fun _ => h.room⟩, ⟨rfl, rfl, rfl⟩⟩
    have := h.k
    change ¬ s.enc.k + 1 = 8 at hk
    show s.enc.k + 1 < 8
    have : s.enc.k < 8 := h.k
    omega

theorem emitToken_inv {tok : Token} {s t : State} (h : PackInv s) (ht : emitToken tok s = .go t) :
    PackInv t ∧ SameInput s t := by
  have key : ∀ (f : State → Run), (∀ u w, InGroup u → f u = .go w → InGroup w ∧ SameInput u w) →
      ((reserveIfNeeded s).andThen f).andThen countToken = .go t → PackInv t ∧ SameInput s t := by
    intro f hf hrun
    cases h1 : reserveIfNeeded s with
    | raised c n u => rw [h1] at hrun; cases hrun
    | go u =>
      rw [h1, Run.andThen_go] at hrun
      obtain ⟨hu, hsu⟩ := reserveIfNeeded_inv h h1
      cases h2 : f u with
      | raised c n w => rw [h2] at hrun; cases hrun
      | go w =>
        rw [h2, Run.andThen_go] at hrun
        obtain ⟨hw, hsw⟩ := hf u w hu h2
        obtain ⟨ht', hst⟩ := countToken_inv hw hrun
        exact ⟨ht', (hsu.trans hsw).trans hst⟩
  cases tok with
  | literal v => exact key _ (fun u w hu hw => appendStreamByte_inv hu hw) ht
  | copy off len =>
    refine key (fun u => appendStreamBytes (copyBytes off len) u.markCopy) (fun u w hu hw => ?_) ht
    have hm : InGroup u.markCopy := ⟨hu.k, hu.g, hu.slot, hu.header, hu.room⟩
    obtain ⟨h1, h2⟩ := appendStreamBytes_inv _ hm hw
    exact ⟨h1, ⟨h2.lat, h2.snap, h2.p⟩⟩

/-- A turn of the encoder's loop keeps its cursors in their ranges, or ends the command. -/
theorem encodeTurn_inv {s : State} (h : EncodeInv s) (hb : (encodeTurn s).phase = .busy) : EncodeInv (encodeTurn s) := by
  unfold encodeTurn at hb ⊢
  by_cases hp : s.enc.p < s.inputLen
  · rw [if_pos hp] at hb ⊢
    rw [encodeToken_eq] at hb ⊢
    cases hw : emitToken s.tokenAt s with
    | raised c n u => rw [hw] at hb; cases hb
    | go u =>
      obtain ⟨hu, hs⟩ := emitToken_inv h.pack hw
      obtain ⟨t', ht', -, hle, -⟩ := parseTokens_step (X := s.input) (fuel := 0) (p := s.enc.p) (by simpa using hp)
      have htok := parseTokens_tokenAt s 0 hp
      obtain rfl : t' = s.tokenAt := by
        rw [ht'] at htok
        exact (List.cons.inj htok).1
      rw [State.input_length] at hle
      show EncodeInv (u.advanceInput s.tokenAt.span)
      refine ⟨?_, hu.k, hu.g, hu.slot, hu.header, hu.room⟩
      show u.enc.p + s.tokenAt.span ≤ u.inputLen
      rw [hs.p, State.inputLen_congr hs.lat]
      exact hle
  · rw [if_neg hp] at hb
    cases hw : encodeTail s with
    | raised c n u => rw [hw] at hb; cases hb
    | go u => rw [hw] at hb; cases hb

theorem runEncoder_inv (fuel : Nat) {s : State} (h : EncodeInv s) (hb : (runEncoder fuel s).phase = .busy) :
    EncodeInv (runEncoder fuel s) := by
  induction fuel generalizing s with
  | zero => exact h
  | succ n ih =>
    unfold runEncoder at hb ⊢
    split at hb
    · rename_i hi
      rw [if_pos hi]
      exact h
    · rename_i hi
      rw [if_neg hi]
      cases hp : (encodeTurn s).phase with
      | busy => exact ih (encodeTurn_inv h hp) hb
      | idle =>
        rw [runEncoder_idle n hp, hp] at hb
        cases hb

theorem enterEncoder_inv {s : State} (h : EncodeInv s) (hb : (enterEncoder s).phase = .busy) :
    EncodeInv (enterEncoder s) ∧ (enterEncoder s).seq = s.seq := by
  unfold enterEncoder at hb ⊢
  cases hp : s.seq.pace with
  | perToken => exact ⟨h, rfl⟩
  | whole =>
    simp only [hp] at hb ⊢
    exact ⟨runEncoder_inv _ h hb, runEncoder_seq _ _⟩

/-! ## Every instruction -/

/-- The cursors of the engine that is running are in their ranges, and its input region passed its check (R67). -/
structure CursorInv (s : State) : Prop where
  range : s.seq.engine ≠ .dispatch → s.inputOutOfRange = false
  decode : s.seq.engine = .decode → DecodeInv s
  encode : s.seq.engine = .encode → EncodeInv s

theorem CursorInv.of_decode {s : State} (hr : s.inputOutOfRange = false) (he : s.seq.engine = .decode)
    (h : DecodeInv s) : CursorInv s :=
  ⟨fun _ => hr, fun _ => h, fun h' => by rw [he] at h'; cases h'⟩

theorem CursorInv.of_encode {s : State} (hr : s.inputOutOfRange = false) (he : s.seq.engine = .encode)
    (h : EncodeInv s) : CursorInv s :=
  ⟨fun _ => hr, fun h' => (by rw [he] at h'; cases h'), fun _ => h⟩

theorem parseHeader_ok {s : State} {h : Parsed} (hp : parseHeader s = .ok h) :
    32 ≤ s.inputLen ∧ s.signatureMatches = true ∧ h.usize = s.inField 0x14 ∧ h.csize = s.inField 0x18 ∧
      h.slen = clampedLen (s.inField 0x18).toNat (s.inputLen - 32) ∧
      h.clamped = clampNeeded (s.inField 0x18).toNat (s.inputLen - 32) := by
  unfold parseHeader at hp
  split at hp
  · cases hp
  · rename_i hl
    split at hp
    · cases hp
    · rename_i hs
      obtain rfl := Except.ok.inj hp
      exact ⟨Nat.le_of_not_lt hl, by simpa using hs, rfl, rfl, rfl, rfl⟩

theorem clampedLen_le (c rem : Nat) : clampedLen c rem ≤ rem := by
  unfold clampedLen clampNeeded
  split
  · exact Nat.le_refl _
  · rename_i h
    simp only [Bool.or_eq_true, beq_iff_eq, decide_eq_true_eq] at h
    omega

/-- Where an instruction leaves its command running, the cursors are in their ranges. -/
theorem exec_cursors {i : Instr} {s t : State} (hk : i.kind = .command) (h : exec i s = .next t)
    (hb : t.phase = .busy) : CursorInv t := by
  have hidle : ∀ {u : State}, u.phase = .idle → Host.Outcome.next (φ := Fault) (ρ := Refusal) u = .next t → CursorInv t := by
    intro u hu he
    obtain rfl := Host.Outcome.next.inj he
    rw [hu] at hb
    cases hb
  cases i with
  | parseHeader =>
    change execParseHeader s = _ at h
    unfold execParseHeader at h
    split at h
    · exact hidle rfl h
    · split at h <;> exact hidle rfl h
  | writeHeader =>
    change execWriteHeader s = _ at h
    unfold execWriteHeader at h
    split at h <;> exact hidle rfl h
  | decodeStream =>
    change execDecodeStream s = _ at h
    unfold execDecodeStream at h
    split at h
    · exact hidle rfl h
    · rename_i hr
      obtain rfl := Host.Outcome.next.inj h
      have hd : DecodeInv (s.startDecode false s.inputLen s.lat.usize 0) :=
        ⟨Nat.zero_le _, Nat.zero_le _, Nat.zero_le _, (Nat.zero_add _).le, fun h0 => absurd h0 (Nat.lt_irrefl 0)⟩
      obtain ⟨h1, h2⟩ := enterDecoder_inv hd hb
      refine .of_decode ?_ (by rw [h2]; rfl) h1
      rw [State.inputOutOfRange_congr (enterDecoder_touches _).setup.lat]
      exact Bool.eq_false_iff.2 hr
  | decodeContainer =>
    change execDecodeContainer s = _ at h
    unfold execDecodeContainer at h
    split at h
    · exact hidle rfl h
    · rename_i hr
      split at h
      · exact hidle rfl h
      · rename_i p hp
        obtain rfl := Host.Outcome.next.inj h
        obtain ⟨h32, -, -, -, hsl, -⟩ := parseHeader_ok hp
        have hd : DecodeInv ((s.withRegs (s.regs.noteClamp p)).startDecode true p.slen p.usize p.csize) := by
          refine ⟨Nat.zero_le _, Nat.zero_le _, Nat.zero_le _, ?_, fun h0 => absurd h0 (Nat.lt_irrefl 0)⟩
          show 32 + p.slen ≤ s.inputLen
          have := clampedLen_le (s.inField 0x18).toNat (s.inputLen - 32)
          omega
        obtain ⟨h1, h2⟩ := enterDecoder_inv hd hb
        refine .of_decode ?_ (by rw [h2]; rfl) h1
        rw [State.inputOutOfRange_congr (enterDecoder_touches _).setup.lat]
        exact Bool.eq_false_iff.2 hr
  | encodeStream =>
    change execEncodeStream s = _ at h
    unfold execEncodeStream at h
    split at h
    · exact hidle rfl h
    · rename_i hr
      obtain rfl := Host.Outcome.next.inj h
      have he : EncodeInv (s.startEncode false) :=
        ⟨Nat.zero_le _, Nat.zero_lt_succ 7, fun h0 => absurd h0 (Nat.lt_irrefl 0), fun h0 => absurd h0 (Nat.lt_irrefl 0),
          fun hc => (by cases hc), fun h0 => absurd h0 (Nat.lt_irrefl 0)⟩
      obtain ⟨h1, h2⟩ := enterEncoder_inv he hb
      refine .of_encode ?_ (by rw [h2]; rfl) h1
      rw [State.inputOutOfRange_congr (enterEncoder_touches _).setup.lat]
      exact Bool.eq_false_iff.2 hr
  | encodeContainer =>
    change execEncodeContainer s = _ at h
    unfold execEncodeContainer at h
    split at h
    · exact hidle rfl h
    · rename_i hr
      have ht := (Host.Outcome.next.inj h).symm
      by_cases hroom : ∀ j, j < (headerBytes s.lat.inLen 0).length →
          (s.startEncode true).outWriteError (checksOverlap .encodeContainer) (0 + j) = none
      · obtain ⟨u, hu, -, hsu⟩ := writeBytes_go hroom
        rw [hu] at ht
        change t = enterEncoder u at ht
        subst ht
        have hlat : u.lat = s.lat := hsu.lat
        have he : EncodeInv u := by
          have henc : u.enc = (s.startEncode true).enc := hsu.enc
          refine ⟨?_, ?_, ?_, ?_, ?_, ?_⟩
          · rw [henc]; exact Nat.zero_le _
          · rw [henc]; exact Nat.zero_lt_succ 7
          · rw [henc]; intro h0; exact absurd h0 (Nat.lt_irrefl 0)
          · rw [henc]; intro h0; exact absurd h0 (Nat.lt_irrefl 0)
          · intro _ j hj
            rw [State.outWriteError_congr hlat]
            have := hroom j hj
            rw [Nat.zero_add] at this
            exact this
          · rw [henc]; intro h0; exact absurd h0 (Nat.lt_irrefl 0)
        obtain ⟨h1, h2⟩ := enterEncoder_inv he hb
        refine .of_encode ?_ (by rw [h2, hsu.seq]; rfl) h1
        rw [State.inputOutOfRange_congr (enterEncoder_touches _).setup.lat, State.inputOutOfRange_congr hlat]
        simpa using hr
      · have hex : ∃ j, j < (headerBytes s.lat.inLen 0).length ∧
            (s.startEncode true).outWriteError (checksOverlap .encodeContainer) (0 + j) ≠ none := by
          push Not at hroom
          exact hroom
        classical
        obtain ⟨hi, hne⟩ := Nat.find_spec hex
        obtain ⟨e, he⟩ := Option.ne_none_iff_exists'.1 hne
        obtain ⟨u, hu, -, -⟩ := writeBytes_raised hi (fun x hx => by
          by_contra hxe
          exact Nat.find_min hex hx ⟨by omega, hxe⟩) he
        rw [hu] at ht
        change t = encodeError _ _ u at ht
        subst ht
        cases hb
  | pad =>
    change execPad s = _ at h
    unfold execPad at h
    split at h
    · exact hidle rfl h
    · split at h <;> exact hidle rfl h
  | findMatch =>
    change execFindMatch s = _ at h
    unfold execFindMatch at h
    split at h
    · exact hidle rfl h
    · split at h <;> exact hidle rfl h
  | illegalOp w => exact hidle rfl h
  | ctrl c => cases hk
  | lit v => cases hk
  | copy off len => cases hk

theorem decodeCommand_kind (w : Word) : (decodeCommand w).kind = .command := by
  unfold decodeCommand
  split
  · split <;> rfl
  · rfl

/-- A step of the core's own keeps the cursors of a running command in their ranges. -/
theorem coreStep_cursors {s t : State} (h : CursorInv s) (hs : s.phase = .busy) (ht : coreStep s = .next t)
    (hb : t.phase = .busy) : CursorInv t := by
  rw [coreStep_busy hs] at ht
  split at ht
  · obtain rfl := Host.Outcome.next.inj ht
    exact ⟨h.range, fun he => (h.decode he).congr rfl rfl, fun he => by
      have hi := h.encode he
      exact ⟨hi.p, hi.k, hi.g, hi.slot, hi.header, hi.room⟩⟩
  · cases he : s.seq.engine with
    | dispatch =>
      rw [he] at ht
      exact exec_cursors (decodeCommand_kind _) ht hb
    | decode =>
      rw [he] at ht
      simp only [decodeStep_eq] at ht
      obtain rfl := Host.Outcome.next.inj ht
      refine .of_decode ?_ (by rw [decodeTurn_seq, he]) (decodeTurn_inv (h.decode he) hb)
      rw [State.inputOutOfRange_congr (decodeTurn_touches s).setup.lat]
      exact h.range (by rw [he]; decide)
    | encode =>
      rw [he] at ht
      obtain rfl := Host.Outcome.next.inj ht
      refine .of_encode ?_ (by rw [encodeTurn_seq, he]) (encodeTurn_inv (h.encode he) hb)
      rw [State.inputOutOfRange_congr (encodeTurn_touches s).setup.lat]
      exact h.range (by rw [he]; decide)

end Sys2Proof.Machine
end

