-- ==== Sys2Proof/Laws/Diagnostics.lean ====
section
/-! SUPPORT. What each part of a command does to the two diagnostics: only a header parse that clamps sets `DIAG_CLAMP`,
and nothing sets `DIAG_LENMM` (R29, R30, R221). -/
namespace Sys2Proof.Machine

/-- Neither diagnostic has changed. -/
structure SameDiag (s t : State) : Prop where
  clamp : t.regs.diagClamp = s.regs.diagClamp
  lenmm : t.regs.diagLenmm = s.regs.diagLenmm

theorem SameDiag.of_regs {s t : State} (h : t.regs = s.regs) : SameDiag s t := ⟨by rw [h], by rw [h]⟩

theorem SameDiag.trans {s t u : State} (h : SameDiag s t) (h' : SameDiag t u) : SameDiag s u :=
  ⟨h'.clamp.trans h.clamp, h'.lenmm.trans h.lenmm⟩

theorem decodeError_diag {s t : State} (c : ErrCode) (n : Nat) (h : t.regs = s.regs) :
    SameDiag s (decodeError c n t) :=
  SameDiag.trans (SameDiag.of_regs h) ⟨rfl, rfl⟩

theorem encodeError_diag {s t : State} (c : ErrCode) (n : Nat) (h : t.regs = s.regs) :
    SameDiag s (encodeError c n t) :=
  SameDiag.trans (SameDiag.of_regs h) ⟨rfl, rfl⟩

theorem decodeSettle_diag {s : State} {r : Run} (h : WritesOnly s r) : SameDiag s (decodeSettle r) := by
  cases r with
  | go t => exact .of_regs h.1
  | raised c n t => exact decodeError_diag c n h.2.1

theorem runItem_diag (i : Instr) (s : State) : SameDiag s (runItem i s) := by
  cases i with
  | lit v => exact decodeSettle_diag (WritesOnly.of_eq (t := s.takeToken 1) rfl rfl rfl (decodeWrite_writesOnly v _))
  | copy off len =>
    exact decodeSettle_diag (WritesOnly.of_eq (t := s.takeToken 2) rfl rfl rfl (copyBytesOut_writesOnly off len _))
  | _ => exact ⟨rfl, rfl⟩

/-- R221: the length-mismatch test is met only with the target reached. -/
theorem decodeFinish_diag {s : State} (h : s.dec.j = s.target) : SameDiag s (decodeFinish s) :=
  ⟨rfl, by simp [decodeFinish, Regs.noteMismatch, Regs.decoded, h]⟩

theorem decodeTurn_diag {s : State} (h : DecodeInv s) : SameDiag s (decodeTurn s) := by
  unfold decodeTurn
  split
  · split
    · exact runItem_diag _ s
    · exact decodeError_diag _ _ rfl
  · exact decodeFinish_diag (by have := h.j; omega)

theorem runDecoder_diag (fuel : Nat) {s : State} (h : DecodeInv s) : SameDiag s (runDecoder fuel s) := by
  induction fuel generalizing s with
  | zero => exact ⟨rfl, rfl⟩
  | succ n ih =>
    unfold runDecoder
    split
    · exact ⟨rfl, rfl⟩
    · cases hp : (decodeTurn s).phase with
      | idle =>
        rw [runDecoder_idle n hp]
        exact decodeTurn_diag h
      | busy => exact (decodeTurn_diag h).trans (ih (decodeTurn_inv h hp))

theorem enterDecoder_diag {s : State} (h : DecodeInv s) : SameDiag s (enterDecoder s) := by
  unfold enterDecoder
  split
  · exact decodeError_diag _ _ rfl
  · split
    · exact ⟨rfl, rfl⟩
    · exact runDecoder_diag _ h

theorem encodeSettle_diag {s : State} {r : Run} {k : State → State} (h : WritesOnly s r)
    (hk : ∀ t, SameDiag t (k t)) : SameDiag s (encodeSettle k r) := by
  cases r with
  | go t => exact (SameDiag.of_regs h.1).trans (hk t)
  | raised c n t => exact encodeError_diag c n h.2.1

theorem encodeTurn_diag (s : State) : SameDiag s (encodeTurn s) := by
  unfold encodeTurn
  split
  · exact encodeSettle_diag (encodeToken_writesOnly s) fun _ => ⟨rfl, rfl⟩
  · exact encodeSettle_diag (encodeTail_writesOnly s) fun _ => ⟨rfl, rfl⟩

theorem runEncoder_diag (fuel : Nat) (s : State) : SameDiag s (runEncoder fuel s) := by
  induction fuel generalizing s with
  | zero => exact ⟨rfl, rfl⟩
  | succ n ih =>
    unfold runEncoder
    split
    · exact ⟨rfl, rfl⟩
    · exact (encodeTurn_diag s).trans (ih _)

theorem enterEncoder_diag (s : State) : SameDiag s (enterEncoder s) := by
  unfold enterEncoder
  split
  · exact ⟨rfl, rfl⟩
  · exact runEncoder_diag _ s

/-- The instruction parses a header and clamps its declared size (R132). -/
def State.clamps (i : Instr) (s : State) : Bool :=
  match i with
  | .parseHeader | .decodeContainer =>
    !s.inputOutOfRange && (match parseHeader s with
      | .ok h => h.clamped
      | .error _ => false)
  | .writeHeader | .decodeStream | .encodeStream | .encodeContainer | .pad | .findMatch | .illegalOp _ | .ctrl _
  | .lit _ | .copy _ _ => false

theorem startDecode_inv {c : Bool} {n : Nat} {T C : Word} {s : State} (h : streamBase c + n ≤ s.inputLen) :
    DecodeInv (s.startDecode c n T C) :=
  ⟨Nat.zero_le _, Nat.zero_le _, Nat.zero_le _, h, fun h0 => absurd h0 (Nat.lt_irrefl 0)⟩

/-- What every instruction does to the diagnostics. -/
theorem exec_diag {i : Instr} {s t : State} (h : exec i s = .next t) :
    t.regs.diagClamp = (s.regs.diagClamp || s.clamps i) ∧ t.regs.diagLenmm = s.regs.diagLenmm := by
  have same : ∀ {u : State}, Host.Outcome.next (φ := Fault) (ρ := Refusal) u = .next t → s.clamps i = false → SameDiag s u →
      t.regs.diagClamp = (s.regs.diagClamp || s.clamps i) ∧ t.regs.diagLenmm = s.regs.diagLenmm := by
    intro u he hc hd
    obtain rfl := Host.Outcome.next.inj he
    rw [hc, Bool.or_false]
    exact ⟨hd.clamp, hd.lenmm⟩
  cases i with
  | parseHeader =>
    change execParseHeader s = _ at h
    unfold execParseHeader at h
    split at h
    · rename_i hr
      exact same h (by simp [State.clamps, hr]) ⟨rfl, rfl⟩
    · rename_i hr
      split at h
      · rename_i e he
        exact same h (by simp [State.clamps, he]) ⟨rfl, rfl⟩
      · rename_i p hp
        obtain rfl := Host.Outcome.next.inj h
        refine ⟨?_, rfl⟩
        rw [State.clamps, hp, Bool.eq_false_iff.2 hr]
        rfl
  | decodeContainer =>
    change execDecodeContainer s = _ at h
    unfold execDecodeContainer at h
    split at h
    · rename_i hr
      exact same h (by simp [State.clamps, hr]) ⟨rfl, rfl⟩
    · rename_i hr
      split at h
      · rename_i e he
        exact same h (by simp [State.clamps, he]) ⟨rfl, rfl⟩
      · rename_i p hp
        obtain rfl := Host.Outcome.next.inj h
        obtain ⟨h32, -, -, -, hsl, -⟩ := parseHeader_ok hp
        have hd := enterDecoder_diag (startDecode_inv (c := true) (n := p.slen) (T := p.usize) (C := p.csize)
          (s := s.withRegs (s.regs.noteClamp p)) (by
            show 32 + p.slen ≤ s.inputLen
            have := clampedLen_le (s.inField 0x18).toNat (s.inputLen - 32)
            omega))
        refine ⟨hd.clamp.trans ?_, hd.lenmm⟩
        rw [State.clamps, hp, Bool.eq_false_iff.2 hr]
        rfl
  | writeHeader =>
    change execWriteHeader s = _ at h
    unfold execWriteHeader at h
    have hw := writeBytes_writesOnly (checksOverlap .writeHeader) 0 (headerBytes s.lat.usize s.lat.csize) s
    split at h
    · rename_i he
      rw [he] at hw
      exact same h rfl (.trans (.of_regs hw.2.1) ⟨rfl, rfl⟩)
    · rename_i he
      rw [he] at hw
      exact same h rfl (.trans (.of_regs hw.1) ⟨rfl, rfl⟩)
  | decodeStream =>
    change execDecodeStream s = _ at h
    unfold execDecodeStream at h
    split at h
    · exact same h rfl ⟨rfl, rfl⟩
    · have hd := enterDecoder_diag (startDecode_inv (c := false) (n := s.inputLen) (T := s.lat.usize) (C := 0) (s := s)
        (Nat.zero_add _).le)
      exact same h rfl ⟨hd.clamp, hd.lenmm⟩
  | encodeStream =>
    change execEncodeStream s = _ at h
    unfold execEncodeStream at h
    split at h
    · exact same h rfl ⟨rfl, rfl⟩
    · have hd := enterEncoder_diag (s.startEncode false)
      exact same h rfl ⟨hd.clamp, hd.lenmm⟩
  | encodeContainer =>
    change execEncodeContainer s = _ at h
    unfold execEncodeContainer at h
    split at h
    · exact same h rfl ⟨rfl, rfl⟩
    · have hd := encodeSettle_diag (writeBytes_writesOnly (checksOverlap .encodeContainer) 0 (headerBytes s.lat.inLen 0)
        (s.startEncode true)) enterEncoder_diag
      exact same h rfl ⟨hd.clamp, hd.lenmm⟩
  | pad =>
    change execPad s = _ at h
    unfold execPad writePadding at h
    split at h
    · exact same h rfl ⟨rfl, rfl⟩
    · have hw := writeBytes_writesOnly (checksOverlap .pad) s.lat.outLen.toNat
        (List.replicate (padAmount s.lat.outLen.toNat) 0) s
      split at h
      · rename_i he
        rw [he] at hw
        exact same h rfl (.trans (.of_regs hw.2.1) ⟨rfl, rfl⟩)
      · rename_i he
        rw [he] at hw
        exact same h rfl (.trans (.of_regs hw.1) ⟨rfl, rfl⟩)
  | findMatch =>
    change execFindMatch s = _ at h
    unfold execFindMatch at h
    split at h
    · exact same h rfl ⟨rfl, rfl⟩
    · split at h <;> exact same h rfl ⟨rfl, rfl⟩
  | illegalOp w => exact same h rfl ⟨rfl, rfl⟩
  | ctrl c => exact same h rfl ⟨rfl, rfl⟩
  | lit v => exact same h rfl (runItem_diag (.lit v) s)
  | copy off len => exact same h rfl (runItem_diag (.copy off len) s)

end Sys2Proof.Machine
end

