-- ==== Sys2Proof/Laws/Ends.lean ====
section
/-! SUPPORT. Every command ends (R115): each turn of the decoder's loop reads a byte and each turn of the encoder's covers
one, or the turn ends the command; so the loop ends within its fuel, whole or one turn a step. -/
namespace Sys2Proof.Machine

/-! ## The decoder's loop -/

theorem decodeWrite_go {v : Byte} {s t : State} (h : decodeWrite v s = .go t) :
    t.dec = { s.dec with j := s.dec.j + 1 } ∧ t.phase = s.phase := by
  unfold decodeWrite at h
  rcases outWrite_cases (checksOverlap .decodeStream) s.dec.j v s with ⟨c, -, hw⟩ | ⟨-, hw⟩ <;> rw [hw] at h
  · cases h
  · obtain rfl := Run.go.inj h
    exact ⟨rfl, rfl⟩

theorem copyBytesOut_go {off : Nat} (len : Nat) {s t : State} (h : copyBytesOut off len s = .go t) :
    t.dec = { s.dec with j := t.dec.j } := by
  induction len generalizing s with
  | zero =>
    obtain rfl := Run.go.inj h
    rfl
  | succ len ih =>
    unfold copyBytesOut at h
    split at h
    · obtain rfl := Run.go.inj h
      rfl
    · cases hw : decodeWrite (copySource off s) s with
      | raised c n u => rw [hw] at h; cases h
      | go u =>
        rw [hw] at h
        rw [ih h, (decodeWrite_go hw).1]

/-- A turn of the decoder's loop that does not end the command reads at least one byte of the stream. -/
theorem decodeTurn_reads {s : State} (hb : (decodeTurn s).phase = .busy) :
    (decodeTurn s).dec.slen = s.dec.slen ∧ s.dec.i < (decodeTurn s).dec.i ∧ (decodeTurn s).dec.i ≤ s.dec.slen := by
  unfold decodeTurn at hb ⊢
  by_cases hj : s.dec.j < s.target
  · rw [if_pos hj] at hb ⊢
    cases hf : fetchItem s with
    | error e => rw [hf] at hb; cases hb
    | ok i =>
      simp only [hf] at hb ⊢
      have hbytes := fetchItem_bytes hf
      rcases fetchItem_item hf with ⟨c, rfl⟩ | ⟨v, rfl⟩ | ⟨off, len, rfl⟩
      · exact ⟨rfl, Nat.lt_succ_self _, hbytes⟩
      · change (decodeSettle (decodeWrite v (s.takeToken 1))).phase = .busy at hb
        show (decodeSettle (decodeWrite v (s.takeToken 1))).dec.slen = _ ∧ _ <
          (decodeSettle (decodeWrite v (s.takeToken 1))).dec.i ∧ (decodeSettle (decodeWrite v (s.takeToken 1))).dec.i ≤ _
        cases hw : decodeWrite v (s.takeToken 1) with
        | raised c n u => rw [hw] at hb; cases hb
        | go u =>
          show u.dec.slen = _ ∧ _ < u.dec.i ∧ u.dec.i ≤ _
          rw [(decodeWrite_go hw).1]
          exact ⟨rfl, Nat.lt_succ_self _, hbytes⟩
      · change (decodeSettle (copyBytesOut off len (s.takeToken 2))).phase = .busy at hb
        show (decodeSettle (copyBytesOut off len (s.takeToken 2))).dec.slen = _ ∧ _ <
          (decodeSettle (copyBytesOut off len (s.takeToken 2))).dec.i ∧
          (decodeSettle (copyBytesOut off len (s.takeToken 2))).dec.i ≤ _
        cases hw : copyBytesOut off len (s.takeToken 2) with
        | raised c n u => rw [hw] at hb; cases hb
        | go u =>
          show u.dec.slen = _ ∧ _ < u.dec.i ∧ u.dec.i ≤ _
          rw [copyBytesOut_go len hw]
          exact ⟨rfl, Nat.lt_add_of_pos_right (by decide), hbytes⟩
  · rw [if_neg hj] at hb
    cases hb

theorem decodeTurn_fuel {s : State} (hb : (decodeTurn s).phase = .busy) : (decodeTurn s).decodeFuel < s.decodeFuel := by
  obtain ⟨h1, h2, h3⟩ := decodeTurn_reads hb
  unfold State.decodeFuel
  omega

/-- The loop taken whole ends the command. -/
theorem runDecoder_ends (fuel : Nat) {s : State} (h : s.decodeFuel ≤ fuel) : (runDecoder fuel s).phase = .idle := by
  induction fuel generalizing s with
  | zero => exact absurd h (Nat.not_succ_le_zero _)
  | succ n ih =>
    unfold runDecoder
    split
    · assumption
    · cases hp : (decodeTurn s).phase with
      | idle => rw [runDecoder_idle n hp, hp]
      | busy => exact ih (Nat.lt_succ_iff.1 (Nat.lt_of_lt_of_le (decodeTurn_fuel hp) h))

/-- More fuel than enough changes nothing. -/
theorem runDecoder_fuel (fuel fuel' : Nat) {s : State} (h : s.decodeFuel ≤ fuel) (h' : s.decodeFuel ≤ fuel') :
    runDecoder fuel s = runDecoder fuel' s := by
  induction fuel generalizing s fuel' with
  | zero => exact absurd h (Nat.not_succ_le_zero _)
  | succ n ih =>
    cases fuel' with
    | zero => exact absurd h' (Nat.not_succ_le_zero _)
    | succ n' =>
      unfold runDecoder
      split
      · rfl
      · cases hp : (decodeTurn s).phase with
        | idle => rw [runDecoder_idle n hp, runDecoder_idle n' hp]
        | busy =>
          exact ih n' (Nat.lt_succ_iff.1 (Nat.lt_of_lt_of_le (decodeTurn_fuel hp) h))
            (Nat.lt_succ_iff.1 (Nat.lt_of_lt_of_le (decodeTurn_fuel hp) h'))

/-! ## The encoder's loop -/

theorem andThen_p {r : Run} {f : State → Run} (h : ∀ t, (f t).state.enc.p = t.enc.p) :
    (r.andThen f).state.enc.p = r.state.enc.p := by
  cases r with
  | go t => exact h t
  | raised c n t => rfl

theorem outWrite_p (chk : Bool) (j : Nat) (v : Byte) (s : State) : (outWrite chk j v s).state.enc.p = s.enc.p := by
  rcases outWrite_cases chk j v s with ⟨c, -, h⟩ | ⟨-, h⟩ <;> rw [h] <;> rfl

theorem appendStreamByte_p (v : Byte) (s : State) : (appendStreamByte v s).state.enc.p = s.enc.p :=
  (andThen_p fun _ => rfl).trans (outWrite_p _ _ _ _)

theorem appendStreamBytes_p (bs : List Byte) (s : State) : (appendStreamBytes bs s).state.enc.p = s.enc.p := by
  induction bs generalizing s with
  | nil => rfl
  | cons b bs ih => exact (andThen_p ih).trans (appendStreamByte_p b s)

theorem reserveIfNeeded_p (s : State) : (reserveIfNeeded s).state.enc.p = s.enc.p := by
  unfold reserveIfNeeded
  split
  · exact (andThen_p fun _ => rfl).trans (appendStreamByte_p 0 _)
  · rfl

theorem countToken_p (s : State) : (countToken s).state.enc.p = s.enc.p := by
  unfold countToken
  simp only
  split
  · exact (andThen_p fun _ => rfl).trans (outWrite_p _ _ _ _)
  · rfl

theorem emitToken_p (t : Token) (s : State) : (emitToken t s).state.enc.p = s.enc.p := by
  cases t with
  | literal v => exact (andThen_p countToken_p).trans ((andThen_p (appendStreamByte_p v)).trans (reserveIfNeeded_p s))
  | copy off len =>
    exact (andThen_p countToken_p).trans ((andThen_p fun u => appendStreamBytes_p _ u.markCopy).trans (reserveIfNeeded_p s))

/-- A turn of the encoder's loop that does not end the command covers at least one byte of the input. -/
theorem encodeTurn_covers {s : State} (hb : (encodeTurn s).phase = .busy) :
    s.enc.p < s.inputLen ∧ s.enc.p < (encodeTurn s).enc.p := by
  unfold encodeTurn at hb ⊢
  by_cases hp : s.enc.p < s.inputLen
  · refine ⟨hp, ?_⟩
    rw [if_pos hp] at hb ⊢
    rw [encodeToken_eq] at hb ⊢
    obtain ⟨t', ht', h1, -, -⟩ := parseTokens_step (X := s.input) (fuel := 0) (p := s.enc.p) (by simpa using hp)
    have htok := parseTokens_tokenAt s 0 hp
    obtain rfl : t' = s.tokenAt := by
      rw [ht'] at htok
      exact (List.cons.inj htok).1
    have hep := emitToken_p s.tokenAt s
    cases hw : emitToken s.tokenAt s with
    | raised c n u => rw [hw] at hb; cases hb
    | go u =>
      rw [hw] at hep
      show s.enc.p < u.enc.p + s.tokenAt.span
      have : u.enc.p = s.enc.p := hep
      omega
  · rw [if_neg hp] at hb
    cases hw : encodeTail s with
    | raised c n u => rw [hw] at hb; cases hb
    | go u => rw [hw] at hb; cases hb

theorem encodeTurn_fuel {s : State} (hb : (encodeTurn s).phase = .busy) : (encodeTurn s).encodeFuel < s.encodeFuel := by
  obtain ⟨h1, h2⟩ := encodeTurn_covers hb
  have hl : (encodeTurn s).inputLen = s.inputLen := State.inputLen_congr (encodeTurn_touches s).setup.lat
  unfold State.encodeFuel
  omega

/-- The loop taken whole ends the command. -/
theorem runEncoder_ends (fuel : Nat) {s : State} (h : s.encodeFuel ≤ fuel) : (runEncoder fuel s).phase = .idle := by
  induction fuel generalizing s with
  | zero => exact absurd h (Nat.not_succ_le_zero _)
  | succ n ih =>
    unfold runEncoder
    split
    · assumption
    · cases hp : (encodeTurn s).phase with
      | idle => rw [runEncoder_idle n hp, hp]
      | busy => exact ih (Nat.lt_succ_iff.1 (Nat.lt_of_lt_of_le (encodeTurn_fuel hp) h))

/-- More fuel than enough changes nothing. -/
theorem runEncoder_fuel (fuel fuel' : Nat) {s : State} (h : s.encodeFuel ≤ fuel) (h' : s.encodeFuel ≤ fuel') :
    runEncoder fuel s = runEncoder fuel' s := by
  induction fuel generalizing s fuel' with
  | zero => exact absurd h (Nat.not_succ_le_zero _)
  | succ n ih =>
    cases fuel' with
    | zero => exact absurd h' (Nat.not_succ_le_zero _)
    | succ n' =>
      unfold runEncoder
      split
      · rfl
      · cases hp : (encodeTurn s).phase with
        | idle => rw [runEncoder_idle n hp, runEncoder_idle n' hp]
        | busy =>
          exact ih n' (Nat.lt_succ_iff.1 (Nat.lt_of_lt_of_le (encodeTurn_fuel hp) h))
            (Nat.lt_succ_iff.1 (Nat.lt_of_lt_of_le (encodeTurn_fuel hp) h'))

/-- What `enterDecoder` and `enterEncoder` do to a command taken whole: they end it. -/
theorem enterDecoder_ends {s : State} (hp : s.seq.pace = .whole) : (enterDecoder s).phase = .idle := by
  unfold enterDecoder
  split
  · rfl
  · rw [hp]
    exact runDecoder_ends _ (Nat.le_refl _)

theorem enterEncoder_ends {s : State} (hp : s.seq.pace = .whole) : (enterEncoder s).phase = .idle := by
  unfold enterEncoder
  rw [hp]
  exact runEncoder_ends _ (Nat.le_refl _)

end Sys2Proof.Machine
end

