-- ==== Sys2Proof/Laws/Held.lean ====
section
/-! SUPPORT. What one step does with the regions the host must keep off (R297), said once: a start adds the new command's,
a reset or an observed end frees them all, and nothing else changes them. -/
namespace Sys2Proof.Machine

/-- The host's hold in `t` is the one in `s`. -/
structure SameHold (s t : State) : Prop where
  awaiting : t.port.awaiting = s.port.awaiting
  earlier : t.port.earlier = s.port.earlier
  regions : t.regions = s.regions

theorem SameCore.hold {s t : State} (h : SameCore s t) (ha : t.port.awaiting = s.port.awaiting)
    (he : t.port.earlier = s.port.earlier) : SameHold s t := ⟨ha, he, h.regions⟩

theorem SameSetup.hold {s t : State} (h : SameSetup s t) : SameHold s t := by
  refine ⟨by rw [h.port], by rw [h.port], ?_⟩
  unfold State.regions State.reservedOutputBase State.reservedOutputLen State.inField State.inRead State.inputLen
  rw [h.lat, h.op, h.snap]

theorem SameHold.of_withInputs {s t : State} {xs : List Input} (h : SameHold (s.withInputs xs) t) : SameHold s t :=
  ⟨h.awaiting, h.earlier, h.regions⟩

/-- Where a running command's end has not been observed, a step that keeps the hold keeps the barred regions. -/
theorem SameHold.heldRegions {s t : State} (h : SameHold s t) (ha : s.phase = .busy → s.port.awaiting = true)
    (hp : t.phase = .busy → s.phase = .busy) : t.heldRegions = s.heldRegions := by
  cases hs : s.port.awaiting with
  | true => rw [heldRegions_awaiting hs, heldRegions_awaiting (h.awaiting.trans hs), h.regions, h.earlier]
  | false =>
    have hi : s.phase = .idle := by
      cases hp' : s.phase with
      | idle => rfl
      | busy => rw [ha hp'] at hs; cases hs
    have hti : t.phase = .idle := by
      cases ht : t.phase with
      | idle => rfl
      | busy => rw [hp ht] at hi; cases hi
    rw [heldRegions_free hi hs, heldRegions_free hti (h.awaiting.trans hs)]

theorem coreStep_hold {s t : State} (h : coreStep s = .next t) : SameHold s t := by
  cases hp : s.phase with
  | idle =>
    rw [coreStep_idle hp] at h
    obtain rfl := Host.Outcome.next.inj h
    exact ⟨rfl, rfl, rfl⟩
  | busy =>
    rw [coreStep_busy hp] at h
    split at h
    · obtain rfl := Host.Outcome.next.inj h
      exact ⟨rfl, rfl, rfl⟩
    · split at h
      · obtain ⟨t', h1, h2⟩ := exec_touches (decodeCommand s.op) s
        rw [h1] at h
        obtain rfl := Host.Outcome.next.inj h
        exact h2.setup.hold
      · rw [decodeStep_eq] at h
        obtain rfl := Host.Outcome.next.inj h
        exact (decodeTurn_touches s).setup.hold
      · obtain rfl := Host.Outcome.next.inj h
        exact (encodeTurn_touches s).setup.hold

/-- Writing registers leaves the phase and the host's hold as they are, but for a start and a reset. -/
theorem writeReg_hold (off : Nat) (v : Word) (s : State) (h4 : off = 0x04 → v.getLsbD 1 = false)
    (h8 : off = 0x08 → s.phase = .busy) : (s.writeReg off v).phase = s.phase ∧ SameHold s (s.writeReg off v) := by
  by_cases hc : off = 0x04
  · subst hc
    rw [writeReg_ctrl, writeCtrl_ie _ (h4 rfl)]
    exact ⟨rfl, rfl, rfl, rfl⟩
  · cases hp : s.phase with
    | busy =>
      rw [writeReg_busy v hc hp]
      exact ⟨hp, rfl, rfl, rfl⟩
    | idle =>
      have h8' : off ≠ 0x08 := by
        intro h
        rw [h8 h] at hp
        cases hp
      by_cases hs : off = 0x0C
      · subst hs
        rw [writeReg_status v hp]
        exact ⟨hp, rfl, rfl, rfl⟩
      · rw [writeReg_operand v hc h8' hs hp]
        exact ⟨hp, rfl, rfl, rfl⟩

/-- What one step does with the host's hold. -/
inductive HoldCase (s t : State) : Prop where
  /-- A command starts: its regions are barred beside those barred before. -/
  | start (w : Word) (next : s.StartNext w) (awaiting : t.port.awaiting = true)
      (earlier : t.port.earlier = if s.irq then [] else s.heldRegions)
  /-- A reset, or the observation of an end. -/
  | free (start : ∀ w, ¬ s.StartNext w) (next : s.ResetNext ∨ s.ObservesNext) (idle : t.phase = .idle)
      (awaiting : t.port.awaiting = false) (earlier : t.port.earlier = [])
  /-- Anything else. -/
  | keep (start : ∀ w, ¬ s.StartNext w) (reset : ¬ s.ResetNext) (observe : ¬ s.ObservesNext)
      (busy : t.phase = .busy → s.phase = .busy) (hold : SameHold s t)

theorem step_hold {s t : State} (h : step s = .next t) : HoldCase s t := by
  have no : ∀ {x : Input}, s.port.inputs.head? = some x → (∀ w, x ≠ .regWrite 0x08 4 w) → ∀ w, ¬ s.StartNext w :=
    fun hx hn w hw => hn w (InputNext.unique hx hw.2)
  cases hh : s.port.inputs.head? with
  | none =>
    rw [withInputs_none hh, step_nil] at h
    have hc : s.CoreNext := .inl hh
    refine .keep hc.not_start hc.not_reset ?_ ?_ (SameHold.of_withInputs (coreStep_hold h))
    · rintro ⟨-, h' | ⟨-, x, h', -⟩⟩ <;> rw [State.InputNext, hh] at h' <;> cases h'
    · intro hb
      cases hp : s.phase with
      | busy => rfl
      | idle =>
        rw [coreStep_idle (s := s.withInputs []) hp] at h
        obtain rfl := Host.Outcome.next.inj h
        rw [← hp]
        exact hb
  | some x =>
    obtain ⟨xs, hs⟩ := withInputs_cons hh
    rw [hs] at h
    have hseen := seen_same s xs
    -- An access that leaves the core idle or busy as it was, and the port as the host's step saw it.
    have access : x ≠ .tick → x ≠ .hardReset → x ≠ .regRead 0x0C 4 → (∀ w, ¬ s.StartNext w) → ¬ s.ResetNext →
        t.phase = s.phase → SameHold (s.withInputs xs).takeIrq t → HoldCase s t := by
      intro h1 h2 h3 hst hr hp hold
      by_cases hi : s.phase = .idle ∧ s.irq = true
      · obtain ⟨hid, hirq⟩ := hi
        have hu : (s.withInputs xs).takeIrq = (s.withInputs xs).observed := by
          unfold State.takeIrq
          rw [show (s.withInputs xs).phase = .idle from hid]
          exact if_pos hirq
        rw [hu] at hold
        exact .free hst (.inr ⟨hid, .inr ⟨hirq, x, hh, h1, h2⟩⟩) (hp.trans hid) hold.awaiting hold.earlier
      · have hu : (s.withInputs xs).takeIrq = s.withInputs xs := by
          cases hp' : s.phase with
          | busy => exact takeIrq_busy (s := s.withInputs xs) hp'
          | idle =>
            unfold State.takeIrq
            rw [show (s.withInputs xs).phase = .idle from hp']
            exact if_neg fun h => hi ⟨hp', h⟩
        rw [hu] at hold
        refine .keep hst hr ?_ (fun hb => hp.symm.trans hb) hold.of_withInputs
        rintro ⟨hid, h' | ⟨h', -⟩⟩
        · exact h3 (InputNext.unique hh h')
        · exact hi ⟨hid, h'⟩
    have noReset : x ≠ .hardReset → (∀ v, x ≠ .regWrite 0x04 4 v ∨ v.getLsbD 1 = false) → ¬ s.ResetNext := by
      rintro h1 h2 (h' | ⟨v, h', hv⟩)
      · exact h1 (InputNext.unique hh h')
      · rcases h2 v with h3 | h3
        · exact h3 (InputNext.unique hh h')
        · rw [h3] at hv
          cases hv
    cases x with
    | tick =>
      have hc : s.CoreNext := .inr hh
      refine .keep hc.not_start hc.not_reset ?_ ?_ (SameHold.of_withInputs (coreStep_hold h))
      · rintro ⟨-, h' | ⟨-, x, h', hx, -⟩⟩
        · cases InputNext.unique hh h'
        · exact hx (InputNext.unique h' hh)
      · intro hb
        cases hp : s.phase with
        | busy => rfl
        | idle =>
          have h' : coreStep (s.withInputs xs) = .next t := h
          rw [coreStep_idle (s := s.withInputs xs) hp] at h'
          obtain rfl := Host.Outcome.next.inj h'
          rw [← hp]
          exact hb
    | hardReset =>
      rw [← Host.Outcome.next.inj h]
      exact .free (no hh (by simp)) (.inl (.inl hh)) rfl rfl rfl
    | regRead off width =>
      rw [step_regRead] at h
      split at h
      case isFalse => cases h
      case isTrue hok =>
        obtain ⟨rfl, h4, hlt⟩ := regAccessOk_iff.1 hok
        have ht := (Host.Outcome.next.inj h).symm
        have hst := no hh (by simp)
        have hr := noReset (by simp) (fun v => .inl (by simp))
        by_cases h0 : off = 0x0C
        · subst h0
          rw [show (s.withInputs xs).takeIrq.readReg 0x0C = (s.withInputs xs).takeIrq.readStatus from rfl] at ht
          unfold State.readStatus at ht
          cases hp : s.phase with
          | idle =>
            rw [hseen.phase.trans hp] at ht
            rw [ht]
            exact .free hst (.inr ⟨hp, .inl hh⟩) (hseen.phase.trans hp) rfl rfl
          | busy =>
            rw [hseen.phase.trans hp, takeIrq_busy (s := s.withInputs xs) hp] at ht
            rw [ht]
            refine .keep hst hr ?_ (fun _ => hp) ⟨rfl, rfl, rfl⟩
            rintro ⟨hid, -⟩
            rw [hp] at hid
            cases hid
        · refine access (by simp) (by simp) (by simpa using h0) hst hr ?_ ?_
          all_goals
            rw [ht]
            unfold State.readReg
            rw [if_neg h0]
            split
          · exact hseen.phase
          · exact hseen.phase
          · exact ⟨rfl, rfl, rfl⟩
          · exact ⟨rfl, rfl, rfl⟩
    | regWrite off width v =>
      rw [step_regWrite] at h
      split at h
      case isFalse => cases h
      case isTrue hok =>
        obtain ⟨rfl, h4, hlt⟩ := regAccessOk_iff.1 hok
        have ht := (Host.Outcome.next.inj h).symm
        by_cases hrst : off = 0x04 ∧ v.getLsbD 1 = true
        · obtain ⟨rfl, hv⟩ := hrst
          rw [ht, writeReg_ctrl, writeCtrl_reset _ hv]
          exact .free (no hh (by simp)) (.inl (.inr ⟨v, hh, hv⟩)) rfl rfl rfl
        · have hr : ¬ s.ResetNext := noReset (by simp) fun v' => by
            by_cases hv' : Input.regWrite off 4 v = .regWrite 0x04 4 v'
            · right
              obtain ⟨rfl, -, rfl⟩ : off = 0x04 ∧ 4 = 4 ∧ v = v' := by simpa using hv'
              simpa using hrst
            · exact .inl hv'
          by_cases hcmd : off = 0x08 ∧ s.phase = .idle
          · obtain ⟨rfl, hp⟩ := hcmd
            rw [writeReg_cmd v (hseen.phase.trans hp)] at ht
            refine .start v ⟨hp, hh⟩ (by rw [ht]; rfl) ?_
            rw [ht]
            refine (takeIrq_heldRegions xs s).trans ?_
            cases s.irq <;> simp [hp]
          · have hst : ∀ w, ¬ s.StartNext w := by
              rintro w ⟨hp, hw⟩
              have := InputNext.unique hh hw
              simp at this
              exact hcmd ⟨this.1, hp⟩
            have h8 : off = 0x08 → s.phase = .busy := by
              intro ho
              cases hp : s.phase with
              | busy => rfl
              | idle => exact absurd ⟨ho, hp⟩ hcmd
            have hw := writeReg_hold off v (s.withInputs xs).takeIrq (fun ho => by simpa [ho] using hrst)
              fun ho => hseen.phase.trans (h8 ho)
            rw [← ht] at hw
            exact access (by simp) (by simp) (by simp) hst hr (hw.1.trans hseen.phase) hw.2
    | memRead a =>
      rw [step_memRead] at h
      unfold State.hostRead at h
      split at h
      · cases h
      · split at h
        · cases h
        · obtain rfl := Host.Outcome.next.inj h
          exact access (by simp) (by simp) (by simp) (no hh (by simp)) (noReset (by simp) fun v => .inl (by simp))
            hseen.phase ⟨rfl, rfl, rfl⟩
    | memWrite a b =>
      rw [step_memWrite] at h
      unfold State.hostWrite at h
      split at h
      · cases h
      · split at h
        · cases h
        · split at h
          · cases h
          · obtain rfl := Host.Outcome.next.inj h
            exact access (by simp) (by simp) (by simp) (no hh (by simp)) (noReset (by simp) fun v => .inl (by simp))
              hseen.phase ⟨rfl, rfl, rfl⟩

/-- While a command runs its end has not been observed. -/
theorem step_awaiting {s t : State} (h : step s = .next t) (ha : s.phase = .busy → s.port.awaiting = true)
    (hb : t.phase = .busy) : t.port.awaiting = true := by
  cases step_hold h with
  | start w next awaiting => exact awaiting
  | free start next idle => rw [idle] at hb; cases hb
  | keep start reset observe busy hold => exact hold.awaiting.trans (ha (busy hb))

end Sys2Proof.Machine
end

