-- ==== Sys2Proof/Laws/Operands.lean ====
section
/-! SUPPORT. The operands of a command in the terms claims use: header fields, the signature, the clamp and the region
check (R67, R130 to R132). -/
namespace Sys2Proof.Machine

theorem inField_eq_field (f : Nat) (s : State) : s.inField f = s.field f := by
  unfold State.inField State.field
  apply BitVec.eq_of_toNat_eq
  generalize s.inRead f = a
  generalize s.inRead (f + 1) = b
  generalize s.inRead (f + 2) = c
  generalize s.inRead (f + 3) = d
  show (BitVec.ofNat 32 (leNat [a, b, c, d])).toNat = (d ++ c ++ b ++ a : BitVec (8 + 8 + 8 + 8)).toNat
  rw [BitVec.toNat_append, BitVec.toNat_append, BitVec.toNat_append, BitVec.toNat_ofNat,
    Nat.mod_eq_of_lt (leNat_lt a b c d), ← Nat.shiftLeft_add_eq_or_of_lt a.isLt,
    ← Nat.shiftLeft_add_eq_or_of_lt b.isLt, ← Nat.shiftLeft_add_eq_or_of_lt c.isLt]
  simp only [leNat, Nat.shiftLeft_eq]
  omega

theorem signatureMatches_iff (s : State) : s.signatureMatches = true ↔ s.HasSignature := by
  unfold State.signatureMatches State.HasSignature signature
  simp

theorem clampNeeded_iff (s : State) : clampNeeded (s.field 0x18).toNat (s.inputLen - 32) = true ↔ s.NeedsClamp := by
  unfold clampNeeded State.NeedsClamp
  simp [← BitVec.toNat_inj]

theorem inputOutOfRange_iff (s : State) :
    s.inputOutOfRange = true ↔ 0xFFFFFFFF < s.lat.inBase.toNat + s.lat.inLen.toNat := by
  unfold State.inputOutOfRange
  simp

end Sys2Proof.Machine
end

