-- ==== Sys2Proof/Laws/Outside.lean ====
section
/-! SUPPORT. The decoder and the encoder look at neither the sequencing of their command nor the host's side: with those
replaced they do the same (R114, R119). -/
namespace Sys2Proof.Machine

/-- The state with another sequencer and another host's side. -/
def State.outside (q : Sequencer) (p : HostPort) (s : State) : State := { s with seq := q, port := p }

/-- A part of a body, its state put under another sequencer and host's side. -/
def Run.outside (q : Sequencer) (p : HostPort) : Run → Run
  | .go s => .go (s.outside q p)
  | .raised c n s => .raised c n (s.outside q p)

variable (q : Sequencer) (p : HostPort)

theorem andThen_outside {r : Run} {f : State → Run} (h : ∀ t, f (t.outside q p) = (f t).outside q p) :
    (r.outside q p).andThen f = (r.andThen f).outside q p := by
  cases r with
  | go t => exact h t
  | raised c n t => rfl

theorem outWrite_outside (chk : Bool) (j : Nat) (v : Byte) (s : State) :
    outWrite chk j v (s.outside q p) = (outWrite chk j v s).outside q p := by
  unfold outWrite
  rw [show (s.outside q p).outWriteError chk j = s.outWriteError chk j from rfl]
  split <;> rfl

theorem writeBytes_outside (chk : Bool) (j : Nat) (bs : List Byte) (s : State) :
    writeBytes chk j bs (s.outside q p) = (writeBytes chk j bs s).outside q p := by
  induction bs generalizing j s with
  | nil => rfl
  | cons b bs ih =>
    show (outWrite chk j b (s.outside q p)).andThen _ = _
    rw [outWrite_outside]
    exact andThen_outside q p fun t => ih (j + 1) t

/-! ## The decoder -/

theorem decodeWrite_outside (v : Byte) (s : State) : decodeWrite v (s.outside q p) = (decodeWrite v s).outside q p := by
  unfold decodeWrite
  rw [show (s.outside q p).dec.j = s.dec.j from rfl, outWrite_outside]
  exact andThen_outside q p fun _ => rfl

theorem copyBytesOut_outside (off len : Nat) (s : State) :
    copyBytesOut off len (s.outside q p) = (copyBytesOut off len s).outside q p := by
  induction len generalizing s with
  | zero => rfl
  | succ len ih =>
    unfold copyBytesOut
    rw [show (s.outside q p).dec.j = s.dec.j from rfl, show (s.outside q p).target = s.target from rfl,
      show copySource off (s.outside q p) = copySource off s from rfl, decodeWrite_outside]
    split
    · rfl
    · exact andThen_outside q p ih

theorem decodeSettle_outside (r : Run) : decodeSettle (r.outside q p) = (decodeSettle r).outside q p := by
  cases r <;> rfl

theorem runItem_outside (i : Instr) (s : State) : runItem i (s.outside q p) = (runItem i s).outside q p := by
  cases i with
  | lit v =>
    show decodeSettle (decodeWrite v ((s.takeToken 1).outside q p)) = _
    rw [decodeWrite_outside, decodeSettle_outside]
    rfl
  | copy off len =>
    show decodeSettle (copyBytesOut off len ((s.takeToken 2).outside q p)) = _
    rw [copyBytesOut_outside, decodeSettle_outside]
    rfl
  | _ => rfl

theorem decodeTurn_outside (s : State) : decodeTurn (s.outside q p) = (decodeTurn s).outside q p := by
  unfold decodeTurn
  rw [show (s.outside q p).dec.j = s.dec.j from rfl, show (s.outside q p).target = s.target from rfl,
    show fetchItem (s.outside q p) = fetchItem s from rfl]
  split
  · split
    · exact runItem_outside q p _ s
    · rfl
  · rfl

theorem runDecoder_outside (fuel : Nat) (s : State) : runDecoder fuel (s.outside q p) = (runDecoder fuel s).outside q p := by
  induction fuel generalizing s with
  | zero => rfl
  | succ n ih =>
    unfold runDecoder
    rw [show (s.outside q p).phase = s.phase from rfl, decodeTurn_outside, ih]
    split <;> rfl

/-! ## The encoder -/

theorem writeStreamByte_outside (x : Nat) (v : Byte) (s : State) :
    writeStreamByte x v (s.outside q p) = (writeStreamByte x v s).outside q p :=
  outWrite_outside q p _ _ v s

theorem appendStreamByte_outside (v : Byte) (s : State) :
    appendStreamByte v (s.outside q p) = (appendStreamByte v s).outside q p := by
  unfold appendStreamByte
  rw [show (s.outside q p).enc.o = s.enc.o from rfl, writeStreamByte_outside]
  exact andThen_outside q p fun _ => rfl

theorem appendStreamBytes_outside (bs : List Byte) (s : State) :
    appendStreamBytes bs (s.outside q p) = (appendStreamBytes bs s).outside q p := by
  induction bs generalizing s with
  | nil => rfl
  | cons b bs ih =>
    show (appendStreamByte b (s.outside q p)).andThen _ = _
    rw [appendStreamByte_outside]
    exact andThen_outside q p ih

theorem reserveIfNeeded_outside (s : State) : reserveIfNeeded (s.outside q p) = (reserveIfNeeded s).outside q p := by
  unfold reserveIfNeeded
  rw [show (s.outside q p).enc = s.enc from rfl]
  split
  · rw [show (s.outside q p).withEnc { s.enc with g := s.enc.o } = (s.withEnc { s.enc with g := s.enc.o }).outside q p
      from rfl, appendStreamByte_outside]
    exact andThen_outside q p fun _ => rfl
  · rfl

theorem patchGroup_outside (s : State) : patchGroup (s.outside q p) = (patchGroup s).outside q p := by
  unfold patchGroup
  rw [show (s.outside q p).enc = s.enc from rfl, writeStreamByte_outside]
  exact andThen_outside q p fun _ => rfl

theorem countToken_outside (s : State) : countToken (s.outside q p) = (countToken s).outside q p := by
  unfold countToken
  simp only
  rw [show (s.outside q p).withEnc { (s.outside q p).enc with k := (s.outside q p).enc.k + 1 } =
    (s.withEnc { s.enc with k := s.enc.k + 1 }).outside q p from rfl, patchGroup_outside]
  split <;> split <;> first | rfl | contradiction

theorem emitToken_outside (t : Token) (s : State) : emitToken t (s.outside q p) = (emitToken t s).outside q p := by
  cases t with
  | literal v =>
    show ((reserveIfNeeded (s.outside q p)).andThen (appendStreamByte v)).andThen countToken = _
    rw [reserveIfNeeded_outside, andThen_outside q p (appendStreamByte_outside q p v)]
    exact andThen_outside q p (countToken_outside q p)
  | copy off len =>
    show ((reserveIfNeeded (s.outside q p)).andThen (fun t => appendStreamBytes (copyBytes off len) t.markCopy)).andThen
      countToken = _
    rw [reserveIfNeeded_outside, andThen_outside q p fun t => appendStreamBytes_outside q p (copyBytes off len) t.markCopy]
    exact andThen_outside q p (countToken_outside q p)

theorem encodeToken_outside (s : State) : encodeToken (s.outside q p) = (encodeToken s).outside q p := by
  rw [encodeToken_eq, encodeToken_eq, show (s.outside q p).tokenAt = s.tokenAt from rfl, emitToken_outside]
  exact andThen_outside q p fun _ => rfl

theorem encodeTail_outside (s : State) : encodeTail (s.outside q p) = (encodeTail s).outside q p := by
  have hf : finalizeStream (s.outside q p) = (finalizeStream s).outside q p := by
    unfold finalizeStream
    rw [show (s.outside q p).enc = s.enc from rfl, patchGroup_outside]
    split <;> rfl
  unfold encodeTail
  rw [hf]
  refine andThen_outside q p fun t => ?_
  rw [show (t.outside q p).enc = t.enc from rfl, writeBytes_outside]
  split
  · exact andThen_outside q p fun u => writeBytes_outside q p _ _ _ u
  · rfl

theorem encodeSettle_outside {k : State → State} (hk : ∀ t, k (t.outside q p) = (k t).outside q p) (r : Run) :
    encodeSettle k (r.outside q p) = (encodeSettle k r).outside q p := by
  cases r with
  | go t => exact hk t
  | raised c n t => rfl

theorem encodeTurn_outside (s : State) : encodeTurn (s.outside q p) = (encodeTurn s).outside q p := by
  unfold encodeTurn
  rw [show (s.outside q p).enc = s.enc from rfl, show (s.outside q p).inputLen = s.inputLen from rfl,
    encodeToken_outside, encodeTail_outside]
  split
  · exact encodeSettle_outside q p (k := id) (fun _ => rfl) _
  · exact encodeSettle_outside q p (k := encodeFinish) (fun _ => rfl) _

theorem runEncoder_outside (fuel : Nat) (s : State) : runEncoder fuel (s.outside q p) = (runEncoder fuel s).outside q p := by
  induction fuel generalizing s with
  | zero => rfl
  | succ n ih =>
    unfold runEncoder
    rw [show (s.outside q p).phase = s.phase from rfl, encodeTurn_outside, ih]
    split <;> rfl

end Sys2Proof.Machine
end

