-- ==== Sys2Proof/Laws/PerInstr.lean ====
section
/-! SUPPORT. Statements made per instruction. The family `F`: how many bytes an instruction has (R81, R88, R90, R91), that
its kind is the one its bytes are decoded as, and that only a command has a nonzero `CMD` word. -/
namespace Sys2Proof.Laws.F

/-- The bytes an instruction's kind has. -/
def size : ItemKind → Nat
  | .command => 4
  | .control => 1
  | .literal => 1
  | .copy => 2

/-- An instruction's encoding has its kind's size, and a stream item has no command word. -/
def Statement (i : Instr) : Prop :=
  (encode i).length = size i.kind ∧ (i.kind ≠ .command → commandWord i = 0)

theorem parseHeader : Statement .parseHeader := ⟨rfl, fun h => absurd rfl h⟩
theorem writeHeader : Statement .writeHeader := ⟨rfl, fun h => absurd rfl h⟩
theorem decodeStream : Statement .decodeStream := ⟨rfl, fun h => absurd rfl h⟩
theorem decodeContainer : Statement .decodeContainer := ⟨rfl, fun h => absurd rfl h⟩
theorem encodeStream : Statement .encodeStream := ⟨rfl, fun h => absurd rfl h⟩
theorem encodeContainer : Statement .encodeContainer := ⟨rfl, fun h => absurd rfl h⟩
theorem pad : Statement .pad := ⟨rfl, fun h => absurd rfl h⟩
theorem findMatch : Statement .findMatch := ⟨rfl, fun h => absurd rfl h⟩
theorem illegalOp (w : Word) : Statement (.illegalOp w) := ⟨rfl, fun h => absurd rfl h⟩
theorem ctrl (c : Byte) : Statement (.ctrl c) := ⟨rfl, fun _ => rfl⟩
theorem lit (v : Byte) : Statement (.lit v) := ⟨rfl, fun _ => rfl⟩
theorem copy (off len : Nat) : Statement (.copy off len) := ⟨rfl, fun _ => rfl⟩

end Sys2Proof.Laws.F
end

