-- ==== Sys2Proof/Laws/RoundTrip.lean ====
section
/-! SUPPORT. Why a decode of an encoding gives the input back (R161, R197): the control bits announce the tokens that were
packed, a Literal repeats its byte, and a Copy repeats bytes that are already out. -/
namespace Sys2Proof.Machine

/-- No output byte is unwritable. -/
abbrev noError : Nat → Option ErrCode := fun _ => none

theorem take_succ_byteAt {X : List Byte} {q : Nat} (h : q < X.length) : X.take q ++ [byteAt X q] = X.take (q + 1) := by
  rw [List.take_add_one, List.getElem?_eq_getElem h, byteAt, List.getD_eq_getElem?_getD, List.getElem?_eq_getElem h]
  rfl

theorem byteAt_take {X : List Byte} {q i : Nat} (h : i < q) : byteAt (X.take q) i = byteAt X i := by
  simp only [byteAt, List.getD_eq_getElem?_getD, List.getElem?_take, if_pos h]

/-- A Copy that the encoder chose repeats the input's own bytes (R197). -/
theorem refCopy_input {X : List Byte} {off : Nat} (len q : Nat) (hoff : 1 ≤ off ∧ off ≤ q) (hq : q + len ≤ X.length)
    (hm : ∀ k, k < len → byteAt X (q + k - off) = byteAt X (q + k)) :
    refCopy noError X.length off len (X.take q) = (X.take (q + len), none) := by
  induction len generalizing q with
  | zero => rfl
  | succ len ih =>
    have hlen : (X.take q).length = q := by simp; omega
    have hb : byteAt (X.take q) (q - off) = byteAt X q := by
      rw [byteAt_take (by omega)]
      exact hm 0 (by omega)
    unfold refCopy
    rw [if_neg (by rw [hlen]; omega), hlen, if_neg (by omega), hb]
    show refCopy noError X.length off len (X.take q ++ [byteAt X q]) = _
    rw [take_succ_byteAt (by omega), ih (q + 1) (by omega) (by omega), Nat.add_right_comm, Nat.add_assoc]
    intro k hk
    have := hm (k + 1) (by omega)
    rw [show q + 1 + k = q + (k + 1) by omega]
    exact this

/-- The control bits at hand announce the tokens `ts` (R88). -/
def Announces (bits : List Bool) (ts : List Token) : Prop :=
  ∀ t, t < bits.length → t < ts.length → bits[t]? = ts[t]?.map Token.isCopy

theorem announces_control (ts : List Token) : Announces (controlBits (BitVec.ofNat 8 (controlNat 7 ts))) ts := by
  intro t ht hts
  have ht8 : t < 8 := by simpa [controlBits] using ht
  have hb := controlNat_testBit 7 ts t (by omega)
  simp only [controlBits, List.getElem?_map, List.getElem?_range (show t < Config.group from ht8), Option.map_some,
    BitVec.getLsbD_ofNat, hb]
  rw [decide_eq_true (by omega), Bool.true_and, List.getElem?_eq_getElem hts]
  rfl

theorem Announces.head {b : Bool} {bs : List Bool} {t : Token} {ts : List Token} (h : Announces (b :: bs) (t :: ts)) :
    b = t.isCopy := by
  simpa using h 0 (by simp) (by simp)

theorem Announces.tail {b : Bool} {bs : List Bool} {t : Token} {ts : List Token} (h : Announces (b :: bs) (t :: ts)) :
    Announces bs ts := by
  intro x hx hxt
  simpa using h (x + 1) (by simpa using hx) (by simpa using hxt)

/-- One packed token of the parse, decoded (R197). -/
theorem refDecode_token {X : List Byte} {fuel p : Nat} {t : Token} {ts : List Token} {S : List Byte} {bs : List Bool}
    {used : Nat} (hp : p < X.length) (ht : parseTokens X (fuel + 1) p = t :: ts) :
    ts = parseTokens X fuel (p + t.span) ∧ p + t.span ≤ X.length ∧ 1 ≤ t.span ∧
      refDecodeFrom noError X.length (t.bytes ++ S) (t.isCopy :: bs) used (X.take p) =
        refDecodeFrom noError X.length S bs (used + t.bytes.length) (X.take (p + t.span)) := by
  have hlen : (X.take p).length < X.length := by simp; omega
  rw [parseTokens_succ hp] at ht
  split at ht
  · rename_i off len hf
    obtain ⟨rfl, rfl⟩ := List.cons.inj ht
    obtain ⟨ho, hl, hn⟩ := findMatch_ranges hf
    have heq := findMatch_eq hf
    refine ⟨rfl, hn, by show 1 ≤ len; omega, ?_⟩
    obtain ⟨h1, h2⟩ := copy_decode_encode (off := off) (len := len) ⟨ho.1, by omega⟩ hl
    show refDecodeFrom noError X.length (_ :: _ :: S) (true :: bs) used (X.take p) = _
    rw [refDecodeFrom_copy hlen, h1, h2, refCopy_input len p ⟨ho.1, by omega⟩ hn (fun k hk => by
      rw [← heq k hk, show p + k - off = p - off + k by omega])]
    rfl
  · obtain ⟨rfl, rfl⟩ := List.cons.inj ht
    refine ⟨rfl, hp, Nat.le_refl _, ?_⟩
    show refDecodeFrom noError X.length (_ :: S) (false :: bs) used (X.take p) = _
    rw [refDecodeFrom_literal hlen]
    show refDecodeFrom noError X.length S bs (used + 1) (X.take p ++ [byteAt X p]) = _
    rw [take_succ_byteAt hp]
    rfl

/-- The packed rest of the parse, decoded with `k` tokens of the current group already out (R161, R197). -/
theorem refDecode_packed {X : List Byte} (fuel : Nat) {p k used : Nat} {ts : List Token} {bits : List Bool}
    (hfuel : X.length - p ≤ fuel) (hp : p ≤ X.length) (hts : ts = parseTokens X fuel p) (hk : k < 8)
    (h0 : k = 0 → bits = []) (hb : 0 < k → bits.length = 8 - k ∧ Announces bits ts) :
    refDecodeFrom noError X.length (packFrom k ts) bits used (X.take p) =
      { out := X, used := used + (packFrom k ts).length, error := none } := by
  induction fuel generalizing p k used ts bits with
  | zero =>
    subst hts
    have : p = X.length := by omega
    subst this
    simp only [parseTokens, packFrom_nil, List.take_length]
    rw [refDecodeFrom_reached (Nat.le_refl _)]
    rfl
  | succ fuel ih =>
    by_cases hpe : X.length ≤ p
    · have : p = X.length := by omega
      subst this
      rw [parseTokens_end (Nat.le_refl _)] at hts
      subst hts
      simp only [packFrom_nil, List.take_length]
      rw [refDecodeFrom_reached (Nat.le_refl _)]
      rfl
    · have hlt : p < X.length := by omega
      have hlen : (X.take p).length < X.length := by simp; omega
      obtain ⟨t, ht, -, -, -⟩ := parseTokens_step (X := X) (fuel := fuel) hlt
      rw [ht] at hts
      subst hts
      have htoken := fun S bs used => refDecode_token (S := S) (bs := bs) (used := used) hlt ht
      cases k with
      | zero =>
        rw [h0 rfl]
        show refDecodeFrom noError X.length (_ :: (t.bytes ++ packFrom 1 _)) [] used (X.take p) = _
        rw [refDecodeFrom_control hlen]
        have hann := announces_control (t :: parseTokens X fuel (p + t.span))
        obtain ⟨b, bs, hbits⟩ : ∃ b bs, controlBits (BitVec.ofNat 8 (controlNat 7 (t :: parseTokens X fuel (p + t.span)))) =
            b :: bs := ⟨_, _, rfl⟩
        have hbl : bs.length = 7 := by
          have := congrArg List.length hbits
          simpa [controlBits] using this.symm
        rw [hbits] at hann ⊢
        rw [hann.head]
        obtain ⟨-, hle, h1, hdec⟩ := htoken (packFrom 1 (parseTokens X fuel (p + t.span))) bs (used + 1)
        rw [hdec, ih (by omega) hle rfl (by omega) (by omega) (fun _ => ⟨hbl, hann.tail⟩)]
        simp only [packFrom, List.length_cons, List.length_append, Decoded.mk.injEq, true_and, and_true]
        omega
      | succ k =>
        obtain ⟨hbl, hann⟩ := hb (by omega)
        cases bits with
        | nil => simp at hbl; omega
        | cons b bs =>
          rw [hann.head]
          show refDecodeFrom noError X.length (t.bytes ++ packFrom (if k + 2 = 8 then 0 else k + 2) _) _ used _ = _
          obtain ⟨-, hle, h1, hdec⟩ := htoken (packFrom (if k + 2 = 8 then 0 else k + 2) (parseTokens X fuel (p + t.span))) bs used
          simp only [List.length_cons] at hbl
          rw [hdec, ih (by omega) hle rfl (by split <;> omega) (fun h => by
              split at h
              · exact List.length_eq_zero_iff.1 (by omega)
              · omega)
            (fun h => by
              split at h
              · omega
              · rw [if_neg (by assumption)]
                exact ⟨by omega, hann.tail⟩)]
          simp only [packFrom, Config.group, List.length_append, Decoded.mk.injEq, true_and, and_true]
          omega

end Sys2Proof.Machine
end

