-- ==== Sys2Proof/Laws/Runs.lean ====
section
/-! SUPPORT. Runs of the core's own steps (R114, R115): waiting out the drawn steps, the loops taken one turn a step, and
what a command comes to whichever way it is taken. -/
namespace Sys2Proof.Machine

theorem steps_succ (n : Nat) (s : State) :
    steps (n + 1) s =
      match step s with
      | .next t => steps n t
      | .fault f => .fault f
      | .refused r => .refused r := rfl

theorem steps_add (m n : Nat) {s t : State} (h : steps m s = .next t) : steps (m + n) s = steps n t := by
  induction m generalizing s with
  | zero =>
    obtain rfl := Host.Outcome.next.inj h
    rw [Nat.zero_add]
  | succ m ih =>
    rw [Nat.add_right_comm, steps_succ]
    rw [steps_succ] at h
    revert h
    cases step s with
    | next u => exact fun h => ih h
    | fault f => intro h; cases h
    | refused r => intro h; cases h

theorem step_noInputs {s : State} (h : s.port.inputs = []) : step s = coreStep s := by
  have hs : s.withInputs [] = s := by
    unfold State.withInputs
    rw [← h]
  rw [← hs, step_nil]

/-- The drawn steps before the body pass. -/
theorem steps_stall (k : Nat) {s : State} (hin : s.port.inputs = []) (hk : s.seq.stall = k) (hb : s.phase = .busy) :
    steps k s = .next { s with seq := { s.seq with stall := 0 } } := by
  induction k generalizing s with
  | zero =>
    unfold steps
    rw [← hk]
  | succ k ih =>
    have h1 : step s = .next s.waitStep := by
      rw [step_noInputs hin, coreStep_busy hb, if_pos (by omega)]
    rw [steps_succ, h1]
    dsimp only
    rw [ih (s := s.waitStep) hin (by show s.seq.stall - 1 = k; omega) hb]
    rfl

/-- A decode under way, taken one item a step, ends as its loop taken whole. -/
theorem steps_decode (fuel : Nat) {s : State} (hin : s.port.inputs = []) (hst : s.seq.stall = 0)
    (he : s.seq.engine = .decode) (hb : s.phase = .busy) (hf : s.decodeFuel ≤ fuel) :
    ∃ n, n ≤ fuel ∧ steps n s = .next (runDecoder fuel s) := by
  induction fuel generalizing s with
  | zero => exact absurd hf (Nat.not_succ_le_zero _)
  | succ f ih =>
    have h1 : step s = .next (decodeTurn s) := by
      rw [step_noInputs hin, coreStep_busy hb, if_neg (by simp [hst]), he]
      dsimp only
      rw [decodeStep_eq]
    have h2 : runDecoder (f + 1) s = runDecoder f (decodeTurn s) := by
      conv_lhs => unfold runDecoder
      rw [if_neg (by rw [hb]; decide)]
    have hport := (decodeTurn_touches s).setup.port
    have hs := decodeTurn_seq s
    cases hp : (decodeTurn s).phase with
    | idle =>
      refine ⟨1, by omega, ?_⟩
      rw [h2, runDecoder_idle f hp, steps_succ, h1]
      rfl
    | busy =>
      obtain ⟨n, hn, h3⟩ := ih (by rw [hport]; exact hin) (by rw [hs]; exact hst) (by rw [hs]; exact he) hp
        (Nat.lt_succ_iff.1 (Nat.lt_of_lt_of_le (decodeTurn_fuel hp) hf))
      exact ⟨n + 1, by omega, by rw [steps_succ, h1, h2]; exact h3⟩

/-- An encode under way, taken one token a step, ends as its loop taken whole. -/
theorem steps_encode (fuel : Nat) {s : State} (hin : s.port.inputs = []) (hst : s.seq.stall = 0)
    (he : s.seq.engine = .encode) (hb : s.phase = .busy) (hf : s.encodeFuel ≤ fuel) :
    ∃ n, n ≤ fuel ∧ steps n s = .next (runEncoder fuel s) := by
  induction fuel generalizing s with
  | zero => exact absurd hf (Nat.not_succ_le_zero _)
  | succ f ih =>
    have h1 : step s = .next (encodeTurn s) := by
      rw [step_noInputs hin, coreStep_busy hb, if_neg (by simp [hst]), he]
    have h2 : runEncoder (f + 1) s = runEncoder f (encodeTurn s) := by
      conv_lhs => unfold runEncoder
      rw [if_neg (by rw [hb]; decide)]
    have hport := (encodeTurn_touches s).setup.port
    have hs := encodeTurn_seq s
    cases hp : (encodeTurn s).phase with
    | idle =>
      refine ⟨1, by omega, ?_⟩
      rw [h2, runEncoder_idle f hp, steps_succ, h1]
      rfl
    | busy =>
      obtain ⟨n, hn, h3⟩ := ih (by rw [hport]; exact hin) (by rw [hs]; exact hst) (by rw [hs]; exact he) hp
        (Nat.lt_succ_iff.1 (Nat.lt_of_lt_of_le (encodeTurn_fuel hp) hf))
      exact ⟨n + 1, by omega, by rw [steps_succ, h1, h2]; exact h3⟩

/-- `s`, and the same state under the sequencer `q` (which takes commands whole) and the host's side `p`: the command `i`
comes, from `s` in at most `s.inputLen + 1` further steps, to the registers and the memory it gives when taken whole. -/
def ComesToWhole (i : Instr) (q : Sequencer) (p : HostPort) (s : State) : Prop :=
  ∃ t n u, exec i s = .next t ∧ n ≤ s.inputLen + 1 ∧ steps n t = .next u ∧ u.phase = .idle ∧
    ∃ w, exec i (s.outside q p) = .next w ∧ w.phase = .idle ∧ u.regs = w.regs ∧ u.mem = w.mem

theorem ComesToWhole.now {i : Instr} {q : Sequencer} {p : HostPort} {s t w : State} (h : exec i s = .next t)
    (h' : exec i (s.outside q p) = .next w) (ht : t.phase = .idle) (hw : w.phase = .idle) (hr : t.regs = w.regs)
    (hm : t.mem = w.mem) : ComesToWhole i q p s :=
  ⟨t, 0, t, h, Nat.zero_le _, rfl, ht, w, h', hw, hr, hm⟩

theorem ComesToWhole.decode {i : Instr} {q : Sequencer} {p : HostPort} {s a : State} (hq : q.pace = .whole)
    (hb : a.phase = .busy) (hin : a.port.inputs = []) (hst : a.seq.stall = 0) (he : a.seq.engine = .decode)
    (hl : a.dec.slen ≤ s.inputLen) (h : exec i s = .next (enterDecoder a))
    (h' : exec i (s.outside q p) = .next (enterDecoder (a.outside { q with engine := .decode } p))) :
    ComesToWhole i q p s := by
  by_cases hz : a.dec.slen = 0 ∧ a.target ≠ 0
  · unfold enterDecoder at h h'
    rw [if_pos hz] at h
    rw [if_pos (show (a.outside { q with engine := .decode } p).dec.slen = 0 ∧ (a.outside { q with engine := .decode } p).target ≠ 0
      from hz)] at h'
    exact .now h h' rfl rfl rfl rfl
  · have h2 : enterDecoder (a.outside { q with engine := .decode } p) =
        (runDecoder a.decodeFuel a).outside { q with engine := .decode } p := by
      unfold enterDecoder
      rw [if_neg (by exact hz), show (a.outside { q with engine := .decode } p).seq.pace = .whole from hq]
      exact runDecoder_outside _ _ _ _
    rw [h2] at h'
    have hend := runDecoder_ends a.decodeFuel (Nat.le_refl _)
    unfold enterDecoder at h
    rw [if_neg hz] at h
    cases hp : a.seq.pace with
    | whole =>
      rw [hp] at h
      exact .now h h' hend hend rfl rfl
    | perToken =>
      rw [hp] at h
      obtain ⟨n, hn, h3⟩ := steps_decode a.decodeFuel hin hst he hb (Nat.le_refl _)
      refine ⟨a, n, _, h, ?_, h3, hend, _, h', hend, rfl, rfl⟩
      unfold State.decodeFuel at hn
      omega

theorem ComesToWhole.encode {i : Instr} {q : Sequencer} {p : HostPort} {s a : State} (hq : q.pace = .whole)
    (hb : a.phase = .busy) (hin : a.port.inputs = []) (hst : a.seq.stall = 0) (he : a.seq.engine = .encode)
    (hl : a.inputLen = s.inputLen) (h : exec i s = .next (enterEncoder a))
    (h' : exec i (s.outside q p) = .next (enterEncoder (a.outside { q with engine := .encode } p))) :
    ComesToWhole i q p s := by
  have h2 : enterEncoder (a.outside { q with engine := .encode } p) =
      (runEncoder a.encodeFuel a).outside { q with engine := .encode } p := by
    unfold enterEncoder
    rw [show (a.outside { q with engine := .encode } p).seq.pace = .whole from hq]
    exact runEncoder_outside _ _ _ _
  rw [h2] at h'
  have hend := runEncoder_ends a.encodeFuel (Nat.le_refl _)
  unfold enterEncoder at h
  cases hp : a.seq.pace with
  | whole =>
    rw [hp] at h
    exact .now h h' hend hend rfl rfl
  | perToken =>
    rw [hp] at h
    obtain ⟨n, hn, h3⟩ := steps_encode a.encodeFuel hin hst he hb (Nat.le_refl _)
    refine ⟨a, n, _, h, ?_, h3, hend, _, h', hend, rfl, rfl⟩
    unfold State.encodeFuel at hn
    omega

/-- Every command comes to what it gives when taken whole. -/
theorem comesToWhole {i : Instr} {q : Sequencer} {p : HostPort} {s : State} (hk : i.kind = .command)
    (hq : q.pace = .whole) (hb : s.phase = .busy) (hin : s.port.inputs = []) (hst : s.seq.stall = 0) :
    ComesToWhole i q p s := by
  cases i with
  | parseHeader =>
    by_cases hr : s.inputOutOfRange = true
    · exact .now (t := s.raise .addrRange) (w := (s.outside q p).raise .addrRange)
        (by show execParseHeader s = _; unfold execParseHeader; rw [if_pos hr])
        (by show execParseHeader (s.outside q p) = _; unfold execParseHeader; rw [if_pos (by exact hr)]) rfl rfl rfl rfl
    · have ho : parseHeader (s.outside q p) = parseHeader s := rfl
      cases hph : parseHeader s with
      | error e =>
        exact .now (t := (s.withRegs { s.regs with inUsed := 0 }).raise e)
          (w := ((s.outside q p).withRegs { s.regs with inUsed := 0 }).raise e)
          (by show execParseHeader s = _; unfold execParseHeader; rw [if_neg hr, hph])
          (by show execParseHeader (s.outside q p) = _; unfold execParseHeader; rw [if_neg (by exact hr), ho, hph]; rfl)
          rfl rfl rfl rfl
      | ok h =>
        exact .now (t := (s.withRegs ((s.regs.noteClamp h).parsed h)).finish)
          (w := ((s.outside q p).withRegs ((s.regs.noteClamp h).parsed h)).finish)
          (by show execParseHeader s = _; unfold execParseHeader; rw [if_neg hr, hph])
          (by show execParseHeader (s.outside q p) = _; unfold execParseHeader; rw [if_neg (by exact hr), ho, hph]; rfl)
          rfl rfl rfl rfl
  | writeHeader =>
    show ∃ t n u, execWriteHeader s = .next t ∧ _ ∧ _ ∧ _ ∧ ∃ w, execWriteHeader (s.outside q p) = .next w ∧ _
    unfold execWriteHeader
    rw [show (s.outside q p).lat = s.lat from rfl, writeBytes_outside]
    cases writeBytes (checksOverlap .writeHeader) 0 (headerBytes s.lat.usize s.lat.csize) s <;>
      exact ⟨_, 0, _, rfl, Nat.zero_le _, rfl, rfl, _, rfl, rfl, rfl, rfl⟩
  | decodeStream =>
    by_cases hr : s.inputOutOfRange = true
    · exact .now (t := s.raise .addrRange) (w := (s.outside q p).raise .addrRange)
        (by show execDecodeStream s = _; unfold execDecodeStream; rw [if_pos hr])
        (by show execDecodeStream (s.outside q p) = _; unfold execDecodeStream; rw [if_pos (by exact hr)]) rfl rfl rfl rfl
    · exact .decode (a := s.startDecode false s.inputLen s.lat.usize 0) hq hb hin hst rfl (Nat.le_refl _)
        (by show execDecodeStream s = _; unfold execDecodeStream; rw [if_neg hr])
        (by show execDecodeStream (s.outside q p) = _; unfold execDecodeStream; rw [if_neg (by exact hr)]; rfl)
  | decodeContainer =>
    by_cases hr : s.inputOutOfRange = true
    · exact .now (t := s.raise .addrRange) (w := (s.outside q p).raise .addrRange)
        (by show execDecodeContainer s = _; unfold execDecodeContainer; rw [if_pos hr])
        (by show execDecodeContainer (s.outside q p) = _; unfold execDecodeContainer; rw [if_pos (by exact hr)])
        rfl rfl rfl rfl
    · have ho : parseHeader (s.outside q p) = parseHeader s := rfl
      cases hph : parseHeader s with
      | error e =>
        exact .now (t := s.raisePrefixes e 0 0) (w := (s.outside q p).raisePrefixes e 0 0)
          (by show execDecodeContainer s = _; unfold execDecodeContainer; rw [if_neg hr, hph])
          (by show execDecodeContainer (s.outside q p) = _; unfold execDecodeContainer; rw [if_neg (by exact hr), ho, hph])
          rfl rfl rfl rfl
      | ok h =>
        obtain ⟨h32, -, -, -, hsl, -⟩ := parseHeader_ok hph
        refine .decode (a := (s.withRegs (s.regs.noteClamp h)).startDecode true h.slen h.usize h.csize) hq hb hin hst rfl ?_
          (by show execDecodeContainer s = _; unfold execDecodeContainer; rw [if_neg hr, hph])
          (by show execDecodeContainer (s.outside q p) = _; unfold execDecodeContainer; rw [if_neg (by exact hr), ho, hph]; rfl)
        show h.slen ≤ _
        have := clampedLen_le (s.inField 0x18).toNat (s.inputLen - 32)
        omega
  | encodeStream =>
    by_cases hr : s.inputOutOfRange = true
    · exact .now (t := s.raise .addrRange) (w := (s.outside q p).raise .addrRange)
        (by show execEncodeStream s = _; unfold execEncodeStream; rw [if_pos hr])
        (by show execEncodeStream (s.outside q p) = _; unfold execEncodeStream; rw [if_pos (by exact hr)]) rfl rfl rfl rfl
    · exact .encode (a := s.startEncode false) hq hb hin hst rfl rfl
        (by show execEncodeStream s = _; unfold execEncodeStream; rw [if_neg hr])
        (by show execEncodeStream (s.outside q p) = _; unfold execEncodeStream; rw [if_neg (by exact hr)]; rfl)
  | encodeContainer =>
    by_cases hr : s.inputOutOfRange = true
    · exact .now (t := s.raise .addrRange) (w := (s.outside q p).raise .addrRange)
        (by show execEncodeContainer s = _; unfold execEncodeContainer; rw [if_pos hr])
        (by show execEncodeContainer (s.outside q p) = _; unfold execEncodeContainer; rw [if_pos (by exact hr)])
        rfl rfl rfl rfl
    · have h1 : exec .encodeContainer s = .next (encodeSettle enterEncoder
          (writeBytes (checksOverlap .encodeContainer) 0 (headerBytes s.lat.inLen 0) (s.startEncode true))) := by
        show execEncodeContainer s = _
        unfold execEncodeContainer
        rw [if_neg hr]
      have h2 : exec .encodeContainer (s.outside q p) = .next (encodeSettle enterEncoder
          (writeBytes (checksOverlap .encodeContainer) 0 (headerBytes s.lat.inLen 0)
            ((s.startEncode true).outside { q with engine := .encode } p))) := by
        show execEncodeContainer (s.outside q p) = _
        unfold execEncodeContainer
        rw [if_neg (by exact hr)]
        rfl
      rw [writeBytes_outside] at h2
      have hw := writeBytes_writesOnly (checksOverlap .encodeContainer) 0 (headerBytes s.lat.inLen 0) (s.startEncode true)
      have htt := writeBytes_touches (checksOverlap .encodeContainer) 0 (headerBytes s.lat.inLen 0) (s.startEncode true)
      revert h1 h2 hw htt
      cases writeBytes (checksOverlap .encodeContainer) 0 (headerBytes s.lat.inLen 0) (s.startEncode true) with
      | raised c n u => exact fun h1 h2 _ _ => .now h1 h2 rfl rfl rfl rfl
      | go u =>
        intro h1 h2 hw htt
        exact .encode (a := u) hq (hw.2.1.trans hb) (by rw [show u.port = s.port from htt.setup.port]; exact hin)
          (by rw [hw.2.2]; exact hst) (by rw [hw.2.2]; rfl) (State.inputLen_congr htt.setup.lat) h1 h2
  | pad =>
    show ∃ t n u, execPad s = .next t ∧ _ ∧ _ ∧ _ ∧ ∃ w, execPad (s.outside q p) = .next w ∧ _
    unfold execPad writePadding
    rw [show (s.outside q p).bufferOutOfRange = s.bufferOutOfRange from rfl, show (s.outside q p).lat = s.lat from rfl,
      writeBytes_outside]
    split
    · exact ⟨_, 0, _, rfl, Nat.zero_le _, rfl, rfl, _, rfl, rfl, rfl, rfl⟩
    · cases writeBytes (checksOverlap .pad) s.lat.outLen.toNat (List.replicate (padAmount s.lat.outLen.toNat) 0) s <;>
        exact ⟨_, 0, _, rfl, Nat.zero_le _, rfl, rfl, _, rfl, rfl, rfl, rfl⟩
  | findMatch =>
    show ∃ t n u, execFindMatch s = .next t ∧ _ ∧ _ ∧ _ ∧ ∃ w, execFindMatch (s.outside q p) = .next w ∧ _
    unfold execFindMatch
    rw [show (s.outside q p).inputOutOfRange = s.inputOutOfRange from rfl, show (s.outside q p).lat = s.lat from rfl,
      show (s.outside q p).inputLen = s.inputLen from rfl]
    split
    · exact ⟨_, 0, _, rfl, Nat.zero_le _, rfl, rfl, _, rfl, rfl, rfl, rfl⟩
    · split <;> exact ⟨_, 0, _, rfl, Nat.zero_le _, rfl, rfl, _, rfl, rfl, rfl, rfl⟩
  | illegalOp w => exact .now (t := s.raise .illegalOp) (w := (s.outside q p).raise .illegalOp) rfl rfl rfl rfl rfl rfl
  | ctrl c => cases hk
  | lit v => cases hk
  | copy off len => cases hk

end Sys2Proof.Machine
end

