-- ==== Sys2Proof/Tests/Slice0.lean ====
section
/-! SUPPORT. Tests on small states: ill-formed terms, words written out from spec/30_encoding.md, one step on vectors of
spec/95_test_vectors.md (their numbers V stand at each), the placing of an instruction, and for every statement that has
hypotheses a witness that meets them. -/
namespace Sys2Proof.Tests

-- The evaluations below wait for the kernel; one at a time they hold one thread, not one each.
set_option Elab.async false
open Sys2Proof Sys2Proof.Machine

/-! ## The states tests start from -/

/-- `n` bytes 0x41, the spec's `A×n`. -/
def bytesA (n : Nat) : List Byte := List.replicate n 0x41

/-- The spec's `H(u, c)` for sizes below 256. -/
def header (u c : Byte) : List Byte :=
  [0x50, 0x43, 0x4D, 0x50] ++ List.replicate 16 0 ++ [u, 0, 0, 0] ++ [c, 0, 0, 0] ++ List.replicate 4 0

/-- The stream of V1. -/
def streamV1 : List Byte := [0x10, 0x41, 0x41, 0x41, 0x04, 0x00]

/-- An idle core with the input `inp` at 0x1000, the output at `out`, and other registers set by `f`. -/
def idle (inp : List Byte) (out : Word) (f : Regs → Regs) : State :=
  { State.reset with
    mem := Mem.writeList [] 0x1000 inp
    regs := f { Regs.reset with inBase := 0x1000, inLen := BitVec.ofNat 32 inp.length, outBase := out } }

/-- The same core with the command `w` accepted, to be taken whole by its next step. -/
def ready (w : Word) (inp : List Byte) (out : Word) (f : Regs → Regs) : State := (idle inp out f).startWith .whole 0 w

/-- The same core with the command `w` accepted, to be taken one token a step. -/
def slow (w : Word) (inp : List Byte) (out : Word) (f : Regs → Regs) : State := (idle inp out f).startWith .perToken 0 w

/-- The state after a step that answers one. -/
def after (s : State) : State :=
  match step s with
  | .next t => t
  | .fault _ | .refused _ => s

/-- The state after an instruction that answers one. -/
def done (i : Instr) (s : State) : State :=
  match exec i s with
  | .next t => t
  | .fault _ | .refused _ => s

/-- Why a step is refused, if it is. -/
def refusal (s : State) : Option Refusal :=
  match step s with
  | .refused r => some r
  | .next _ | .fault _ => none

/-- A step answers a next state. -/
def answers (s : State) : Bool :=
  match step s with
  | .next _ => true
  | .fault _ | .refused _ => false

/-- `USIZE` = `u`. -/
def toward (u : Word) (r : Regs) : Regs := { r with usize := u }

/-! ## Well-formed terms -/

theorem test_illformed_illegalOp : (Instr.illegalOp 5).wellFormed = false := by decide
theorem test_wellformed_illegalOp : (Instr.illegalOp 9).wellFormed = true := by decide
theorem test_illformed_copy_offset_zero : (Instr.copy 0 3).wellFormed = false := by decide
theorem test_illformed_copy_offset_large : (Instr.copy 4097 3).wellFormed = false := by decide
theorem test_illformed_copy_length_small : (Instr.copy 1 2).wellFormed = false := by decide
theorem test_illformed_copy_length_large : (Instr.copy 1 19).wellFormed = false := by decide
theorem test_wellformed_copy : (Instr.copy 4096 18).wellFormed = true := by decide

/-! ## Decoding, from words written out from the spec -/

/-- R81, R82: the eight command words, bit by bit: `OP` in bits 3..0. -/
theorem test_decode_commands :
    ([0x00000001#32, 0x00000002#32, 0x00000003#32, 0x00000004#32, 0x00000005#32, 0x00000006#32, 0x00000007#32,
      0x00000008#32].map decodeCommand) =
      [.parseHeader, .writeHeader, .decodeStream, .decodeContainer, .encodeStream, .encodeContainer, .pad, .findMatch] := by
  decide

/-- R82: reserved `OP` values and nonzero upper bits select no command. -/
theorem test_decode_illegal :
    ([0x00000000#32, 0x00000009#32, 0x0000000F#32, 0x00000011#32, 0x80000001#32].map decodeCommand) =
      [.illegalOp 0x00000000, .illegalOp 0x00000009, .illegalOp 0x0000000F, .illegalOp 0x00000011,
        .illegalOp 0x80000001] := by decide

/-- R62: a command word stands least significant byte first. -/
theorem test_decode_command_bytes : decode .command [0x08, 0x00, 0x00, 0x00, 0x77] = .ok (.findMatch, [0x77]) := rfl

theorem test_decode_short_command : decode .command [0x08, 0x00, 0x00] = .error .shortCommand := rfl

/-- R88. -/
theorem test_decode_ctrl : decode .control [0x10, 0x41] = .ok (.ctrl 0x10, [0x41]) := rfl

/-- R90. -/
theorem test_decode_lit : decode .literal [0x41, 0x42] = .ok (.lit 0x41, [0x42]) := rfl

/-- R94: `COPY 292,10` is 37 12. -/
theorem test_decode_copy : decode .copy [0x37, 0x12, 0x99] = .ok (.copy 292 10, [0x99]) := rfl

/-- R158 to R160: an item that has too few bytes. -/
theorem test_decode_truncated :
    decode .control [] = .error .prematureEnd ∧ decode .literal [] = .error .prematureEndDuringLiteral ∧
      decode .copy [0x05] = .error .prematureEndDuringCopy := ⟨rfl, rfl, rfl⟩

/-- The host's numbering of a row's bits: 32 bits a command, 16 a Copy, 8 a control byte. -/
theorem test_decodeTableWord :
    decodeTableWord 32 0x00000006 = some .encodeContainer ∧ decodeTableWord 16 0xFFFF = some (.copy 4096 18) ∧
      decodeTableWord 16 0x1237 = some (.copy 292 10) ∧ decodeTableWord 8 0x10 = some (.ctrl 0x10) ∧
      decodeTableWord 24 0 = none := by decide

/-! ## Placing an instruction -/

theorem test_withFetchWord_command :
    step (State.reset.withFetchWord 32 9) =
      exec (.illegalOp 9) ((State.reset.withFetchWord 32 9).withInputs []) := rfl

theorem test_withFetchWord_copy :
    step (State.reset.withFetchWord 16 0x1237) =
      exec (.copy 292 10) ((State.reset.withFetchWord 16 0x1237).withInputs []) := rfl

theorem test_withFetchWord_ctrl :
    step (State.reset.withFetchWord 8 0x10) = exec (.ctrl 0x10) ((State.reset.withFetchWord 8 0x10).withInputs []) := rfl

/-! ## One step on the spec's vectors -/

/-- V8. -/
theorem test_parseHeader_V8 :
    let t := after (ready 1 (header 10 6 ++ streamV1 ++ [0, 0]) 0x8000 id)
    t.statusWord = 0x00000002 ∧ t.regs.usize = 10 ∧ t.regs.csize = 6 ∧ t.regs.slen = 6 ∧ t.regs.inUsed = 32 := by
  decide +kernel

/-- V14: a declared size past the end is clamped. -/
theorem test_parseHeader_V14 :
    let t := after (ready 1 (header 10 100 ++ List.replicate 8 0) 0x8000 id)
    t.statusWord = 0x00010002 ∧ t.regs.csize = 100 ∧ t.regs.slen = 8 := by decide +kernel

/-- V23. -/
theorem test_writeHeader_V23 :
    let t := after (ready 2 [] 0x8000 fun r => { r with usize := 10, csize := 6 })
    t.statusWord = 0x00000002 ∧ t.regs.outLen = 32 ∧ t.regs.inUsed = 0 ∧ Mem.bytes t.mem 0x8000 32 = header 10 6 := by
  decide +kernel

/-- V25: the top of memory. -/
theorem test_writeHeader_V25 :
    let t := after (ready 2 [] 0xFFFFFFF0 fun r => { r with usize := 10, csize := 6 })
    t.statusWord = 0x00000804 ∧ t.regs.outLen = 15 ∧ Mem.read t.mem 0xFFFFFFF3 = 0x50 := by decide +kernel

/-- V28: a Copy that reaches before the output start, and overlaps itself. -/
theorem test_decodeStream_V28 :
    let t := after (ready 3 [0x20, 0x41, 0x42, 0x32, 0x00] 0x8000 (toward 7))
    t.statusWord = 0x00000002 ∧ t.regs.outLen = 7 ∧ t.regs.inUsed = 5 ∧
      Mem.bytes t.mem 0x8000 7 = [0x41, 0x42, 0x00, 0x00, 0x41, 0x42, 0x00] := by decide +kernel

/-- V46: an output byte that would fall into the input. -/
theorem test_decodeStream_V46 :
    let t := after (ready 3 streamV1 0x0FFE (toward 10))
    t.statusWord = 0x00000904 ∧ t.regs.outLen = 2 ∧ t.regs.inUsed = 4 ∧
      Mem.bytes t.mem 0x0FFE 4 = [0x41, 0x41, 0x10, 0x41] := by decide +kernel

/-- V51: a declared size of zero makes what follows the header the stream. -/
theorem test_decodeContainer_V51 :
    let t := after (ready 4 (header 10 0 ++ streamV1 ++ [0, 0]) 0x8000 id)
    t.statusWord = 0x00010002 ∧ t.regs.usize = 10 ∧ t.regs.csize = 0 ∧ t.regs.slen = 8 ∧ t.regs.outLen = 10 ∧
      t.regs.inUsed = 38 ∧ Mem.bytes t.mem 0x8000 11 = bytesA 10 ++ [0] := by decide +kernel

/-- V48: the clamp diagnostic stays set under the error. -/
theorem test_decodeContainer_V48 :
    let t := after (ready 4 (header 5 0) 0x8000 id)
    t.statusWord = 0x00010304 ∧ t.regs.usize = 5 ∧ t.regs.outLen = 0 ∧ t.regs.inUsed = 32 := by decide +kernel

/-- V83: two groups, the second closed by the end of the stream ("ABCDABCDABCDEFGHEFGHXY"). -/
theorem test_encodeStream_V83 :
    let t := after (ready 5 [0x41, 0x42, 0x43, 0x44, 0x41, 0x42, 0x43, 0x44, 0x41, 0x42, 0x43, 0x44, 0x45, 0x46, 0x47,
      0x48, 0x45, 0x46, 0x47, 0x48, 0x58, 0x59] 0x8000 id)
    t.statusWord = 0x00000002 ∧ t.regs.outLen = 16 ∧ t.regs.slen = 16 ∧ t.regs.usize = 22 ∧ t.regs.inUsed = 22 ∧
      Mem.bytes t.mem 0x8000 16 = [0x08, 0x41, 0x42, 0x43, 0x44, 0x35, 0x00, 0x45, 0x46, 0x47, 0x40, 0x48, 0x31, 0x00,
        0x58, 0x59] := by decide +kernel

/-- V85: the placeholder of the open group stays 0 under an error. -/
theorem test_encodeStream_V85 :
    let t := after (ready 5 (bytesA 10) 0xFFFFFFFC id)
    t.statusWord = 0x00000804 ∧ t.regs.outLen = 3 ∧ t.regs.inUsed = 2 ∧
      Mem.bytes t.mem 0xFFFFFFFC 3 = [0x00, 0x41, 0x41] := by decide +kernel

/-- V91: a header that does not fit. -/
theorem test_encodeContainer_V91 :
    let t := after (ready 6 (bytesA 10) 0xFFFFFFF0 id)
    t.statusWord = 0x00000804 ∧ t.regs.outLen = 15 ∧ t.regs.inUsed = 0 ∧ t.regs.usize = 0 := by decide +kernel

/-- V92: padding that would fall into the input; the declared size had been patched. -/
theorem test_encodeContainer_V92 :
    let t := after (ready 6 (bytesA 10) 0x0F9C id)
    t.statusWord = 0x00000904 ∧ t.regs.outLen = 100 ∧ t.regs.inUsed = 10 ∧ Mem.read t.mem 0x0FB4 = 0x06 := by
  decide +kernel

/-- V97. -/
theorem test_pad_V97 :
    let s := ready 7 [] 0x8000 fun r => { r with outLen := 2047 }
    let t := after { s with mem := [(0x87FE, 0x11), (0x87FF, 0x22), (0x8800, 0x33)] }
    t.statusWord = 0x00000002 ∧ t.regs.outLen = 2048 ∧ t.mem = [(0x87FE, 0x11), (0x8800, 0x33)] := by decide +kernel

/-- V103. -/
theorem test_pad_V103 :
    let t := after (ready 7 [] 0xFFFFFFF0 fun r => { r with outLen := 0x0F })
    t.statusWord = 0x00000804 ∧ t.regs.outLen = 15 := by decide +kernel

/-- V61: the nearest of two starts, on "abcXabcYabc". -/
theorem test_findMatch_V61 :
    let t := after (ready 8 [0x61, 0x62, 0x63, 0x58, 0x61, 0x62, 0x63, 0x59, 0x61, 0x62, 0x63] 0x8000
      fun r => { r with mpos := 8 })
    t.statusWord = 0x00000002 ∧ t.regs.mres = 0x80030004 := by decide +kernel

/-- V59. -/
theorem test_findMatch_V59 :
    let t := after (ready 8 (bytesA 10) 0x8000 fun r => { r with mpos := 10 })
    t.statusWord = 0x00000A04 ∧ t.regs.mres = 0 := by decide +kernel

/-- V108. -/
theorem test_illegalOp_V108 :
    let t := after (ready 0x80000001 [] 0 id)
    t.statusWord = 0x00000704 ∧ t.regValue 0x08 = 0x80000001 ∧ t.mem = [] := by decide +kernel

/-- V28, one item a step: the control byte, then a Literal, then the Copy after the second Literal. -/
theorem test_items_V28 :
    let s := after (slow 3 [0x20, 0x41, 0x42, 0x32, 0x00] 0x8000 (toward 7))
    (after s).dec.ctrl = 0x20 ∧ (after s).dec.nb = 8 ∧ (after (after s)).dec.j = 1 ∧
      Mem.read (after (after s)).mem 0x8000 = 0x41 := by decide +kernel

/-- V30: a Copy is cut at the target. -/
theorem test_copy_V30 :
    let s := { ready 3 streamV1 0x8000 (toward 5) with
      mem := Mem.writeList [] 0x8000 [0x41, 0x41, 0x41]
      dec := { container := false, slen := 6, target := 5, csize := 0, i := 4, j := 3, ctrl := 0x80, nb := 5 } }
    (done (.copy 1 7) s).dec.j = 5 ∧ (done (.copy 1 7) s).dec.i = 6 ∧
      Mem.bytes (done (.copy 1 7) s).mem 0x8000 6 = bytesA 5 ++ [0] := by decide +kernel

/-- V110: writing 0x4 to `STATUS` after V31. -/
theorem test_status_V110 :
    let t := after (ready 3 streamV1 0x8000 (toward 11))
    t.statusWord = 0x00000604 ∧ (after (t.withInputs [.regWrite 0x0C 4 4])).statusWord = 0x00000600 := by decide +kernel

/-- R21: a half-word access is refused. -/
theorem test_regRead_half : step (State.reset.withInputs [.regRead 0x0C 2]) = .refused .registerAccessShape := rfl

/-! ## Witnesses: states and operands that meet a statement's hypotheses

Each theorem shows, on concrete values, all the hypotheses of the statement it is named after, clause by clause. -/

/-- A core after a reset with an empty memory, whose host does `xs` next. -/
def hosted (xs : List Input) : State := (State.resetWith []).withInputs xs

/-- `DECODE_STREAM` of V1 under way, before an item. -/
def midDecode (ctrl : Byte) (nb i j : Nat) : State :=
  { slow 3 streamV1 0x8000 (toward 10) with
    dec := { container := false, slen := 6, target := 10, csize := 0, i := i, j := j, ctrl := ctrl, nb := nb }
    seq := { State.reset.seq with engine := .decode, pace := .perToken } }

theorem witness_DecodeOfEncodedInstruction :
    (Instr.copy 4096 18).wellFormed = true ∧ (Instr.illegalOp 0x11).wellFormed = true ∧ Instr.findMatch.wellFormed = true := by
  decide

theorem witness_EncodeOfDecodedBytes : decode .copy [0xFF, 0xFF, 0x01] = .ok (.copy 4096 18, [0x01]) := rfl

theorem witness_CommandWordsSelectCommands :
    ¬ ((0x11 : Word).extractLsb' 4 28 = 0 ∧ 1 ≤ ((0x11 : Word).extractLsb' 0 4).toNat ∧
      ((0x11 : Word).extractLsb' 0 4).toNat ≤ 8) ∧
    ¬ ((0 : Word).extractLsb' 4 28 = 0 ∧ 1 ≤ ((0 : Word).extractLsb' 0 4).toNat ∧
      ((0 : Word).extractLsb' 0 4).toNat ≤ 8) := by decide

theorem witness_CopyTokenFields :
    (1 ≤ 1 ∧ 1 ≤ 4096 ∧ 3 ≤ 3 ∧ 3 ≤ 18) ∧ (1 ≤ 4096 ∧ 4096 ≤ 4096 ∧ 3 ≤ 18 ∧ 18 ≤ 18) := by decide

theorem witness_ControlBitsAnnounceTokens :
    7 < 8 ∧ (midDecode (0x13 <<< 7) 1 4 3).dec.ctrl = (0x13 : Byte) <<< 7 ∧ (midDecode (0x13 <<< 7) 1 4 3).dec.nb = 8 - 7 ∧
      exec (.lit 0x41) (midDecode (0x13 <<< 7) 1 4 3) = .next (done (.lit 0x41) (midDecode (0x13 <<< 7) 1 4 3)) ∧
      exec (.copy 1 7) (midDecode (0x13 <<< 7) 1 4 3) = .next (done (.copy 1 7) (midDecode (0x13 <<< 7) 1 4 3)) :=
  ⟨by decide, rfl, rfl, rfl, rfl⟩

theorem witness_StepRunsDispatchedCommand :
    ((ready 3 streamV1 0x8000 id).phase = .busy ∧ (ready 3 streamV1 0x8000 id).seq.engine = .dispatch ∧
      (ready 3 streamV1 0x8000 id).seq.stall = 0) ∧
    ((idle [] 0 id).startWith .whole 3 9).seq.stall ≠ 0 := ⟨⟨rfl, rfl, rfl⟩, by decide⟩

theorem witness_StepRunsStreamItem :
    (midDecode 0x80 5 4 3).phase = .busy ∧ (midDecode 0x80 5 4 3).seq.engine = .decode ∧
      (midDecode 0x80 5 4 3).seq.stall = 0 ∧ (midDecode 0x80 5 4 3).dec.j < (midDecode 0x80 5 4 3).dec.target.toNat ∧
      decode (midDecode 0x80 5 4 3).itemDue (midDecode 0x80 5 4 3).streamBytes = .ok (.copy 1 7, []) :=
  ⟨rfl, rfl, rfl, by decide, rfl⟩

theorem witness_TruncatedStreamRaises :
    (let s := midDecode 0 0 6 3; s.dec.nb = 0 ∧ s.dec.i = s.dec.slen ∧ s.dec.j < s.dec.target.toNat) ∧
    (let s := midDecode 0 1 6 9; s.dec.nb ≠ 0 ∧ s.dec.ctrl.getLsbD 7 = false ∧ s.dec.i = s.dec.slen) ∧
    (let s := midDecode 0x80 8 5 9; s.dec.nb ≠ 0 ∧ s.dec.ctrl.getLsbD 7 = true ∧ s.dec.slen - s.dec.i < 2) ∧
    (let s := ready 3 [] 0x8000 (toward 1); s.inputOutOfRange = false ∧ s.lat.inLen = 0 ∧ s.lat.usize ≠ 0) ∧
    (let s := ready 3 streamV1 0x8000 (toward 10)
     s.phase = .busy ∧ s.seq.pace = .whole ∧ s.inputOutOfRange = false ∧ Mem.wf s.mem = true ∧
      (done .decodeStream s).regs.done = true) := by decide +kernel

theorem witness_TruncatedStreamRaises_step :
    exec .decodeStream (ready 3 streamV1 0x8000 (toward 10)) =
      .next (done .decodeStream (ready 3 streamV1 0x8000 (toward 10))) := rfl

theorem witness_CommandStart : (idle [] 0 id).phase = .idle ∧ (ready 7 [] 0 id).phase = .busy := ⟨rfl, rfl⟩

theorem witness_BusyRegisterDiscipline :
    (ready 3 streamV1 0x8000 id).phase = .busy ∧ (0xFC % 4 = 0 ∧ 0xFC < 0x100 ∧ 0xFC ≠ 0x04 ∧ 0xFC ≠ 0x2C) ∧
      (ready 3 streamV1 0x8000 id).seq.progress ≤ (ready 3 streamV1 0x8000 id).inputLen ∧
      step ((slow 3 streamV1 0x8000 (toward 10)).withInputs []) =
        .next (after ((slow 3 streamV1 0x8000 (toward 10)).withInputs [])) ∧
      (after ((slow 3 streamV1 0x8000 (toward 10)).withInputs [])).phase = .busy :=
  ⟨rfl, by decide, by decide, rfl, rfl⟩

theorem witness_RegisterMap :
    State.reset.phase = .idle ∧ (0x38 % 4 = 0 ∧ 0x38 ≤ 0x38 ∧ 0x38 < 0x100) ∧ (0xFC % 4 = 0 ∧ 0x38 ≤ 0xFC ∧ 0xFC < 0x100) ∧
      ¬ (2 = 4 ∧ 0x0C % 4 = 0 ∧ 0x0C < 0x100) ∧ ¬ (4 = 4 ∧ 0x02 % 4 = 0 ∧ 0x02 < 0x100) ∧
      ¬ (4 = 4 ∧ 0x100 % 4 = 0 ∧ 0x100 < 0x100) := by decide

theorem witness_ProgressReadsAreBoundedAndMonotone :
    (ready 3 streamV1 0x8000 id).phase = .busy ∧
      (ready 3 streamV1 0x8000 id).seq.progress ≤ (ready 3 streamV1 0x8000 id).inputLen := by decide

/-! ### Status, interrupt and reset -/

theorem inv_idle (r : Regs) (h : RegsInv r) (xs : List Input) : Machine.Inv { hosted xs with regs := r } where
  memWf := rfl
  snapWf := rfl
  memBound := fun _ hc => nomatch hc
  journalBound := fun _ hc => nomatch hc
  regs := h
  busy := fun h => nomatch h
  awaiting := fun h => nomatch h
  progress := fun h => nomatch h
  range := fun h => nomatch h
  decode := fun h => nomatch h
  encode := fun h => nomatch h

theorem regsInv_reset : RegsInv Regs.reset := ⟨rfl, fun h => (nomatch h), fun h => (nomatch h), rfl, .inl rfl⟩

theorem inv_hosted (xs : List Input) : Machine.Inv (hosted xs) := inv_idle Regs.reset regsInv_reset xs

/-- The registers after a success, with `CTRL.IE`. -/
def doneRegs : Regs := { Regs.reset with ie := true, done := true }

/-- The registers after an illegal command, with `CTRL.IE`. -/
def errRegs : Regs := { Regs.reset with ie := true, err := true, errcode := .illegalOp }

theorem regsInv_done : RegsInv doneRegs := ⟨rfl, fun _ => rfl, fun h => (nomatch h), rfl, .inl rfl⟩

theorem regsInv_err : RegsInv errRegs := ⟨rfl, fun h => (nomatch h), fun _ => (by decide), rfl, .inl rfl⟩

/-- An illegal command accepted, with `CTRL.IE`, about to be dispatched. -/
def illegalReady : State := ready 9 [] 0 fun r => { r with ie := true }

theorem inv_illegalReady : Machine.Inv illegalReady where
  memWf := rfl
  snapWf := rfl
  memBound := fun _ hc => nomatch hc
  journalBound := fun _ hc => nomatch hc
  regs := ⟨rfl, fun h => (nomatch h), fun h => (nomatch h), rfl, .inl rfl⟩
  busy := fun _ => ⟨rfl, rfl, rfl⟩
  awaiting := fun _ => rfl
  progress := fun _ => Nat.zero_le _
  range := fun _ h => absurd rfl h
  decode := fun _ h => nomatch h
  encode := fun _ h => nomatch h

theorem witness_StatusFields :
    State.reset.phase = .idle ∧ Machine.Inv illegalReady ∧ illegalReady.phase = .busy := ⟨rfl, inv_illegalReady, rfl⟩

theorem illegalReady_completes : step illegalReady = .next (after illegalReady) ∧ Completes illegalReady (after illegalReady) :=
  ⟨rfl, .inl rfl, rfl, rfl⟩

/-- What a step answers in each of the states a host input leads to. -/
theorem witness_BusyFollowsCommands :
    (∃ t, step (hosted [.regWrite 0x08 4 7]) = .next t ∧ (hosted [.regWrite 0x08 4 7]).StartNext 7) ∧
    (step illegalReady = .next (after illegalReady) ∧ illegalReady.phase = .busy ∧ (after illegalReady).phase = .idle) ∧
    (∃ t, step (illegalReady.withInputs [.hardReset]) = .next t ∧ (illegalReady.withInputs [.hardReset]).ResetNext ∧
      (illegalReady.withInputs [.hardReset]).phase = .busy ∧ t.phase = .idle) :=
  ⟨⟨_, rfl, rfl, rfl⟩, ⟨rfl, rfl, rfl⟩, ⟨_, rfl, .inl rfl, rfl, rfl⟩⟩

theorem witness_DoneAndErrFollowCommands :
    (Machine.Inv { hosted [.regWrite 0x08 4 7] with regs := doneRegs } ∧
      ∃ t, step { hosted [.regWrite 0x08 4 7] with regs := doneRegs } = .next t ∧
        State.StartNext 7 { hosted [.regWrite 0x08 4 7] with regs := doneRegs } ∧ doneRegs.done = true ∧
        t.regs.done = false) ∧
    (Machine.Inv illegalReady ∧ Completes illegalReady (after illegalReady)) ∧
    (Machine.Inv { hosted [.regWrite 0x0C 4 4] with regs := errRegs } ∧
      ∃ t, step { hosted [.regWrite 0x0C 4 4] with regs := errRegs } = .next t ∧ errRegs.err = true ∧ t.regs.err = false) :=
  ⟨⟨inv_idle _ regsInv_done _, _, rfl, ⟨rfl, rfl⟩, rfl, rfl⟩, ⟨inv_illegalReady, illegalReady_completes.2⟩,
    ⟨inv_idle _ regsInv_err _, _, rfl, rfl, rfl⟩⟩

theorem witness_ErrcodeFollowsCommands :
    (∃ t, step (hosted [.regWrite 0x08 4 7]) = .next t ∧ (hosted [.regWrite 0x08 4 7]).StartNext 7) ∧
    (∃ t, step (hosted [.regWrite 0x04 4 2]) = .next t ∧ (hosted [.regWrite 0x04 4 2]).ResetNext) ∧
    (step illegalReady = .next (after illegalReady) ∧ Completes illegalReady (after illegalReady)) ∧
    (∃ t, step (hosted [.memRead 0]) = .next t ∧ (∀ w, ¬ (hosted [.memRead 0]).StartNext w) ∧
      ¬ (hosted [.memRead 0]).ResetNext ∧ ¬ Completes (hosted [.memRead 0]) t) := by
  refine ⟨⟨_, rfl, rfl, rfl⟩, ⟨_, rfl, .inr ⟨2, rfl, rfl⟩⟩, illegalReady_completes, ⟨_, rfl, ?_, ?_, ?_⟩⟩
  · rintro w ⟨-, h⟩
    cases h
  · rintro (h | ⟨v, h, -⟩) <;> cases h
  · rintro ⟨-, h, -⟩
    cases h

/-- `PARSE_HEADER` of a header alone (V17), which clamps, about to be dispatched. -/
def clampReady : State := ready 1 (header 10 6) 0x8000 id

theorem inv_clampReady : Machine.Inv clampReady where
  memWf := by decide +kernel
  snapWf := by decide +kernel
  memBound := by decide +kernel
  journalBound := fun _ hc => nomatch hc
  regs := ⟨rfl, fun h => (nomatch h), fun h => (nomatch h), rfl, .inl rfl⟩
  busy := fun _ => ⟨rfl, rfl, rfl⟩
  awaiting := fun _ => rfl
  progress := fun _ => Nat.zero_le _
  range := fun _ h => absurd rfl h
  decode := fun _ h => nomatch h
  encode := fun _ h => nomatch h

theorem clampReady_header : clampReady.HasSignature ∧ clampReady.NeedsClamp := by
  unfold State.HasSignature State.NeedsClamp
  decide +kernel

theorem witness_DiagnosticsFollowCommands :
    Machine.Inv clampReady ∧ step clampReady = .next (after clampReady) ∧ (∀ w, ¬ clampReady.StartNext w) ∧
      ¬ clampReady.ResetNext ∧ (after clampReady).regs.diagClamp = true ∧ clampReady.CoreNext ∧
      decodeCommand clampReady.op = .parseHeader ∧
      clampReady.lat.inBase.toNat + clampReady.lat.inLen.toNat ≤ 0xFFFFFFFF ∧ 32 ≤ clampReady.inputLen ∧
      clampReady.HasSignature ∧ clampReady.NeedsClamp := by
  refine ⟨inv_clampReady, rfl, ?_, ?_, by decide +kernel, .inl rfl, by decide, by decide, by decide, clampReady_header⟩
  · rintro w ⟨h, -⟩
    cases h
  · rintro (h | ⟨v, h, -⟩) <;> cases h

theorem witness_InterruptOutput :
    (Machine.Inv illegalReady ∧ Completes illegalReady (after illegalReady) ∧ illegalReady.regs.ie = true) ∧
    (State.InputNext (.regWrite 0x04 4 1) (hosted [.regWrite 0x04 4 1]) ∧ (1 : Word).getLsbD 1 = false ∧
      (1 : Word).getLsbD 0 = true ∧ (0 : Word).getLsbD 0 = false ∧ doneRegs.done = true) ∧
    (State.InputNext (.regWrite 0x0C 4 6) (hosted [.regWrite 0x0C 4 6]) ∧ (6 : Word).getLsbD 1 = true ∧
      (6 : Word).getLsbD 2 = true) ∧
    (hosted [.regWrite 0x08 4 7]).StartNext 7 ∧ (hosted [.hardReset]).ResetNext :=
  ⟨⟨inv_illegalReady, illegalReady_completes.2, rfl⟩, ⟨rfl, rfl, rfl, rfl, rfl⟩, ⟨rfl, rfl, rfl⟩, ⟨rfl, rfl⟩, .inl rfl⟩

theorem witness_ResetValues :
    (∃ v : Word, Input.regWrite 0x04 4 2 = .regWrite 0x04 4 v ∧ v.getLsbD 1 = true) ∧ illegalReady.phase = .busy ∧
      State.reset.phase = .idle := ⟨⟨2, rfl, rfl⟩, rfl, rfl⟩

theorem witness_SoftResetActsAsHardReset : (0x2 : Word).getLsbD 1 = true ∧ (0xFFFFFFFF : Word).getLsbD 1 = true := by decide

/-- `DECODE_STREAM` of V1, one item a step, after its first Literal: one write made. -/
def oneWrite : State := after (after (after (slow 3 streamV1 0x8000 (toward 10))))

theorem witness_ResetAbandonsCommand :
    oneWrite.phase = .busy ∧ Mem.wf (slow 3 streamV1 0x8000 (toward 10)).mem = true ∧
      oneWrite.mem = Mem.writeAll (slow 3 streamV1 0x8000 (toward 10)).mem [(0x8000, 0x41)] ∧
      oneWrite.journal = Mem.replaced (slow 3 streamV1 0x8000 (toward 10)).mem [(0x8000, 0x41)] := by decide +kernel

theorem witness_IdleCoreExecutesNothing :
    (∃ t, (hosted [.memWrite 5 0x77]).phase = .idle ∧ (∀ w, ¬ (hosted [.memWrite 5 0x77]).StartNext w) ∧
      step (hosted [.memWrite 5 0x77]) = .next t ∧ ¬ (hosted [.memWrite 5 0x77]).ResetNext ∧
      Mem.wf (hosted [.memWrite 5 0x77]).mem = true ∧ Mem.read t.mem 5 ≠ Mem.read (hosted [.memWrite 5 0x77]).mem 5) := by
  refine ⟨_, rfl, ?_, rfl, ?_, rfl, by decide⟩
  · rintro w ⟨-, h⟩
    cases h
  · rintro (h | ⟨v, h, -⟩) <;> cases h

/-! ### Commands -/

theorem witness_IllegalCommandOnlySetsStatus :
    ((0x10 : Word).extractLsb' 0 4).toNat = 0 ∧ 9 ≤ ((0x09 : Word).extractLsb' 0 4).toNat ∧
      (0x80000001 : Word).extractLsb' 4 28 ≠ 0 ∧ State.reset.phase = .idle := by decide

theorem witness_RegionCheckComesFirst :
    (let s := ready 3 [] 0 fun r => { r with inBase := 0xFFFFFF00, inLen := 0x100 }
     0xFFFFFFFF < s.lat.inBase.toNat + s.lat.inLen.toNat) ∧
    (let s := ready 7 [] 0xFFFFFFF0 fun r => { r with outLen := 0x10 }
     0xFFFFFFFF < s.lat.outBase.toNat + s.lat.outLen.toNat) := by decide

theorem witness_ParseHeaderOutcome :
    (let s := ready 1 [] 0 fun r => { r with inBase := 0xFFFFFFF0, inLen := 0x10 }
     0xFFFFFFFF < s.lat.inBase.toNat + s.lat.inLen.toNat) ∧
    (let s := ready 1 [] 0 fun r => { r with inBase := 0xFFFFFFF0, inLen := 0x0F }
     s.lat.inBase.toNat + s.lat.inLen.toNat ≤ 0xFFFFFFFF ∧ s.lat.inLen.toNat < 32) ∧
    (let s := ready 1 (0x70 :: (header 10 6).tail) 0 id
     32 ≤ s.lat.inLen.toNat ∧ ¬ s.HasSignature) ∧
    (32 ≤ clampReady.lat.inLen.toNat ∧ clampReady.HasSignature ∧ (true = true ↔ clampReady.NeedsClamp)) := by
  refine ⟨by decide, by decide, ⟨by decide, ?_⟩, by decide, clampReady_header.1, fun _ => clampReady_header.2, fun _ => rfl⟩
  unfold State.HasSignature
  decide +kernel

theorem witness_WriteHeaderOutcome :
    Mem.wf (ready 2 [] 0xFFFFFFDF id).mem = true ∧ (ready 2 [] 0xFFFFFFDF id).lat.outBase.toNat + 32 ≤ 0xFFFFFFFF ∧
      ¬ (ready 2 [] 0xFFFFFFE0 id).lat.outBase.toNat + 32 ≤ 0xFFFFFFFF := by decide

theorem witness_WrittenHeaderParsesBack :
    let s := ready 2 [] 0x8000 fun r => { r with usize := 10, csize := 6 }
    let q := ready 1 (header 10 6 ++ streamV1) 0x8000 id
    Mem.wf s.mem = true ∧ s.lat.outBase.toNat + 32 ≤ 0xFFFFFFFF ∧ 32 ≤ q.lat.inLen.toNat ∧
      q.lat.inBase.toNat + q.lat.inLen.toNat ≤ 0xFFFFFFFF ∧
      (∀ i, i < 32 → q.inRead i = Mem.read (done .writeHeader s).mem (s.lat.outBase.toNat + i)) ∧ s.lat.csize ≠ 0 ∧
      s.lat.csize.toNat ≤ q.lat.inLen.toNat - 32 ∧ clampReady.lat.inLen.toNat = 32 := by decide +kernel

theorem witness_FindMatchOutcome :
    (let s := ready 8 [] 0 fun r => { r with inBase := 0xFFFFFF00, inLen := 0x100 }
     0xFFFFFFFF < s.lat.inBase.toNat + s.lat.inLen.toNat) ∧
    (let s := ready 8 (bytesA 10) 0 fun r => { r with mpos := 10 }
     s.lat.inBase.toNat + s.lat.inLen.toNat ≤ 0xFFFFFFFF ∧ s.lat.inLen.toNat ≤ s.lat.mpos.toNat) ∧
    (let s := ready 8 (bytesA 10) 0 fun r => { r with mpos := 9 }
     s.lat.inBase.toNat + s.lat.inLen.toNat ≤ 0xFFFFFFFF ∧ s.lat.mpos.toNat < s.lat.inLen.toNat) := by decide +kernel

theorem witness_FindMatchIsLongestThenNearest :
    3 < 10 ∧ findMatch (fun _ => 0x41) 10 3 = some (1, 7) ∧ findMatch (fun _ => 0x41) 10 2 = none := by decide +kernel

theorem witness_FindMatchRanges :
    7 < 10 ∧ findMatch (fun _ => 0x41) 10 7 = some (1, 3) ∧ 8 < 10 ∧ min 18 (10 - 8) < 3 := by decide +kernel

theorem witness_LiteralAppendsItsByte :
    Mem.wf (midDecode 0 8 1 0).mem = true ∧
      (midDecode 0 8 1 0).outWriteError true (midDecode 0 8 1 0).dec.j = none := by decide +kernel

theorem witness_CopyRepeatsOutput :
    1 ≤ 1 ∧ Mem.wf (midDecode 0x80 5 4 3).mem = true ∧
      (midDecode 0x80 5 4 3).dec.j ≤ (midDecode 0x80 5 4 3).dec.target.toNat ∧
      7 = min 7 ((midDecode 0x80 5 4 3).dec.target.toNat - (midDecode 0x80 5 4 3).dec.j) ∧
      ∀ k, k < 7 → (midDecode 0x80 5 4 3).outWriteError true ((midDecode 0x80 5 4 3).dec.j + k) = none := by decide +kernel

theorem witness_StreamItemWriteErrors :
    let s := { midDecode 0x80 5 4 3 with lat := { (midDecode 0x80 5 4 3).lat with outBase := 0x0FFD } }
    let u := { midDecode 0x80 5 4 3 with lat := { (midDecode 0x80 5 4 3).lat with outBase := 0x0FFB } }
    Mem.wf s.mem = true ∧ s.dec.j ≤ s.dec.target.toNat ∧ s.outWriteError true s.dec.j = some .overlap ∧
      2 < 7 ∧ u.dec.j + 2 < u.dec.target.toNat ∧ (∀ k, k < 2 → u.outWriteError true (u.dec.j + k) = none) ∧
      u.outWriteError true (u.dec.j + 2) = some .overlap := by decide +kernel

theorem witness_EmptyStreamCheck :
    (let s := ready 3 [] 0x8000 id
     s.phase = .busy ∧ s.seq.pace = .whole ∧ s.lat.inBase.toNat + s.lat.inLen.toNat ≤ 0xFFFFFFFF ∧ s.lat.inLen = 0) ∧
    (clampReady.phase = .busy ∧ clampReady.seq.pace = .whole ∧ clampReady.lat.inLen = 32 ∧ clampReady.HasSignature) :=
  ⟨by decide, rfl, rfl, by decide, clampReady_header.1⟩

/-- What the outcome of a decode or an encode asks of the state. -/
theorem witness_DecodeStreamOutcome :
    (let s := ready 3 streamV1 0x8000 (toward 10)
     s.phase = .busy ∧ s.seq.pace = .whole ∧ Mem.wf s.mem = true ∧
      s.lat.inBase.toNat + s.lat.inLen.toNat ≤ 0xFFFFFFFF) ∧
    (let s := ready 3 [] 0 fun r => { r with inBase := 0xFFFFFF00, inLen := 0x100 }
     s.phase = .busy ∧ s.seq.pace = .whole ∧ Mem.wf s.mem = true ∧
      0xFFFFFFFF < s.lat.inBase.toNat + s.lat.inLen.toNat) := by decide +kernel

theorem witness_DecodeContainerOutcome :
    (let s := ready 4 [] 0 fun r => { r with inBase := 0xFFFFFF00, inLen := 0x100 }
     s.phase = .busy ∧ s.seq.pace = .whole ∧ Mem.wf s.mem = true ∧
      0xFFFFFFFF < s.lat.inBase.toNat + s.lat.inLen.toNat) ∧
    (let s := ready 4 (header 10 6).tail 0 id
     s.lat.inBase.toNat + s.lat.inLen.toNat ≤ 0xFFFFFFFF ∧ s.lat.inLen.toNat < 32) ∧
    (32 ≤ clampReady.lat.inLen.toNat ∧ clampReady.HasSignature ∧ (true = true ↔ clampReady.NeedsClamp)) :=
  ⟨by decide, by decide +kernel, by decide, clampReady_header.1, fun _ => clampReady_header.2, fun _ => rfl⟩

theorem witness_DecodeNeverEndsShort :
    (refDecode (fun _ => none) 10 streamV1).error = none ∧
      exec .decodeStream (ready 3 streamV1 0x8000 (toward 10)) =
        .next (done .decodeStream (ready 3 streamV1 0x8000 (toward 10))) := ⟨by decide +kernel, rfl⟩

/-- Writing the first `n` output bytes raises nothing where they end below `ADDR_TOP` and start behind the input. -/
theorem room_behind {s : State} {n : Nat} (h : s.lat.outBase.toNat + n ≤ 0xFFFFFFFF)
    (hi : s.lat.inBase.toNat + s.lat.inLen.toNat ≤ s.lat.outBase.toNat) : s.Room true n := by
  intro j hj
  unfold State.outWriteError State.inInput State.outAddr
  rw [if_neg (by simp only [Config.addrTop]; omega), if_neg (by simp; omega)]

/-- `ENCODE_CONTAINER` of V87, about to be dispatched. -/
def encodeReady : State := ready 6 (bytesA 10) 0x8000 id

theorem container_V87 : (refContainer encodeReady.input).length = 2048 := by
  have h : (refEncode encodeReady.input).length = 6 := by decide +kernel
  simp only [refContainer, List.length_append, List.length_replicate, h]
  rfl

theorem witness_EncodeStreamOutcome :
    (let s := ready 5 (bytesA 10) 0x8000 id
     s.phase = .busy ∧ s.seq.pace = .whole ∧ Mem.wf s.mem = true ∧
      s.lat.inBase.toNat + s.lat.inLen.toNat ≤ 0xFFFFFFFF ∧ ∀ j, j < (refEncode s.input).length → s.outWriteError true j = none) ∧
    (let s := ready 5 (bytesA 10) 0x0FFD id
     s.lat.inBase.toNat + s.lat.inLen.toNat ≤ 0xFFFFFFFF ∧
      ¬ ∀ j, j < (refEncode s.input).length → s.outWriteError true j = none) ∧
    (let s := ready 5 [] 0 fun r => { r with inBase := 0xFFFFFF00, inLen := 0x100 }
     0xFFFFFFFF < s.lat.inBase.toNat + s.lat.inLen.toNat) := by decide +kernel

/-- A container of V87 runs into its own input, and stops at a byte of the token stream. -/
def tokenBlocked : State := ready 6 (bytesA 10) 0x0FDD id

/-- The same, at a byte of the padding (V92). -/
def paddingBlocked : State := ready 6 (bytesA 10) 0x0F9C id

theorem witness_EncodeContainerOutcome :
    (encodeReady.phase = .busy ∧ encodeReady.seq.pace = .whole ∧ Mem.wf encodeReady.mem = true ∧
      encodeReady.lat.inBase.toNat + encodeReady.lat.inLen.toNat ≤ 0xFFFFFFFF ∧
      encodeReady.Room true (refContainer encodeReady.input).length) ∧
    (let s := ready 6 (bytesA 10) 0xFFFFFFF0 id
     s.lat.inBase.toNat + s.lat.inLen.toNat ≤ 0xFFFFFFFF ∧ ¬ s.Room true (refContainer s.input).length) ∧
    (let s := ready 6 [] 0 fun r => { r with inBase := 0xFFFFFF00, inLen := 0x100 }
     0xFFFFFFFF < s.lat.inBase.toNat + s.lat.inLen.toNat) := by
  refine ⟨⟨rfl, rfl, by decide +kernel, by decide, ?_⟩, ⟨by decide, fun h => ?_⟩, by decide⟩
  · rw [container_V87]
    exact room_behind (by decide) (by decide)
  · have := h 15 (by rw [show (refContainer (ready 6 (bytesA 10) 0xFFFFFFF0 id).input).length = 2048 from container_V87]; decide)
    revert this
    decide

/-- The three places a container can stop at: a byte of the header, of a token, and of the padding. -/
theorem witness_EncodeContainerOutcome_stops :
    (let s := ready 6 (bytesA 10) 0xFFFFFFF0 id
     15 < 32 ∧ (∀ j, j < 15 → s.outWriteError true j = none) ∧ s.outWriteError true 15 = some .addrRange) ∧
    (32 ≤ 35 ∧ inToken tokenBlocked.input 2 (35 - 32) ∧ (∀ j, j < 35 → tokenBlocked.outWriteError true j = none) ∧
      tokenBlocked.outWriteError true 35 = some .overlap) ∧
    (32 + (refEncode paddingBlocked.input).length ≤ 100 ∧
      (∀ j, j < 100 → paddingBlocked.outWriteError true j = none) ∧
      paddingBlocked.outWriteError true 100 = some .overlap) := by
  unfold inToken
  decide +kernel

theorem witness_StreamLengthLaw : ∀ t ∈ parseTokens [0x41, 0x42, 0x43] 3 0, t.isCopy = false := by decide +kernel

theorem encodeReady_outLen : (done .encodeContainer encodeReady).regs.outLen = 2048 := by decide +kernel

/-- A machine whose input is the container `encodeReady` stored, with `DECODE_CONTAINER` about to be dispatched. -/
def decodeReady : State :=
  { ready 4 [] 0x9000 id with
    snap := (done .encodeContainer encodeReady).mem
    lat := { encodeReady.lat with
      inBase := 0x8000, inLen := (done .encodeContainer encodeReady).regs.outLen, outBase := 0x9000 } }

theorem encodeReady_next : exec .encodeContainer encodeReady = .next (done .encodeContainer encodeReady) := by
  have h : ∃ t, exec .encodeContainer encodeReady = .next t := by
    show ∃ t, execEncodeContainer encodeReady = .next t
    unfold execEncodeContainer
    split <;> exact ⟨_, rfl⟩
  obtain ⟨t, ht⟩ := h
  unfold done
  rw [ht]

theorem witness_EncodedContainerDecodesBack :
    exec .encodeContainer encodeReady = .next (done .encodeContainer encodeReady) ∧
      (decodeReady.phase = .busy ∧ decodeReady.seq.pace = .whole ∧ Mem.wf decodeReady.mem = true) ∧
      decodeReady.lat.inBase.toNat + decodeReady.lat.inLen.toNat ≤ 0xFFFFFFFF ∧
      decodeReady.lat.inLen = (done .encodeContainer encodeReady).regs.outLen ∧
      (∀ i, i < decodeReady.lat.inLen.toNat → decodeReady.inRead i =
        Mem.read (done .encodeContainer encodeReady).mem (encodeReady.lat.outBase.toNat + i)) ∧
      decodeReady.Room true encodeReady.lat.inLen.toNat := by
  have he : decodeReady.lat.inLen = (done .encodeContainer encodeReady).regs.outLen := by
    simp only [decodeReady]
  have hl : decodeReady.lat.inLen = 2048 := he.trans encodeReady_outLen
  refine ⟨encodeReady_next, ⟨rfl, rfl, rfl⟩, ?_, he, ?_, room_behind (by decide) ?_⟩
  · rw [hl]
    decide
  · intro i _
    simp only [decodeReady, State.inRead]
    rfl
  · rw [hl]
    decide

theorem witness_PadOutcome :
    (let s := ready 7 [] 0x8000 fun r => { r with outLen := 2047 }
     Mem.wf s.mem = true ∧ s.lat.outLen.toNat = 2047 ∧ 1 = (if 2047 % 2048 = 0 then 0 else 2048 - 2047 % 2048) ∧
      s.lat.outBase.toNat + 2047 + 1 ≤ 0xFFFFFFFF) ∧
    (let s := ready 7 [] 0xFFFFFFF0 fun r => { r with outLen := 0x0F }
     s.lat.outBase.toNat + 0x0F ≤ 0xFFFFFFFF ∧ ¬ s.lat.outBase.toNat + 0x0F + 2033 ≤ 0xFFFFFFFF) ∧
    (let s := ready 7 [] 0xFFFFFFF0 fun r => { r with outLen := 0x10 }
     0xFFFFFFFF < s.lat.outBase.toNat + s.lat.outLen.toNat) := by decide

/-! ### Every instruction, every step, the host -/

theorem witness_WritesStayInOutputRegion :
    Instr.decodeStream.kind = .command ∧ (ready 3 streamV1 0x8000 (toward 10)).phase = .busy ∧
      (ready 3 streamV1 0x8000 (toward 10)).seq.pace = .whole ∧
      Mem.wf (ready 3 streamV1 0x8000 (toward 10)).mem = true ∧
      exec .decodeStream (ready 3 streamV1 0x8000 (toward 10)) =
        .next (done .decodeStream (ready 3 streamV1 0x8000 (toward 10))) := ⟨rfl, rfl, rfl, by decide +kernel, rfl⟩

theorem witness_InputRegionIsNeverWritten :
    let s := ready 3 streamV1 0x0FFE (toward 10)
    Mem.wf s.mem = true ∧ exec .decodeStream s = .next (done .decodeStream s) ∧
      (Instr.decodeStream ≠ .writeHeader ∧ Instr.decodeStream ≠ .pad) ∧ s.lat.inBase.toNat ≤ 0x1005 ∧
      0x1005 < s.lat.inBase.toNat + s.lat.inLen.toNat ∧ 0xFFFFFFFF ≤ 0xFFFFFFFF ∧ 0x0FFD < s.lat.outBase.toNat :=
  ⟨by decide +kernel, rfl, by decide, by decide, by decide, by decide, by decide⟩

theorem witness_EveryCommandCompletes :
    (Instr.illegalOp 9).kind = .command ∧ illegalReady.phase = .busy ∧ illegalReady.seq.pace = .whole := ⟨rfl, rfl, rfl⟩

theorem witness_ErrorCodesByInstruction :
    illegalReady.regs.errcode = .none ∧ Mem.wf illegalReady.mem = true ∧
      exec (.illegalOp 9) illegalReady = .next (done (.illegalOp 9) illegalReady) := ⟨rfl, rfl, rfl⟩

theorem witness_ResultDependsOnLatchAndSnapshot :
    let s := ready 3 streamV1 0x8000 (toward 10)
    let u := { s with mem := Mem.write s.mem 0x9000 0x55, enc := { s.enc with p := 3 } }
    s.phase = .busy ∧ u.phase = .busy ∧ s.seq.pace = .whole ∧ u.seq.pace = .whole ∧ Mem.wf s.mem = true ∧
      Mem.wf u.mem = true ∧ u.lat = s.lat ∧ u.regs = s.regs ∧ (∀ k, k < s.lat.inLen.toNat → u.inRead k = s.inRead k) ∧
      u.mem ≠ s.mem := by decide +kernel

theorem witness_ResultIndependentOfSteps :
    let s := (idle streamV1 0x8000 (toward 10)).startWith .perToken 4 3
    Mem.wf s.mem = true ∧ s.phase = .busy ∧ s.seq.engine = .dispatch := by decide +kernel

theorem witness_EveryRunningCommandEnds : Machine.Inv clampReady ∧ clampReady.phase = .busy := ⟨inv_clampReady, rfl⟩

/-- The state with one region of an earlier command still held. -/
def State.withEarlier (r : Regions) (s : State) : State := { s with port := { s.port with earlier := [r] } }

theorem witness_HostMemoryDiscipline :
    let s := ready 3 streamV1 0x8000 (toward 10)
    let t := { after s with port := { inputs := [], rdata := 0, awaiting := true, earlier := [] } }
    (0x1005 < 0x100000000 ∧ s.phase = .busy ∧ decodeCommand s.op = .decodeStream) ∧
      (t.port.awaiting = true ∧ t.irq = false ∧ t.phase = .idle) ∧
      (s.lat.inBase.toNat ≤ 0x1005 ∧ 0x1005 < s.lat.inBase.toNat + s.lat.inLen.toNat) ∧
      (s.lat.outBase.toNat ≤ 0x8009 ∧ 0x8009 < s.lat.outBase.toNat + s.lat.usize.toNat) ∧
      ¬ (s.lat.outBase.toNat ≤ 0x800A ∧ 0x800A < s.lat.outBase.toNat + s.lat.usize.toNat) ∧
      ¬ (s.lat.inBase.toNat ≤ 0x800A ∧ 0x800A < s.lat.inBase.toNat + s.lat.inLen.toNat) := by decide +kernel

/-- The output region of every command: the last byte of it, which the host is kept off, and the byte behind it. -/
theorem witness_HostMemoryDiscipline_regions :
    ([(ready 2 [] 0x8000 id, 0x801F), (ready 3 streamV1 0x8000 (toward 10), 0x8009),
      (ready 4 (header 10 6 ++ streamV1) 0x8000 id, 0x8009), (ready 5 (bytesA 9) 0x8000 id, 0x800A),
      (ready 6 (bytesA 9) 0x8000 id, 0x87FF), (ready 7 [] 0x8000 fun r => { r with outLen := 5 }, 0x8803)].all
      fun p => refusal (p.1.withInputs [.memRead p.2]) == some .hostTouchedOutputRegion &&
        answers (p.1.withInputs [.memRead (p.2 + 1)])) = true ∧
    ([ready 1 (header 10 6) 0x8000 id, ready 8 (bytesA 9) 0x8000 id, ready 9 (bytesA 9) 0x8000 id].all
      fun s => answers (s.withInputs [.memRead 0x8000])) = true := by decide +kernel

/-- The regions of a command whose end was never observed stay barred under the next command's. -/
theorem witness_HostMemoryDiscipline_earlier :
    let r : Regions := { inBase := 0x2000, inLen := 4, outBase := 0x3000, outLen := 8 }
    let s := State.withEarlier r (ready 1 (header 10 6) 0x8000 id)
    s.phase = .busy ∧ r ∈ s.port.earlier ∧ refusal (s.withInputs [.memWrite 0x2003 1]) = some .hostWroteInputRegion ∧
      refusal (s.withInputs [.memRead 0x3007]) = some .hostTouchedOutputRegion := by decide +kernel

/-- R297: a second `CMD` write after an end that was not observed leaves the first command's output region barred. -/
theorem test_earlier_output_stays_barred :
    let t := after (ready 2 [] 0x8000 id)
    let u := after { t.withInputs [.regWrite 0x08 4 8] with regs := { t.regs with outBase := 0x9000 } }
    t.phase = .idle ∧ u.phase = .busy ∧ refusal (u.withInputs [.memRead 0x801F]) = some .hostTouchedOutputRegion := by
  decide +kernel

theorem witness_HostMemoryAccess :
    0xFFFFFFFF < 0x100000000 ∧ State.reset.phase = .idle ∧ State.reset.port.awaiting = false ∧
      0x100000000 ≤ 0x100000000 := by decide

/-- R11: a memory the platform could give at reset. -/
theorem witness_InvHoldsAtReset :
    Mem.wf [(5, 0x77), (0xFFFFFFFF, 0x01)] = true ∧
      ∀ c ∈ ([(5, 0x77), (0xFFFFFFFF, 0x01)] : Mem), c.1 < 0x100000000 := by decide

theorem witness_InvKeptByEveryStep :
    Machine.Inv clampReady ∧ step clampReady = .next (after clampReady) := ⟨inv_clampReady, rfl⟩

/-- The host issues a second command without having observed the end of the first, asks for nothing, reads `STATUS` of an
idle core, and resets. -/
theorem witness_HeldRegionsStayUntilObserved :
    let s := after illegalReady
    let u := { s.withInputs [.regWrite 0x08 4 7] with regs := errRegs }
    (Machine.Inv illegalReady ∧ step illegalReady = .next s ∧ (∀ w, ¬ illegalReady.StartNext w) ∧
      ¬ illegalReady.ResetNext ∧ ¬ illegalReady.ObservesNext ∧ s.heldRegions = illegalReady.heldRegions ∧
      s.heldRegions.length = 1) ∧
    (Machine.Inv (hosted [.regWrite 0x08 4 7]) ∧ (hosted [.regWrite 0x08 4 7]).StartNext 7 ∧
      step (hosted [.regWrite 0x08 4 7]) = .next (after (hosted [.regWrite 0x08 4 7]))) ∧
    (u.StartNext 7 ∧ u.irq = true ∧ step u = .next (after u)) ∧
    (Machine.Inv (hosted [.regRead 0x0C 4]) ∧ (hosted [.regRead 0x0C 4]).ObservesNext ∧
      (∀ w, ¬ (hosted [.regRead 0x0C 4]).StartNext w) ∧
      step (hosted [.regRead 0x0C 4]) = .next (after (hosted [.regRead 0x0C 4]))) ∧
    ((illegalReady.withInputs [.hardReset]).ResetNext ∧ ∀ w, ¬ (illegalReady.withInputs [.hardReset]).StartNext w) := by
  refine ⟨⟨inv_illegalReady, rfl, ?_, ?_, ?_, rfl, rfl⟩, ⟨inv_hosted _, ⟨rfl, rfl⟩, rfl⟩, ⟨⟨rfl, rfl⟩, rfl, rfl⟩,
    ⟨inv_hosted _, ⟨rfl, .inl rfl⟩, ?_, rfl⟩, .inl rfl, ?_⟩
  · rintro w ⟨h, -⟩
    cases h
  · rintro (h | ⟨v, h, -⟩) <;> cases h
  · rintro ⟨h, -⟩
    cases h
  · rintro w ⟨-, h⟩
    cases h
  · rintro w ⟨h, -⟩
    cases h

end Sys2Proof.Tests
end

/-! PROOFS. The registers in every state, and over one step of the machine: which events set and clear the fields of
`STATUS`, and what a reset leaves (spec/10_state.md R22 to R30, R46, R47). -/
namespace Sys2Proof.Machine

/-! ## Register accesses in one state -/

/-- While a command runs, a write to any register but `CTRL` is ignored (R46). -/
theorem step_regWrite_busy {off : Nat} (h4 : off % 4 = 0) (h : off < 0x100) (hc : off ≠ 0x04) {s : State}
    (hb : s.phase = .busy) (v : Word) (xs : List Input) :
    ∃ t, step (s.withInputs (.regWrite off 4 v :: xs)) = .next t ∧ SameCore s t := by
  have hs := seen_same s xs
  rw [step_regWrite_ok h4 h, writeReg_busy v hc (hs.phase.trans hb)]
  exact ⟨_, rfl, hs⟩

/-- A write to `CTRL` is taken in any state (R23). -/
theorem step_regWrite_ctrl (v : Word) (xs : List Input) (s : State) :
    ∃ t, step (s.withInputs (.regWrite 0x04 4 v :: xs)) = .next t ∧
      if v.getLsbD 1 then t.phase = .idle ∧ t.regs = State.reset.regs ∧ t.irq = false
      else SameCore (s.withRegs { s.regs with ie := v.getLsbD 0 }) t := by
  have hs := seen_same s xs
  refine ⟨_, step_regWrite_ok (by decide) (by decide) v xs s, ?_⟩
  rw [writeReg_ctrl]
  cases hv : v.getLsbD 1 with
  | true =>
    rw [writeCtrl_reset _ hv]
    exact ⟨rfl, rfl, rfl⟩
  | false =>
    rw [writeCtrl_ie _ hv, hs.regs]
    exact hs.withRegs _

/-- A write to `STATUS` while idle (R25). -/
theorem step_regWrite_status {s : State} (hi : s.phase = .idle) (v : Word) (xs : List Input) :
    ∃ t, step (s.withInputs (.regWrite 0x0C 4 v :: xs)) = .next t ∧ SameCore (s.withRegs (s.regs.writeStatus v)) t := by
  have hs := seen_same s xs
  rw [step_regWrite_ok (by decide) (by decide), writeReg_status v (hs.phase.trans hi), hs.regs]
  exact ⟨_, rfl, hs.withRegs _⟩

/-- A write to `ID` is ignored in any state (R22). -/
theorem step_regWrite_id (v : Word) (xs : List Input) (s : State) :
    ∃ t, step (s.withInputs (.regWrite 0x00 4 v :: xs)) = .next t ∧ SameCore s t := by
  cases hp : s.phase with
  | busy => exact step_regWrite_busy (by decide) (by decide) (by decide) hp v xs
  | idle =>
    have hs := seen_same s xs
    rw [step_regWrite_ok (by decide) (by decide),
      writeReg_operand v (by decide) (by decide) (by decide) (hs.phase.trans hp)]
    exact ⟨_, rfl, hs⟩

/-- A read of `IN_USED` while a command runs draws a progress value (R32). -/
theorem step_regRead_progress {s : State} (hb : s.phase = .busy) (xs : List Input) :
    step (s.withInputs (.regRead 0x2C 4 :: xs)) = .next (s.withInputs xs).readProgress := by
  rw [step_regRead, if_pos (by decide), takeIrq_busy (s := s.withInputs xs) hb, State.readReg, if_neg (by decide),
    if_pos ⟨rfl, hb⟩]

/-- Where `STATUS` holds each of its fields (R25). -/
theorem statusWord_fields (s : State) :
    s.statusWord.getLsbD 0 = (s.phase == .busy) ∧ s.statusWord.getLsbD 1 = s.regs.done ∧
    s.statusWord.getLsbD 2 = s.regs.err ∧ s.statusWord.extractLsb' 3 5 = 0 ∧
    (s.statusWord.extractLsb' 8 4).toNat = s.regs.errcode.code ∧ s.statusWord.extractLsb' 12 4 = 0 ∧
    s.statusWord.getLsbD 16 = s.regs.diagClamp ∧ s.statusWord.getLsbD 17 = s.regs.diagLenmm ∧
    s.statusWord.extractLsb' 18 14 = 0 :=
  status_bits s.isBusy s.regs.done s.regs.err s.regs.diagClamp s.regs.diagLenmm s.regs.errcode

/-! ## What one step does to the registers and the phase -/

/-- What a step does to the registers that neither starts, ends nor abandons a command. -/
inductive QuietStep (s t : State) : Prop where
  /-- The core takes a step of its own, and the running command, if there is one, goes on. -/
  | goesOn (next : s.CoreNext) (same : GoesOn s t)
  /-- A write to `STATUS` while idle (R25). -/
  | status (v : Word) (next : s.InputNext (.regWrite 0x0C 4 v)) (idle : s.phase = .idle)
      (regs : t.regs = s.regs.writeStatus v)
  /-- A write to another register but `CTRL` while idle (R20, R21). -/
  | operand (off : Nat) (v : Word) (idle : s.phase = .idle) (regs : t.regs = s.regs.writeOperand off v)
  /-- Any other access of the host's, which changes no register but perhaps `CTRL` (R23, R46). -/
  | access (ie : Bool) (regs : t.regs = { s.regs with ie := ie })

/-- What one step means for the running command: it starts, is abandoned, ends, or is where it was. -/
inductive CommandEvent (s t : State) : Prop where
  /-- A command starts (R110). -/
  | start (w : Word) (next : s.StartNext w) (phase : t.phase = .busy) (regs : t.regs = clearedForCommand w s.regs)
  /-- A reset (R290, R292). -/
  | reset (next : s.ResetNext) (phase : t.phase = .idle) (regs : t.regs = Regs.reset)
  /-- The running command ends (R116, R266). -/
  | ends (completes : Completes s t) (code : ErrCode) (ended : t.EndedWith code)
  /-- None of these. -/
  | quiet (start : ∀ w, ¬ s.StartNext w) (phase : t.phase = s.phase) (step : QuietStep s t)

theorem step_start_regs {s t : State} {w : Word} (h : step s = .next t) (hw : s.StartNext w) :
    t.regs = clearedForCommand w s.regs ∧ t.phase = .busy := by
  obtain ⟨u, same, rfl⟩ := step_startNext h hw
  exact ⟨congrArg (clearedForCommand w) same.regs, rfl⟩

theorem step_reset_regs {s t : State} (h : step s = .next t) (hr : s.ResetNext) :
    t.regs = Regs.reset ∧ t.phase = .idle := by
  obtain ⟨u, -, rfl⟩ := step_resetNext h hr
  exact ⟨rfl, rfl⟩

/-- A step of the core's own while a command runs lets it go on or ends it. -/
theorem step_core_settles {s t : State} (h : step s = .next t) (hn : s.CoreNext) (hb : s.phase = .busy) :
    Settles s t := by
  obtain ⟨u, same, run⟩ := step_core h hn
  obtain ⟨t', ht, hset⟩ := coreStep_settles (same.phase.trans hb)
  obtain rfl := Host.Outcome.next.inj (run.symm.trans ht)
  exact (GoesOn.of_eq same.regs same.phase).settles hset

/-- A step of the core's own while idle changes nothing (R293). -/
theorem step_core_idle {s t : State} (h : step s = .next t) (hn : s.CoreNext) (hi : s.phase = .idle) :
    SameCore s t := by
  obtain ⟨u, same, run⟩ := step_core h hn
  rw [coreStep_idle (same.phase.trans hi)] at run
  rwa [← Host.Outcome.next.inj run]

theorem Completes.ended {s t : State} (hc : Completes s t) (h : step s = .next t) : ∃ c, t.EndedWith c := by
  obtain ⟨hn, hb, hi⟩ := hc
  rcases step_core_settles h hn hb with hgo | hend
  · rw [hgo.phase, hb] at hi
    cases hi
  · exact hend.ended

theorem step_core_event {s t : State} (h : step s = .next t) (hn : s.CoreNext) : CommandEvent s t := by
  cases hp : s.phase with
  | idle =>
    have hs := step_core_idle h hn hp
    exact .quiet hn.not_start hs.phase (.goesOn hn (.of_eq hs.regs hs.phase))
  | busy =>
    rcases step_core_settles h hn hp with hgo | hend
    · exact .quiet hn.not_start hgo.phase (.goesOn hn hgo)
    · obtain ⟨c, hc⟩ := hend.ended
      exact .ends ⟨hn, hp, hc.1⟩ c hc

theorem OtherInput.quiet {s t : State} {x : Input} (ho : OtherInput x s) (hp : t.phase = s.phase)
    (hr : t.regs = s.regs) : CommandEvent s t :=
  .quiet ho.start hp (.access s.regs.ie hr)

/-- Every step is one of the four events. -/
theorem step_event {s t : State} (h : step s = .next t) : CommandEvent s t := by
  cases step_cases h with
  | core u next => exact step_core_event h next
  | reset u next => exact .reset next (step_reset_regs h next).2 (step_reset_regs h next).1
  | start w u next => exact .start w next (step_start_regs h next).2 (step_start_regs h next).1
  | status v o idle same => exact .quiet o.start same.phase (.status v o.next idle same.regs)
  | ctrl v o _ same => exact .quiet o.start same.phase (.access _ same.regs)
  | operand off v o idle _ same => exact .quiet o.start same.phase (.operand off v idle same.regs)
  | ignored off v o _ _ same => exact o.quiet same.phase same.regs
  | read off o same => exact o.quiet same.phase same.regs
  | progress u o _ same eq => exact o.quiet (eq ▸ same.phase) (eq ▸ same.regs)
  | memRead a o same => exact o.quiet same.phase same.regs
  | memWrite a b u o same _ eq => exact o.quiet (eq ▸ same.phase) (eq ▸ same.regs)

/-! ## The fields of `STATUS` over a quiet step -/

/-- A write to an operand register leaves the fields of `STATUS`. -/
theorem writeOperand_status (off : Nat) (v : Word) (r : Regs) :
    (r.writeOperand off v).done = r.done ∧ (r.writeOperand off v).err = r.err ∧
      (r.writeOperand off v).errcode = r.errcode ∧ (r.writeOperand off v).diagClamp = r.diagClamp ∧
      (r.writeOperand off v).diagLenmm = r.diagLenmm := by
  unfold Regs.writeOperand
  split <;> exact ⟨rfl, rfl, rfl, rfl, rfl⟩

theorem QuietStep.errcode {s t : State} (h : QuietStep s t) : t.regs.errcode = s.regs.errcode := by
  cases h with
  | goesOn next same => rw [same.regs]
  | status v next idle regs => rw [regs, Regs.writeStatus_errcode]
  | operand off v idle regs => rw [regs, (writeOperand_status off v s.regs).2.2.1]
  | access ie regs => rw [regs]

/-- A quiet step keeps `DONE` and `ERR`, or is a write to `STATUS`. -/
theorem QuietStep.done_err {s t : State} (h : QuietStep s t) :
    (t.regs.done = s.regs.done ∧ t.regs.err = s.regs.err) ∨ ∃ v, s.InputNext (.regWrite 0x0C 4 v) ∧
      t.regs.done = (s.regs.done && !v.getLsbD 1) ∧ t.regs.err = (s.regs.err && !v.getLsbD 2) := by
  cases h with
  | goesOn next same => exact .inl ⟨by rw [same.regs], by rw [same.regs]⟩
  | status v next idle regs => exact .inr ⟨v, next, by rw [regs]; rfl, by rw [regs]; rfl⟩
  | operand off v idle regs =>
    obtain ⟨hdone, herr, -⟩ := writeOperand_status off v s.regs
    exact .inl ⟨by rw [regs, hdone], by rw [regs, herr]⟩
  | access ie regs => exact .inl ⟨by rw [regs], by rw [regs]⟩

theorem QuietStep.done_cleared {s t : State} (h : QuietStep s t) (hs : s.regs.done = true) (ht : t.regs.done = false) :
    ∃ v, s.InputNext (.regWrite 0x0C 4 v) ∧ v.getLsbD 1 = true := by
  rcases h.done_err with ⟨hd, -⟩ | ⟨v, next, hd, -⟩
  · simp [hd, hs] at ht
  · exact ⟨v, next, by simpa [hd, hs] using ht⟩

theorem QuietStep.err_cleared {s t : State} (h : QuietStep s t) (hs : s.regs.err = true) (ht : t.regs.err = false) :
    ∃ v, s.InputNext (.regWrite 0x0C 4 v) ∧ v.getLsbD 2 = true := by
  rcases h.done_err with ⟨-, he⟩ | ⟨v, next, -, he⟩
  · simp [he, hs] at ht
  · exact ⟨v, next, by simpa [he, hs] using ht⟩

/-- A quiet step of another agent than the core leaves both diagnostics. -/
theorem QuietStep.diag {s t : State} (h : QuietStep s t) (hn : ¬ s.CoreNext) : SameDiag s t := by
  cases h with
  | goesOn next => exact absurd next hn
  | status v next idle regs => exact ⟨by rw [regs, Regs.writeStatus_diagClamp], by rw [regs, Regs.writeStatus_diagLenmm]⟩
  | operand off v idle regs =>
    obtain ⟨-, -, -, hclamp, hlenmm⟩ := writeOperand_status off v s.regs
    exact ⟨by rw [regs, hclamp], by rw [regs, hlenmm]⟩
  | access ie regs => exact ⟨by rw [regs], by rw [regs]⟩

/-- While a command runs, a quiet step changes no register but `CTRL` and `DIAG_CLAMP`. -/
theorem QuietStep.busy_regs {s t : State} (h : QuietStep s t) (hb : s.phase = .busy) :
    ∃ ie clamp, t.regs = { s.regs with ie := ie, diagClamp := clamp } := by
  cases h with
  | goesOn next same => exact ⟨_, _, same.regs⟩
  | status v next idle => rw [hb] at idle; cases idle
  | operand off v idle => rw [hb] at idle; cases idle
  | access ie regs => exact ⟨ie, s.regs.diagClamp, regs⟩

theorem State.EndedWith.done_ne_err {t : State} {c : ErrCode} (h : t.EndedWith c) : t.regs.done ≠ t.regs.err := by
  obtain ⟨-, -, hdone, herr⟩ := h
  rw [hdone, herr]
  cases c <;> decide

/-! ## When a header parse clamps -/

theorem parseHeader_congr {s t : State} (hl : t.lat = s.lat) (hs : t.snap = s.snap) : parseHeader t = parseHeader s := by
  unfold parseHeader State.signatureMatches State.inField
  rw [State.inputLen_congr hl, State.inRead_congr hl hs]

theorem clamps_congr {s t : State} (hl : t.lat = s.lat) (hs : t.snap = s.snap) (i : Instr) :
    t.clamps i = s.clamps i := by
  unfold State.clamps
  rw [State.inputOutOfRange_congr hl, parseHeader_congr hl hs]

/-- A header parse succeeds and clamps exactly on at least 32 bytes with the signature whose declared size needs it. -/
theorem parseHeader_clamped_iff (s : State) :
    (∃ p, parseHeader s = .ok p ∧ p.clamped = true) ↔ 32 ≤ s.inputLen ∧ s.HasSignature ∧ s.NeedsClamp := by
  rw [← signatureMatches_iff, ← clampNeeded_iff, ← inField_eq_field]
  constructor
  · rintro ⟨p, hp, hc⟩
    obtain ⟨h32, hsig, -, -, -, hclamped⟩ := parseHeader_ok hp
    exact ⟨h32, hsig, hclamped ▸ hc⟩
  · rintro ⟨h32, hsig, hc⟩
    cases hp : parseHeader s with
    | error e =>
      rcases parseHeader_error hp with ⟨hlt, -⟩ | ⟨-, hno, -⟩
      · omega
      · rw [hsig] at hno
        cases hno
    | ok p =>
      obtain ⟨-, -, -, -, -, hclamped⟩ := parseHeader_ok hp
      exact ⟨p, rfl, hclamped.trans hc⟩

/-- Which instructions clamp, and on which input (R132, R133). -/
theorem clamps_iff (i : Instr) (s : State) :
    s.clamps i = true ↔ (i = .parseHeader ∨ i = .decodeContainer) ∧ s.inputOutOfRange = false ∧
      ∃ p, parseHeader s = .ok p ∧ p.clamped = true := by
  cases i with
  | parseHeader | decodeContainer => unfold State.clamps; cases parseHeader s <;> simp
  | _ => simp [State.clamps]

/-- The core's next own step runs a body whose header parse clamps. -/
def State.ClampNext (s : State) : Prop :=
  s.phase = .busy ∧ s.seq.stall = 0 ∧ s.seq.engine = .dispatch ∧ s.clamps (decodeCommand s.op) = true

theorem SameCore.clampNext {s t : State} (h : SameCore s t) : t.ClampNext ↔ s.ClampNext := by
  unfold State.ClampNext
  rw [h.phase, h.seq, h.op, clamps_congr h.lat h.snap]

theorem SameDiag.of_not_clampNext {s t : State} (h : SameDiag s t) (hn : ¬ s.ClampNext) :
    t.regs.diagLenmm = s.regs.diagLenmm ∧ (t.regs.diagClamp = true ↔ s.regs.diagClamp = true ∨ s.ClampNext) :=
  ⟨h.lenmm, by rw [h.clamp, or_iff_left hn]⟩

/-- What a step of the core's own does to the diagnostics. -/
theorem coreStep_diag {s t : State} (hd : s.phase = .busy → s.seq.engine = .decode → DecodeInv s)
    (h : coreStep s = .next t) :
    t.regs.diagLenmm = s.regs.diagLenmm ∧ (t.regs.diagClamp = true ↔ s.regs.diagClamp = true ∨ s.ClampNext) := by
  cases hp : s.phase with
  | idle =>
    rw [coreStep_idle hp] at h
    obtain rfl := Host.Outcome.next.inj h
    exact SameDiag.of_not_clampNext ⟨rfl, rfl⟩ fun hn => nomatch hp.symm.trans hn.1
  | busy =>
    rw [coreStep_busy hp] at h
    split at h
    case isTrue hst =>
      obtain rfl := Host.Outcome.next.inj h
      exact SameDiag.of_not_clampNext ⟨rfl, rfl⟩ fun hn => hst hn.2.1
    case isFalse hst =>
      split at h
      case h_1 he =>
        obtain ⟨hclamp, hlenmm⟩ := exec_diag h
        refine ⟨hlenmm, ?_⟩
        rw [hclamp, Bool.or_eq_true]
        simp [State.ClampNext, hp, he, not_not.1 hst]
      case h_2 he =>
        rw [decodeStep_eq] at h
        obtain rfl := Host.Outcome.next.inj h
        exact (decodeTurn_diag (hd hp he)).of_not_clampNext fun hn => nomatch he.symm.trans hn.2.2.1
      case h_3 he =>
        obtain rfl := Host.Outcome.next.inj h
        exact (encodeTurn_diag s).of_not_clampNext fun hn => nomatch he.symm.trans hn.2.2.1

/-- What any step that neither starts nor abandons a command does to the diagnostics (R29, R30). -/
theorem step_diag {s t : State} (hi : Inv s) (h : step s = .next t) (hs : ∀ w, ¬ s.StartNext w) (hr : ¬ s.ResetNext) :
    t.regs.diagLenmm = s.regs.diagLenmm ∧
      (t.regs.diagClamp = true ↔ s.regs.diagClamp = true ∨ s.CoreNext ∧ s.ClampNext) := by
  by_cases hn : s.CoreNext
  · obtain ⟨u, same, run⟩ := step_core h hn
    have hd : u.phase = .busy → u.seq.engine = .decode → DecodeInv u := fun hb he =>
      (hi.decode (same.phase ▸ hb) (same.seq ▸ he)).congr same.dec same.lat
    have hdiag := coreStep_diag hd run
    rw [same.regs, same.clampNext] at hdiag
    simpa [hn] using hdiag
  · cases step_event h with
    | start w next => exact absurd next (hs w)
    | reset next => exact absurd next hr
    | ends completes => exact absurd completes.1 hn
    | quiet _ _ quiet =>
      have hsame := quiet.diag hn
      exact ⟨hsame.lenmm, by rw [hsame.clamp]; simp [hn]⟩

/-! ## The obligations -/

/-- Settles O11: the first four clauses are those of one register access while busy; for the last, a step between two
busy states is a quiet one, which changes no result register. -/
theorem busyRegisterDiscipline : Obligations.BusyRegisterDiscipline := by
  unfold Obligations.BusyRegisterDiscipline
  intro s hb
  refine ⟨fun off v rest h4 h hc => step_regWrite_busy h4 h hc hb v rest, fun v rest => ?_,
    fun off rest h4 h ho => step_regRead_spec h4 h (.inl ho) rest, fun rest hp => ?_, fun xs t h htb => ?_⟩
  · obtain ⟨t, ht, hspec⟩ := step_regWrite_ctrl v rest s
    refine ⟨t, ht, ?_⟩
    split
    case isTrue hv =>
      rw [if_pos hv] at hspec
      exact ⟨hspec.1, hspec.2.1⟩
    case isFalse hv => rwa [if_neg hv] at hspec
  · have hbounds := drawProgress_bounds (s := s.withInputs rest) hp
    have hvalue := readProgress_value (s := s.withInputs rest) hp
    exact ⟨_, step_regRead_progress hb rest, rfl, rfl, by rw [hvalue]; exact hbounds.1, by rw [hvalue]; exact hbounds.2,
      hvalue.symm⟩
  · cases step_event h with
    | start w next => rw [show s.phase = .idle from next.1] at hb; cases hb
    | reset _ phase => rw [phase] at htb; cases htb
    | ends completes => rw [completes.2.2] at htb; cases htb
    | quiet _ _ quiet =>
      obtain ⟨ie, clamp, hregs⟩ := quiet.busy_regs hb
      rw [hregs]
      exact ⟨rfl, rfl, rfl, rfl, rfl, rfl⟩

/-- Settles O17, by the four events a step can be. -/
theorem busyFollowsCommands : Obligations.BusyFollowsCommands := by
  unfold Obligations.BusyFollowsCommands
  intro s t h
  refine ⟨(statusWord_fields t).1, fun hi => ?_, fun hb hti => ?_, fun hr => (step_reset_regs h hr).2⟩
  · refine ⟨fun htb => ?_, fun ⟨w, hw⟩ => (step_start_regs h hw).2⟩
    cases step_event h with
    | start w next => exact ⟨w, next⟩
    | reset _ phase => rw [phase] at htb; cases htb
    | ends completes => rw [completes.2.2] at htb; cases htb
    | quiet _ phase => rw [phase, hi] at htb; cases htb
  · cases step_event h with
    | start _ _ phase => rw [phase] at hti; cases hti
    | reset next => exact .inl next
    | ends completes _ ended => exact .inr ⟨completes, ended.done_ne_err⟩
    | quiet _ phase => rw [phase, hb] at hti; cases hti

/-- Settles O18: a running command has both bits clear (the invariant), so of the four events only a start, a reset and a
write to `STATUS` clear a bit that is set. -/
theorem doneAndErrFollowCommands : Obligations.DoneAndErrFollowCommands := by
  unfold Obligations.DoneAndErrFollowCommands
  intro s t hinv h
  refine ⟨fun w hw => ?_, fun hc => ?_, fun hs ht => ?_, fun hs ht => ?_⟩
  · rw [(step_start_regs h hw).1]
    exact ⟨rfl, rfl⟩
  · obtain ⟨c, -, hcode, hdone, herr⟩ := hc.ended h
    rw [hcode, hdone, herr]
    cases c <;> decide
  · cases step_event h with
    | start w next => exact .inr (.inl ⟨w, next⟩)
    | reset next => exact .inl next
    | ends completes => rw [(hinv.busy completes.2.1).1] at hs; cases hs
    | quiet _ _ quiet => exact .inr (.inr (quiet.done_cleared hs ht))
  · cases step_event h with
    | start w next => exact .inr (.inl ⟨w, next⟩)
    | reset next => exact .inl next
    | ends completes => rw [(hinv.busy completes.2.1).2.1] at hs; cases hs
    | quiet _ _ quiet => exact .inr (.inr (quiet.err_cleared hs ht))

/-- Settles O19: only a start, a reset and an end write `ERRCODE`; a quiet step, a write to `STATUS` among them, does
not. -/
theorem errcodeFollowsCommands : Obligations.ErrcodeFollowsCommands := by
  unfold Obligations.ErrcodeFollowsCommands
  intro s t h
  refine ⟨fun w hw => ?_, fun hr => ?_, fun hc => ?_, fun hs hr hc => ?_⟩
  · rw [(step_start_regs h hw).1, clearedForCommand_errcode]
  · rw [(step_reset_regs h hr).1]
    rfl
  · obtain ⟨c, -, hcode, -, herr⟩ := hc.ended h
    rw [hcode, herr]
    cases c <;> decide
  · cases step_event h with
    | start w next => exact absurd next (hs w)
    | reset next => exact absurd next hr
    | ends completes => exact absurd completes hc
    | quiet _ _ quiet => exact quiet.errcode

/-- Settles O20: a start and a reset clear both diagnostics; of the other steps only the core's own can set `DIAG_CLAMP`,
where it runs a body that parses a header and clamps. -/
theorem diagnosticsFollowCommands : Obligations.DiagnosticsFollowCommands := by
  unfold Obligations.DiagnosticsFollowCommands
  intro s t hinv h
  refine ⟨?_, fun w hw => ?_, fun hr => ?_, fun hs hr => ?_⟩
  · by_cases hs : ∃ w, s.StartNext w
    · obtain ⟨w, hw⟩ := hs
      rw [(step_start_regs h hw).1, clearedForCommand_diagLenmm]
    · by_cases hr : s.ResetNext
      · rw [(step_reset_regs h hr).1]
        rfl
      · rw [(step_diag hinv h (not_exists.1 hs) hr).1, hinv.regs.lenmm]
  · rw [(step_start_regs h hw).1, clearedForCommand_diagClamp]
  · rw [(step_reset_regs h hr).1]
    rfl
  · rw [(step_diag hinv h hs hr).2, State.ClampNext, clamps_iff, parseHeader_clamped_iff, ← Bool.not_eq_true,
      inputOutOfRange_iff, Nat.not_lt]

/-- Settles O12: while a command runs the invariant has both bits clear, and the write is ignored. -/
theorem statusFields : Obligations.StatusFields := by
  unfold Obligations.StatusFields
  refine ⟨statusWord_fields, rfl, fun s v rest hi => ?_, fun s v rest hinv hb => ?_⟩
  · rw [← writeStatus_eq]
    exact step_regWrite_status hi v rest
  · obtain ⟨hdone, herr, -⟩ := hinv.busy hb
    exact ⟨hdone, herr, step_regWrite_busy (by decide) (by decide) (by decide) hb v rest⟩

/-- Settles O13, by the one rule for a `CTRL` write in any state. -/
theorem controlRegisterFields : Obligations.ControlRegisterFields := by
  unfold Obligations.ControlRegisterFields
  refine ⟨rfl, fun s rest => ⟨?_, fun v => step_regWrite_ctrl v rest s⟩⟩
  obtain ⟨t, ht, hsame, hdata⟩ := step_regRead_spec (off := 0x04) (by decide) (by decide) (s := s) (.inl (by decide)) rest
  exact ⟨t, ht, hsame, hdata ▸ ctrlWord_fields s.regs⟩

/-- Settles O14: no operand register is at the offset of `ID`. -/
theorem identificationRegister : Obligations.IdentificationRegister := by
  unfold Obligations.IdentificationRegister
  refine fun s rest => ⟨?_, fun v => step_regWrite_id v rest s⟩
  obtain ⟨t, ht, hsame, hdata⟩ := step_regRead_spec (off := 0x00) (by decide) (by decide) (s := s) (.inl (by decide)) rest
  exact ⟨t, ht, hsame, hdata, hdata.trans (by decide : idWord = _)⟩

/-- Settles O22: either reset leaves the reset registers on an idle core, and these read as R47 says. -/
theorem resetValues : Obligations.ResetValues := by
  unfold Obligations.ResetValues
  have hreset := reset_regValue (s := State.reset) rfl rfl
  refine ⟨fun s rest x hx => ⟨_, step_reset hx rest s, ?_⟩, hreset.1, hreset.2, rfl, rfl⟩
  obtain ⟨hid, hother⟩ := reset_regValue (s := (s.withInputs rest).resetCore) rfl rfl
  refine ⟨hid, hother, rfl, rfl, rfl, rfl, rfl, rfl, rfl, rfl, fun hi => ?_⟩
  rw [State.resetCore_mem, State.memAfterReset, show (s.withInputs rest).phase = .idle from hi]
  rfl

end Sys2Proof.Machine

/-! PROOFS. The region check that every command with an input region, and `PAD`, makes first (spec/20_memory.md R67,
R240). -/
namespace Sys2Proof.Machine

/-- `PAD`'s region check in the terms claims use (R240). -/
theorem bufferOutOfRange_iff (s : State) :
    s.bufferOutOfRange = true ↔ 0xFFFFFFFF < s.lat.outBase.toNat + s.lat.outLen.toNat := by
  unfold State.bufferOutOfRange
  simp

/-- The body of each command that reads the input region is one `if` on the region check (R67). -/
theorem exec_of_inputOutOfRange {i : Instr}
    (hi : i ∈ [Instr.parseHeader, .decodeStream, .decodeContainer, .encodeStream, .encodeContainer, .findMatch])
    {s : State} (h : s.inputOutOfRange = true) : exec i s = .next (s.raise .addrRange) := by
  simp only [List.mem_cons, List.not_mem_nil, or_false] at hi
  rcases hi with rfl | rfl | rfl | rfl | rfl | rfl
  all_goals exact if_pos h

theorem exec_pad_of_bufferOutOfRange {s : State} (h : s.bufferOutOfRange = true) :
    exec .pad s = .next (s.raise .addrRange) :=
  if_pos h

/-- Settles O27: each of the seven bodies tests its region first and raises, which writes `STATUS` and the phase only. -/
theorem regionCheckComesFirst : Obligations.RegionCheckComesFirst := by
  unfold Obligations.RegionCheckComesFirst
  exact fun s => ⟨fun h _ hi => exec_of_inputOutOfRange hi ((inputOutOfRange_iff s).2 h),
    fun h => exec_pad_of_bufferOutOfRange ((bufferOutOfRange_iff s).2 h)⟩

end Sys2Proof.Machine

/-! PROOFS. The encodings (spec/30_encoding.md): which word selects which command (R81, R82), where a Copy token's operands
stand (R91, R92, R94), and what a control bit announces (R87). -/
namespace Sys2Proof.Machine

/-! ## Command words -/

/-- Every word is the command word of the command it selects, the illegal ones included. -/
theorem commandWord_decodeCommand (w : Word) : commandWord (decodeCommand w) = w := by
  cases hw : definedCommandWord w with
  | false => rw [decodeCommand_undefined hw]; rfl
  | true =>
    obtain ⟨hlo, hhi⟩ := (definedCommandWord_iff w).1 hw
    generalize hk : w.toNat = k at hlo hhi
    obtain rfl : w = BitVec.ofNat 32 k := by rw [← hk, BitVec.ofNat_toNat, BitVec.setWidth_eq]
    interval_cases k <;> rfl

/-- A command that its own word selects is selected by no other word. -/
theorem decodeCommand_eq_iff {c : Instr} (hc : decodeCommand (commandWord c) = c) (w : Word) :
    decodeCommand w = c ↔ w = commandWord c := by
  constructor
  · rintro rfl
    exact (commandWord_decodeCommand w).symm
  · rintro rfl
    exact hc

/-- R82's two fields are the whole word. -/
theorem fields_eq_iff {k : Nat} (hk : k < 16) (w : Word) :
    (w.extractLsb' 4 28 = 0 ∧ (w.extractLsb' 0 4).toNat = k) ↔ w = BitVec.ofNat 32 k := by
  have hw := w.isLt
  rw [← BitVec.toNat_inj, ← BitVec.toNat_inj]
  simp only [BitVec.extractLsb'_toNat, Nat.shiftRight_eq_div_pow, BitVec.toNat_ofNat, BitVec.ofNat_eq_ofNat]
  omega

/-- The commands of R81, each with its code. -/
def commandTable : List (Nat × Instr) :=
  [(1, .parseHeader), (2, .writeHeader), (3, .decodeStream), (4, .decodeContainer), (5, .encodeStream),
    (6, .encodeContainer), (7, .pad), (8, .findMatch)]

theorem commandTable_codes :
    ∀ p ∈ commandTable, p.1 < 16 ∧ commandWord p.2 = BitVec.ofNat 32 p.1 ∧ decodeCommand (commandWord p.2) = p.2 := by
  decide

theorem definedCommandWord_eq_false {w : Word}
    (h : ¬ (w.extractLsb' 4 28 = 0 ∧ 1 ≤ (w.extractLsb' 0 4).toNat ∧ (w.extractLsb' 0 4).toNat ≤ 8)) :
    definedCommandWord w = false := by
  simpa [definedCommandWord] using h

/-- Settles O3: the codes of R81 are the command words, and a command is selected by its own word only; any other word
raises. -/
theorem commandWordsSelectCommands : Obligations.CommandWordsSelectCommands := by
  unfold Obligations.CommandWordsSelectCommands
  intro w
  refine ⟨fun k c hkc => ?_, fun h => ?_⟩
  · obtain ⟨hk, hword, hself⟩ := commandTable_codes (k, c) hkc
    have hiff : decodeCommand w = c ↔ w = BitVec.ofNat 32 k := hword ▸ decodeCommand_eq_iff hself w
    have hmask : w &&& 0xFFFFFFFF = w := BitVec.and_allOnes
    exact ⟨hiff.trans (fields_eq_iff hk w).symm, hmask.symm ▸ hiff⟩
  · have hillegal := decodeCommand_undefined (definedCommandWord_eq_false h)
    exact ⟨hillegal, fun s => ⟨s.raise .illegalOp, hillegal ▸ rfl, raise_endedWith s (by decide)⟩⟩

/-! ## Copy tokens -/

/-- R91: the first byte of a Copy holds the length in its low nibble and the low nibble of the offset in its high one. -/
theorem copyByte0_fields {off len : Nat} (hl : 3 ≤ len ∧ len ≤ 18) :
    (BitVec.ofNat 8 (copyEncoded off len)).extractLsb' 0 4 = BitVec.ofNat 4 (len - 3) ∧
      (BitVec.ofNat 8 (copyEncoded off len)).extractLsb' 4 4 = (BitVec.ofNat 12 (off - 1)).extractLsb' 0 4 := by
  rw [copyEncoded_eq hl]
  constructor <;>
    · apply BitVec.eq_of_toNat_eq
      simp only [BitVec.extractLsb'_toNat, BitVec.toNat_ofNat, Nat.shiftRight_eq_div_pow]
      omega

/-- R91: the second byte of a Copy is the high eight bits of the offset. -/
theorem copyByte1_eq {off len : Nat} (hl : 3 ≤ len ∧ len ≤ 18) :
    BitVec.ofNat 8 (copyEncoded off len >>> 8) = (BitVec.ofNat 12 (off - 1)).extractLsb' 4 8 := by
  rw [copyEncoded_eq hl]
  apply BitVec.eq_of_toNat_eq
  simp only [BitVec.extractLsb'_toNat, BitVec.toNat_ofNat, Nat.shiftRight_eq_div_pow]
  omega

/-- Settles O4: the bytes are the two halves of the encoded value, whose fields do not overlap; decoding assembles the
fields again, in the ranges that four and twelve bits give. -/
theorem copyTokenFields : Obligations.CopyTokenFields := by
  unfold Obligations.CopyTokenFields
  refine ⟨fun off len _ _ hl hl' => ?_, fun b0 b1 rest => ?_⟩
  · obtain ⟨hlen, hoff⟩ := copyByte0_fields (off := off) ⟨hl, hl'⟩
    exact ⟨_, _, rfl, (Nat.and_two_pow_sub_one_eq_mod (copyEncoded off len) 8).symm,
      (Nat.and_two_pow_sub_one_eq_mod (copyEncoded off len >>> 8) 8).symm, hlen, hoff, copyByte1_eq ⟨hl, hl'⟩⟩
  · exact ⟨copyOffset b0 b1, copyLength b0, rfl, rfl, rfl, copy_ranges b0 b1⟩

/-- Settles O5, by evaluation of each listed row. -/
theorem listedWordsDecode : Obligations.ListedWordsDecode := by
  unfold Obligations.ListedWordsDecode
  refine ⟨⟨rfl, rfl, rfl, rfl, rfl, rfl, rfl, rfl⟩, by decide, by decide, by decide⟩

/-! ## Control bits -/

/-- After `t` bits are consumed, the bit that announces the next token is bit `7 - t` of the control byte (R88). -/
theorem msb_shiftLeft (c : Byte) {t : Nat} (ht : t < 8) : (c <<< t).msb = c.getLsbD (7 - t) := by
  rw [BitVec.msb_eq_getLsbD_last, BitVec.getLsbD_shiftLeft]
  simp [Nat.not_lt.2 (Nat.le_of_lt_succ ht)]

theorem itemDue_of_bitsLeft {s : State} {c : Byte} {t : Nat} (ht : t < 8) (hc : s.dec.ctrl = c <<< t)
    (hn : s.dec.nb = 8 - t) : s.itemDue = if c.getLsbD (7 - t) then ItemKind.copy else ItemKind.literal := by
  unfold State.itemDue
  rw [if_neg (by omega), hc, msb_shiftLeft c ht]

/-- From `s` to `t` the decoder stands at the same place of its stream; only its output length may differ (R43). -/
def SamePlace (s t : State) : Prop := t.dec = { s.dec with j := t.dec.j }

theorem SamePlace.andThen {s : State} {r : Run} {f : State → Run} (h : SamePlace s r.state)
    (hf : ∀ t, SamePlace t (f t).state) : SamePlace s (r.andThen f).state := by
  cases r with
  | raised c n t => exact h
  | go t => exact (hf t).trans (congrArg (fun d : DecCursors => { d with j := (f t).state.dec.j }) h)

theorem decodeWrite_samePlace (v : Byte) (s : State) : SamePlace s (decodeWrite v s).state :=
  SamePlace.andThen (by rw [SamePlace, outWrite_dec]) fun _ => rfl

theorem copyBytesOut_samePlace (off len : Nat) (s : State) : SamePlace s (copyBytesOut off len s).state := by
  induction len generalizing s with
  | zero => rfl
  | succ len ih =>
    unfold copyBytesOut
    split
    · rfl
    · exact (decodeWrite_samePlace _ s).andThen ih

theorem decodeSettle_dec (r : Run) : (decodeSettle r).dec = r.state.dec := by cases r <;> rfl

/-- What a token leaves of the stream: its control bit and its `n` bytes are consumed, whether or not a write raised. -/
theorem SamePlace.consumed {s t : State} {n : Nat} (h : SamePlace (s.takeToken n) t) :
    t.dec.ctrl = s.dec.ctrl <<< 1 ∧ t.dec.nb = s.dec.nb - 1 ∧ t.dec.i = s.dec.i + n := by
  rw [h]
  exact ⟨rfl, rfl, rfl⟩

theorem litItem_samePlace (v : Byte) (s : State) : SamePlace (s.takeToken 1) (litItem v s) := by
  rw [SamePlace, litItem, decodeSettle_dec]
  exact decodeWrite_samePlace v _

theorem copyItem_samePlace (off len : Nat) (s : State) : SamePlace (s.takeToken 2) (copyItem off len s) := by
  rw [SamePlace, copyItem, decodeSettle_dec]
  exact copyBytesOut_samePlace off len _

/-- Where a token of `n` bytes, the `t`-th of its group, leaves the decoder. -/
theorem SamePlace.next_item {s u : State} {c : Byte} {t n : Nat} (h : SamePlace (s.takeToken n) u)
    (hc : s.dec.ctrl = c <<< t) (hn : s.dec.nb = 8 - t) :
    u.dec.ctrl = c <<< (t + 1) ∧ u.dec.nb = 8 - (t + 1) ∧ u.dec.i = s.dec.i + n ∧
      (t = 7 → u.itemDue = ItemKind.control) := by
  obtain ⟨hctrl, hnb, hi⟩ := h.consumed
  refine ⟨by rw [hctrl, hc, BitVec.shiftLeft_add], by omega, hi, fun ht => ?_⟩
  exact if_pos (by omega)

/-- Settles O6: a token consumes its control bit and its bytes before its writes, and those move the output length only,
so a write that raises leaves the stream at the same place. -/
theorem controlBitsAnnounceTokens : Obligations.ControlBitsAnnounceTokens := by
  unfold Obligations.ControlBitsAnnounceTokens
  refine fun c s => ⟨rfl, fun t ht hc hn => ⟨itemDue_of_bitsLeft ht hc hn, fun v u hu => ?_, fun off len u hu => ?_⟩⟩
  · obtain rfl := Host.Outcome.next.inj hu
    exact (litItem_samePlace v s).next_item hc hn
  · obtain rfl := Host.Outcome.next.inj hu
    exact (copyItem_samePlace off len s).next_item hc hn

end Sys2Proof.Machine

/-! PROOFS. The command lifecycle (spec/40_command_lifecycle.md): what a write to `CMD` starts (R110, R111, R70), and the
illegal command (R113). -/
namespace Sys2Proof.Machine

/-! ## Command start -/

/-- A write to `CMD` while idle starts the command, on the core as the host's step finds it (R110). -/
theorem step_regWrite_cmd {s : State} (hi : s.phase = .idle) (w : Word) (xs : List Input) :
    ∃ u, SameCore s u ∧ step (s.withInputs (.regWrite 0x08 4 w :: xs)) = .next (u.start w) := by
  have hs := seen_same s xs
  rw [step_regWrite_ok (by decide) (by decide), writeReg_cmd w (hs.phase.trans hi)]
  exact ⟨_, hs, rfl⟩

/-- The snapshot a start takes reads as memory did, over the whole input region (R70). -/
theorem start_inRead {s : State} (w : Word) {i : Nat} (h : i < s.regs.inLen.toNat) :
    (s.start w).inRead i = Mem.read s.mem (s.regs.inBase.toNat + i) :=
  Mem.read_region ⟨Nat.le_add_right _ i, Nat.add_lt_add_left h _⟩

/-- Settles O10: while idle the write is a command start, whose fields R110 and R111 name and whose snapshot reads as
memory; while busy it is ignored as any write but one to `CTRL` is. -/
theorem commandStart : Obligations.CommandStart := by
  unfold Obligations.CommandStart
  refine fun s w rest => ⟨fun hi => ?_, fun hb => step_regWrite_busy (by decide) (by decide) (by decide) hb w rest⟩
  obtain ⟨u, same, hstep⟩ := step_regWrite_cmd hi w rest
  have hstatus : (u.start w).statusWord.getLsbD 0 = true := (statusWord_fields (u.start w)).1
  rw [← same.regs, ← same.mem]
  exact ⟨u.start w, hstep, rfl, rfl, hstatus, rfl, rfl, fun i h => start_inRead w h, rfl, rfl⟩

/-! ## The illegal command -/

/-- R82: every word with `OP` outside 1..8 or a bit of 31:4 set selects the illegal command. -/
theorem decodeCommand_illegal {w : Word}
    (h : (w.extractLsb' 0 4).toNat = 0 ∨ 9 ≤ (w.extractLsb' 0 4).toNat ∨ w.extractLsb' 4 28 ≠ 0) :
    decodeCommand w = .illegalOp w := by
  refine decodeCommand_undefined (definedCommandWord_eq_false ?_)
  rintro ⟨hmbz, hlo, hhi⟩
  rcases h with h | h | h
  · omega
  · omega
  · exact h hmbz

/-- `STATUS` where a command raises before it changed any other field: `ERR` and the code alone, the start having cleared
the rest (R25, R110, R117). -/
theorem start_raise_statusWord (s : State) (w : Word) (c : ErrCode) :
    ((s.start w).raise c).statusWord = BitVec.ofNat 32 (4 + 0x100 * c.code) := by
  have hbusy : (Phase.idle == Phase.busy) = false := rfl
  simp [State.statusWord, State.isBusy, hbusy]

/-- Settles O26: the body is one raise, and after the start of 0x11 it leaves `ERR` with code 7 and the word in `CMD`. -/
theorem illegalCommandOnlySetsStatus : Obligations.IllegalCommandOnlySetsStatus := by
  unfold Obligations.IllegalCommandOnlySetsStatus
  refine ⟨fun w s => rfl, fun w h => decodeCommand_illegal h, fun s hi => ?_⟩
  obtain ⟨u, -, hstep⟩ := step_regWrite_cmd hi 0x00000011 []
  have hexec : exec (decodeCommand (u.start 0x00000011).op) (u.start 0x00000011) =
      .next ((u.start 0x00000011).raise .illegalOp) := by
    rw [State.start_op, decodeCommand_illegal (by decide)]
    rfl
  exact ⟨_, _, hstep, hexec, start_raise_statusWord u _ .illegalOp, rfl⟩

end Sys2Proof.Machine

/-! PROOFS. The header codec (spec/41_header_codec.md): what the header parse returns (R131 to R133), and every outcome of
`PARSE_HEADER` (R134) and `WRITE_HEADER` (R136). -/
namespace Sys2Proof.Machine

/-! ## The header parse -/

theorem parseHeader_tooShort {s : State} (h : s.inputLen < 32) : parseHeader s = .error .tooShort := if_pos h

theorem parseHeader_invalidSignature {s : State} (h : 32 ≤ s.inputLen) (hs : ¬ s.HasSignature) :
    parseHeader s = .error .invalidSignature := by
  rw [← signatureMatches_iff] at hs
  exact (if_neg (Nat.not_lt.2 h)).trans (if_pos (by simpa using hs))

/-- What the parse returns on a header with the signature, in the terms claims use (R132, R133). -/
theorem parseHeader_of_hasSignature {s : State} (h : 32 ≤ s.inputLen) (hs : s.HasSignature) :
    ∃ p, parseHeader s = .ok p ∧ p.usize = s.field 0x14 ∧ p.csize = s.field 0x18 ∧ (p.clamped = true ↔ s.NeedsClamp) ∧
      p.slen = if p.clamped then s.inputLen - 32 else (s.field 0x18).toNat := by
  rw [← signatureMatches_iff] at hs
  rw [← clampNeeded_iff, ← inField_eq_field, ← inField_eq_field]
  exact ⟨_, (if_neg (Nat.not_lt.2 h)).trans (if_neg (by simp [hs])), rfl, rfl, Iff.rfl, rfl⟩

/-! ## `PARSE_HEADER` -/

theorem exec_parseHeader_of_error {s : State} {e : ErrCode} (hr : ¬ s.inputOutOfRange = true)
    (h : parseHeader s = .error e) :
    exec .parseHeader s = .next ((s.withRegs { s.regs with inUsed := 0 }).raise e) := by
  show execParseHeader s = _
  rw [execParseHeader, if_neg hr, h]

theorem exec_parseHeader_of_ok {s : State} {p : Parsed} (hr : ¬ s.inputOutOfRange = true) (h : parseHeader s = .ok p) :
    exec .parseHeader s = .next (s.withRegs ((s.regs.noteClamp p).parsed p)).finish := by
  show execParseHeader s = _
  rw [execParseHeader, if_neg hr, h]

/-- Settles O28: behind the region check the body is the parse, whose three results are its three other outcomes. -/
theorem parseHeaderOutcome : Obligations.ParseHeaderOutcome := by
  unfold Obligations.ParseHeaderOutcome
  refine fun s => ⟨fun h => exec_of_inputOutOfRange (by simp) ((inputOutOfRange_iff s).2 h), fun h => ?_⟩
  have hr : ¬ s.inputOutOfRange = true := fun hr => Nat.not_lt.2 h ((inputOutOfRange_iff s).1 hr)
  refine ⟨fun hl => exec_parseHeader_of_error hr (parseHeader_tooShort hl),
    fun hl hs => exec_parseHeader_of_error hr (parseHeader_invalidSignature hl hs), fun hl hs clamp hc => ?_⟩
  obtain ⟨p, hp, husize, hcsize, hclamped, hslen⟩ := parseHeader_of_hasSignature hl hs
  obtain rfl : clamp = p.clamped := Bool.eq_iff_iff.2 (hc.trans hclamped.symm)
  have hword : BitVec.ofNat 32 p.slen =
      if p.clamped then BitVec.ofNat 32 (s.lat.inLen.toNat - 32) else s.field 0x18 := by
    rw [hslen, apply_ite (BitVec.ofNat 32), BitVec.ofNat_toNat, BitVec.setWidth_eq]
    rfl
  rw [exec_parseHeader_of_ok hr hp, ← hword, ← husize, ← hcsize]
  rfl

/-! ## Output writes that no input region bars -/

theorem State.outWriteError_unbarred_eq_none {j : Nat} {s : State} (h : s.outAddr j < 0xFFFFFFFF) :
    s.outWriteError false j = none :=
  outWriteError_eq_none.2 ⟨h, nofun⟩

theorem State.outWriteError_addrRange {chk : Bool} {j : Nat} {s : State} (h : 0xFFFFFFFF ≤ s.outAddr j) :
    s.outWriteError chk j = some .addrRange :=
  if_pos h

/-- Bytes that end below `ADDR_TOP` are all written. -/
theorem writeBytes_unbarred_go {j : Nat} {bs : List Byte} {s : State} (h : s.outAddr j + bs.length ≤ 0xFFFFFFFF) :
    ∃ t, writeBytes false j bs s = .go t ∧ t.mem = Mem.writeList s.mem (s.outAddr j) bs ∧ StoreOnly s t :=
  writeBytes_go fun i hi => State.outWriteError_unbarred_eq_none (by unfold State.outAddr at *; omega)

/-- Of bytes that reach `ADDR_TOP`, those below it are written, and the first one at it raises. -/
theorem writeBytes_unbarred_raised {j : Nat} {bs : List Byte} {s : State} (h : 0xFFFFFFFF - s.outAddr j < bs.length) :
    ∃ t, writeBytes false j bs s = .raised .addrRange (j + (0xFFFFFFFF - s.outAddr j)) t ∧
      t.mem = Mem.writeList s.mem (s.outAddr j) (bs.take (0xFFFFFFFF - s.outAddr j)) ∧ StoreOnly s t :=
  writeBytes_raised h (fun i hi => State.outWriteError_unbarred_eq_none (by unfold State.outAddr at *; omega))
    (State.outWriteError_addrRange (by unfold State.outAddr; omega))

/-- A memory with a list of bytes written over it holds them, and every other byte as before. -/
theorem stores_of_writeList {s t : State} {a : Nat} {bs : List Byte} (hm : Mem.wf s.mem = true)
    (h : t.mem = Mem.writeList s.mem a bs) : Stores a bs s t := fun x => by
  rw [h, Mem.read_writeList hm]
  rfl

theorem exec_sameSetup {i : Instr} {s t : State} (h : exec i s = .next t) : SameSetup s t := by
  obtain ⟨u, hu, htouches⟩ := exec_touches i s
  obtain rfl := Host.Outcome.next.inj (hu.symm.trans h)
  exact htouches.setup

/-! ## `WRITE_HEADER` -/

/-- A header that ends below `ADDR_TOP` is stored whole. -/
theorem exec_writeHeader_stored {s : State} (h : s.lat.outBase.toNat + 32 ≤ 0xFFFFFFFF) :
    ∃ t, exec .writeHeader s = .next (t.withRegs { t.regs with outLen := 32, inUsed := 0 }).finish ∧
      t.mem = Mem.writeList s.mem s.lat.outBase.toNat (headerBytes s.lat.usize s.lat.csize) ∧ StoreOnly s t := by
  obtain ⟨t, ht, hmem, hsame⟩ := writeBytes_unbarred_go (j := 0) (bs := headerBytes s.lat.usize s.lat.csize) h
  refine ⟨t, ?_, hmem, hsame⟩
  show execWriteHeader s = _
  rw [execWriteHeader, checksOverlap, ht]
  rfl

/-- Of a header that reaches `ADDR_TOP`, the bytes below it are stored. -/
theorem exec_writeHeader_cut {s : State} (h : ¬ s.lat.outBase.toNat + 32 ≤ 0xFFFFFFFF) :
    ∃ t, exec .writeHeader s = .next (t.raisePrefixes .addrRange (0xFFFFFFFF - s.lat.outBase.toNat) 0) ∧
      t.mem = Mem.writeList s.mem s.lat.outBase.toNat
        ((headerBytes s.lat.usize s.lat.csize).take (0xFFFFFFFF - s.lat.outBase.toNat)) ∧ StoreOnly s t := by
  have hlen : 0xFFFFFFFF - s.lat.outBase.toNat < 32 := by omega
  obtain ⟨t, ht, hmem, hsame⟩ := writeBytes_unbarred_raised (j := 0) (bs := headerBytes s.lat.usize s.lat.csize) hlen
  refine ⟨t, ?_, hmem, hsame⟩
  show execWriteHeader s = _
  rw [execWriteHeader, checksOverlap, ht, Nat.zero_add]
  rfl

/-- Settles O29: the writes differ from the state before by stores only, and the end writes the result registers. -/
theorem writeHeaderOutcome : Obligations.WriteHeaderOutcome := by
  unfold Obligations.WriteHeaderOutcome
  intro s hm
  by_cases h : s.lat.outBase.toNat + 32 ≤ 0xFFFFFFFF
  · obtain ⟨t, hexec, hmem, hsame⟩ := exec_writeHeader_stored h
    refine ⟨_, hexec, rfl, exec_sameSetup hexec, hsame.enc, hsame.dec, ?_⟩
    rw [if_pos h, ← hsame.regs]
    exact ⟨stores_of_writeList hm hmem, rfl⟩
  · obtain ⟨t, hexec, hmem, hsame⟩ := exec_writeHeader_cut h
    refine ⟨_, hexec, rfl, exec_sameSetup hexec, hsame.enc, hsame.dec, ?_⟩
    rw [if_neg h, ← hsame.regs]
    exact ⟨stores_of_writeList hm hmem, rfl⟩

end Sys2Proof.Machine

/-! PROOFS. How long a token stream is (spec/42_token_codec.md R156, spec/44_encoder.md R196). -/
namespace Sys2Proof.Machine

theorem Token.span_of_literal {t : Token} (h : t.isCopy = false) : t.span = 1 := by
  cases t with
  | literal v => rfl
  | copy off len => cases h

/-- Literals cover one byte each. -/
theorem literals_span_sum {ts : List Token} (h : ∀ t ∈ ts, t.isCopy = false) : (ts.map Token.span).sum = ts.length := by
  rw [List.map_congr_left fun t ht => Token.span_of_literal (h t ht)]
  simp

theorem literals_countP_isCopy {ts : List Token} (h : ∀ t ∈ ts, t.isCopy = false) : ts.countP Token.isCopy = 0 :=
  List.countP_eq_zero.2 fun t ht => by simp [h t ht]

/-- The greedy parse covers the rest of the input, no more and no less (R191). -/
theorem parseTokens_span_sum {X : List Byte} {fuel p : Nat} (h : X.length - p ≤ fuel) :
    ((parseTokens X fuel p).map Token.span).sum = X.length - p := by
  induction fuel generalizing p with
  | zero =>
    rw [parseTokens_end (by omega), List.map_nil, List.sum_nil]
    omega
  | succ fuel ih =>
    by_cases hp : p < X.length
    · obtain ⟨t, ht, hpos, hfits, -⟩ := parseTokens_step (fuel := fuel) hp
      rw [ht, List.map_cons, List.sum_cons, ih (by omega)]
      omega
    · rw [parseTokens_end (by omega), List.map_nil, List.sum_nil]
      omega

/-- An input without a match is parsed into one Literal for each byte. -/
theorem parseTokens_length_of_literals {X : List Byte} (h : ∀ t ∈ parseTokens X X.length 0, t.isCopy = false) :
    (parseTokens X X.length 0).length = X.length := by
  rw [← literals_span_sum h, parseTokens_span_sum (Nat.sub_le _ _), Nat.sub_zero]

/-- R196 where it is an equality: without a Copy, the stream is the input and its control bytes. -/
theorem refEncode_length_of_literals {X : List Byte} (h : ∀ t ∈ parseTokens X X.length 0, t.isCopy = false) :
    (refEncode X).length = X.length + (X.length + 7) / 8 := by
  rw [refEncode, packTokens_length, literals_countP_isCopy h, parseTokens_length_of_literals h]
  omega

/-- A list of tokens is packed into no bytes only when it has no tokens. -/
theorem packTokens_length_eq_zero_iff (ts : List Token) : (packTokens ts).length = 0 ↔ ts = [] := by
  constructor
  · intro h
    rw [packTokens_length] at h
    exact List.length_eq_zero_iff.1 (by omega)
  · rintro rfl
    rfl

/-- Only the empty input has an empty stream (R196): a parse without tokens covers no byte. -/
theorem refEncode_length_eq_zero_iff (X : List Byte) : (refEncode X).length = 0 ↔ X.length = 0 := by
  rw [refEncode, packTokens_length_eq_zero_iff]
  constructor
  · intro h
    have hcover := parseTokens_span_sum (X := X) (fuel := X.length) (p := 0) (Nat.sub_le _ _)
    rw [h] at hcover
    exact hcover.symm
  · exact fun h => parseTokens_end h.le

/-- Settles O44: the stream's length is a matter of its tokens alone, and the greedy parse covers the input exactly. -/
theorem streamLengthLaw : Obligations.StreamLengthLaw := by
  unfold Obligations.StreamLengthLaw
  exact ⟨packTokens_length, fun X =>
    ⟨refEncode_length_le X, refEncode_length_of_literals, refEncode_length_eq_zero_iff X⟩⟩

end Sys2Proof.Machine

/-! PROOFS. The bounded match finder (spec/43_match_finder.md): its result among the candidates (R174), the ranges of a
result (R175), and every outcome of `FIND_MATCH` (R176). -/
namespace Sys2Proof.Machine

/-! ## The candidates -/

/-- A candidate (R172) in the terms of the finder: its start is an offset back from `p`, and the match test passes. -/
theorem candidate_iff_exists_off {D : Nat → Byte} {n p x len : Nat} :
    Candidate D n p x len ↔ 3 ≤ p ∧ (3 ≤ len ∧ len ≤ min 18 (n - p)) ∧
      ∃ off, x = p - off ∧ (1 ≤ off ∧ off ≤ min 4096 p) ∧ matchesAt D p (p - off) len = true := by
  constructor
  · rintro ⟨hspan, hstart, hlen, hsame⟩
    refine ⟨by omega, hlen, p - x, by omega, by omega, ?_⟩
    rw [show p - (p - x) = x by omega]
    exact matchesAt_iff.2 hsame
  · rintro ⟨hp, hlen, off, rfl, hoff, hm⟩
    exact ⟨by omega, by omega, hlen, matchesAt_iff.1 hm⟩

/-- There is no candidate exactly when the span is short or the match test fails at every offset and length. -/
theorem forall_not_candidate_iff {D : Nat → Byte} {n p : Nat} :
    (∀ x len, ¬ Candidate D n p x len) ↔
      p < 3 ∨ ∀ off len, 1 ≤ off → off ≤ min 4096 p → 3 ≤ len → len ≤ min 18 (n - p) →
        matchesAt D p (p - off) len = false := by
  constructor
  · intro h
    refine (Nat.lt_or_ge p 3).imp_right fun hp off len h1 hw h3 hl => ?_
    exact Bool.eq_false_iff.2 fun hm => h _ len (candidate_iff_exists_off.2 ⟨hp, ⟨h3, hl⟩, off, rfl, ⟨h1, hw⟩, hm⟩)
  · rintro h x len hc
    obtain ⟨hp, ⟨h3, hl⟩, off, rfl, ⟨h1, hw⟩, hm⟩ := candidate_iff_exists_off.1 hc
    rcases h with h | h
    · omega
    · exact Bool.eq_false_iff.1 (h off len h1 hw h3 hl) hm

/-- R174: a result is a candidate of the greatest length, at the greatest start of that length. -/
theorem candidate_greatest_of_findMatch {D : Nat → Byte} {n p off len : Nat} (h : findMatch D n p = some (off, len)) :
    Candidate D n p (p - off) len ∧ (∀ x' len', Candidate D n p x' len' → len' ≤ len) ∧
      ∀ x', Candidate D n p x' len → x' ≤ p - off := by
  obtain ⟨hp, hoff, hlen, hm, hnearest, hlongest⟩ := findMatch_some.1 h
  refine ⟨candidate_iff_exists_off.2 ⟨hp, hlen, off, rfl, hoff, hm⟩, fun x' len' hc => ?_, fun x' hc => ?_⟩
  · obtain ⟨-, hlen', off', rfl, hoff', hm'⟩ := candidate_iff_exists_off.1 hc
    by_contra hlonger
    exact Bool.eq_false_iff.1 (hlongest len' (by omega) hlen'.2 off' hoff'.1 hoff'.2) hm'
  · obtain ⟨-, -, off', rfl, hoff', hm'⟩ := candidate_iff_exists_off.1 hc
    by_contra hnearer
    exact Bool.eq_false_iff.1 (hnearest off' hoff'.1 (by omega)) hm'

/-- R174: a candidate of the greatest length, at the greatest start of that length, is the result. -/
theorem findMatch_of_candidate_greatest {D : Nat → Byte} {n p x len : Nat} (hc : Candidate D n p x len)
    (hlongest : ∀ x' len', Candidate D n p x' len' → len' ≤ len) (hnearest : ∀ x', Candidate D n p x' len → x' ≤ x) :
    findMatch D n p = some (p - x, len) := by
  obtain h | ⟨⟨off', len'⟩, h⟩ := Option.eq_none_or_eq_some (findMatch D n p)
  · exact absurd hc (forall_not_candidate_iff.2 (findMatch_none.1 h) x len)
  · obtain ⟨hc', hlongest', hnearest'⟩ := candidate_greatest_of_findMatch h
    obtain rfl : len' = len := Nat.le_antisymm (hlongest _ _ hc') (hlongest' _ _ hc)
    obtain rfl : p - off' = x := Nat.le_antisymm (hnearest _ hc') (hnearest' _ hc)
    have hoff := (findMatch_ranges h).1
    rw [h, show p - (p - off') = off' by omega]

/-- Settles O32: the finder's own search order is that of R174, so its result is the greatest candidate and no other. -/
theorem findMatchIsLongestThenNearest : Obligations.FindMatchIsLongestThenNearest := by
  unfold Obligations.FindMatchIsLongestThenNearest
  refine fun D n p _ => ⟨findMatch_none.trans forall_not_candidate_iff.symm, fun off len => ⟨fun h => ?_, ?_⟩⟩
  · have hoff := (findMatch_ranges h).1
    exact ⟨p - off, by omega, candidate_greatest_of_findMatch h⟩
  · rintro ⟨x, rfl, hc, hlongest, hnearest⟩
    exact findMatch_of_candidate_greatest hc hlongest hnearest

/-! ## The ranges of a result -/

/-- A Copy is well-formed exactly in the ranges of R93. -/
theorem copy_wellFormed_iff {off len : Nat} :
    (Instr.copy off len).wellFormed = true ↔ (1 ≤ off ∧ off ≤ 4096) ∧ 3 ≤ len ∧ len ≤ 18 := by
  simp [Instr.wellFormed, Config.window, Config.minLen, Config.maxLen]

/-- Where fewer than three bytes remain, no length is tried (R171). -/
theorem findMatch_none_of_short {D : Nat → Byte} {n p : Nat} (h : min 18 (n - p) < 3) : findMatch D n p = none :=
  findMatch_none.2 (.inr fun _ _ _ _ _ _ => by omega)

/-- Settles O33: the ranges are those of the offsets and lengths tried, and lie within R93's. -/
theorem findMatchRanges : Obligations.FindMatchRanges := by
  unfold Obligations.FindMatchRanges
  refine fun D n p _ => ⟨fun off len h => ?_, findMatch_none_of_short⟩
  obtain ⟨hoff, hlen, hend⟩ := findMatch_ranges h
  exact ⟨by omega, by omega, hend, copy_wellFormed_iff.2 (by omega), fun k _ => by omega⟩

/-! ## `FIND_MATCH` -/

/-- `MRES` of a match is the sum of its fields, which do not overlap in the ranges of R175. -/
theorem matchResultWord_toNat {off len : Nat} (ho : off ≤ 4096) (hl : len ≤ 18) :
    (matchResultWord (some (off, len))).toNat = 2 ^ 31 + len * 2 ^ 16 + off := by
  have hfields : 2 ^ 31 ||| len * 2 ^ 16 ||| off = 2 ^ 31 + len * 2 ^ 16 + off := by
    rw [Nat.or_assoc, Nat.mul_comm len, ← Nat.two_pow_add_eq_or_of_lt (by omega) len,
      ← Nat.mul_one (2 ^ 31), ← Nat.two_pow_add_eq_or_of_lt (by omega) 1, Nat.add_assoc]
  have hlen : (BitVec.ofNat 32 len <<< 16).toNat = len * 2 ^ 16 := by
    rw [BitVec.toNat_shiftLeft, BitVec.toNat_ofNat, Nat.shiftLeft_eq]
    omega
  have hoff : (BitVec.ofNat 32 off).toNat = off := by
    rw [BitVec.toNat_ofNat]
    omega
  rw [matchResultWord, BitVec.toNat_or, BitVec.toNat_or, hlen, hoff, ← hfields]
  rfl

/-- R39: where the fields of `MRES` stand in a word of that value. -/
theorem mresFields_of_toNat {r : Word} {off len : Nat} (ho : off ≤ 4096) (hl : len ≤ 18)
    (h : r.toNat = 2 ^ 31 + len * 2 ^ 16 + off) :
    r.getLsbD 31 = true ∧ (r.extractLsb' 16 5).toNat = len ∧ (r.extractLsb' 0 13).toNat = off := by
  refine ⟨?_, ?_, ?_⟩
  · rw [BitVec.getLsbD, Nat.testBit_eq_decide_div_mod_eq, decide_eq_true_eq]
    omega
  all_goals
    rw [BitVec.extractLsb'_toNat, Nat.shiftRight_eq_div_pow]
    omega

theorem exec_findMatch_of_badArg {s : State} (hr : ¬ s.inputOutOfRange = true)
    (h : s.lat.inLen.toNat ≤ s.lat.mpos.toNat) : exec .findMatch s = .next (s.raise .badArg) :=
  (if_neg hr).trans (if_pos h)

theorem exec_findMatch_of_lt {s : State} (hr : ¬ s.inputOutOfRange = true)
    (h : s.lat.mpos.toNat < s.lat.inLen.toNat) :
    exec .findMatch s = .next (s.withRegs { s.regs with
      mres := matchResultWord (findMatch s.inRead s.lat.inLen.toNat s.lat.mpos.toNat) }).finish :=
  (if_neg hr).trans (if_neg (Nat.not_le.2 h))

/-- Settles O31: behind the region check and the check of `MPOS`, the body writes the finder's result into `MRES`. -/
theorem findMatchOutcome : Obligations.FindMatchOutcome := by
  unfold Obligations.FindMatchOutcome
  refine ⟨fun s => ⟨fun h => exec_of_inputOutOfRange (by simp) ((inputOutOfRange_iff s).2 h), fun h => ?_⟩,
    by decide, by decide⟩
  have hr : ¬ s.inputOutOfRange = true := fun hr => Nat.not_lt.2 h ((inputOutOfRange_iff s).1 hr)
  refine ⟨exec_findMatch_of_badArg hr, fun hp => ⟨_, exec_findMatch_of_lt hr hp, ?_⟩⟩
  cases hf : findMatch s.inRead s.lat.inLen.toNat s.lat.mpos.toNat with
  | none => rfl
  | some m =>
    obtain ⟨off, len⟩ := m
    obtain ⟨hoff, hlen, -⟩ := findMatch_ranges hf
    have ho : off ≤ 4096 := hoff.2.trans (Nat.min_le_left _ _)
    have hword := matchResultWord_toNat ho hlen.2
    exact ⟨hword, mresFields_of_toNat ho hlen.2 hword⟩

end Sys2Proof.Machine

/-! PROOFS. The encoder (spec/44_encoder.md): an encoding decodes back to its input (R197), how long a container is (R201),
and every outcome of `ENCODE_STREAM` (R200) and of `ENCODE_CONTAINER` (R202). -/
namespace Sys2Proof.Machine

/-! ## The round trip on byte lists -/

/-- The check for an empty stream (R216) stops no encoding: only the empty input has an empty one. -/
theorem refDecode_refEncode_eq (bad : Nat → Option ErrCode) (X : List Byte) :
    refDecode bad X.length (refEncode X) = refDecodeFrom bad X.length (refEncode X) [] 0 [] :=
  if_neg fun ⟨hstream, hinput⟩ => hinput ((refEncode_length_eq_zero_iff X).1 hstream)

/-- Settles O45: the decode of the packed greedy parse, from its first group on. -/
theorem encodingDecodesToInput : Obligations.EncodingDecodesToInput := by
  unfold Obligations.EncodingDecodesToInput
  intro X
  have hpacked := refDecode_packed X.length (p := 0) (k := 0) (used := 0) (bits := []) (Nat.sub_le X.length 0)
    (Nat.zero_le _) rfl (by decide) (fun _ => rfl) nofun
  rw [Nat.zero_add] at hpacked
  exact (refDecode_refEncode_eq _ X).trans hpacked

/-! ## The length of a container -/

@[simp] theorem headerBytes_length (u c : Word) : (headerBytes u c).length = 32 := rfl

/-- The padding fills the last sector (R241). -/
theorem add_padAmount (l : Nat) : l + padAmount l = 2048 * ((l + 2047) / 2048) := by
  unfold padAmount Config.sector
  split <;> omega

theorem refContainer_length (X : List Byte) :
    (refContainer X).length = 32 + (refEncode X).length + padAmount (32 + (refEncode X).length) := by
  rw [refContainer, List.length_append, List.length_append, List.length_replicate, headerBytes_length]

/-- Settles O43: a container is its header and stream, filled up to whole sectors. -/
theorem containerLength : Obligations.ContainerLength := by
  unfold Obligations.ContainerLength
  intro X
  have hlen := refContainer_length X
  have hpad := add_padAmount (32 + (refEncode X).length)
  have hzeros : (refContainer X).length - 32 - (refEncode X).length = padAmount (32 + (refEncode X).length) := by omega
  refine ⟨hlen.trans hpad, ?_, by omega, by omega⟩
  rw [hzeros]
  rfl

/-! ## The first byte that cannot be written -/

theorem State.not_room_of_outWriteError {chk : Bool} {j n : Nat} {s : State} {e : ErrCode} (hj : j < n)
    (he : s.outWriteError chk j = some e) : ¬ s.Room chk n := fun h => by
  rw [h j hj] at he
  cases he

/-- Without room there is a first byte that cannot be written (R66). -/
theorem State.exists_first_outWriteError {chk : Bool} {n : Nat} {s : State} (h : ¬ s.Room chk n) :
    ∃ j e, j < n ∧ s.Room chk j ∧ s.outWriteError chk j = some e := by
  induction n with
  | zero => exact absurd (fun j hj => absurd hj (Nat.not_lt_zero j)) h
  | succ n ih =>
    by_cases hn : s.Room chk n
    · cases he : s.outWriteError chk n with
      | some e => exact ⟨n, e, Nat.lt_succ_self n, hn, he⟩
      | none =>
        refine absurd (fun j hj => ?_) h
        obtain hlt | rfl := Nat.lt_succ_iff_lt_or_eq.1 hj
        · exact hn j hlt
        · exact he
    · obtain ⟨j, e, hj, hroom, he⟩ := ih hn
      exact ⟨j, e, Nat.lt_succ_of_lt hj, hroom, he⟩

/-! ## Where in the stream a byte is -/

/-- Fewer tokens are packed into fewer bytes (R156). -/
theorem packTokens_length_le_of_sublist {xs ys : List Token} (h : xs.Sublist ys) :
    (packTokens xs).length ≤ (packTokens ys).length := by
  have htokens := h.length_le
  have hcopies := h.countP_le (p := Token.isCopy)
  rw [packTokens_length, packTokens_length]
  omega

/-- A byte of a token is a byte of the stream. -/
theorem inToken.lt_length {X : List Byte} {k j : Nat} (h : inToken X k j) : j < (refEncode X).length := by
  obtain ⟨-, -, hj⟩ := h
  exact hj.trans_le (packTokens_length_le_of_sublist (List.take_sublist _ _))

/-! ## How an encode ends -/

/-- The instruction `i`, taken from `s`, ends the command with the registers `r`; the bytes `bs` are stored from `OUT_BASE`
up, and nothing but the encoder's cursors and the model's own fields changes beside. -/
def EndsStoring (i : Instr) (bs : List Byte) (r : Regs) (s : State) : Prop :=
  ∃ t, exec i s = .next t ∧ t.phase = .idle ∧ SameSetup s t ∧ t.dec = s.dec ∧ Stores s.lat.outBase.toNat bs s t ∧
    t.regs = r

/-- The registers after an encode that stored `out` bytes, `slen` of them the stream (R45, R200, R202). -/
def State.encodedRegs (slen out : Nat) (s : State) : Regs :=
  { s.regs with
    usize := s.lat.inLen, csize := BitVec.ofNat 32 slen, slen := BitVec.ofNat 32 slen, outLen := BitVec.ofNat 32 out
    inUsed := s.lat.inLen, done := true, err := false, errcode := .none }

/-- The registers after an encode that could not write output byte `j`, with its input cursor at `used` (R45, R118). -/
def State.stoppedRegs (j used : Nat) (e : ErrCode) (s : State) : Regs :=
  { s.regs with
    outLen := BitVec.ofNat 32 j, inUsed := BitVec.ofNat 32 used, done := false, err := true, errcode := e }

theorem encodedRegs_eq (s : State) (slen out : Nat) :
    s.encodedRegs slen out =
      { s.regs.encoded s.inputLen slen out with done := true, err := false, errcode := .none } := by
  rw [Regs.encoded, State.inputLen, BitVec.ofNat_toNat, BitVec.setWidth_eq]
  rfl

/-- An encode keeps the decoder's cursors (R43). -/
theorem exec_encode_dec {i : Instr} (hi : i = .encodeStream ∨ i = .encodeContainer) {s t : State}
    (h : exec i s = .next t) : t.dec = s.dec := by
  rcases hi with rfl | rfl
  · change execEncodeStream s = _ at h
    unfold execEncodeStream at h
    split at h
    all_goals obtain rfl := Host.Outcome.next.inj h
    · rfl
    · exact enterEncoder_dec _
  · change execEncodeContainer s = _ at h
    unfold execEncodeContainer at h
    split at h
    all_goals obtain rfl := Host.Outcome.next.inj h
    · rfl
    · exact (encodeSettle_dec enterEncoder_dec _).trans (writeBytes_dec _ _ _ _)

theorem endsStoring_of_writeList {i : Instr} (hi : i = .encodeStream ∨ i = .encodeContainer) {s t : State}
    {bs : List Byte} {r : Regs} (hm : Mem.wf s.mem = true) (hexec : exec i s = .next t) (hphase : t.phase = .idle)
    (hmem : t.mem = Mem.writeList s.mem (s.outAddr 0) bs) (hregs : t.regs = r) : EndsStoring i bs r s :=
  ⟨t, hexec, hphase, exec_sameSetup hexec, exec_encode_dec hi hexec, stores_of_writeList hm hmem, hregs⟩

theorem State.encodeStart_startEncode {s : State} (container : Bool) (h : s.phase = .busy) :
    EncodeStart (s.startEncode container) :=
  ⟨h, rfl, rfl, rfl⟩

/-! ## `ENCODE_STREAM` -/

theorem exec_encodeStream_whole {s : State} (hr : ¬ s.inputOutOfRange = true) (hpace : s.seq.pace = .whole) :
    exec .encodeStream s = .next (runEncoder (s.startEncode false).encodeFuel (s.startEncode false)) := by
  show execEncodeStream s = _
  rw [execEncodeStream, if_neg hr, enterEncoder, show (s.startEncode false).seq.pace = .whole from hpace]

/-- R200: the whole encoding is stored, or the encode stops at the first byte that cannot be written. -/
theorem exec_encodeStream_ends {s : State} (hb : s.phase = .busy) (hpace : s.seq.pace = .whole)
    (hm : Mem.wf s.mem = true) (hr : ¬ s.inputOutOfRange = true) :
    (s.Room true (refEncode s.input).length ∧
      EndsStoring .encodeStream (refEncode s.input)
        (s.encodedRegs (refEncode s.input).length (refEncode s.input).length) s) ∨
    ∃ k j e, inToken s.input k j ∧ s.Room true j ∧ s.outWriteError true j = some e ∧
      EndsStoring .encodeStream (partialStream s.input k j) (s.stoppedRegs j (tokenStart s.input k) e) s := by
  have hexec := exec_encodeStream_whole hr hpace
  rcases runEncoder_stream (State.encodeStart_startEncode false hb) hm rfl with
    ⟨k, j, e, hfail⟩ | ⟨hroom, hphase, hmem, hregs⟩
  · have hj : streamBase (s.startEncode false).enc.container + j = j := Nat.zero_add j
    obtain ⟨htoken, hroom, herror, hphase, hmem, hregs⟩ := hfail
    rw [hj] at hroom herror hregs
    exact .inr ⟨k, j, e, htoken, hroom, herror, endsStoring_of_writeList (.inl rfl) hm hexec hphase hmem hregs⟩
  · rw [encodedRegs_eq]
    exact .inl ⟨hroom, endsStoring_of_writeList (.inl rfl) hm hexec hphase hmem hregs⟩

/-- Settles O41: the two ends behind the region check exclude each other, since a byte of a token is one of the stream. -/
theorem encodeStreamOutcome : Obligations.EncodeStreamOutcome := by
  unfold Obligations.EncodeStreamOutcome
  refine ⟨fun s hb hpace hm =>
    ⟨fun h => exec_of_inputOutOfRange (by simp) ((inputOutOfRange_iff s).2 h), fun h => ?_⟩, by decide⟩
  have hr : ¬ s.inputOutOfRange = true := fun hr => Nat.not_lt.2 h ((inputOutOfRange_iff s).1 hr)
  rcases exec_encodeStream_ends hb hpace hm hr with ⟨hroom, hends⟩ | ⟨k, j, e, htoken, hroom, herror, t, hends⟩
  · exact ⟨fun _ => hends, fun hno => absurd hroom hno⟩
  · exact ⟨fun hall => absurd hall (State.not_room_of_outWriteError htoken.lt_length herror),
      fun _ => ⟨t, k, j, e, htoken, hroom, herror, hends⟩⟩

/-! ## `ENCODE_CONTAINER` -/

theorem StoreOnly.encodeOnly {s t : State} (h : StoreOnly s t) : EncodeOnly s t :=
  ⟨h.regs, h.phase, h.lat, h.snap, h.seq, congrArg EncCursors.container h.enc⟩

theorem EncodeStart.of_storeOnly {s t : State} (h : EncodeStart s) (hsame : StoreOnly s t) : EncodeStart t :=
  ⟨hsame.phase.trans h.busy, by rw [hsame.enc, h.p], by rw [hsame.enc, h.o], by rw [hsame.enc, h.k]⟩

/-- The header is written first, with a declared stream size of 0, and the encode goes on behind it (R202). -/
theorem exec_encodeContainer_of_room {s : State} (hr : ¬ s.inputOutOfRange = true) (hpace : s.seq.pace = .whole)
    (hroom : s.Room true 32) :
    ∃ u, exec .encodeContainer s = .next (runEncoder u.encodeFuel u) ∧
      u.mem = Mem.writeList s.mem (s.outAddr 0) (headerBytes s.lat.inLen 0) ∧ StoreOnly (s.startEncode true) u := by
  obtain ⟨u, hu, hmem, hsame⟩ := writeBytes_go (chk := true) (j := 0) (bs := headerBytes s.lat.inLen 0)
    (s := s.startEncode true) (fun i hi => by rw [Nat.zero_add]; exact hroom i hi)
  have hpace' : u.seq.pace = .whole := by rw [hsame.seq]; exact hpace
  refine ⟨u, ?_, hmem, hsame⟩
  show execEncodeContainer s = _
  rw [execEncodeContainer, if_neg hr, checksOverlap, hu, encodeSettle, enterEncoder, hpace']

/-- Of a header without room, the bytes before the first unwritable one are stored, and no input is used (R202). -/
theorem exec_encodeContainer_header_cut {s : State} {j : Nat} {e : ErrCode} (hr : ¬ s.inputOutOfRange = true)
    (hj : j < 32) (hroom : s.Room true j) (herror : s.outWriteError true j = some e) :
    ∃ u, exec .encodeContainer s = .next (u.raisePrefixes e j 0) ∧
      u.mem = Mem.writeList s.mem (s.outAddr 0) ((headerBytes s.lat.inLen 0).take j) ∧
      StoreOnly (s.startEncode true) u := by
  obtain ⟨u, hu, hmem, hsame⟩ := writeBytes_raised (chk := true) (j := 0) (i := j) (bs := headerBytes s.lat.inLen 0)
    (s := s.startEncode true) hj (fun i hi => by rw [Nat.zero_add]; exact hroom i hi)
    (by rw [Nat.zero_add]; exact herror)
  have hp : u.enc.p = 0 := by rw [hsame.enc]; rfl
  refine ⟨u, ?_, hmem, hsame⟩
  show execEncodeContainer s = _
  rw [execEncodeContainer, if_neg hr, checksOverlap, hu, encodeSettle, encodeError, hp, Nat.zero_add]

/-- Where an encode of a container that cannot write output byte `j` has come to: to its header, to a token of the stream,
or to the padding; `used` is its input cursor and `written` what it has stored (R202). -/
def State.ContainerStop (j used : Nat) (written : List Byte) (s : State) : Prop :=
  (j < 32 ∧ used = 0 ∧ written = (headerBytes s.lat.inLen 0).take j) ∨
  (32 ≤ j ∧ ∃ k, inToken s.input k (j - 32) ∧ used = tokenStart s.input k ∧
    written = headerBytes s.lat.inLen 0 ++ partialStream s.input k (j - 32)) ∨
  (32 + (refEncode s.input).length ≤ j ∧ used = s.lat.inLen.toNat ∧ written = (refContainer s.input).take j)

/-- R202: the whole container is stored, or the encode stops at its first byte that cannot be written. -/
theorem exec_encodeContainer_ends {s : State} (hb : s.phase = .busy) (hpace : s.seq.pace = .whole)
    (hm : Mem.wf s.mem = true) (hr : ¬ s.inputOutOfRange = true) :
    (s.Room true (refContainer s.input).length ∧
      EndsStoring .encodeContainer (refContainer s.input)
        (s.encodedRegs (refEncode s.input).length (refContainer s.input).length) s) ∨
    ∃ j e used written, j < (refContainer s.input).length ∧ s.Room true j ∧ s.outWriteError true j = some e ∧
      s.ContainerStop j used written ∧ EndsStoring .encodeContainer written (s.stoppedRegs j used e) s := by
  have hlen := refContainer_length s.input
  by_cases hheader : s.Room true 32
  case neg =>
    obtain ⟨j, e, hj, hroom, herror⟩ := State.exists_first_outWriteError hheader
    obtain ⟨u, hexec, hmem, hsame⟩ := exec_encodeContainer_header_cut hr hj hroom herror
    refine .inr ⟨j, e, 0, _, by omega, hroom, herror, .inl ⟨hj, rfl, rfl⟩,
      endsStoring_of_writeList (.inr rfl) hm hexec rfl hmem ?_⟩
    rw [State.raisePrefixes_regs, hsame.regs]
    rfl
  case pos =>
    obtain ⟨u, hexec, hmem, hsame⟩ := exec_encodeContainer_of_room hr hpace hheader
    have hlat : u.lat = s.lat := hsame.lat
    have hinput : u.input = s.input := hsame.encodeOnly.input
    have hend := runEncoder_container (m := s.mem) (w := s.lat.inLen)
      ((State.encodeStart_startEncode true hb).of_storeOnly hsame) hm hsame.encodeOnly.container
      (by rw [State.outAddr_congr hlat]; exact hmem) ((State.Room_congr hlat true 32).2 hheader)
      (by rw [hinput, State.input_length, State.inputLen, BitVec.ofNat_toNat, BitVec.setWidth_eq])
    simp only [hinput, hsame.regs, State.Room_congr hlat, State.outAddr_congr hlat, State.outWriteError_congr hlat,
      State.inputLen_congr hlat] at hend
    rcases hend with ⟨k, j, e, hfail⟩ | ⟨hroom, hphase, hmem, hregs⟩ | ⟨j, e, hlo, hhi, hroom, herror, hphase, hmem, hregs⟩
    · obtain ⟨htoken, hroom, herror, hphase, hmem', hregs⟩ := hfail.congr hsame.encodeOnly
      have hbytes : j < (refEncode s.input).length := htoken.lt_length
      have hstop : s.ContainerStop (32 + j) (tokenStart s.input k)
          (headerBytes s.lat.inLen 0 ++ partialStream s.input k j) :=
        .inr (.inl ⟨Nat.le_add_right 32 j, k, by rw [Nat.add_sub_cancel_left]; exact ⟨htoken, rfl, rfl⟩⟩)
      refine .inr ⟨32 + j, e, _, _, by omega, hroom, herror, hstop,
        endsStoring_of_writeList (.inr rfl) hm hexec hphase ?_ hregs⟩
      rw [hmem', hmem, Mem.writeList_append]
      rfl
    · rw [encodedRegs_eq]
      exact .inl ⟨hroom, endsStoring_of_writeList (.inr rfl) hm hexec hphase hmem hregs⟩
    · exact .inr ⟨j, e, s.lat.inLen.toNat, _, hhi, hroom, herror, .inr (.inr ⟨hlo, rfl, rfl⟩),
        endsStoring_of_writeList (.inr rfl) hm hexec hphase hmem hregs⟩

/-- Settles O42: the ends behind the region check exclude each other, since each stop is at a byte of the container. -/
theorem encodeContainerOutcome : Obligations.EncodeContainerOutcome := by
  unfold Obligations.EncodeContainerOutcome
  refine fun s hb hpace hm =>
    ⟨fun h => exec_of_inputOutOfRange (by simp) ((inputOutOfRange_iff s).2 h), fun h => ?_⟩
  have hr : ¬ s.inputOutOfRange = true := fun hr => Nat.not_lt.2 h ((inputOutOfRange_iff s).1 hr)
  rcases exec_encodeContainer_ends hb hpace hm hr with
    ⟨hroom, hends⟩ | ⟨j, e, used, written, hj, hroom, herror, hstop, t, hends⟩
  · exact ⟨fun _ => hends, fun hno => absurd hroom hno⟩
  · exact ⟨fun hall => absurd hall (State.not_room_of_outWriteError hj herror),
      fun _ => ⟨t, j, e, used, written, hj, hroom, herror, hstop, hends⟩⟩

end Sys2Proof.Machine

/-! PROOFS. The decoder (spec/45_decoder.md): the bytes a Copy appends (R215), the empty stream (R216), every outcome of
`DECODE_STREAM` (R217) and of `DECODE_CONTAINER` (R218), and that no decode ends short of its target (R221). -/
namespace Sys2Proof.Machine

/-! ## The bytes of a Copy -/

/-- A Copy of offset `off` has appended `n` bytes on the way from `s` to `t`, and no byte of memory outside them has
changed. -/
structure CopiedOut (off n : Nat) (s t : State) : Prop where
  lat : t.lat = s.lat
  dec : t.dec = { s.dec with j := s.dec.j + n }
  bytes : ∀ k, k < n → t.outByte (s.dec.j + k) = if s.dec.j + k < off then 0 else t.outByte (s.dec.j + k - off)
  outside : SameOutside (s.outAddr s.dec.j) (s.outAddr s.dec.j + n) s t

theorem CopiedOut.zero (off : Nat) (s : State) : CopiedOut off 0 s s where
  lat := rfl
  dec := rfl
  bytes := nofun
  outside := fun _ _ => rfl

/-- The state after `OutWrite(j, v); j <- j + 1` of a decode raised nothing (R213, R214). -/
def State.appendOutput (v : Byte) (s : State) : State :=
  (s.storeByte (s.outAddr s.dec.j) v).withDec { s.dec with j := s.dec.j + 1 }

theorem decodeWrite_of_writable (v : Byte) {s : State} (h : s.outWriteError true s.dec.j = none) :
    decodeWrite v s = .go (s.appendOutput v) := by
  rcases outWrite_cases true s.dec.j v s with ⟨c, hc, -⟩ | ⟨-, hgo⟩
  · rw [h] at hc
    cases hc
  · exact congrArg (Run.andThen · _) hgo

theorem State.read_appendOutput {v : Byte} {s : State} (hm : Mem.wf s.mem = true) (a : Nat) :
    Mem.read (s.appendOutput v).mem a = if s.outAddr s.dec.j = a then v else Mem.read s.mem a :=
  Mem.read_write hm

/-- One byte of a Copy before the others: it is the byte `off` back, which no later write of the Copy changes. -/
theorem CopiedOut.cons {off n : Nat} {s t : State} (hoff : 1 ≤ off) (hm : Mem.wf s.mem = true)
    (h : CopiedOut off n (s.appendOutput (copySource off s)) t) : CopiedOut off (n + 1) s t := by
  obtain ⟨hlat, hdec, hbytes, houtside⟩ := h
  change t.lat = s.lat at hlat
  change SameOutside (s.outAddr (s.dec.j + 1)) (s.outAddr (s.dec.j + 1) + n) _ t at houtside
  have hread : ∀ a, ¬ (s.outAddr s.dec.j + 1 ≤ a ∧ a < s.outAddr s.dec.j + 1 + n) →
      Mem.read t.mem a = if s.outAddr s.dec.j = a then copySource off s else Mem.read s.mem a := fun a ha =>
    (houtside a ha).trans (State.read_appendOutput hm a)
  have hfirst : t.outByte s.dec.j = copySource off s := by
    rw [State.outByte, State.outAddr_congr hlat, hread _ (by omega), if_pos rfl]
  have hearlier : ∀ x, x < s.dec.j → t.outByte x = s.outByte x := fun x hx => by
    have haddr : s.outAddr x < s.outAddr s.dec.j := Nat.add_lt_add_left hx _
    rw [State.outByte, State.outAddr_congr hlat, hread _ (by omega), if_neg (by omega), State.outByte]
  refine ⟨hlat, hdec.trans ?_, fun k hk => ?_, fun a ha => ?_⟩
  · show { s.dec with j := s.dec.j + 1 + n } = _
    rw [Nat.add_right_comm, Nat.add_assoc]
  · cases k with
    | zero =>
      rw [Nat.add_zero, hfirst, copySource]
      split
      · rfl
      · exact (hearlier _ (by omega)).symm
    | succ k =>
      have hlater := hbytes k (by omega)
      change t.outByte (s.dec.j + 1 + k) = if s.dec.j + 1 + k < off then 0 else t.outByte (s.dec.j + 1 + k - off) at hlater
      rwa [Nat.add_right_comm, Nat.add_assoc] at hlater
  · rw [hread a (by omega), if_neg (by omega)]

/-- A Copy whose bytes up to the target can all be written appends them all. -/
theorem copyBytesOut_copiedOut {off : Nat} (hoff : 1 ≤ off) (len : Nat) {n : Nat} {s : State} (hm : Mem.wf s.mem = true)
    (hj : s.dec.j ≤ s.target) (hn : n = min len (s.target - s.dec.j))
    (hroom : ∀ k, k < n → s.outWriteError true (s.dec.j + k) = none) :
    ∃ t, copyBytesOut off len s = .go t ∧ CopiedOut off n s t := by
  induction len generalizing n s with
  | zero =>
    obtain rfl : n = 0 := by omega
    exact ⟨s, rfl, .zero off s⟩
  | succ len ih =>
    by_cases hreached : s.dec.j = s.target
    · obtain rfl : n = 0 := by omega
      exact ⟨s, if_pos hreached, .zero off s⟩
    · obtain ⟨m, rfl⟩ : ∃ m, n = m + 1 := ⟨n - 1, by omega⟩
      have hwrite := decodeWrite_of_writable (copySource off s) (hroom 0 (Nat.succ_pos m))
      obtain ⟨t, ht, hcopied⟩ := ih (n := m) (s := s.appendOutput (copySource off s)) (Mem.write_wf hm)
        (Nat.lt_of_le_of_ne hj hreached)
        (show m = min len (s.target - (s.dec.j + 1)) by omega)
        (fun k hk => by
          have := hroom (k + 1) (by omega)
          rwa [Nat.add_comm k, ← Nat.add_assoc] at this)
      refine ⟨t, ?_, hcopied.cons hoff hm⟩
      rw [copyBytesOut, if_neg hreached, hwrite]
      exact ht

/-- Settles O35: the bytes go out one by one behind the two stream bytes of the Copy, and writes touch nothing else. -/
theorem copyRepeatsOutput : Obligations.CopyRepeatsOutput := by
  unfold Obligations.CopyRepeatsOutput
  intro off len n s hoff hm hj hn hroom
  obtain ⟨t, ht, -, hdec, hbytes, houtside⟩ := copyBytesOut_copiedOut (s := s.takeToken 2) hoff len hm hj hn hroom
  have hsame := copyBytesOut_writesOnly off len (s.takeToken 2)
  rw [ht] at hsame
  obtain ⟨hregs, hphase, hseq⟩ := hsame
  have hexec : exec (.copy off len) s = .next t := congrArg (Host.Outcome.next ∘ decodeSettle) ht
  have henc := runItem_enc (.copy off len) s
  rw [show runItem (.copy off len) s = t from congrArg decodeSettle ht] at henc
  exact ⟨t, hexec, hregs, hphase, exec_sameSetup hexec, henc, hseq, hdec, hbytes, houtside⟩

/-! ## The two commands behind the region check -/

theorem not_inputOutOfRange {s : State} (h : s.lat.inBase.toNat + s.lat.inLen.toNat ≤ 0xFFFFFFFF) :
    ¬ s.inputOutOfRange = true :=
  fun hr => Nat.not_lt.2 h ((inputOutOfRange_iff s).1 hr)

theorem exec_decodeStream_inRange {s : State} (hr : ¬ s.inputOutOfRange = true) :
    exec .decodeStream s = .next (enterDecoder (s.startDecode false s.inputLen s.lat.usize 0)) :=
  if_neg hr

theorem exec_decodeContainer_of_error {s : State} {e : ErrCode} (hr : ¬ s.inputOutOfRange = true)
    (h : parseHeader s = .error e) : exec .decodeContainer s = .next (s.raisePrefixes e 0 0) := by
  show execDecodeContainer s = _
  rw [execDecodeContainer, if_neg hr, h]

theorem exec_decodeContainer_of_ok {s : State} {p : Parsed} (hr : ¬ s.inputOutOfRange = true) (h : parseHeader s = .ok p) :
    exec .decodeContainer s =
      .next (enterDecoder ((s.withRegs (s.regs.noteClamp p)).startDecode true p.slen p.usize p.csize)) := by
  show execDecodeContainer s = _
  rw [execDecodeContainer, if_neg hr, h]

/-- The stream a header parse gives ends within the input (R132). -/
theorem parseHeader_ok_stream_le {s : State} {p : Parsed} (h : parseHeader s = .ok p) : 32 + p.slen ≤ s.inputLen := by
  obtain ⟨hlen, -, -, -, hslen, -⟩ := parseHeader_ok h
  have hclamped := clampedLen_le (s.inField 0x18).toNat (s.inputLen - 32)
  omega

/-! ## The empty stream -/

/-- R216: with no stream bytes the decode ends at once, in success only when no output is wanted. -/
theorem enterDecoder_emptyStream {s : State} (hb : s.phase = .busy) (hpace : s.seq.pace = .whole) (hslen : s.dec.slen = 0)
    (hi : s.dec.i = 0) (hj : s.dec.j = 0) :
    (enterDecoder s).mem = s.mem ∧ (enterDecoder s).regs.outLen = 0 ∧
      (enterDecoder s).regs.inUsed = BitVec.ofNat 32 (streamBase s.dec.container) ∧
      (enterDecoder s).EndedWith (if s.dec.target = 0 then .none else .emptyStreamNonzeroTarget) := by
  have hused : s.streamUsed = streamBase s.dec.container := by rw [State.streamUsed, hi, Nat.add_zero]
  by_cases htarget : s.dec.target = 0
  · have hzero : s.target = 0 := congrArg BitVec.toNat htarget
    have hturn : decodeTurn s = decodeFinish s := if_neg (by omega)
    have hfuel : s.decodeFuel = 1 := by rw [State.decodeFuel, hslen, Nat.zero_sub]
    have henter : enterDecoder s = decodeFinish s := by
      rw [enterDecoder, if_neg (fun h => h.2 hzero), hpace, hfuel, ← hturn]
      exact if_neg (by rw [hb]; decide)
    rw [henter, if_pos htarget, ← hused]
    refine ⟨rfl, ?_, rfl, finish_endedWith _⟩
    show BitVec.ofNat 32 s.dec.j = 0
    rw [hj]
    rfl
  · have htarget' : s.target ≠ 0 := fun h => htarget (BitVec.eq_of_toNat_eq h)
    rw [enterDecoder, if_pos ⟨hslen, htarget'⟩, if_neg htarget, ← hused]
    exact ⟨rfl, rfl, rfl, raise_endedWith _ (by decide)⟩

/-- Settles O37: both commands enter the decoder with no stream bytes, since what follows a bare header is none. -/
theorem emptyStreamCheck : Obligations.EmptyStreamCheck := by
  unfold Obligations.EmptyStreamCheck
  refine fun s hb hpace h => ⟨fun hlen => ?_, fun hlen hsig => ?_⟩
  · exact ⟨_, exec_decodeStream_inRange (not_inputOutOfRange h),
      enterDecoder_emptyStream hb hpace (congrArg BitVec.toNat hlen) rfl rfl⟩
  · have hinput : s.inputLen = 32 := congrArg BitVec.toNat hlen
    obtain ⟨p, hp, husize, -⟩ := parseHeader_of_hasSignature hinput.ge hsig
    have hnone : p.slen = 0 := by
      have := parseHeader_ok_stream_le hp
      omega
    rw [← husize]
    exact ⟨_, exec_decodeContainer_of_ok (not_inputOutOfRange h) hp, enterDecoder_emptyStream hb hpace hnone rfl rfl⟩

/-! ## How a decode ends -/

/-- The stream a decode starts on is the part of the input it was given (R157). -/
theorem State.startDecode_stream {container : Bool} {n : Nat} {T C : Word} {s : State}
    (h : streamBase container + n ≤ s.inputLen) :
    (s.startDecode container n T C).stream = (s.input.drop (streamBase container)).take n := by
  apply List.ext_getElem
  · rw [State.stream_length, List.length_take, List.length_drop, State.input_length]
    exact (Nat.min_eq_left (Nat.le_sub_of_add_le' h)).symm
  · intro k h1 h2
    simp [State.stream, State.input, State.streamByte, State.inRead]

/-- A command that starts a decode of the `n` bytes behind the stream base toward `T`, with the registers `r`, ends as the
list-level decode of those bytes says (R211 to R216). -/
theorem exec_decode_ends {i : Instr} {container : Bool} {n : Nat} {T C : Word} {r : Regs} {s : State}
    (hb : s.phase = .busy) (hpace : s.seq.pace = .whole) (hm : Mem.wf s.mem = true)
    (hn : streamBase container + n ≤ s.inputLen)
    (hexec : exec i s = .next (enterDecoder ((s.withRegs r).startDecode container n T C))) :
    ∃ t d, d = refDecode (s.outWriteError true) T.toNat ((s.input.drop (streamBase container)).take n) ∧
      exec i s = .next t ∧ t.phase = .idle ∧ SameSetup s t ∧ t.enc = s.enc ∧ Stores s.lat.outBase.toNat d.out s t ∧
      t.regs =
        { r.decoded ((s.withRegs r).startDecode container n T C).dec d.out.length (streamBase container + d.used) with
          done := d.error.isNone, err := d.error.isSome, errcode := d.error.getD .none } := by
  obtain ⟨hphase, hmem, hregs⟩ := enterDecoder_spec (s := (s.withRegs r).startDecode container n T C)
    (bad := s.outWriteError true) hb hpace hm rfl rfl rfl fun _ => rfl
  rw [State.startDecode_stream (s := s.withRegs r) hn] at hmem hregs
  exact ⟨_, _, rfl, hexec, hphase, exec_sameSetup hexec, enterDecoder_enc _, stores_of_writeList hm hmem, hregs⟩

/-- Settles O38: behind the region check the whole input is the stream. -/
theorem decodeStreamOutcome : Obligations.DecodeStreamOutcome := by
  unfold Obligations.DecodeStreamOutcome
  refine ⟨fun s hb hpace hm =>
    ⟨fun h => exec_of_inputOutOfRange (by simp) ((inputOutOfRange_iff s).2 h), fun h => ?_⟩, by decide⟩
  obtain ⟨t, d, hd, hexec, hphase, hsetup, henc, hstores, hregs⟩ := exec_decode_ends (r := s.regs) hb hpace hm
    (Nat.zero_add s.inputLen).le (exec_decodeStream_inRange (not_inputOutOfRange h))
  have hstream : (s.input.drop (streamBase false)).take s.inputLen = s.input :=
    List.take_of_length_le (State.input_length s).le
  have hused : streamBase false + d.used = d.used := Nat.zero_add _
  have hword : BitVec.ofNat 32 s.inputLen = s.lat.inLen := by rw [State.inputLen, BitVec.ofNat_toNat, BitVec.setWidth_eq]
  rw [hstream] at hd
  refine ⟨t, d, hd, hexec, hphase, hsetup, henc, hstores, ?_⟩
  rw [hregs, hused, ← hword]
  rfl

/-- Settles O39: behind the region check the parse gives its two errors, or the stream the decode is made of. -/
theorem decodeContainerOutcome : Obligations.DecodeContainerOutcome := by
  unfold Obligations.DecodeContainerOutcome
  refine fun s hb hpace hm =>
    ⟨fun h => exec_of_inputOutOfRange (by simp) ((inputOutOfRange_iff s).2 h), fun h => ⟨?_, ?_⟩⟩
  · rintro e (⟨hlen, rfl⟩ | ⟨hlen, hsig, rfl⟩)
    · exact exec_decodeContainer_of_error (not_inputOutOfRange h) (parseHeader_tooShort hlen)
    · exact exec_decodeContainer_of_error (not_inputOutOfRange h) (parseHeader_invalidSignature hlen hsig)
  · intro hlen hsig clamp hc
    obtain ⟨p, hp, husize, hcsize, hclamped, hn⟩ := parseHeader_of_hasSignature hlen hsig
    obtain rfl : clamp = p.clamped := Bool.eq_iff_iff.2 (hc.trans hclamped.symm)
    obtain ⟨t, d, hd, hends⟩ := exec_decode_ends hb hpace hm (parseHeader_ok_stream_le hp)
      (exec_decodeContainer_of_ok (not_inputOutOfRange h) hp)
    rw [← hcsize] at hn
    rw [← husize, ← hcsize]
    exact ⟨t, d, p.slen, hn, hd, hends⟩

/-! ## No decode ends short -/

/-- The decode stayed within the target `T`, and reached it unless an error ended it (R221). -/
def Decoded.Reaches (T : Nat) (d : Decoded) : Prop := d.out.length ≤ T ∧ (d.error = none → d.out.length = T)

theorem Decoded.reaches_of_error {T used : Nat} {out : List Byte} (e : ErrCode) (h : out.length ≤ T) :
    Decoded.Reaches T { out := out, used := used, error := some e } :=
  ⟨h, nofun⟩

/-- Each turn leaves fewer stream bytes, and appends no byte past the target. -/
theorem refDecodeFrom_reaches {bad : Nat → Option ErrCode} {T used : Nat} {S : List Byte} {bits : List Bool}
    {out : List Byte} (h : out.length ≤ T) : (refDecodeFrom bad T S bits used out).Reaches T := by
  by_cases hT : T ≤ out.length
  · rw [refDecodeFrom_reached hT]
    exact ⟨h, fun _ => Nat.le_antisymm h hT⟩
  have hmissing : out.length < T := Nat.lt_of_not_le hT
  match bits, S with
  | [], [] =>
    rw [refDecodeFrom_noControl hmissing]
    exact Decoded.reaches_of_error _ h
  | [], b0 :: S =>
    rw [refDecodeFrom_control hmissing]
    exact refDecodeFrom_reaches h
  | false :: bs, [] =>
    rw [refDecodeFrom_noLiteral hmissing]
    exact Decoded.reaches_of_error _ h
  | false :: bs, b0 :: S =>
    rw [refDecodeFrom_literal hmissing]
    cases bad out.length with
    | some e => exact Decoded.reaches_of_error e h
    | none => exact refDecodeFrom_reaches (by simpa using hmissing)
  | true :: bs, [] | true :: bs, [b0] =>
    rw [refDecodeFrom_noCopy hmissing (by simp)]
    exact Decoded.reaches_of_error _ h
  | true :: bs, b0 :: b1 :: S =>
    rw [refDecodeFrom_copy hmissing]
    have hbound := refCopy_bound (bad := bad) (copyOffset b0 b1) (copyLength b0) h
    rcases hcopy : refCopy bad T (copyOffset b0 b1) (copyLength b0) out with ⟨out', _ | e⟩
    all_goals rw [hcopy] at hbound
    · exact refDecodeFrom_reaches hbound
    · exact Decoded.reaches_of_error e hbound
termination_by S.length

theorem refDecode_reaches (bad : Nat → Option ErrCode) (T : Nat) (S : List Byte) : (refDecode bad T S).Reaches T := by
  unfold refDecode
  split
  · exact Decoded.reaches_of_error _ (Nat.zero_le T)
  · exact refDecodeFrom_reaches (Nat.zero_le T)

/-- Settles O40: no instruction sets `DIAG_LENMM`, and no list-level decode returns short. -/
theorem decodeNeverEndsShort : Obligations.DecodeNeverEndsShort := by
  unfold Obligations.DecodeNeverEndsShort
  exact ⟨refDecode_reaches, fun s t i _ _ _ _ h => (exec_diag h).2⟩

end Sys2Proof.Machine

/-! PROOFS. The padder (spec/46_padder.md R240 to R242). -/
namespace Sys2Proof.Machine

/-- Padding that ends below `ADDR_TOP` is stored whole. -/
theorem exec_pad_stored {s : State} (hr : ¬ s.bufferOutOfRange = true)
    (h : s.lat.outBase.toNat + s.lat.outLen.toNat + padAmount s.lat.outLen.toNat ≤ 0xFFFFFFFF) :
    ∃ t, exec .pad s = .next (t.withRegs { t.regs with
        outLen := BitVec.ofNat 32 (s.lat.outLen.toNat + padAmount s.lat.outLen.toNat) }).finish ∧
      t.mem = Mem.writeList s.mem (s.lat.outBase.toNat + s.lat.outLen.toNat)
        (List.replicate (padAmount s.lat.outLen.toNat) 0) ∧ StoreOnly s t := by
  obtain ⟨t, ht, hmem, hsame⟩ := writeBytes_unbarred_go (j := s.lat.outLen.toNat) (s := s)
    (bs := List.replicate (padAmount s.lat.outLen.toNat) 0) (by rwa [List.length_replicate])
  refine ⟨t, ?_, hmem, hsame⟩
  show execPad s = _
  rw [execPad, if_neg hr, writePadding, checksOverlap, ht]

/-- Of padding that reaches `ADDR_TOP`, the bytes below it are stored. -/
theorem exec_pad_cut {s : State} (hr : ¬ s.bufferOutOfRange = true)
    (h : ¬ s.lat.outBase.toNat + s.lat.outLen.toNat + padAmount s.lat.outLen.toNat ≤ 0xFFFFFFFF) :
    ∃ t, exec .pad s = .next (t.raiseOutLen .addrRange
        (s.lat.outLen.toNat + (0xFFFFFFFF - (s.lat.outBase.toNat + s.lat.outLen.toNat)))) ∧
      t.mem = Mem.writeList s.mem (s.lat.outBase.toNat + s.lat.outLen.toNat)
        (List.replicate (0xFFFFFFFF - (s.lat.outBase.toNat + s.lat.outLen.toNat)) 0) ∧ StoreOnly s t := by
  have htop : s.lat.outBase.toNat + s.lat.outLen.toNat ≤ 0xFFFFFFFF := Nat.le_of_not_lt (hr ∘ (bufferOutOfRange_iff s).2)
  have hroom : 0xFFFFFFFF - (s.lat.outBase.toNat + s.lat.outLen.toNat) < padAmount s.lat.outLen.toNat := by omega
  obtain ⟨t, ht, hmem, hsame⟩ := writeBytes_unbarred_raised (j := s.lat.outLen.toNat) (s := s)
    (bs := List.replicate (padAmount s.lat.outLen.toNat) 0) (by rwa [List.length_replicate])
  rw [List.take_replicate, State.outAddr, Nat.min_eq_left hroom.le] at hmem
  refine ⟨t, ?_, hmem, hsame⟩
  show execPad s = _
  rw [execPad, if_neg hr, writePadding, checksOverlap, ht]
  rfl

/-- Settles O47: behind the region check the padding is stored up to its end or to `ADDR_TOP`, whichever comes first. -/
theorem padOutcome : Obligations.PadOutcome := by
  unfold Obligations.PadOutcome
  rintro s l q hm rfl hq
  obtain rfl : q = padAmount s.lat.outLen.toNat := hq
  refine ⟨add_padAmount _, fun h => exec_pad_of_bufferOutOfRange ((bufferOutOfRange_iff s).2 h), fun h => ?_⟩
  have hr : ¬ s.bufferOutOfRange = true := fun hout => Nat.not_lt.2 h ((bufferOutOfRange_iff s).1 hout)
  by_cases hroom : s.lat.outBase.toNat + s.lat.outLen.toNat + padAmount s.lat.outLen.toNat ≤ 0xFFFFFFFF
  · obtain ⟨t, hexec, hmem, hsame⟩ := exec_pad_stored hr hroom
    refine ⟨_, hexec, rfl, exec_sameSetup hexec, hsame.enc, hsame.dec, ?_⟩
    rw [if_pos hroom, ← hsame.regs]
    exact ⟨stores_of_writeList hm hmem, rfl⟩
  · obtain ⟨t, hexec, hmem, hsame⟩ := exec_pad_cut hr hroom
    refine ⟨_, hexec, rfl, exec_sameSetup hexec, hsame.enc, hsame.dec, ?_⟩
    rw [if_neg hroom, ← hsame.regs]
    exact ⟨stores_of_writeList hm hmem, rfl⟩

end Sys2Proof.Machine

/-! PROOFS. The interrupt output (spec/60_exceptions.md R275). -/
namespace Sys2Proof.Machine

/-- Only the host writes `IE` (R23): no step of the core's own does. -/
theorem coreStep_ie {s t : State} (h : coreStep s = .next t) : t.regs.ie = s.regs.ie := by
  cases hp : s.phase with
  | idle =>
    rw [coreStep_idle hp] at h
    rw [← Host.Outcome.next.inj h]
  | busy =>
    rw [coreStep_busy hp] at h
    split at h
    · rw [← Host.Outcome.next.inj h, State.waitStep_regs]
    · split at h
      · exact (exec_sameSetup h).ie
      · rw [decodeStep_eq] at h
        rw [← Host.Outcome.next.inj h]
        exact (decodeTurn_touches s).setup.ie
      · rw [← Host.Outcome.next.inj h]
        exact (encodeTurn_touches s).setup.ie

theorem step_core_ie {s t : State} (h : step s = .next t) (hn : s.CoreNext) : t.regs.ie = s.regs.ie := by
  obtain ⟨u, same, run⟩ := step_core h hn
  rw [coreStep_ie run, same.regs]

/-- A step that writes `CTRL` without `SRST` writes `IE` and no other register, in either phase (R23). -/
theorem step_ctrl_regs {s t : State} {v : Word} (h : step s = .next t) (hn : s.InputNext (.regWrite 0x04 4 v))
    (hv : v.getLsbD 1 = false) : t.regs = { s.regs with ie := v.getLsbD 0 } := by
  obtain ⟨xs, hs⟩ := withInputs_cons hn
  obtain ⟨t', ht', hspec⟩ := step_regWrite_ctrl v xs s
  rw [← hs, h] at ht'
  obtain rfl := Host.Outcome.next.inj ht'
  rw [if_neg (by rw [hv]; decide)] at hspec
  exact hspec.regs

/-- A step that writes `STATUS` while idle (R25). -/
theorem step_status_regs {s t : State} {v : Word} (h : step s = .next t) (hn : s.InputNext (.regWrite 0x0C 4 v))
    (hi : s.phase = .idle) : t.regs = s.regs.writeStatus v := by
  obtain ⟨xs, hs⟩ := withInputs_cons hn
  obtain ⟨t', ht', same⟩ := step_regWrite_status hi v xs
  rw [← hs, h] at ht'
  obtain rfl := Host.Outcome.next.inj ht'
  exact same.regs

theorem State.irq_iff (s : State) : s.irq = true ↔ s.regs.ie = true ∧ (s.regs.done = true ∨ s.regs.err = true) := by
  rw [State.irq, Bool.and_eq_true, Bool.or_eq_true]

theorem State.irq_of_ie_false {s : State} (h : s.regs.ie = false) : s.irq = false := by
  rw [State.irq, h, Bool.false_and]

theorem State.irq_of_done_err_false {s : State} (hd : s.regs.done = false) (he : s.regs.err = false) :
    s.irq = false := by
  rw [State.irq, hd, he, Bool.or_self, Bool.and_false]

/-- At the end of a command one of `DONE` and `ERR` is set, so `IRQ` is `IE`. -/
theorem State.EndedWith.irq {t : State} {c : ErrCode} (h : t.EndedWith c) : t.irq = t.regs.ie := by
  have hset : (t.regs.done || t.regs.err) = true := by
    have hne := h.done_ne_err
    revert hne
    cases t.regs.done <;> cases t.regs.err <;> decide
  rw [State.irq, hset, Bool.and_true]

/-- A write to `STATUS` that names each of the set bits among `DONE` and `ERR` leaves neither set (R25). -/
theorem Regs.writeStatus_clears {r : Regs} {v : Word} (hd : r.done = true → v.getLsbD 1 = true)
    (he : r.err = true → v.getLsbD 2 = true) : (r.writeStatus v).done = false ∧ (r.writeStatus v).err = false := by
  rw [writeStatus_eq]
  constructor
  · cases h : r.done with
    | false => exact ite_self _
    | true => exact if_pos (hd h)
  · cases h : r.err with
    | false => exact ite_self _
    | true => exact if_pos (he h)

/-- Settles O21: the level is its definition, and each event fixes `IE`, `DONE` and `ERR` by what it writes. -/
theorem interruptOutput : Obligations.InterruptOutput := by
  unfold Obligations.InterruptOutput
  intro s t _ h
  refine ⟨t.irq_iff, fun hc hie => ?_, fun v hv hsrst => ?_, fun v hv hi hd he => ?_, fun w hw => ?_, fun hr => ?_⟩
  · obtain ⟨c, hend⟩ := hc.ended h
    rw [hend.irq, step_core_ie h hc.1, hie]
  · have hregs := step_ctrl_regs h hv hsrst
    refine ⟨fun hset hflag => ?_, fun hclear => State.irq_of_ie_false (by rw [hregs, hclear])⟩
    rw [State.irq_iff, hregs]
    exact ⟨hset, hflag⟩
  · obtain ⟨hdone, herr⟩ := Regs.writeStatus_clears hd he
    rw [← step_status_regs h hv hi] at hdone herr
    exact State.irq_of_done_err_false hdone herr
  · have hregs := (step_start_regs h hw).1
    exact State.irq_of_done_err_false (by rw [hregs, clearedForCommand_done]) (by rw [hregs, clearedForCommand_err])
  · exact State.irq_of_ie_false (congrArg Regs.ie (step_reset_regs h hr).1)

end Sys2Proof.Machine

/-! PROOFS. The invariant (spec/10_state.md R41 to R47): it holds at reset, and each of the things a step can do keeps
it. -/
namespace Sys2Proof.Machine

/-! ## The writes of a running command -/

/-- On the way from `s` to `t` a command made writes to addresses in `P`, and noted each in the journal (R291). -/
def WritesTo (P : Nat → Prop) (s t : State) : Prop :=
  ∃ ws : List Host.Cell, t.mem = Mem.writeAll s.mem ws ∧ t.journal = Mem.replaced s.mem ws ++ s.journal ∧
    ∀ c ∈ ws, P c.1

/-- No command writes at `ADDR_TOP` or above (R66), so every write it makes is in the memory. -/
theorem Touches.writesTo {chk : Bool} {s t u : State} (h : Touches (s.Allows chk) s t) (hm : s.mem = u.mem)
    (hj : s.journal = u.journal) : WritesTo (· < Config.memSize) u t := by
  obtain ⟨ws, hmem, hjournal, hallowed⟩ := h.writes
  exact ⟨ws, hmem.trans (by rw [hm]), hjournal.trans (by rw [hm, hj]), fun c hc =>
    Nat.lt_succ_of_lt (hallowed c hc).bounds.2.1⟩

theorem WritesTo.mem_wf {P : Nat → Prop} {s t : State} (h : WritesTo P s t) (hm : Mem.wf s.mem = true) :
    Mem.wf t.mem = true := by
  obtain ⟨ws, hmem, -⟩ := h
  rw [hmem]
  exact Mem.writeAll_wf hm

theorem WritesTo.mem_bound {n : Nat} {s t : State} (h : WritesTo (· < n) s t) (hm : ∀ c ∈ s.mem, c.1 < n) :
    ∀ c ∈ t.mem, c.1 < n := by
  obtain ⟨ws, hmem, -, hws⟩ := h
  rw [hmem]
  exact Mem.writeAll_bound hws hm

theorem WritesTo.journal_bound {n : Nat} {s t : State} (h : WritesTo (· < n) s t) (hj : ∀ c ∈ s.journal, c.1 < n) :
    ∀ c ∈ t.journal, c.1 < n := by
  obtain ⟨ws, -, hjournal, hws⟩ := h
  rw [hjournal]
  intro d hd
  rcases List.mem_append.1 hd with hnew | hold
  · obtain ⟨c, hc, heq⟩ := Mem.replaced_addr hnew
    exact heq ▸ hws c hc
  · exact hj d hold

/-- A command carried to its end goes on from the writes it has made (R291). -/
theorem runToEnd_writesTo (s : State) : WritesTo (· < Config.memSize) s (runToEnd s) := by
  unfold runToEnd
  split
  · exact (runDecoder_touches _ s).writesTo rfl rfl
  · exact (runEncoder_touches _ s).writesTo rfl rfl
  · obtain ⟨t, ht, htouches⟩ := exec_touches (decodeCommand s.op) { s with seq := { s.seq with pace := .whole } }
    rw [ht]
    exact htouches.writesTo rfl rfl

/-- What a step of the core's own does: nothing while idle, counting off a drawn step, or a part of the command. -/
theorem coreStep_cases {s t : State} (h : coreStep s = .next t) :
    t = s ∨ t = s.waitStep ∨ ∃ chk, Touches (s.Allows chk) s t := by
  cases hp : s.phase with
  | idle =>
    rw [coreStep_idle hp] at h
    exact .inl (Host.Outcome.next.inj h).symm
  | busy =>
    rw [coreStep_busy hp] at h
    split at h
    · exact .inr (.inl (Host.Outcome.next.inj h).symm)
    · refine .inr (.inr ?_)
      split at h
      · obtain ⟨u, hu, htouches⟩ := exec_touches (decodeCommand s.op) s
        obtain rfl := Host.Outcome.next.inj (hu.symm.trans h)
        exact ⟨_, htouches⟩
      · rw [decodeStep_eq] at h
        obtain rfl := Host.Outcome.next.inj h
        exact ⟨_, decodeTurn_touches s⟩
      · obtain rfl := Host.Outcome.next.inj h
        exact ⟨_, encodeTurn_touches s⟩

theorem coreStep_writesTo {s t : State} (h : coreStep s = .next t) : WritesTo (· < Config.memSize) s t := by
  rcases coreStep_cases h with rfl | rfl | ⟨chk, htouches⟩
  · exact ⟨[], rfl, rfl, nofun⟩
  · exact ⟨[], rfl, rfl, nofun⟩
  · exact htouches.writesTo rfl rfl

/-- The core never changes its latched operands, its snapshot or the progress values the host has read. -/
theorem coreStep_operands {s t : State} (h : coreStep s = .next t) :
    t.lat = s.lat ∧ t.snap = s.snap ∧ t.seq.progress = s.seq.progress := by
  rcases coreStep_cases h with rfl | rfl | ⟨chk, htouches⟩
  · exact ⟨rfl, rfl, rfl⟩
  · exact ⟨rfl, rfl, rfl⟩
  · exact ⟨htouches.setup.lat, htouches.setup.snap, htouches.setup.progress⟩

/-! ## The registers -/

theorem regsInv_reset : RegsInv Regs.reset := ⟨rfl, nofun, nofun, rfl, .inl rfl⟩

theorem RegsInv.cleared {r : Regs} (h : RegsInv r) (w : Word) : RegsInv (clearedForCommand w r) :=
  ⟨rfl, nofun, nofun, rfl, h.mres⟩

theorem RegsInv.writeStatus {r : Regs} (h : RegsInv r) (v : Word) : RegsInv (r.writeStatus v) where
  exclusive := by
    have hex := h.exclusive
    show ((r.done && _) && (r.err && _)) = false
    revert hex
    cases r.done <;> cases r.err <;> simp
  doneCode := fun hd => h.doneCode (Bool.and_eq_true_iff.1 hd).1
  errCode := fun he => h.errCode (Bool.and_eq_true_iff.1 he).1
  lenmm := h.lenmm
  mres := h.mres

theorem RegsInv.withIe {r : Regs} (h : RegsInv r) (ie : Bool) : RegsInv { r with ie := ie } :=
  ⟨h.exclusive, h.doneCode, h.errCode, h.lenmm, h.mres⟩

theorem writeOperand_mres (off : Nat) (v : Word) (r : Regs) : (r.writeOperand off v).mres = r.mres := by
  unfold Regs.writeOperand
  split <;> rfl

theorem RegsInv.writeOperand {r : Regs} (h : RegsInv r) (off : Nat) (v : Word) : RegsInv (r.writeOperand off v) := by
  obtain ⟨hd, he, hc, -, hl⟩ := writeOperand_status off v r
  exact ⟨by rw [hd, he]; exact h.exclusive, by rw [hd, hc]; exact h.doneCode, by rw [he, hc]; exact h.errCode,
    by rw [hl]; exact h.lenmm, by rw [writeOperand_mres]; exact h.mres⟩

/-- A part of a command that goes on leaves `STATUS` but `DIAG_CLAMP` alone; one that ends sets `DONE` or `ERR` with the
code that belongs to it. -/
theorem RegsInv.of_settles {s t : State} (h : RegsInv s.regs) (hs : Settles s t)
    (hl : t.regs.diagLenmm = s.regs.diagLenmm) : RegsInv t.regs := by
  rcases hs with hgo | hends
  · rw [hgo.regs]
    exact ⟨h.exclusive, h.doneCode, h.errCode, h.lenmm, h.mres⟩
  · obtain ⟨c, -, hcode, hdone, herr⟩ := hends.ended
    refine ⟨?_, ?_, ?_, hl.trans h.lenmm, ?_⟩
    · rw [hdone, herr]
      cases c <;> rfl
    · rw [hdone, hcode]
      exact beq_iff_eq.1
    · rw [herr, hcode]
      exact bne_iff_ne.1
    · rcases hends.mres with hsame | hnew
      · rw [hsame]
        exact h.mres
      · exact hnew

/-! ## The cursors -/

theorem EncodeInv.congr {s t : State} (h : EncodeInv s) (he : t.enc = s.enc) (hl : t.lat = s.lat) : EncodeInv t where
  p := by rw [he, State.inputLen_congr hl]; exact h.p
  k := by rw [he]; exact h.k
  g := by rw [he]; exact h.g
  slot := by rw [he, State.outWriteError_congr hl]; exact h.slot
  header := by rw [he, State.Room_congr hl]; exact h.header
  room := by rw [he, State.outAddr_congr hl]; exact h.room

/-! ## What a step can do -/

/-- The invariant of the core itself: all of `Inv` but what it says of the host's side. -/
structure CoreInv (s : State) : Prop where
  memWf : Mem.wf s.mem = true
  snapWf : Mem.wf s.snap = true
  memBound : ∀ c ∈ s.mem, c.1 < Config.memSize
  journalBound : ∀ c ∈ s.journal, c.1 < Config.memSize
  regs : RegsInv s.regs
  busy : s.phase = .busy → s.regs.done = false ∧ s.regs.err = false ∧ s.regs.errcode = .none
  progress : s.phase = .busy → s.seq.progress ≤ s.inputLen
  cursors : s.phase = .busy → CursorInv s

theorem Inv.core {s : State} (h : Inv s) : CoreInv s :=
  { h with cursors := fun hb => ⟨h.range hb, h.decode hb, h.encode hb⟩ }

theorem CoreInv.inv {s : State} (h : CoreInv s) (ha : s.phase = .busy → s.port.awaiting = true) : Inv s :=
  { h with
    awaiting := ha
    range := fun hb => (h.cursors hb).range
    decode := fun hb => (h.cursors hb).decode
    encode := fun hb => (h.cursors hb).encode }

theorem CursorInv.congr {s t : State} (h : CursorInv s) (he : t.enc = s.enc) (hd : t.dec = s.dec) (hl : t.lat = s.lat)
    (hs : t.seq.engine = s.seq.engine) : CursorInv t where
  range := by rw [hs, State.inputOutOfRange_congr hl]; exact h.range
  decode := by rw [hs]; exact fun heng => (h.decode heng).congr hd hl
  encode := by rw [hs]; exact fun heng => (h.encode heng).congr he hl

theorem CoreInv.of_sameCore {s t : State} (h : CoreInv s) (hs : SameCore s t) : CoreInv t where
  memWf := by rw [hs.mem]; exact h.memWf
  snapWf := by rw [hs.snap]; exact h.snapWf
  memBound := by rw [hs.mem]; exact h.memBound
  journalBound := by rw [hs.journal]; exact h.journalBound
  regs := by rw [hs.regs]; exact h.regs
  busy := by rw [hs.phase, hs.regs]; exact h.busy
  progress := by rw [hs.phase, hs.seq, State.inputLen_congr hs.lat]; exact h.progress
  cursors := by rw [hs.phase]; exact fun hb => (h.cursors hb).congr hs.enc hs.dec hs.lat (by rw [hs.seq])

/-- New registers, which while a command runs have `DONE`, `ERR` and the code as before (R46). -/
theorem CoreInv.withRegs {s : State} (h : CoreInv s) {r : Regs} (hr : RegsInv r)
    (hb : s.phase = .busy → r.done = s.regs.done ∧ r.err = s.regs.err ∧ r.errcode = s.regs.errcode) :
    CoreInv (s.withRegs r) :=
  { h with
    regs := hr
    busy := fun hp => by
      obtain ⟨hd, he, hc⟩ := hb hp
      rw [State.withRegs_regs, hd, he, hc]
      exact h.busy hp
    cursors := fun hp => (h.cursors hp).congr rfl rfl rfl rfl }

theorem CoreInv.readProgress {s : State} (h : CoreInv s) : CoreInv s.readProgress :=
  { h with
    progress := fun hb => (drawProgress_bounds (h.progress hb)).2
    cursors := fun hp => (h.cursors hp).congr rfl rfl rfl rfl }

theorem CoreInv.write {s : State} (h : CoreInv s) {a : Nat} (ha : a < Config.memSize) (b : Byte) :
    CoreInv { s with mem := Mem.write s.mem a b } :=
  { h with
    memWf := Mem.write_wf h.memWf
    memBound := Mem.write_bound ha h.memBound
    cursors := fun hp => (h.cursors hp).congr rfl rfl rfl rfl }

/-- A command's body has not begun at its start, so no cursor is bound yet (R42, R43). -/
theorem CoreInv.start {s : State} (h : CoreInv s) (w : Word) : CoreInv (s.start w) where
  memWf := h.memWf
  snapWf := Mem.region_wf h.memWf
  memBound := h.memBound
  journalBound := nofun
  regs := h.regs.cleared w
  busy := fun _ => ⟨rfl, rfl, rfl⟩
  progress := fun _ => Nat.zero_le _
  cursors := fun _ => ⟨fun he => absurd rfl he, nofun, nofun⟩

/-- The reset state (R47) over any memory that is in canonical form and in bounds. -/
theorem coreInv_resetWith {m : Mem} (hm : Mem.wf m = true) (hb : ∀ c ∈ m, c.1 < Config.memSize) :
    CoreInv (State.resetWith m) :=
  ⟨hm, rfl, hb, nofun, regsInv_reset, nofun, nofun, nofun⟩

/-- Taking writes back leaves the memory in bounds, since the journal's addresses are (R291). -/
theorem CoreInv.memAfterReset {s : State} (h : CoreInv s) :
    Mem.wf s.memAfterReset = true ∧ ∀ c ∈ s.memAfterReset, c.1 < Config.memSize := by
  unfold State.memAfterReset
  split
  · exact ⟨h.memWf, h.memBound⟩
  · have hw := runToEnd_writesTo s
    exact ⟨Mem.writeAll_wf (hw.mem_wf h.memWf), Mem.writeAll_bound
      (fun c hc => hw.journal_bound h.journalBound c (List.mem_of_mem_take hc)) (hw.mem_bound h.memBound)⟩

theorem CoreInv.resetCore {s : State} (h : CoreInv s) : CoreInv s.resetCore :=
  { coreInv_resetWith h.memAfterReset.1 h.memAfterReset.2 with progress := nofun, cursors := nofun }

theorem CoreInv.coreStep {s t : State} (h : CoreInv s) (ht : coreStep s = .next t) : CoreInv t := by
  cases hp : s.phase with
  | idle =>
    rw [coreStep_idle hp] at ht
    obtain rfl := Host.Outcome.next.inj ht
    exact h
  | busy =>
    have hwrites := coreStep_writesTo ht
    obtain ⟨hlat, hsnap, hprogress⟩ := coreStep_operands ht
    obtain ⟨u, hu, hsettles⟩ := coreStep_settles hp
    obtain rfl := Host.Outcome.next.inj (hu.symm.trans ht)
    exact {
      memWf := hwrites.mem_wf h.memWf
      snapWf := by rw [hsnap]; exact h.snapWf
      memBound := hwrites.mem_bound h.memBound
      journalBound := hwrites.journal_bound h.journalBound
      regs := h.regs.of_settles hsettles (coreStep_diag (fun hb => (h.cursors hb).decode) ht).1
      busy := fun hb => by
        rcases hsettles with hgo | ⟨⟨c, hidle, -⟩, -⟩
        · rw [hgo.regs]
          exact h.busy hp
        · rw [hidle] at hb
          cases hb
      progress := fun _ => by rw [hprogress, State.inputLen_congr hlat]; exact h.progress hp
      cursors := coreStep_cursors (h.cursors hp) hp ht }

/-- Each of the things a step can do keeps the invariant of the core. -/
theorem step_coreInv {s t : State} (h : CoreInv s) (ht : step s = .next t) : CoreInv t := by
  cases step_cases ht with
  | core u _ same run => exact (h.of_sameCore same).coreStep run
  | reset u _ same eq => exact eq ▸ (h.of_sameCore same).resetCore
  | start w u _ same eq => exact eq ▸ (h.of_sameCore same).start w
  | status v _ idle same => exact (h.withRegs (h.regs.writeStatus v) (by rw [idle]; nofun)).of_sameCore same
  | ctrl v _ _ same => exact (h.withRegs (h.regs.withIe (v.getLsbD 0)) fun _ => ⟨rfl, rfl, rfl⟩).of_sameCore same
  | operand off v _ idle _ same =>
    exact (h.withRegs (h.regs.writeOperand off v) (by rw [idle]; nofun)).of_sameCore same
  | ignored _ _ _ _ _ same => exact h.of_sameCore same
  | read _ _ same => exact h.of_sameCore same
  | progress u _ _ same eq => exact eq ▸ (h.of_sameCore same).readProgress
  | memRead _ _ same => exact h.of_sameCore same
  | memWrite a b u _ same bound eq => exact eq ▸ (h.of_sameCore same).write bound b

/-! ## The obligations -/

/-- Settles O58: a reset leaves an idle core, so all but the memory is by the reset values. -/
theorem invHoldsAtReset : Obligations.InvHoldsAtReset := by
  unfold Obligations.InvHoldsAtReset
  have hreset : ∀ m : Mem, Mem.wf m = true → (∀ c ∈ m, c.1 < Config.memSize) → Inv (State.resetWith m) :=
    fun m hm hb => (coreInv_resetWith hm hb).inv nofun
  exact ⟨hreset _ Mem.atReset_wf Mem.atReset_bound, hreset⟩

/-- Settles O59: a step keeps the invariant of the core, and a command's end stays to be observed while it runs. -/
theorem invKeptByEveryStep : Obligations.InvKeptByEveryStep := by
  unfold Obligations.InvKeptByEveryStep
  exact fun s t h ht => (step_coreInv h.core ht).inv (step_awaiting ht h.awaiting)

end Sys2Proof.Machine

/-! PROOFS. The two directions of the encoding (spec/30_encoding.md), and that a step runs what was decoded: the command
of the latched word (R112), or the item of the stream that is due (R158 to R160). -/
namespace Sys2Proof.Machine

/-! ## Decoding what was encoded -/

theorem encode_of_command {i : Instr} (hk : i.kind = .command) : encode i = le32 (commandWord i) := by
  cases i with
  | ctrl c => cases hk
  | lit v => cases hk
  | copy off len => cases hk
  | _ => rfl

theorem ofNat_toNat_word (w : Word) : BitVec.ofNat 32 w.toNat = w := by rw [BitVec.ofNat_toNat, BitVec.setWidth_eq]

theorem decode_command_le32 (w : Word) (rest : List Byte) :
    decode .command (le32 w ++ rest) = .ok (decodeCommand w, rest) := by
  have hw : BitVec.ofNat 32 (leNat (le32 w)) = w := by rw [leNat_le32, ofNat_toNat_word]
  exact congrArg (fun v => Except.ok (decodeCommand v, rest)) hw

theorem decodeCommand_commandWord {i : Instr} (hk : i.kind = .command) (hi : i.wellFormed = true) :
    decodeCommand (commandWord i) = i := by
  cases i with
  | illegalOp w =>
    have hw : definedCommandWord w = false := by simpa [Instr.wellFormed] using hi
    exact decodeCommand_undefined hw
  | ctrl c => cases hk
  | lit v => cases hk
  | copy off len => cases hk
  | _ => rfl

/-- Settles O1: a command is read back from its word, a Copy from the two halves of its encoded value, and the other items
are their byte. -/
theorem decodeOfEncodedInstruction : Obligations.DecodeOfEncodedInstruction := by
  unfold Obligations.DecodeOfEncodedInstruction
  intro i rest hi
  cases hk : i.kind with
  | command => rw [encode_of_command hk, decode_command_le32, decodeCommand_commandWord hk hi]
  | control =>
    cases i with
    | ctrl c => rfl
    | _ => cases hk
  | literal =>
    cases i with
    | lit v => rfl
    | _ => cases hk
  | copy =>
    cases i with
    | copy off len =>
      obtain ⟨hoff, hlen⟩ := copy_wellFormed_iff.1 hi
      obtain ⟨hoff', hlen'⟩ := copy_decode_encode hoff hlen
      exact congrArg₂ (fun off len => Except.ok (Instr.copy off len, rest)) hoff' hlen'
    | _ => cases hk

/-! ## Encoding what was decoded -/

theorem decodeCommand_wellFormed (w : Word) : (decodeCommand w).wellFormed = true := by
  cases hd : definedCommandWord w with
  | false =>
    rw [decodeCommand_undefined hd]
    exact congrArg not hd
  | true =>
    obtain ⟨h1, h8⟩ := (definedCommandWord_iff w).1 hd
    rw [← ofNat_toNat_word w]
    interval_cases w.toNat <;> rfl

theorem encode_decodeCommand (b0 b1 b2 b3 : Byte) :
    encode (decodeCommand (BitVec.ofNat 32 (leNat [b0, b1, b2, b3]))) = [b0, b1, b2, b3] := by
  rw [encode_of_command (decodeCommand_kind _), commandWord_decodeCommand, le32_leNat]

/-- Settles O2: the bytes of each kind of item are those of the instruction they were read as. -/
theorem encodeOfDecodedBytes : Obligations.EncodeOfDecodedBytes := by
  unfold Obligations.EncodeOfDecodedBytes
  intro k bs rest i h
  match k, bs, h with
  | .command, b0 :: b1 :: b2 :: b3 :: _, h =>
    obtain ⟨rfl, rfl⟩ := Prod.mk.inj (Except.ok.inj h)
    exact ⟨congrArg (· ++ _) (encode_decodeCommand b0 b1 b2 b3), decodeCommand_wellFormed _, decodeCommand_kind _⟩
  | .control, c :: _, h =>
    obtain ⟨rfl, rfl⟩ := Prod.mk.inj (Except.ok.inj h)
    exact ⟨rfl, rfl, rfl⟩
  | .literal, v :: _, h =>
    obtain ⟨rfl, rfl⟩ := Prod.mk.inj (Except.ok.inj h)
    exact ⟨rfl, rfl, rfl⟩
  | .copy, b0 :: b1 :: _, h =>
    obtain ⟨rfl, rfl⟩ := Prod.mk.inj (Except.ok.inj h)
    exact ⟨congrArg (· ++ _) (copy_encode_decode b0 b1), copy_wellFormed_iff.2 (copy_ranges b0 b1), rfl⟩

/-! ## Running what was decoded -/

theorem coreStep_dispatch {s : State} (hb : s.phase = .busy) (he : s.seq.engine = .dispatch) (hs : s.seq.stall = 0) :
    coreStep s = exec (decodeCommand s.op) s := by
  rw [coreStep_busy hb, if_neg (not_not.2 hs), he]

theorem coreStep_stalled {s : State} (hb : s.phase = .busy) (hs : s.seq.stall ≠ 0) : coreStep s = .next s.waitStep := by
  rw [coreStep_busy hb, if_pos hs]

theorem coreStep_decode {s : State} (hb : s.phase = .busy) (he : s.seq.engine = .decode) (hs : s.seq.stall = 0) :
    coreStep s = decodeStep s := by
  rw [coreStep_busy hb, if_neg (not_not.2 hs), he]

/-- R211: while output is missing, a decode taken one item a step runs the item its stream bytes decode to. -/
theorem decodeStep_of_item {s : State} {i : Instr} {rest : List Byte} (hj : s.dec.j < s.target)
    (h : decode s.itemDue s.streamBytes = .ok (i, rest)) : decodeStep s = exec i s := by
  have hfetch : fetchItem s = .ok i := by rw [fetchItem, h]; rfl
  rw [decodeStep, if_pos hj, hfetch]

/-- Settles O7: both forms of a core step take the command out of the same state, and waiting touches the count alone. -/
theorem stepRunsDispatchedCommand : Obligations.StepRunsDispatchedCommand := by
  unfold Obligations.StepRunsDispatchedCommand
  intro s hb he
  refine ⟨fun hs => ?_, fun hs rest => ?_⟩
  · have hrun : ∀ xs, coreStep (s.withInputs xs) = exec (decodeCommand s.op) (s.withInputs xs) :=
      fun xs => coreStep_dispatch (s := s.withInputs xs) hb he hs
    exact ⟨hrun, hrun []⟩
  · rw [step_tick, coreStep_stalled (s := s.withInputs rest) hb hs]
    rfl

/-- Settles O8: what the decoder reads is well-formed (O2), and both forms of a core step run it. -/
theorem stepRunsStreamItem : Obligations.StepRunsStreamItem := by
  unfold Obligations.StepRunsStreamItem
  intro s i rest hb he hs hj h
  have hrun : ∀ xs, coreStep (s.withInputs xs) = exec i (s.withInputs xs) := fun xs =>
    (coreStep_decode (s := s.withInputs xs) hb he hs).trans (decodeStep_of_item (s := s.withInputs xs) hj h)
  exact ⟨(encodeOfDecodedBytes _ _ _ _ h).2.1, hrun, hrun []⟩

end Sys2Proof.Machine

/-! PROOFS. Round trips through the machine: a written header parses back (R137), and a container that was encoded decodes
back (R197, R202, R218). -/
namespace Sys2Proof.Machine

/-! ## What was stored, read as input -/

theorem Stores.read {lo i : Nat} {bs : List Byte} {s t : State} (h : Stores lo bs s t) (hi : i < bs.length) :
    Mem.read t.mem (lo + i) = byteAt bs i := by
  rw [h, if_pos (by omega), Nat.add_sub_cancel_left]

theorem State.input_eq {s : State} {bs : List Byte} (hl : s.inputLen = bs.length)
    (h : ∀ i, i < bs.length → s.inRead i = byteAt bs i) : s.input = bs := by
  refine List.ext_getElem (by rw [State.input_length, hl]) fun i h1 h2 => ?_
  rw [← List.getD_eq_getElem _ 0 h1, ← List.getD_eq_getElem _ 0 h2]
  exact (s.byteAt_input (hl ▸ h2)).trans (h i h2)

/-! ## A header, read back -/

/-- An input that begins with a header's bytes has its signature and its two sizes (R130, R131, R135). -/
theorem header_read {q : State} {u c : Word} (h : ∀ i, i < 32 → q.inRead i = byteAt (headerBytes u c) i) :
    q.HasSignature ∧ q.field 0x14 = u ∧ q.field 0x18 = c := by
  have hword : ∀ v : Word, BitVec.ofNat 32 (leNat (le32 v)) = v := fun v => by
    rw [leNat_le32, ofNat_toNat_word]
  refine ⟨⟨h 0 (by decide), h 1 (by decide), h 2 (by decide), h 3 (by decide)⟩, ?_, ?_⟩
  · rw [← inField_eq_field, State.inField, h 0x14 (by decide), h 0x15 (by decide), h 0x16 (by decide), h 0x17 (by decide)]
    exact hword u
  · rw [← inField_eq_field, State.inField, h 0x18 (by decide), h 0x19 (by decide), h 0x1A (by decide), h 0x1B (by decide)]
    exact hword c

/-- Settles O30: the parse finds the signature and the two sizes, and whether it clamps is a matter of `CSIZE` alone. -/
theorem writtenHeaderParsesBack : Obligations.WrittenHeaderParsesBack := by
  unfold Obligations.WrittenHeaderParsesBack
  intro s t q hm hroom hexec hlen hrange hread
  obtain ⟨u, hu, hmem, -⟩ := exec_writeHeader_stored hroom
  obtain rfl := Host.Outcome.next.inj (hu.symm.trans hexec)
  have hstored := stores_of_writeList (t := u) hm hmem
  obtain ⟨hsig, husize, hcsize⟩ := header_read fun i hi => (hread i hi).trans (hstored.read hi)
  obtain ⟨p, hp, hpu, hpc, hclamped, hslen⟩ := parseHeader_of_hasSignature hlen hsig
  refine ⟨_, exec_parseHeader_of_ok (not_inputOutOfRange hrange) hp, finish_endedWith _, hpu.trans husize,
    hpc.trans hcsize, fun hc hfits => ?_, fun hbare => ?_⟩
  · have hkept : p.clamped = false := by
      refine Bool.eq_false_iff.2 fun hclamp => ?_
      rcases hclamped.1 hclamp with hzero | hshort
      · exact hc (hcsize.symm.trans hzero)
      · rw [hcsize] at hshort
        exact absurd hfits (Nat.not_le.2 hshort)
    rw [hkept, if_neg Bool.false_ne_true, hcsize] at hslen
    refine ⟨?_, ?_⟩
    · show BitVec.ofNat 32 p.slen = _
      rw [hslen, ofNat_toNat_word]
    · show (q.regs.diagClamp || p.clamped) = _
      rw [hkept, Bool.or_false]
  · have hempty : q.inputLen - 32 = 0 := Nat.sub_eq_zero_of_le hbare.le
    have hclamp : p.clamped = true := by
      refine hclamped.2 ?_
      rw [State.NeedsClamp, hempty, ← BitVec.toNat_inj]
      exact Nat.eq_zero_or_pos _
    rw [hclamp, if_pos rfl, hempty] at hslen
    refine ⟨congrArg (BitVec.ofNat 32) hslen, ?_⟩
    show (q.regs.diagClamp || p.clamped) = true
    rw [hclamp, Bool.or_true]

/-! ## Decodes whose output can all be written -/

section Room

variable {bad : Nat → Option ErrCode} {T : Nat} (h : ∀ j, j < T → bad j = none)
include h

theorem refCopy_of_room (off len : Nat) {out : List Byte} (hout : out.length ≤ T) :
    refCopy bad T off len out = refCopy noError T off len out := by
  induction len generalizing out with
  | zero => rfl
  | succ len ih =>
    by_cases hT : out.length = T
    · rw [refCopy, if_pos hT, refCopy, if_pos hT]
    · have hlt : out.length < T := Nat.lt_of_le_of_ne hout hT
      simp only [refCopy, if_neg hT, refPut, h _ hlt]
      exact ih (by simpa using hlt)

theorem refDecodeFrom_of_room {S : List Byte} {bits : List Bool} {used : Nat} {out : List Byte} (hout : out.length ≤ T) :
    refDecodeFrom bad T S bits used out = refDecodeFrom noError T S bits used out := by
  by_cases hT : T ≤ out.length
  · rw [refDecodeFrom_reached hT, refDecodeFrom_reached hT]
  have hmissing : out.length < T := Nat.lt_of_not_le hT
  match bits, S with
  | [], [] => rw [refDecodeFrom_noControl hmissing, refDecodeFrom_noControl hmissing]
  | [], b0 :: S =>
    rw [refDecodeFrom_control hmissing, refDecodeFrom_control hmissing]
    exact refDecodeFrom_of_room hout
  | false :: bs, [] => rw [refDecodeFrom_noLiteral hmissing, refDecodeFrom_noLiteral hmissing]
  | false :: bs, b0 :: S =>
    rw [refDecodeFrom_literal hmissing, refDecodeFrom_literal hmissing, h _ hmissing]
    exact refDecodeFrom_of_room (by simpa using hmissing)
  | true :: bs, [] | true :: bs, [b0] =>
    rw [refDecodeFrom_noCopy hmissing (by simp), refDecodeFrom_noCopy hmissing (by simp)]
  | true :: bs, b0 :: b1 :: S =>
    rw [refDecodeFrom_copy hmissing, refDecodeFrom_copy hmissing, refCopy_of_room h _ _ hout]
    have hbound := refCopy_bound (bad := noError) (copyOffset b0 b1) (copyLength b0) hout
    rcases hcopy : refCopy noError T (copyOffset b0 b1) (copyLength b0) out with ⟨out', _ | e⟩
    · rw [hcopy] at hbound
      exact refDecodeFrom_of_room hbound
    · rfl
termination_by S.length

theorem refDecode_of_room (S : List Byte) : refDecode bad T S = refDecode noError T S := by
  unfold refDecode
  rw [refDecodeFrom_of_room h (out := []) (Nat.zero_le T)]

end Room

/-! ## A container, decoded back -/

/-- The stream of a container, cut as the header parse cuts it, decodes to the input: where the declared size is 0 nothing
is to be decoded, however long the padding. -/
theorem refDecode_container {X : List Byte} {clamp : Bool} (rest : List Byte)
    (hc : clamp = true → (refEncode X).length = 0) :
    ∃ used, refDecode noError X.length
      ((refEncode X ++ rest).take (if clamp then (refEncode X ++ rest).length else (refEncode X).length)) =
        { out := X, used := used, error := none } := by
  cases clamp with
  | false =>
    rw [if_neg Bool.false_ne_true, List.take_left]
    exact ⟨_, encodingDecodesToInput X⟩
  | true =>
    obtain rfl : X = [] := List.length_eq_zero_iff.1 ((refEncode_length_eq_zero_iff X).1 (hc rfl))
    refine ⟨0, ?_⟩
    rw [refDecode, if_neg fun hne => hne.2 rfl]
    exact refDecodeFrom_reached (Nat.le_refl 0)

/-- A container with room for all its bytes is shorter than the memory. -/
theorem State.Room.length_lt {chk : Bool} {n : Nat} {s : State} (h : s.Room chk n) : n < 2 ^ 32 := by
  by_contra hn
  have := (State.outWriteError_eq_none.1 (h (2 ^ 32 - 1) (by omega))).1
  rw [State.outAddr] at this
  simp only [Config.addrTop] at this
  omega

/-- What a machine reads whose input is a container of `X`: the header with both sizes, and the stream behind it. -/
theorem container_read {q : State} {X : List Byte} (hl : q.inputLen = (refContainer X).length)
    (h : ∀ i, i < q.inputLen → q.inRead i = byteAt (refContainer X) i) :
    32 ≤ q.inputLen ∧ q.HasSignature ∧ q.field 0x14 = BitVec.ofNat 32 X.length ∧
      q.field 0x18 = BitVec.ofNat 32 (refEncode X).length ∧
      ∃ rest, q.input.drop 32 = refEncode X ++ rest := by
  have hlen : 32 ≤ q.inputLen := by
    have := refContainer_length X
    omega
  have hinput : q.input = refContainer X := State.input_eq hl (hl ▸ h)
  obtain ⟨hsig, husize, hcsize⟩ := header_read (q := q) (u := BitVec.ofNat 32 X.length)
    (c := BitVec.ofNat 32 (refEncode X).length) fun i hi => by
      rw [h i (by omega), refContainer, List.append_assoc, byteAt, byteAt]
      exact List.getD_append _ _ _ _ hi
  refine ⟨hlen, hsig, husize, hcsize, List.replicate (padAmount (Config.hdrSize + (refEncode X).length)) 0, ?_⟩
  rw [hinput, refContainer, List.append_assoc]
  exact List.drop_left' rfl

/-- Settles O46: the encode stored the container (O42), whose parts the decode finds (O39), and their list-level decode is
the input (O45), with no write raised where there is room. -/
theorem encodedContainerDecodesBack : Obligations.EncodedContainerDecodesBack := by
  unfold Obligations.EncodedContainerDecodesBack
  intro s t q hsb hsp hsm hsr hsroom hsexec hqb hqp hqm hqr hqlen hqread hqroom
  obtain ⟨t', ht', -, -, -, hstored, hregs⟩ := ((encodeContainerOutcome s hsb hsp hsm).2 hsr).1 hsroom
  obtain rfl := Host.Outcome.next.inj (ht'.symm.trans hsexec)
  have hlen : q.inputLen = (refContainer s.input).length := by
    rw [State.inputLen, hqlen, hregs]
    exact Nat.mod_eq_of_lt hsroom.length_lt
  have hsize : BitVec.ofNat 32 s.input.length = s.lat.inLen := by
    rw [State.input_length, State.inputLen, ofNat_toNat_word]
  obtain ⟨h32, hsig, husize, hcsize, rest, hstream⟩ := container_read (q := q) hlen fun i hi =>
    (hqread i hi).trans (hstored.read (hlen ▸ hi))
  have hfits : 32 + (refEncode s.input).length ≤ q.inputLen := by
    rw [hlen, refContainer_length]
    exact Nat.le_add_right _ _
  have hword : (BitVec.ofNat 32 (refEncode s.input).length).toNat = (refEncode s.input).length :=
    Nat.mod_eq_of_lt (by have := q.lat.inLen.isLt; rw [State.inputLen] at hfits; omega)
  rw [hsize] at husize
  obtain ⟨p, hp, -, -, hclamped, -⟩ := parseHeader_of_hasSignature h32 hsig
  obtain ⟨r, d, n, hn, hd, hexec, hidle, -, -, hstores, hrregs⟩ :=
    ((decodeContainerOutcome q hqb hqp hqm).2 hqr).2 h32 hsig p.clamped hclamped
  have hclamp : p.clamped = true → (refEncode s.input).length = 0 := fun hc => by
    rcases hclamped.1 hc with hzero | hshort
    · rw [← hword, ← hcsize, hzero]
      rfl
    · rw [hcsize, hword] at hshort
      omega
  have hcut : n = if p.clamped then (refEncode s.input ++ rest).length else (refEncode s.input).length := by
    rw [hn, hcsize, hword, ← hstream, List.length_drop, State.input_length]
    rfl
  obtain ⟨used, hused⟩ := refDecode_container rest hclamp
  have hT : s.lat.inLen.toNat = s.input.length := s.input_length.symm
  rw [husize, hstream, refDecode_of_room hqroom, hcut, hT, hused] at hd
  subst hd
  refine ⟨r, hexec, ⟨hidle, ?_, ?_, ?_⟩, ?_, ?_, hstores⟩ <;> rw [hrregs]
  · rfl
  · rfl
  · rfl
  · exact husize
  · exact hsize

end Sys2Proof.Machine

/-! PROOFS. Reset and the register accesses (spec/70_reset_and_hazards.md R290 to R296, spec/10_state.md R20, R32): what a
reset leaves of an abandoned command, what each register offset reads and takes, and that an idle core does nothing. -/
namespace Sys2Proof.Machine

/-! ## Reset -/

/-- Settles O23: both are the same reset, after which `CTRL` reads 0. -/
theorem softResetActsAsHardReset : Obligations.SoftResetActsAsHardReset := by
  unfold Obligations.SoftResetActsAsHardReset
  intro s v rest hv
  have hsoft := step_reset (.inr ⟨v, rfl, hv⟩) rest s
  refine ⟨hsoft.trans (step_hardReset rest s).symm, fun t ht => ?_⟩
  obtain rfl := Host.Outcome.next.inj (hsoft.symm.trans ht)
  exact ⟨rfl, (ctrlWord_fields _).2.1⟩

/-- Taking the newest writes back leaves the first `kept` writes of the whole sequence (R291). -/
theorem abandonedMem_eq {s : State} {m : Mem} {ws : List Host.Cell} (kept : Nat) (hm : Mem.wf m = true)
    (hmem : (runToEnd s).mem = Mem.writeAll m ws) (hjournal : (runToEnd s).journal = Mem.replaced m ws) :
    abandonedMem kept s = Mem.writeAll m (ws.take kept) := by
  rw [abandonedMem, hmem, hjournal, Mem.replaced_length]
  exact Mem.undo_to kept hm

/-- Settles O24: carried to its end the command goes on from the writes it has made, and the reset takes back all but the
drawn number of first ones. -/
theorem resetAbandonsCommand : Obligations.ResetAbandonsCommand := by
  unfold Obligations.ResetAbandonsCommand
  intro s m made rest x hx hb hm hmem hjournal
  obtain ⟨more, hmem', hjournal', -⟩ := runToEnd_writesTo (s.withInputs rest)
  have hall : (runToEnd (s.withInputs rest)).mem = Mem.writeAll m (made ++ more) := by
    rw [Mem.writeAll_append, ← hmem]
    exact hmem'
  have hnoted : (runToEnd (s.withInputs rest)).journal = Mem.replaced m (made ++ more) := by
    rw [Mem.replaced_append, ← hmem, ← hjournal]
    exact hjournal'
  refine ⟨more, Config.resetKept s.seq.draws, _, hall, hnoted, step_reset hx rest s, ?_, rfl, rfl⟩
  show (s.withInputs rest).memAfterReset = _
  rw [State.memAfterReset, show (s.withInputs rest).phase = .busy from hb]
  exact abandonedMem_eq _ hm hall hnoted

/-! ## The register map -/

/-- The fourteen registers (R20): offset and value. -/
def State.regTable (s : State) : List (Nat × Word) :=
  [(0x00, (0x504D4350 : Word)), (0x04, s.regs.ctrlWord), (0x08, s.regs.cmd), (0x0C, s.statusWord), (0x10, s.regs.inBase),
    (0x14, s.regs.inLen), (0x18, s.regs.outBase), (0x1C, s.regs.outLen), (0x20, s.regs.usize), (0x24, s.regs.csize),
    (0x28, s.regs.slen), (0x2C, s.regs.inUsed), (0x30, s.regs.mpos), (0x34, s.regs.mres)]

theorem regTable_values {s : State} {off : Nat} {v : Word} (h : (off, v) ∈ s.regTable) :
    off % 4 = 0 ∧ off < 0x100 ∧ s.regValue off = v := by
  simp only [State.regTable, List.mem_cons, Prod.mk.injEq, List.not_mem_nil, or_false] at h
  rcases h with h | h | h | h | h | h | h | h | h | h | h | h | h | h <;> obtain ⟨rfl, rfl⟩ := h
  all_goals exact ⟨by decide, by decide, rfl⟩

/-- What a write of `v` while idle leaves in the registers, at each offset but those of `CTRL`, `CMD` and `STATUS`. -/
def Regs.writeTable (v : Word) (r : Regs) : List (Nat × Regs) :=
  [(0x10, { r with inBase := v }), (0x14, { r with inLen := v }), (0x18, { r with outBase := v }),
    (0x1C, { r with outLen := v }), (0x20, { r with usize := v }), (0x24, { r with csize := v }),
    (0x30, { r with mpos := v }), (0x00, r), (0x28, r), (0x2C, r), (0x34, r)]

theorem writeTable_values {off : Nat} {v : Word} {r r' : Regs} (h : (off, r') ∈ r.writeTable v) :
    (off % 4 = 0 ∧ off < 0x100) ∧ (off ≠ 0x04 ∧ off ≠ 0x08 ∧ off ≠ 0x0C) ∧ r.writeOperand off v = r' := by
  simp only [Regs.writeTable, List.mem_cons, Prod.mk.injEq, List.not_mem_nil, or_false] at h
  rcases h with h | h | h | h | h | h | h | h | h | h | h <;> obtain ⟨rfl, rfl⟩ := h
  all_goals exact ⟨by decide, by decide, rfl⟩

theorem step_regWrite_operand {off : Nat} (hok : off % 4 = 0 ∧ off < 0x100) (hoff : off ≠ 0x04 ∧ off ≠ 0x08 ∧ off ≠ 0x0C)
    {s : State} (hi : s.phase = .idle) (v : Word) (xs : List Input) :
    ∃ t, step (s.withInputs (.regWrite off 4 v :: xs)) = .next t ∧
      SameCore (s.withRegs (s.regs.writeOperand off v)) t := by
  have hs := seen_same s xs
  rw [step_regWrite_ok hok.1 hok.2, writeReg_operand v hoff.1 hoff.2.1 hoff.2.2 (hs.phase.trans hi), hs.regs]
  exact ⟨_, rfl, hs.withRegs _⟩

theorem step_regAccess_refused {off width : Nat} (h : ¬ (width = 4 ∧ off % 4 = 0 ∧ off < 0x100)) (v : Word)
    (xs : List Input) (s : State) :
    step (s.withInputs (.regRead off width :: xs)) = .refused .registerAccessShape ∧
      step (s.withInputs (.regWrite off width v :: xs)) = .refused .registerAccessShape := by
  have hno : ¬ regAccessOk off width = true := fun hok => h (regAccessOk_iff.1 hok)
  rw [step_regRead, step_regWrite, if_neg hno, if_neg hno]
  exact ⟨rfl, rfl⟩

/-- Settles O15, by the tables of the registers and of the writes, and the one rule for each kind of access. -/
theorem registerMap : Obligations.RegisterMap := by
  unfold Obligations.RegisterMap
  refine fun s rest => ⟨fun off v hmem hidle => ?_, fun off h4 hlo hhi => ?_, fun hi v off r hr => ?_,
    fun off width v h => step_regAccess_refused h v rest s, reset_regValue (s := State.reset) rfl rfl⟩
  · obtain ⟨h4, hlt, rfl⟩ : off % 4 = 0 ∧ off < 0x100 ∧ s.regValue off = v := regTable_values hmem
    exact step_regRead_spec h4 hlt (Decidable.or_iff_not_imp_left.2 fun hne => hidle (not_not.1 hne)) rest
  · obtain ⟨t, ht, hsame, hdata⟩ := step_regRead_spec h4 hhi (s := s) (.inl (by omega)) rest
    exact ⟨t, ht, hsame, hdata.trans (regValue_reserved hlo)⟩
  · obtain ⟨hok, hoff, hregs⟩ : (off % 4 = 0 ∧ off < 0x100) ∧ (off ≠ 0x04 ∧ off ≠ 0x08 ∧ off ≠ 0x0C) ∧
        s.regs.writeOperand off v = r := by
      rcases hr with hmem | ⟨h4, hlo, hhi, rfl⟩
      · exact writeTable_values hmem
      · exact ⟨⟨h4, hhi⟩, ⟨by omega, by omega, by omega⟩, writeOperand_reserved hlo⟩
    rw [← hregs]
    exact step_regWrite_operand hok hoff hi v rest

/-- Settles O16: the drawn value lies between the last one and the input's length, and is all the read changes. -/
theorem progressReadsAreBoundedAndMonotone : Obligations.ProgressReadsAreBoundedAndMonotone := by
  unfold Obligations.ProgressReadsAreBoundedAndMonotone
  intro s rest hb hp
  have hdata : (s.withInputs rest).readProgress.port.rdata.toNat = (s.withInputs rest).readProgress.seq.progress :=
    readProgress_value (s := s.withInputs rest) hp
  obtain ⟨hlo, hhi⟩ := drawProgress_bounds (s := s.withInputs rest) hp
  refine ⟨_, step_regRead_progress hb rest, ?_, ?_, hdata.symm, rfl, rfl, rfl, rfl, rfl, rfl, rfl, rfl, rfl, rfl, rfl⟩
  · rw [hdata]
    exact hlo
  · rw [hdata]
    exact hhi

/-! ## An idle core -/

/-- All that an idle core keeps but by a reset (R293): the phase, the internal state, and the registers that only a command
writes. -/
structure SameIdle (s t : State) : Prop where
  phase : t.phase = s.phase
  op : t.op = s.op
  lat : t.lat = s.lat
  snap : t.snap = s.snap
  enc : t.enc = s.enc
  dec : t.dec = s.dec
  seq : t.seq = s.seq
  slen : t.regs.slen = s.regs.slen
  inUsed : t.regs.inUsed = s.regs.inUsed
  mres : t.regs.mres = s.regs.mres

theorem SameCore.sameIdle {s t : State} {r : Regs} (h : SameCore (s.withRegs r) t)
    (hr : r.slen = s.regs.slen ∧ r.inUsed = s.regs.inUsed ∧ r.mres = s.regs.mres) : SameIdle s t where
  phase := h.phase
  op := h.op
  lat := h.lat
  snap := h.snap
  enc := h.enc
  dec := h.dec
  seq := h.seq
  slen := (congrArg Regs.slen h.regs).trans hr.1
  inUsed := (congrArg Regs.inUsed h.regs).trans hr.2.1
  mres := (congrArg Regs.mres h.regs).trans hr.2.2

theorem writeOperand_results (off : Nat) (v : Word) (r : Regs) :
    (r.writeOperand off v).slen = r.slen ∧ (r.writeOperand off v).inUsed = r.inUsed ∧
      (r.writeOperand off v).mres = r.mres := by
  unfold Regs.writeOperand
  split <;> exact ⟨rfl, rfl, rfl⟩

/-- What a step from an idle state does that starts no command. -/
inductive IdleStep (s t : State) : Prop where
  | reset (next : s.ResetNext) (idle : t.phase = .idle) (mem : t.mem = s.mem)
  | keep (same : SameIdle s t) (mem : t.mem = s.mem)
  | write (a : Nat) (b : Byte) (next : s.InputNext (.memWrite a b)) (same : SameIdle s t)
      (mem : t.mem = Mem.write s.mem a b)

theorem step_idle {s t : State} (hi : s.phase = .idle) (hs : ∀ w, ¬ s.StartNext w) (h : step s = .next t) :
    IdleStep s t := by
  have hkeep : ∀ {r : Regs}, SameCore (s.withRegs r) t →
      r.slen = s.regs.slen ∧ r.inUsed = s.regs.inUsed ∧ r.mres = s.regs.mres → IdleStep s t :=
    fun same hr => .keep (same.sameIdle hr) same.mem
  have hsame : SameCore s t → IdleStep s t := fun same => hkeep (r := s.regs) same ⟨rfl, rfl, rfl⟩
  cases step_cases h with
  | core u _ same run =>
    rw [coreStep_idle (same.phase.trans hi)] at run
    exact hsame (Host.Outcome.next.inj run ▸ same)
  | reset u next same eq =>
    refine .reset next (eq ▸ rfl) ?_
    rw [eq]
    show u.memAfterReset = s.mem
    rw [State.memAfterReset, same.phase.trans hi]
    exact same.mem
  | start w u next _ _ => exact absurd next (hs w)
  | status v _ _ same => exact hkeep same ⟨rfl, rfl, rfl⟩
  | ctrl v _ _ same => exact hkeep same ⟨rfl, rfl, rfl⟩
  | operand off v _ _ _ same => exact hkeep same (writeOperand_results off v s.regs)
  | ignored _ _ _ _ _ same => exact hsame same
  | read _ _ same => exact hsame same
  | progress _ _ busy _ _ =>
    rw [hi] at busy
    cases busy
  | memRead _ _ same => exact hsame same
  | memWrite a b u other same _ eq =>
    have hu := same.sameIdle (r := s.regs) ⟨rfl, rfl, rfl⟩
    exact .write a b other.next (eq ▸ { hu with }) (by rw [eq, same.mem])

/-- Settles O25, by the three things a step from an idle state can do. -/
theorem idleCoreExecutesNothing : Obligations.IdleCoreExecutesNothing := by
  unfold Obligations.IdleCoreExecutesNothing
  intro s t hi hs h
  have hkept : SameIdle s t → t.phase = .idle ∧ (¬ s.ResetNext → t.op = s.op ∧ t.lat = s.lat ∧ t.snap = s.snap ∧
      t.enc = s.enc ∧ t.dec = s.dec ∧ t.seq = s.seq ∧ t.regs.slen = s.regs.slen ∧ t.regs.inUsed = s.regs.inUsed ∧
      t.regs.mres = s.regs.mres) := fun same =>
    ⟨same.phase.trans hi, fun _ => ⟨same.op, same.lat, same.snap, same.enc, same.dec, same.seq, same.slen, same.inUsed,
      same.mres⟩⟩
  cases step_idle hi hs h with
  | reset next idle mem => exact ⟨idle, fun hno => absurd next hno, fun a _ hne => absurd (by rw [mem]) hne⟩
  | keep same mem => exact ⟨(hkept same).1, (hkept same).2, fun a _ hne => absurd (by rw [mem]) hne⟩
  | write a' b next same mem =>
    refine ⟨(hkept same).1, (hkept same).2, fun a hm hne => ⟨b, ?_⟩⟩
    rw [mem, Mem.read_write hm] at hne
    by_cases ha : a' = a
    · exact ha ▸ next
    · exact absurd (if_neg ha) hne

end Sys2Proof.Machine

/-! PROOFS. The host's memory accesses (spec/70_reset_and_hazards.md R295, R297): which are taken, which are refused, and
how long the regions of a command stay barred. -/
namespace Sys2Proof.Machine

/-! ## One memory access, given the regions held when it is made -/

theorem stores_write {s t : State} {a : Nat} {b : Byte} (hm : Mem.wf s.mem = true) (h : t.mem = Mem.write s.mem a b) :
    Stores a [b] s t :=
  stores_of_writeList (bs := [b]) hm h

/-- The regions the host must keep off as it makes an access: an asserted `IRQ` is taken first (R71, R300). -/
def State.heldAtAccess (xs : List Input) (s : State) : List Regions := (s.withInputs xs).takeIrq.heldRegions

theorem step_memAccess_fault {a : Nat} (ha : 0x100000000 ≤ a) (b : Byte) (xs : List Input) (s : State) :
    step (s.withInputs (.memRead a :: xs)) = .fault .addressOutsideMemory ∧
      step (s.withInputs (.memWrite a b :: xs)) = .fault .addressOutsideMemory :=
  ⟨if_pos ha, if_pos ha⟩

section Access

variable {a : Nat} (ha : a < 0x100000000) (b : Byte) (xs : List Input) (s : State)
include ha

theorem step_memRead_barred (h : ∃ r ∈ s.heldAtAccess xs, r.hasOutput a = true) :
    step (s.withInputs (.memRead a :: xs)) = .refused .hostTouchedOutputRegion := by
  rw [step_memRead, State.hostRead, if_neg (Nat.not_le.2 ha)]
  exact if_pos (List.any_eq_true.2 h)

theorem step_memRead_free (h : ¬ ∃ r ∈ s.heldAtAccess xs, r.hasOutput a = true) :
    ∃ t, step (s.withInputs (.memRead a :: xs)) = .next t ∧ SameCore s t ∧
      t.port.rdata = (Mem.read s.mem a).setWidth 32 := by
  have hsame := seen_same s xs
  rw [step_memRead, State.hostRead, if_neg (Nat.not_le.2 ha)]
  refine ⟨_, if_neg (fun hany => h (List.any_eq_true.1 hany)), ?_, ?_⟩
  · exact hsame.trans (by constructor <;> rfl)
  · exact congrArg (fun m => (Mem.read m a).setWidth 32) hsame.mem

theorem step_memWrite_input (h : ∃ r ∈ s.heldAtAccess xs, r.hasInput a = true) :
    step (s.withInputs (.memWrite a b :: xs)) = .refused .hostWroteInputRegion := by
  rw [step_memWrite, State.hostWrite, if_neg (Nat.not_le.2 ha)]
  exact if_pos (List.any_eq_true.2 h)

theorem step_memWrite_output (h : ∃ r ∈ s.heldAtAccess xs, r.hasOutput a = true) :
    ∃ r, step (s.withInputs (.memWrite a b :: xs)) = .refused r := by
  by_cases hin : ∃ r ∈ s.heldAtAccess xs, r.hasInput a = true
  · exact ⟨_, step_memWrite_input ha b xs s hin⟩
  · rw [step_memWrite, State.hostWrite, if_neg (Nat.not_le.2 ha)]
    exact ⟨_, (if_neg (fun hany => hin (List.any_eq_true.1 hany))).trans (if_pos (List.any_eq_true.2 h))⟩

theorem step_memWrite_free (hin : ¬ ∃ r ∈ s.heldAtAccess xs, r.hasInput a = true)
    (hout : ¬ ∃ r ∈ s.heldAtAccess xs, r.hasOutput a = true) :
    ∃ t, step (s.withInputs (.memWrite a b :: xs)) = .next t ∧ t.regs = s.regs ∧ t.phase = s.phase ∧
      (Mem.wf s.mem = true → Stores a [b] s t) := by
  have hsame := seen_same s xs
  rw [step_memWrite, State.hostWrite, if_neg (Nat.not_le.2 ha)]
  refine ⟨_, (if_neg (fun hany => hin (List.any_eq_true.1 hany))).trans (if_neg (fun hany => hout (List.any_eq_true.1 hany))),
    hsame.regs, hsame.phase, fun hm => stores_write hm ?_⟩
  exact congrArg (fun m => Mem.write m a b) hsame.mem

end Access

/-- Settles O57: with the end observed, or `IRQ` asserted, no region is held. -/
theorem hostMemoryAccess : Obligations.HostMemoryAccess := by
  unfold Obligations.HostMemoryAccess
  refine fun s a b rest => ⟨fun ha hi hfree => ?_, fun ha => step_memAccess_fault ha b rest s⟩
  have hnone : s.heldAtAccess rest = [] := by
    rw [State.heldAtAccess, takeIrq_heldRegions]
    split
    · rfl
    · rename_i hno
      rcases hfree with hobserved | hirq
      · exact heldRegions_free hi hobserved
      · exact absurd ⟨hi, hirq⟩ hno
  have hbarred : ∀ f : Regions → Bool, ¬ ∃ r ∈ s.heldAtAccess rest, f r = true := by
    rw [hnone]
    simp
  exact ⟨step_memRead_free ha rest s (hbarred _), step_memWrite_free ha b rest s (hbarred _) (hbarred _)⟩

/-! ## The regions of a running command -/

/-- The first address and the length of the output region that R297 gives the latched command. -/
def State.outputRegion (s : State) : Nat × Nat :=
  match decodeCommand s.op with
  | .writeHeader => (s.lat.outBase.toNat, 32)
  | .decodeStream => (s.lat.outBase.toNat, s.lat.usize.toNat)
  | .decodeContainer => (s.lat.outBase.toNat, (s.field 0x14).toNat)
  | .encodeStream => (s.lat.outBase.toNat, s.lat.inLen.toNat + (s.lat.inLen.toNat + 7) / 8)
  | .encodeContainer => (s.lat.outBase.toNat,
      2048 * ((32 + s.lat.inLen.toNat + (s.lat.inLen.toNat + 7) / 8 + 2047) / 2048))
  | .pad => (s.lat.outBase.toNat + s.lat.outLen.toNat, 2047)
  | .parseHeader | .findMatch | .illegalOp _ | .ctrl _ | .lit _ | .copy _ _ => (0, 0)

/-- A command that writes nothing has an empty region, wherever it starts. -/
theorem regions_hasOutput_iff (a : Nat) (s : State) :
    s.regions.hasOutput a = true ↔ s.outputRegion.1 ≤ a ∧ a < s.outputRegion.1 + s.outputRegion.2 := by
  rw [Regions.hasOutput_iff]
  show s.reservedOutputBase ≤ a ∧ a < s.reservedOutputBase + s.reservedOutputLen ↔ _
  unfold State.reservedOutputBase State.reservedOutputLen State.outputRegion
  cases decodeCommand s.op with
  | writeHeader => exact Iff.rfl
  | decodeStream => exact Iff.rfl
  | decodeContainer => rw [inField_eq_field]
  | encodeStream => exact Iff.rfl
  | encodeContainer => simp only [State.inputLen, Nat.add_assoc]
  | pad => exact Iff.rfl
  | _ =>
    show _ ≤ a ∧ a < _ + 0 ↔ 0 ≤ a ∧ a < 0 + 0
    omega

/-- Settles O56: until the end is observed the held regions are those of the latched command and the earlier ones, and an
access is refused exactly when one of them bars it. -/
theorem hostMemoryDiscipline : Obligations.HostMemoryDiscipline := by
  unfold Obligations.HostMemoryDiscipline
  intro s a lo len b rest ha hbarred hregion inB outB hinB houtB
  have hout : outB ↔ ∃ r ∈ s.heldAtAccess rest, r.hasOutput a = true := by
    have hown := regions_hasOutput_iff a s
    rw [show s.outputRegion = (lo, len) from hregion.symm, Regions.hasOutput_iff] at hown
    simp only [houtB, State.heldAtAccess, takeIrq_held rest hbarred, List.exists_mem_cons_iff, hown,
      Regions.hasOutput_iff]
  have hin : inB ↔ ∃ r ∈ s.heldAtAccess rest, r.hasInput a = true := by
    simp only [hinB, State.heldAtAccess, takeIrq_held rest hbarred, List.exists_mem_cons_iff, Regions.hasInput_iff]
    rfl
  refine ⟨fun h => step_memWrite_input ha b rest s (hin.1 h),
    fun h => ⟨step_memWrite_output ha b rest s (hout.1 h), step_memRead_barred ha rest s (hout.1 h)⟩,
    fun h => step_memRead_free ha rest s (mt hout.2 h), fun h h' => ?_⟩
  obtain ⟨t, ht, -, -, hstores⟩ := step_memWrite_free ha b rest s (mt hin.2 h') (mt hout.2 h)
  exact ⟨t, ht, hstores⟩

/-! ## How long the regions stay barred -/

/-- Settles O60, by the three things a step can do with the held regions. -/
theorem heldRegionsStayUntilObserved : Obligations.HeldRegionsStayUntilObserved := by
  unfold Obligations.HeldRegionsStayUntilObserved
  intro s t h ht
  cases step_hold ht with
  | start w next awaiting earlier =>
    refine ⟨fun v hv => ⟨?_, ?_⟩, fun hno => absurd next (hno w), fun hno => absurd next (hno w)⟩
    · obtain ⟨u, -, rfl⟩ := step_startNext ht hv
      rfl
    · rw [heldRegions_awaiting awaiting, earlier]
  | free start next idle awaiting earlier =>
    refine ⟨fun w hw => absurd hw (start w), fun _ hreset hobserve => absurd next (not_or.2 ⟨hreset, hobserve⟩),
      fun _ _ => heldRegions_free idle awaiting⟩
  | keep start reset observe busy hold =>
    exact ⟨fun w hw => absurd hw (start w), fun _ _ _ => hold.heldRegions h.awaiting busy,
      fun _ hfree => absurd hfree (not_or.2 ⟨reset, observe⟩)⟩

end Sys2Proof.Machine

/-! PROOFS. The items of the token stream (spec/45_decoder.md R211 to R214): the byte of a Literal, an item that cannot write
a byte, and an item for which the stream has no bytes left (spec/42_token_codec.md R158 to R160). -/
namespace Sys2Proof.Machine

/-! ## Items that write -/

theorem exec_lit_of_writable (v : Byte) {s : State} (h : s.outWriteError true s.dec.j = none) :
    exec (.lit v) s = .next ((s.takeToken 1).appendOutput v) :=
  congrArg (Host.Outcome.next ∘ decodeSettle) (decodeWrite_of_writable v (s := s.takeToken 1) h)

/-- Settles O34: the Literal's state is the one with its byte appended behind its stream byte. -/
theorem literalAppendsItsByte : Obligations.LiteralAppendsItsByte := by
  unfold Obligations.LiteralAppendsItsByte
  intro v s hm h
  have hexec := exec_lit_of_writable v h
  exact ⟨_, hexec, rfl, rfl, exec_sameSetup hexec, rfl, rfl, rfl, stores_write hm rfl⟩

theorem decodeWrite_of_error (v : Byte) {s : State} {e : ErrCode} (h : s.outWriteError true s.dec.j = some e) :
    decodeWrite v s = .raised e s.dec.j s := by
  rcases outWrite_cases true s.dec.j v s with ⟨c, hc, hraised⟩ | ⟨hnone, -⟩
  · obtain rfl := Option.some.inj (h.symm.trans hc)
    exact congrArg (Run.andThen · _) hraised
  · rw [h] at hnone
    cases hnone

theorem copyBytesOut_succ {off len : Nat} {s : State} (h : s.dec.j < s.target) :
    copyBytesOut off (len + 1) s = (decodeWrite (copySource off s) s).andThen (copyBytesOut off len) :=
  if_neg (Nat.ne_of_lt h)

/-- A Copy whose byte `m` cannot be written stops there, with the `m` bytes before it appended. -/
theorem copyBytesOut_raised {off : Nat} (hoff : 1 ≤ off) (m : Nat) {len : Nat} {s : State} {e : ErrCode}
    (hm : Mem.wf s.mem = true) (hlen : m < len) (htarget : s.dec.j + m < s.target)
    (hroom : ∀ k, k < m → s.outWriteError true (s.dec.j + k) = none)
    (herror : s.outWriteError true (s.dec.j + m) = some e) :
    ∃ t, copyBytesOut off len s = .raised e (s.dec.j + m) t ∧ CopiedOut off m s t := by
  induction m generalizing s len with
  | zero =>
    obtain ⟨len, rfl⟩ : ∃ n, len = n + 1 := ⟨len - 1, by omega⟩
    rw [copyBytesOut_succ htarget, decodeWrite_of_error _ herror]
    exact ⟨s, rfl, .zero off s⟩
  | succ m ih =>
    obtain ⟨len, rfl⟩ : ∃ n, len = n + 1 := ⟨len - 1, by omega⟩
    have hj : ∀ k, s.dec.j + (k + 1) = (s.appendOutput (copySource off s)).dec.j + k := fun k =>
      (Nat.add_right_comm s.dec.j k 1)
    obtain ⟨t, ht, hcopied⟩ := ih (len := len) (s := s.appendOutput (copySource off s)) (Mem.write_wf hm) (by omega)
      (hj m ▸ htarget) (fun k hk => hj k ▸ hroom (k + 1) (Nat.succ_lt_succ hk)) (hj m ▸ herror)
    refine ⟨t, ?_, hcopied.cons hoff hm⟩
    rw [copyBytesOut_succ (by omega), decodeWrite_of_writable _ (hroom 0 (Nat.succ_pos m)), Run.andThen_go, ht, hj]

/-- Settles O36: the write that raises ends the decode, with the bytes before it and behind the item's stream bytes. -/
theorem streamItemWriteErrors : Obligations.StreamItemWriteErrors := by
  unfold Obligations.StreamItemWriteErrors
  refine fun s e hm hj => ⟨fun v herror => ?_, fun off len m hoff hlen htarget hroom herror => ?_⟩
  · have hexec : exec (.lit v) s = .next (decodeError e s.dec.j (s.takeToken 1)) :=
      congrArg (Host.Outcome.next ∘ decodeSettle) (decodeWrite_of_error v (s := s.takeToken 1) herror)
    exact ⟨_, hexec, raise_endedWith _ (write_error_ne (outWriteError_ne_none herror)), exec_sameSetup hexec, rfl, rfl, rfl⟩
  · obtain ⟨t, ht, -, hdec, hbytes, houtside⟩ :=
      copyBytesOut_raised (s := s.takeToken 2) hoff m hm hlen htarget hroom herror
    have hexec : exec (.copy off len) s = .next (decodeError e (s.dec.j + m) t) :=
      congrArg (Host.Outcome.next ∘ decodeSettle) ht
    refine ⟨_, hexec, raise_endedWith _ (write_error_ne (outWriteError_ne_none herror)), exec_sameSetup hexec, rfl, ?_,
      hbytes, houtside⟩
    show BitVec.ofNat 32 (streamBase t.dec.container + t.dec.i) = _
    rw [hdec]
    rfl

/-! ## Items the stream has no bytes for -/

theorem streamBytes_length (s : State) : s.streamBytes.length = min 2 (s.dec.slen - s.dec.i) := by
  rw [State.streamBytes, List.length_map, List.length_range]

/-- R158 to R160: the item that is due needs more bytes than the stream has left. -/
def State.Truncated (e : ErrCode) (s : State) : Prop :=
  (s.dec.nb = 0 ∧ s.dec.i = s.dec.slen ∧ e = .prematureEnd) ∨
  (s.dec.nb ≠ 0 ∧ s.dec.ctrl.getLsbD 7 = false ∧ s.dec.i = s.dec.slen ∧ e = .prematureEndDuringLiteral) ∨
  (s.dec.nb ≠ 0 ∧ s.dec.ctrl.getLsbD 7 = true ∧ s.dec.slen - s.dec.i < 2 ∧ e = .prematureEndDuringCopy)

theorem fetchItem_of_truncated {s : State} {e : ErrCode} (h : s.Truncated e) :
    ∃ d, fetchItem s = .error d ∧ streamErrorCode d = e := by
  have hnone : s.dec.i = s.dec.slen → s.streamBytes = [] := fun hi => by
    rw [← List.length_eq_zero_iff, streamBytes_length]
    omega
  have hmsb : s.dec.ctrl.msb = s.dec.ctrl.getLsbD 7 := BitVec.msb_eq_getLsbD_last _
  unfold fetchItem State.itemDue
  rw [hmsb]
  rcases h with ⟨hnb, hi, rfl⟩ | ⟨hnb, hbit, hi, rfl⟩ | ⟨hnb, hbit, hi, rfl⟩
  · rw [if_pos hnb, hnone hi]
    exact ⟨.prematureEnd, rfl, rfl⟩
  · rw [if_neg hnb, hbit, hnone hi]
    exact ⟨.prematureEndDuringLiteral, rfl, rfl⟩
  · rw [if_neg hnb, hbit]
    refine ⟨.prematureEndDuringCopy, ?_, rfl⟩
    have hshort : s.streamBytes.length < 2 := by
      rw [streamBytes_length]
      omega
    match s.streamBytes, hshort with
    | [], _ => rfl
    | [_], _ => rfl

theorem decodeStep_of_truncated {s : State} {e : ErrCode} (hj : s.dec.j < s.target) (h : s.Truncated e) :
    decodeStep s = .next (decodeError e s.dec.j s) := by
  obtain ⟨d, hd, rfl⟩ := fetchItem_of_truncated h
  rw [decodeStep, if_pos hj, hd]

theorem State.Truncated.ne_none {s : State} {e : ErrCode} (h : s.Truncated e) : e ≠ .none := by
  obtain ⟨d, -, rfl⟩ := fetchItem_of_truncated h
  exact streamErrorCode_ne_none d

/-- Settles O9: the due item's absence is raised where it is found, and a decode that ends well has reached its target. -/
theorem truncatedStreamRaises : Obligations.TruncatedStreamRaises := by
  unfold Obligations.TruncatedStreamRaises
  refine ⟨fun s hb he hs hj e h => ?_, fun s hr hlen hsize => ?_, fun s t hb hp hr hm hexec hdone => ?_⟩
  · have hstep : step (s.withInputs []) = .next (decodeError e s.dec.j (s.withInputs [])) :=
      (coreStep_decode (s := s.withInputs []) hb he hs).trans (decodeStep_of_truncated (s := s.withInputs []) hj h)
    exact ⟨_, hstep, raise_endedWith _ (State.Truncated.ne_none h), rfl, rfl, rfl⟩
  · have hnone : (s.startDecode false s.inputLen s.lat.usize 0).dec.slen = 0 := congrArg BitVec.toNat hlen
    have htarget : (s.startDecode false s.inputLen s.lat.usize 0).target ≠ 0 := fun h => hsize (BitVec.eq_of_toNat_eq h)
    refine ⟨_, exec_decodeStream_inRange (Bool.eq_false_iff.1 hr), ?_⟩
    rw [enterDecoder, if_pos ⟨hnone, htarget⟩]
    exact ⟨raise_endedWith _ (by decide), rfl⟩
  · have hrange : s.lat.inBase.toNat + s.lat.inLen.toNat ≤ 0xFFFFFFFF :=
      Nat.le_of_not_lt fun h => Bool.eq_false_iff.1 hr ((inputOutOfRange_iff s).2 h)
    obtain ⟨t', d, hd, ht', -, -, -, -, hregs⟩ := (decodeStreamOutcome.1 s hb hp hm).2 hrange
    obtain rfl := Host.Outcome.next.inj (ht'.symm.trans hexec)
    rw [hregs] at hdone
    have hreached : d.out.length = s.lat.usize.toNat := by
      rw [hd] at hdone ⊢
      exact (refDecode_reaches _ _ _).2 (Option.isNone_iff_eq_none.1 hdone)
    rw [hregs]
    show BitVec.ofNat 32 d.out.length = _
    rw [hreached, ofNat_toNat_word]

end Sys2Proof.Machine

/-! PROOFS. Every instruction (spec/40_command_lifecycle.md): what none of them changes (R31 to R38, R66), that every command
ends (R115, R116, R266), and that it ends alike however many steps it takes (R114). -/
namespace Sys2Proof.Machine

/-! ## What no instruction changes -/

/-- Settles O48: every instruction keeps the setup. -/
theorem instructionsKeepOperands : Obligations.InstructionsKeepOperands := by
  unfold Obligations.InstructionsKeepOperands
  intro i s
  obtain ⟨t, ht, htouches⟩ := exec_touches i s
  exact ⟨t, ht, htouches.setup⟩

theorem barsInput_eq_true {i : Instr} (hw : i ≠ .writeHeader) (hp : i ≠ .pad) : barsInput i = true := by
  cases i with
  | writeHeader => exact absurd rfl hw
  | pad => exact absurd rfl hp
  | _ => rfl

/-- Settles O50: an instruction writes checked output bytes only, and the check bars each of these addresses. -/
theorem inputRegionIsNeverWritten : Obligations.InputRegionIsNeverWritten := by
  unfold Obligations.InputRegionIsNeverWritten
  intro i s t a hm hexec ha
  obtain ⟨t', ht', htouches⟩ := exec_touches i s
  obtain rfl := Host.Outcome.next.inj (ht'.symm.trans hexec)
  refine htouches.read_outside hm fun hallowed => ?_
  obtain ⟨hlo, hhi, hinput⟩ := hallowed.bounds
  rcases ha with ⟨hw, hp, hin⟩ | htop | hbelow
  · have hbarred := hinput (barsInput_eq_true hw hp)
    rw [(inInput_iff a s).2 hin] at hbarred
    cases hbarred
  · exact absurd hhi (Nat.not_lt.2 htop)
  · exact absurd hlo (Nat.not_le.2 hbelow)

/-! ## Commands taken whole -/

theorem Settles.ended {s t : State} (h : Settles s t) (hb : s.phase = .busy) (hi : t.phase = .idle) :
    ∃ c, t.EndedWith c := by
  rcases h with hgo | hends
  · rw [hgo.phase, hb] at hi
    cases hi
  · exact hends.ended

theorem ComesToWhole.whole {i : Instr} {q : Sequencer} {p : HostPort} {s : State} (h : ComesToWhole i q p s) :
    ∃ t, exec i (s.outside q p) = .next t ∧ t.phase = .idle := by
  obtain ⟨-, -, -, -, -, -, -, t, ht, hidle, -⟩ := h
  exact ⟨t, ht, hidle⟩

/-- A command taken whole ends, whatever the count of drawn steps and the host's script stand at. -/
theorem exec_ended {i : Instr} {s : State} (hk : i.kind = .command) (hb : s.phase = .busy) (hp : s.seq.pace = .whole) :
    ∃ t c, exec i s = .next t ∧ t.EndedWith c := by
  obtain ⟨t, ht, hidle⟩ := (comesToWhole (q := s.seq) (p := s.port)
    (s := s.outside { s.seq with stall := 0 } { s.port with inputs := [] }) hk hp hb rfl rfl).whole
  obtain ⟨t', ht', hsettles⟩ := exec_settles i s
  obtain rfl := Host.Outcome.next.inj (ht'.symm.trans ht)
  obtain ⟨c, hc⟩ := hsettles.ended hb hidle
  exact ⟨t', c, ht', hc⟩

/-- Settles O51: a command taken whole ends in success or with its error. -/
theorem everyCommandCompletes : Obligations.EveryCommandCompletes := by
  unfold Obligations.EveryCommandCompletes
  exact fun i s hk hb hp => exec_ended hk hb hp

/-! ## Runs of the core's own steps -/

/-- The state in which the drawn steps have passed and the host does nothing more. -/
def State.afterStall (s : State) : State := { s.withInputs [] with seq := { s.seq with stall := 0 } }

theorem steps_afterStall {s : State} (hb : s.phase = .busy) (n : Nat) :
    steps (s.seq.stall + n) (s.withInputs []) = steps n s.afterStall :=
  steps_add s.seq.stall n (steps_stall (s := s.withInputs []) s.seq.stall rfl rfl hb)

/-- A command about to be dispatched comes, in at most as many steps as its drawn ones, its input bytes and two, to the
registers and the memory it gives when taken whole (R114, R115). -/
theorem steps_dispatch {s : State} (hb : s.phase = .busy) (he : s.seq.engine = .dispatch) :
    ∃ n u t, n ≤ s.seq.stall + s.inputLen + 2 ∧ steps n (s.withInputs []) = .next u ∧ u.phase = .idle ∧
      exec (decodeCommand s.op) { s with seq := { s.seq with pace := .whole } } = .next t ∧ t.phase = .idle ∧
      u.regs = t.regs ∧ u.mem = t.mem := by
  obtain ⟨v, n, u, hv, hn, hu, huidle, t, ht, htidle, hregs, hmem⟩ := comesToWhole (i := decodeCommand s.op)
    (q := { s.seq with pace := .whole }) (p := s.port) (s := s.afterStall) (decodeCommand_kind _) rfl hb rfl rfl
  refine ⟨s.seq.stall + (n + 1), u, t, ?_, ?_, huidle, ht, htidle, hregs, hmem⟩
  · have hlen : s.afterStall.inputLen = s.inputLen := rfl
    omega
  · have hdispatch : step s.afterStall = .next v := (coreStep_dispatch (s := s.afterStall) hb he rfl).trans hv
    rw [steps_afterStall hb, steps_succ, hdispatch]
    exact hu

/-- Settles O54: the steps reach what the body taken whole gives. -/
theorem resultIndependentOfSteps : Obligations.ResultIndependentOfSteps := by
  unfold Obligations.ResultIndependentOfSteps
  intro s _ hb he
  obtain ⟨n, u, t, -, hu, huidle, ht, htidle, hregs, hmem⟩ := steps_dispatch hb he
  exact ⟨n, t, u, hu, ht, huidle, htidle, hregs, hmem⟩

/-- Settles O55: a command waits out its drawn steps, and then each turn of a loop reads a byte of the input. -/
theorem everyRunningCommandEnds : Obligations.EveryRunningCommandEnds := by
  unfold Obligations.EveryRunningCommandEnds
  intro s h hb
  cases he : s.seq.engine with
  | dispatch =>
    obtain ⟨n, u, t, hn, hu, huidle, ht, -, hregs, -⟩ := steps_dispatch hb he
    obtain ⟨t', c, ht', hc⟩ := exec_ended (i := decodeCommand s.op) (s := { s with seq := { s.seq with pace := .whole } })
      (decodeCommand_kind _) hb rfl
    obtain rfl := Host.Outcome.next.inj (ht'.symm.trans ht)
    exact ⟨n, u, hn, hu, huidle, by rw [hregs]; exact hc.done_ne_err⟩
  | decode =>
    have hstream := (h.decode hb he).stream
    obtain ⟨n, hn, hu⟩ := steps_decode s.decodeFuel (s := s.afterStall) rfl rfl he hb (Nat.le_refl _)
    have hidle := runDecoder_ends (s := s.afterStall) s.decodeFuel (Nat.le_refl _)
    obtain ⟨c, hc⟩ := (runDecoder_settles s.decodeFuel s.afterStall).ended hb hidle
    refine ⟨s.seq.stall + n, _, ?_, (steps_afterStall hb n).trans hu, hidle, hc.done_ne_err⟩
    rw [State.decodeFuel] at hn
    omega
  | encode =>
    obtain ⟨n, hn, hu⟩ := steps_encode s.encodeFuel (s := s.afterStall) rfl rfl he hb (Nat.le_refl _)
    have hidle := runEncoder_ends (s := s.afterStall) s.encodeFuel (Nat.le_refl _)
    obtain ⟨c, hc⟩ := (runEncoder_settles s.encodeFuel s.afterStall).ended hb hidle
    refine ⟨s.seq.stall + n, _, ?_, (steps_afterStall hb n).trans hu, hidle, hc.done_ne_err⟩
    rw [State.encodeFuel] at hn
    omega

end Sys2Proof.Machine

/-! PROOFS. The error codes (spec/60_exceptions.md R260): which of them each part of a command, and so each instruction, can
leave. -/
namespace Sys2Proof.Machine

/-- The codes of R260 a write of output can leave (R66). -/
def writeCodes : List ErrCode := [.none, .addrRange, .overlap]

/-- The codes a decode can leave once its header, if it has one, is parsed (R216, R211, R66). -/
def streamCodes : List ErrCode :=
  [.none, .emptyStreamNonzeroTarget, .prematureEnd, .prematureEndDuringCopy, .prematureEndDuringLiteral, .addrRange,
    .overlap]

/-- The codes each instruction can leave (R260). -/
def allowedCodes : Instr → List ErrCode
  | .parseHeader => [.none, .tooShort, .invalidSignature, .addrRange]
  | .writeHeader | .pad => [.none, .addrRange]
  | .decodeStream => streamCodes
  | .decodeContainer => [.none, .tooShort, .invalidSignature, .emptyStreamNonzeroTarget, .prematureEnd,
      .prematureEndDuringCopy, .prematureEndDuringLiteral, .addrRange, .overlap]
  | .encodeStream | .encodeContainer | .lit _ | .copy _ _ => writeCodes
  | .findMatch => [.none, .addrRange, .badArg]
  | .illegalOp _ => [.illegalOp]
  | .ctrl _ => [.none]

theorem mem_writeCodes {c : ErrCode} (h : c = .addrRange ∨ c = .overlap) : c ∈ writeCodes := by
  rcases h with rfl | rfl <;> decide

theorem writeCodes_subset_streamCodes : writeCodes ⊆ streamCodes := by decide

/-! ## The decoder -/

section Decoder

variable {L : List ErrCode} (hL : writeCodes ⊆ L)
include hL

theorem decodeSettle_code {s : State} {r : Run} (h : WritesOnly s r) (hs : s.regs.errcode ∈ L) :
    (decodeSettle r).regs.errcode ∈ L := by
  cases r with
  | go t => rwa [← h.1] at hs
  | raised c n t => exact hL (mem_writeCodes h.1)

theorem runItem_code (i : Instr) {s : State} (hs : s.regs.errcode ∈ L) : (runItem i s).regs.errcode ∈ L := by
  cases i with
  | lit v => exact decodeSettle_code hL (decodeWrite_writesOnly v (s.takeToken 1)) hs
  | copy off len => exact decodeSettle_code hL (copyBytesOut_writesOnly off len (s.takeToken 2)) hs
  | _ => exact hs

end Decoder

theorem itemDue_ne_command (s : State) : s.itemDue ≠ .command := by
  unfold State.itemDue
  split
  · decide
  · split <;> decide

theorem decode_shortCommand {k : ItemKind} {bs : List Byte} (h : decode k bs = .error .shortCommand) : k = .command := by
  match k, bs, h with
  | .command, _, _ => rfl
  | .control, [], h => cases h
  | .literal, [], h => cases h
  | .copy, [], h => cases h
  | .copy, [_], h => cases h

/-- A stream item that is missing raises one of the three errors of R158 to R160. -/
theorem streamErrorCode_mem {s : State} {d : DecodeError} (h : fetchItem s = .error d) : streamErrorCode d ∈ streamCodes := by
  cases d with
  | shortCommand =>
    refine absurd (decode_shortCommand (bs := s.streamBytes) ?_) (itemDue_ne_command s)
    unfold fetchItem at h
    revert h
    cases decode s.itemDue s.streamBytes with
    | ok r => nofun
    | error e => exact fun h => congrArg Except.error (Except.error.inj h)
  | _ => decide

theorem decodeTurn_code {s : State} (hs : s.regs.errcode ∈ streamCodes) : (decodeTurn s).regs.errcode ∈ streamCodes := by
  unfold decodeTurn
  split
  · split
    · exact runItem_code writeCodes_subset_streamCodes _ hs
    · rename_i hd
      exact streamErrorCode_mem hd
  · exact List.mem_cons_self

theorem runDecoder_code (fuel : Nat) {s : State} (hs : s.regs.errcode ∈ streamCodes) :
    (runDecoder fuel s).regs.errcode ∈ streamCodes := by
  induction fuel generalizing s with
  | zero => exact hs
  | succ fuel ih =>
    unfold runDecoder
    split
    · exact hs
    · exact ih (decodeTurn_code hs)

theorem enterDecoder_code {s : State} (hs : s.regs.errcode ∈ streamCodes) :
    (enterDecoder s).regs.errcode ∈ streamCodes := by
  unfold enterDecoder
  split
  · exact List.mem_cons_of_mem _ List.mem_cons_self
  · split
    · exact hs
    · exact runDecoder_code _ hs

/-! ## The encoder -/

theorem encodeSettle_code {s : State} {r : Run} {k : State → State} (h : WritesOnly s r)
    (hs : s.regs.errcode ∈ writeCodes) (hk : ∀ t, t.regs.errcode ∈ writeCodes → (k t).regs.errcode ∈ writeCodes) :
    (encodeSettle k r).regs.errcode ∈ writeCodes := by
  cases r with
  | go t =>
    refine hk t ?_
    rwa [h.1]
  | raised c n t => exact mem_writeCodes h.1

theorem encodeTurn_code {s : State} (hs : s.regs.errcode ∈ writeCodes) : (encodeTurn s).regs.errcode ∈ writeCodes := by
  unfold encodeTurn
  split
  · exact encodeSettle_code (encodeToken_writesOnly s) hs fun _ ht => ht
  · exact encodeSettle_code (encodeTail_writesOnly s) hs fun _ _ => List.mem_cons_self

theorem runEncoder_code (fuel : Nat) {s : State} (hs : s.regs.errcode ∈ writeCodes) :
    (runEncoder fuel s).regs.errcode ∈ writeCodes := by
  induction fuel generalizing s with
  | zero => exact hs
  | succ fuel ih =>
    unfold runEncoder
    split
    · exact hs
    · exact ih (encodeTurn_code hs)

theorem enterEncoder_code {s : State} (hs : s.regs.errcode ∈ writeCodes) : (enterEncoder s).regs.errcode ∈ writeCodes := by
  unfold enterEncoder
  split
  · exact hs
  · exact runEncoder_code _ hs

/-! ## Every instruction -/

theorem parseHeader_error_mem {s : State} {e : ErrCode} (h : parseHeader s = .error e) :
    e = .tooShort ∨ e = .invalidSignature := by
  rcases parseHeader_error h with ⟨-, he⟩ | ⟨-, -, he⟩
  · exact .inl he
  · exact .inr he

theorem streamCodes_subset_container : streamCodes ⊆ allowedCodes .decodeContainer := by decide

/-- From a state with no code, an instruction leaves one of its own. -/
theorem exec_code (i : Instr) {s : State} (hs : s.regs.errcode = .none) :
    ∃ t c, exec i s = .next t ∧ t.regs.errcode = c ∧ c ∈ allowedCodes i := by
  have hstream : s.regs.errcode ∈ streamCodes := by rw [hs]; decide
  have hwrite : s.regs.errcode ∈ writeCodes := by rw [hs]; decide
  cases i with
  | parseHeader =>
    by_cases hr : s.inputOutOfRange = true
    · exact ⟨_, .addrRange, exec_of_inputOutOfRange (by simp) hr, rfl, by decide⟩
    · cases hp : parseHeader s with
      | error e =>
        refine ⟨_, e, exec_parseHeader_of_error hr hp, rfl, ?_⟩
        rcases parseHeader_error_mem hp with rfl | rfl <;> decide
      | ok p => exact ⟨_, .none, exec_parseHeader_of_ok hr hp, rfl, by decide⟩
  | writeHeader =>
    by_cases hroom : s.lat.outBase.toNat + 32 ≤ 0xFFFFFFFF
    · obtain ⟨t, ht, -⟩ := exec_writeHeader_stored hroom
      exact ⟨_, .none, ht, rfl, by decide⟩
    · obtain ⟨t, ht, -⟩ := exec_writeHeader_cut hroom
      exact ⟨_, .addrRange, ht, rfl, by decide⟩
  | decodeStream =>
    by_cases hr : s.inputOutOfRange = true
    · exact ⟨_, .addrRange, exec_of_inputOutOfRange (by simp) hr, rfl, by decide⟩
    · exact ⟨_, _, exec_decodeStream_inRange hr, rfl, enterDecoder_code hstream⟩
  | decodeContainer =>
    by_cases hr : s.inputOutOfRange = true
    · exact ⟨_, .addrRange, exec_of_inputOutOfRange (by simp) hr, rfl, by decide⟩
    · cases hp : parseHeader s with
      | error e =>
        refine ⟨_, e, exec_decodeContainer_of_error hr hp, rfl, ?_⟩
        rcases parseHeader_error_mem hp with rfl | rfl <;> decide
      | ok p => exact ⟨_, _, exec_decodeContainer_of_ok hr hp, rfl, streamCodes_subset_container (enterDecoder_code hstream)⟩
  | encodeStream =>
    by_cases hr : s.inputOutOfRange = true
    · exact ⟨_, .addrRange, exec_of_inputOutOfRange (by simp) hr, rfl, by decide⟩
    · exact ⟨_, _, if_neg hr, rfl, enterEncoder_code hwrite⟩
  | encodeContainer =>
    by_cases hr : s.inputOutOfRange = true
    · exact ⟨_, .addrRange, exec_of_inputOutOfRange (by simp) hr, rfl, by decide⟩
    · exact ⟨_, _, if_neg hr, rfl, encodeSettle_code (writeBytes_writesOnly _ _ _ (s.startEncode true)) hwrite
        fun _ => enterEncoder_code⟩
  | pad =>
    by_cases hr : s.bufferOutOfRange = true
    · exact ⟨_, .addrRange, exec_pad_of_bufferOutOfRange hr, rfl, by decide⟩
    · by_cases hroom : s.lat.outBase.toNat + s.lat.outLen.toNat + padAmount s.lat.outLen.toNat ≤ 0xFFFFFFFF
      · obtain ⟨t, ht, -⟩ := exec_pad_stored hr hroom
        exact ⟨_, .none, ht, rfl, by decide⟩
      · obtain ⟨t, ht, -⟩ := exec_pad_cut hr hroom
        exact ⟨_, .addrRange, ht, rfl, by decide⟩
  | findMatch =>
    by_cases hr : s.inputOutOfRange = true
    · exact ⟨_, .addrRange, exec_of_inputOutOfRange (by simp) hr, rfl, by decide⟩
    · rcases Nat.lt_or_ge s.lat.mpos.toNat s.lat.inLen.toNat with hlt | hge
      · exact ⟨_, .none, exec_findMatch_of_lt hr hlt, rfl, by decide⟩
      · exact ⟨_, .badArg, exec_findMatch_of_badArg hr hge, rfl, by decide⟩
  | illegalOp w => exact ⟨_, .illegalOp, rfl, rfl, List.mem_singleton.2 rfl⟩
  | ctrl c => exact ⟨_, .none, rfl, hs, List.mem_singleton.2 rfl⟩
  | lit v => exact ⟨_, _, rfl, rfl, runItem_code (List.Subset.refl _) (.lit v) hwrite⟩
  | copy off len => exact ⟨_, _, rfl, rfl, runItem_code (List.Subset.refl _) (.copy off len) hwrite⟩

/-- Settles O52: the numbering is the table's, and each part of a command leaves its own codes only. -/
theorem errorCodesByInstruction : Obligations.ErrorCodesByInstruction := by
  unfold Obligations.ErrorCodesByInstruction
  refine ⟨by decide, fun i s t allowed hs _ hexec hallowed => ?_⟩
  obtain ⟨t', c, ht', rfl, hcode⟩ := exec_code i hs
  obtain rfl := Host.Outcome.next.inj (ht'.symm.trans hexec)
  rwa [show allowedCodes i = allowed from hallowed.symm] at hcode

end Sys2Proof.Machine

/-! PROOFS. Where a command taken whole writes: a command with output in its output region only, the others nowhere (R69). -/
namespace Sys2Proof.Machine

/-! ## Commands that write nothing -/

theorem exec_illegalOp (w : Word) (s : State) : exec (.illegalOp w) s = .next (s.raise .illegalOp) := rfl

theorem exec_parseHeader_mem {s t : State} (h : exec .parseHeader s = .next t) : t.mem = s.mem := by
  by_cases hr : s.inputOutOfRange = true
  · obtain rfl := Host.Outcome.next.inj ((exec_of_inputOutOfRange (by simp) hr).symm.trans h)
    rfl
  · cases hp : parseHeader s with
    | error e =>
      obtain rfl := Host.Outcome.next.inj ((exec_parseHeader_of_error hr hp).symm.trans h)
      rfl
    | ok p =>
      obtain rfl := Host.Outcome.next.inj ((exec_parseHeader_of_ok hr hp).symm.trans h)
      rfl

theorem exec_findMatch_mem {s t : State} (h : exec .findMatch s = .next t) : t.mem = s.mem := by
  by_cases hr : s.inputOutOfRange = true
  · obtain rfl := Host.Outcome.next.inj ((exec_of_inputOutOfRange (by simp) hr).symm.trans h)
    rfl
  · rcases Nat.lt_or_ge s.lat.mpos.toNat s.lat.inLen.toNat with hlt | hge
    · obtain rfl := Host.Outcome.next.inj ((exec_findMatch_of_lt hr hlt).symm.trans h)
      rfl
    · obtain rfl := Host.Outcome.next.inj ((exec_findMatch_of_badArg hr hge).symm.trans h)
      rfl

/-! ## Commands that write their output -/

/-- The bytes that changed lie in `[OUT_BASE, OUT_BASE + OUT_LEN)`, `OUT_LEN` as the command leaves it (R69). -/
def WritesInOutput (s t : State) : Prop := SameOutside s.lat.outBase.toNat (s.lat.outBase.toNat + t.regs.outLen.toNat) s t

theorem sameOutside_of_mem {lo hi : Nat} {s t : State} (h : t.mem = s.mem) : SameOutside lo hi s t := fun a _ => by rw [h]

theorem Stores.sameOutside {lo hi : Nat} {bs : List Byte} {s t : State} (h : Stores lo bs s t)
    (hlen : lo + bs.length ≤ hi) : SameOutside lo hi s t := fun a ha => by
  rw [h, if_neg (by omega)]

theorem Stores.inOutput {bs : List Byte} {s t : State} (h : Stores s.lat.outBase.toNat bs s t)
    (hlen : bs.length ≤ t.regs.outLen.toNat) : WritesInOutput s t :=
  h.sameOutside (Nat.add_le_add_left hlen _)

theorem exec_outOfRange_inOutput {i : Instr}
    (hi : i ∈ [Instr.parseHeader, .decodeStream, .decodeContainer, .encodeStream, .encodeContainer, .findMatch])
    {s t : State} (hr : s.inputOutOfRange = true) (h : exec i s = .next t) : WritesInOutput s t := by
  obtain rfl := Host.Outcome.next.inj ((exec_of_inputOutOfRange hi hr).symm.trans h)
  exact sameOutside_of_mem rfl

theorem ofNat_toNat_of_le {n : Nat} {w : Word} (h : n ≤ w.toNat) : (BitVec.ofNat 32 n).toNat = n :=
  Nat.mod_eq_of_lt (Nat.lt_of_le_of_lt h w.isLt)

theorem EndsStoring.inOutput {i : Instr} {bs : List Byte} {r : Regs} {s t : State} (he : EndsStoring i bs r s)
    (hlen : bs.length ≤ r.outLen.toNat) (h : exec i s = .next t) : WritesInOutput s t := by
  obtain ⟨u, hu, -, -, -, hstores, rfl⟩ := he
  obtain rfl := Host.Outcome.next.inj (hu.symm.trans h)
  exact hstores.inOutput hlen

theorem State.ContainerStop.length_le {s : State} {j used : Nat} {written : List Byte} (h : s.ContainerStop j used written) :
    written.length ≤ j := by
  rcases h with ⟨-, -, rfl⟩ | ⟨hj, k, -, -, rfl⟩ | ⟨-, -, rfl⟩
  · exact List.length_take_le _ _
  · rw [List.length_append, headerBytes_length]
    have := List.length_take_le (j - 32) (openContent ((parseTokens s.input s.input.length 0).take (8 * (k / 8)))
      (((parseTokens s.input s.input.length 0).take (k + 1)).drop (8 * (k / 8))))
    rw [partialStream]
    omega
  · exact List.length_take_le _ _

section Whole

variable {s t : State} (hb : s.phase = .busy) (hp : s.seq.pace = .whole) (hm : Mem.wf s.mem = true)
include hm

theorem exec_writeHeader_inOutput (h : exec .writeHeader s = .next t) : WritesInOutput s t := by
  by_cases hroom : s.lat.outBase.toNat + 32 ≤ 0xFFFFFFFF
  · obtain ⟨u, hu, hmem, -⟩ := exec_writeHeader_stored hroom
    obtain rfl := Host.Outcome.next.inj (hu.symm.trans h)
    refine Stores.inOutput (stores_of_writeList hm (by exact hmem)) ?_
    exact Nat.le_refl 32
  · obtain ⟨u, hu, hmem, -⟩ := exec_writeHeader_cut hroom
    obtain rfl := Host.Outcome.next.inj (hu.symm.trans h)
    refine Stores.inOutput (stores_of_writeList hm (by exact hmem)) ?_
    show _ ≤ (BitVec.ofNat 32 (0xFFFFFFFF - s.lat.outBase.toNat)).toNat
    rw [BitVec.toNat_ofNat, Nat.mod_eq_of_lt (by omega)]
    exact List.length_take_le _ _

include hb hp

/-- A decode's output is no longer than its target (R212). -/
theorem exec_decode_inOutput {i : Instr} {container : Bool} {n : Nat} {T C : Word} {r : Regs}
    (hn : streamBase container + n ≤ s.inputLen)
    (hexec : exec i s = .next (enterDecoder ((s.withRegs r).startDecode container n T C))) (h : exec i s = .next t) :
    WritesInOutput s t := by
  obtain ⟨u, d, hd, hu, -, -, -, hstores, hregs⟩ := exec_decode_ends hb hp hm hn hexec
  obtain rfl := Host.Outcome.next.inj (hu.symm.trans h)
  refine hstores.inOutput ?_
  rw [hregs]
  show d.out.length ≤ (BitVec.ofNat 32 d.out.length).toNat
  rw [hd, ofNat_toNat_of_le (refDecode_reaches _ T.toNat _).1]

theorem exec_decodeStream_inOutput (h : exec .decodeStream s = .next t) : WritesInOutput s t := by
  by_cases hr : s.inputOutOfRange = true
  · exact exec_outOfRange_inOutput (by simp) hr h
  · exact exec_decode_inOutput hb hp hm (r := s.regs) (Nat.zero_add s.inputLen).le (exec_decodeStream_inRange hr) h

theorem exec_decodeContainer_inOutput (h : exec .decodeContainer s = .next t) : WritesInOutput s t := by
  by_cases hr : s.inputOutOfRange = true
  · exact exec_outOfRange_inOutput (by simp) hr h
  · cases hph : parseHeader s with
    | error e =>
      obtain rfl := Host.Outcome.next.inj ((exec_decodeContainer_of_error hr hph).symm.trans h)
      exact sameOutside_of_mem rfl
    | ok p => exact exec_decode_inOutput hb hp hm (parseHeader_ok_stream_le hph) (exec_decodeContainer_of_ok hr hph) h

theorem exec_encodeStream_inOutput (h : exec .encodeStream s = .next t) : WritesInOutput s t := by
  by_cases hr : s.inputOutOfRange = true
  · exact exec_outOfRange_inOutput (by simp) hr h
  · rcases exec_encodeStream_ends hb hp hm hr with ⟨hroom, hends⟩ | ⟨k, j, e, -, hroom, -, hends⟩
    · exact hends.inOutput (Nat.mod_eq_of_lt hroom.length_lt).ge h
    · exact hends.inOutput ((List.length_take_le _ _).trans (Nat.mod_eq_of_lt hroom.length_lt).ge) h

theorem exec_encodeContainer_inOutput (h : exec .encodeContainer s = .next t) : WritesInOutput s t := by
  by_cases hr : s.inputOutOfRange = true
  · exact exec_outOfRange_inOutput (by simp) hr h
  · rcases exec_encodeContainer_ends hb hp hm hr with ⟨hroom, hends⟩ | ⟨j, e, used, written, -, hroom, -, hstop, hends⟩
    · exact hends.inOutput (Nat.mod_eq_of_lt hroom.length_lt).ge h
    · exact hends.inOutput (hstop.length_le.trans (Nat.mod_eq_of_lt hroom.length_lt).ge) h

end Whole

theorem exec_pad_inOutput {s t : State} (hm : Mem.wf s.mem = true) (h : exec .pad s = .next t) :
    SameOutside (s.lat.outBase.toNat + s.lat.outLen.toNat) (s.lat.outBase.toNat + t.regs.outLen.toNat) s t := by
  by_cases hr : s.bufferOutOfRange = true
  · obtain rfl := Host.Outcome.next.inj ((exec_pad_of_bufferOutOfRange hr).symm.trans h)
    exact sameOutside_of_mem rfl
  have htop : s.lat.outBase.toNat + s.lat.outLen.toNat ≤ 0xFFFFFFFF := Nat.le_of_not_lt (hr ∘ (bufferOutOfRange_iff s).2)
  by_cases hroom : s.lat.outBase.toNat + s.lat.outLen.toNat + padAmount s.lat.outLen.toNat ≤ 0xFFFFFFFF
  · obtain ⟨u, hu, hmem, -⟩ := exec_pad_stored hr hroom
    obtain rfl := Host.Outcome.next.inj (hu.symm.trans h)
    refine (stores_of_writeList hm hmem).sameOutside ?_
    show _ ≤ _ + (BitVec.ofNat 32 (s.lat.outLen.toNat + padAmount s.lat.outLen.toNat)).toNat
    rw [List.length_replicate, BitVec.toNat_ofNat, Nat.mod_eq_of_lt (by omega), Nat.add_assoc]
  · obtain ⟨u, hu, hmem, -⟩ := exec_pad_cut hr hroom
    obtain rfl := Host.Outcome.next.inj (hu.symm.trans h)
    refine (stores_of_writeList hm hmem).sameOutside ?_
    show _ ≤ _ + (BitVec.ofNat 32
      (s.lat.outLen.toNat + (0xFFFFFFFF - (s.lat.outBase.toNat + s.lat.outLen.toNat)))).toNat
    rw [List.length_replicate, BitVec.toNat_ofNat, Nat.mod_eq_of_lt (by omega), Nat.add_assoc]

/-- Settles O49: each command stores no more bytes than its `OUT_LEN` says, from `OUT_BASE` or behind the buffer up. -/
theorem writesStayInOutputRegion : Obligations.WritesStayInOutputRegion := by
  unfold Obligations.WritesStayInOutputRegion
  intro i s t hk hb hp hm h
  cases i with
  | parseHeader => exact exec_parseHeader_mem h
  | writeHeader => exact exec_writeHeader_inOutput hm h
  | decodeStream => exact exec_decodeStream_inOutput hb hp hm h
  | decodeContainer => exact exec_decodeContainer_inOutput hb hp hm h
  | encodeStream => exact exec_encodeStream_inOutput hb hp hm h
  | encodeContainer => exact exec_encodeContainer_inOutput hb hp hm h
  | pad => exact exec_pad_inOutput hm h
  | findMatch => exact exec_findMatch_mem h
  | illegalOp w =>
    obtain rfl := Host.Outcome.next.inj ((exec_illegalOp w s).symm.trans h)
    rfl
  | ctrl c => cases hk
  | lit v => cases hk
  | copy off len => cases hk

end Sys2Proof.Machine

/-! PROOFS. What the result of a command depends on: its latched operands, its snapshot and the registers it keeps, and
nothing else (R111, R119, R198). -/
namespace Sys2Proof.Machine

/-! ## Two states a command cannot tell apart -/

/-- The same registers, latched operands and input bytes (R111, R70): all that a command's result depends on. -/
structure SameOperands (s s' : State) : Prop where
  lat : s'.lat = s.lat
  regs : s'.regs = s.regs
  read : ∀ k, k < s.inputLen → s'.inRead k = s.inRead k

/-- Two commands left the same registers and phase, and stored the same bytes at the same addresses. -/
def SameResult (s s' t t' : State) : Prop :=
  t'.regs = t.regs ∧ t'.phase = t.phase ∧ ∃ lo bs, Stores lo bs s t ∧ Stores lo bs s' t'

theorem stores_nil {s t : State} (h : t.mem = s.mem) : Stores 0 [] s t := fun a => by
  rw [h, if_neg fun ha => Nat.not_lt_zero a ha.2]

theorem SameResult.of_mem {s s' t t' : State} (hm : t.mem = s.mem) (hm' : t'.mem = s'.mem) (hr : t'.regs = t.regs)
    (hp : t'.phase = t.phase) : SameResult s s' t t' :=
  ⟨hr, hp, 0, [], stores_nil hm, stores_nil hm'⟩

theorem SameOperands.inputLen {s s' : State} (h : SameOperands s s') : s'.inputLen = s.inputLen :=
  State.inputLen_congr h.lat

theorem SameOperands.input {s s' : State} (h : SameOperands s s') : s'.input = s.input := by
  rw [State.input, State.input, h.inputLen]
  exact List.map_congr_left fun k hk => h.read k (List.mem_range.1 hk)

theorem SameOperands.outWriteError {s s' : State} (h : SameOperands s s') (chk : Bool) (j : Nat) :
    s'.outWriteError chk j = s.outWriteError chk j :=
  State.outWriteError_congr h.lat chk j

theorem SameOperands.room {s s' : State} (h : SameOperands s s') (chk : Bool) (n : Nat) :
    s'.Room chk n ↔ s.Room chk n :=
  State.Room_congr h.lat chk n

theorem SameOperands.parseHeader_eq {s s' : State} (h : SameOperands s s') : parseHeader s' = parseHeader s := by
  rcases Nat.lt_or_ge s.inputLen 32 with hshort | hlong
  · rw [parseHeader_tooShort hshort, parseHeader_tooShort (h.inputLen ▸ hshort)]
  · have hread : ∀ k, k < 32 → s'.inRead k = s.inRead k := fun k hk => h.read k (by omega)
    have hfield : ∀ f, f + 3 < 32 → s'.inField f = s.inField f := fun f hf => by
      rw [State.inField, State.inField, hread _ (by omega), hread _ (by omega), hread _ (by omega), hread _ hf]
    have hsig : s'.signatureMatches = s.signatureMatches := by
      rw [State.signatureMatches, State.signatureMatches, hread 0 (by decide), hread 1 (by decide), hread 2 (by decide),
        hread 3 (by decide)]
    rw [parseHeader, parseHeader, h.inputLen, hsig, hfield 0x14 (by decide),
      hfield 0x18 (by decide)]

theorem SameOperands.findMatch_eq {s s' : State} (h : SameOperands s s') {p : Nat} (hp : p ≤ s.inputLen) :
    findMatch s'.inRead s.inputLen p = findMatch s.inRead s.inputLen p :=
  findMatch_congr h.read hp

/-! ## The same result from both -/

/-- What the commands left, given what each of them is known to answer. -/
theorem SameResult.of_exec {i : Instr} {s s' t t' u u' : State} (hu : exec i s = .next u) (hu' : exec i s' = .next u')
    (h : SameResult s s' u u') (ht : exec i s = .next t) (ht' : exec i s' = .next t') : SameResult s s' t t' := by
  obtain rfl := Host.Outcome.next.inj (hu.symm.trans ht)
  obtain rfl := Host.Outcome.next.inj (hu'.symm.trans ht')
  exact h

theorem SameResult.of_writeList {a : Nat} {bs : List Byte} {s s' t t' : State} (hm : Mem.wf s.mem = true)
    (hm' : Mem.wf s'.mem = true) (ht : t.mem = Mem.writeList s.mem a bs) (ht' : t'.mem = Mem.writeList s'.mem a bs)
    (hr : t'.regs = t.regs) (hp : t'.phase = t.phase) : SameResult s s' t t' :=
  ⟨hr, hp, a, bs, stores_of_writeList hm ht, stores_of_writeList hm' ht'⟩

section Same

variable {s s' t t' : State} (h : SameOperands s s')
include h

theorem SameOperands.inRange (hr : ¬ s.inputOutOfRange = true) : ¬ s'.inputOutOfRange = true := by
  rwa [State.inputOutOfRange_congr h.lat]

theorem SameOperands.raise (c : ErrCode) : SameResult s s' (s.raise c) (s'.raise c) :=
  .of_mem rfl rfl (by rw [State.raise_regs, State.raise_regs, h.regs]) rfl

/-- What the region check raises is the same in both. -/
theorem SameOperands.outOfRange {i : Instr}
    (hi : i ∈ [Instr.parseHeader, .decodeStream, .decodeContainer, .encodeStream, .encodeContainer, .findMatch])
    (hr : s.inputOutOfRange = true) (ht : exec i s = .next t) (ht' : exec i s' = .next t') : SameResult s s' t t' := by
  have hr' : s'.inputOutOfRange = true := (State.inputOutOfRange_congr h.lat).trans hr
  exact .of_exec (exec_of_inputOutOfRange hi hr) (exec_of_inputOutOfRange hi hr') (h.raise .addrRange) ht ht'

/-! ### Commands that write nothing -/

theorem SameOperands.exec_parseHeader (ht : exec .parseHeader s = .next t) (ht' : exec .parseHeader s' = .next t') :
    SameResult s s' t t' := by
  by_cases hr : s.inputOutOfRange = true
  · exact h.outOfRange (by simp) hr ht ht'
  have hr' := h.inRange hr
  cases hp : parseHeader s with
  | error e =>
    refine .of_exec (exec_parseHeader_of_error hr hp) (exec_parseHeader_of_error hr' (h.parseHeader_eq.trans hp)) ?_ ht ht'
    exact .of_mem rfl rfl (by rw [h.regs]; rfl) rfl
  | ok p =>
    refine .of_exec (exec_parseHeader_of_ok hr hp) (exec_parseHeader_of_ok hr' (h.parseHeader_eq.trans hp)) ?_ ht ht'
    exact .of_mem rfl rfl (by rw [h.regs]; rfl) rfl

theorem SameOperands.exec_findMatch (ht : exec .findMatch s = .next t) (ht' : exec .findMatch s' = .next t') :
    SameResult s s' t t' := by
  by_cases hr : s.inputOutOfRange = true
  · exact h.outOfRange (by simp) hr ht ht'
  have hr' := h.inRange hr
  rcases Nat.lt_or_ge s.lat.mpos.toNat s.lat.inLen.toNat with hlt | hge
  · refine .of_exec (exec_findMatch_of_lt hr hlt) (exec_findMatch_of_lt hr' (by rwa [h.lat])) ?_ ht ht'
    have hfound : findMatch s'.inRead s.lat.inLen.toNat s.lat.mpos.toNat = _ := h.findMatch_eq hlt.le
    exact .of_mem rfl rfl (by rw [h.regs, h.lat, hfound]; rfl) rfl
  · exact .of_exec (exec_findMatch_of_badArg hr hge) (exec_findMatch_of_badArg hr' (by rwa [h.lat])) (h.raise .badArg)
      ht ht'

/-! ### Commands that store a list given by the latch -/

variable (hm : Mem.wf s.mem = true) (hm' : Mem.wf s'.mem = true)
include hm hm'

theorem SameOperands.exec_writeHeader (ht : exec .writeHeader s = .next t) (ht' : exec .writeHeader s' = .next t') :
    SameResult s s' t t' := by
  by_cases hroom : s.lat.outBase.toNat + 32 ≤ 0xFFFFFFFF
  · obtain ⟨u, hu, hmem, hsame⟩ := exec_writeHeader_stored hroom
    obtain ⟨u', hu', hmem', hsame'⟩ := exec_writeHeader_stored (s := s') (by rwa [h.lat])
    rw [h.lat] at hmem'
    refine .of_exec hu hu' (.of_writeList hm hm' (by exact hmem) (by exact hmem') ?_ rfl) ht ht'
    rw [hsame.regs, hsame'.regs, h.regs]
    rfl
  · obtain ⟨u, hu, hmem, hsame⟩ := exec_writeHeader_cut hroom
    obtain ⟨u', hu', hmem', hsame'⟩ := exec_writeHeader_cut (s := s') (by rwa [h.lat])
    rw [h.lat] at hmem' hu'
    refine .of_exec hu hu' (.of_writeList hm hm' (by exact hmem) (by exact hmem') ?_ rfl) ht ht'
    rw [State.raisePrefixes_regs, State.raisePrefixes_regs, hsame.regs, hsame'.regs, h.regs]

theorem SameOperands.exec_pad (ht : exec .pad s = .next t) (ht' : exec .pad s' = .next t') : SameResult s s' t t' := by
  by_cases hr : s.bufferOutOfRange = true
  · have hr' : s'.bufferOutOfRange = true := by rwa [State.bufferOutOfRange, h.lat]
    exact .of_exec (exec_pad_of_bufferOutOfRange hr) (exec_pad_of_bufferOutOfRange hr') (h.raise .addrRange) ht ht'
  have hr' : ¬ s'.bufferOutOfRange = true := by rwa [State.bufferOutOfRange, h.lat]
  by_cases hroom : s.lat.outBase.toNat + s.lat.outLen.toNat + padAmount s.lat.outLen.toNat ≤ 0xFFFFFFFF
  · obtain ⟨u, hu, hmem, hsame⟩ := exec_pad_stored hr hroom
    obtain ⟨u', hu', hmem', hsame'⟩ := exec_pad_stored hr' (by rwa [h.lat])
    rw [h.lat] at hmem' hu'
    refine .of_exec hu hu' (.of_writeList hm hm' (by exact hmem) (by exact hmem') ?_ rfl) ht ht'
    rw [hsame.regs, hsame'.regs, h.regs]
    rfl
  · obtain ⟨u, hu, hmem, hsame⟩ := exec_pad_cut hr hroom
    obtain ⟨u', hu', hmem', hsame'⟩ := exec_pad_cut hr' (by rwa [h.lat])
    rw [h.lat] at hmem' hu'
    refine .of_exec hu hu' (.of_writeList hm hm' (by exact hmem) (by exact hmem') ?_ rfl) ht ht'
    rw [State.raiseOutLen_regs, State.raiseOutLen_regs, hsame.regs, hsame'.regs, h.regs]

/-! ### The decodes -/

variable (hb : s.phase = .busy) (hb' : s'.phase = .busy) (hp : s.seq.pace = .whole) (hp' : s'.seq.pace = .whole)
include hb hb' hp hp'

/-- Both decode the same part of the same input, and have the same room for the output. -/
theorem SameOperands.exec_decode {i : Instr} {container : Bool} {n : Nat} {T C : Word} {r : Regs}
    (hn : streamBase container + n ≤ s.inputLen)
    (hexec : exec i s = .next (enterDecoder ((s.withRegs r).startDecode container n T C)))
    (hexec' : exec i s' = .next (enterDecoder ((s'.withRegs r).startDecode container n T C)))
    (ht : exec i s = .next t) (ht' : exec i s' = .next t') : SameResult s s' t t' := by
  obtain ⟨u, d, hd, hu, hidle, -, -, hstores, hregs⟩ := exec_decode_ends hb hp hm hn hexec
  obtain ⟨u', d', hd', hu', hidle', -, -, hstores', hregs'⟩ :=
    exec_decode_ends hb' hp' hm' (by rwa [h.inputLen]) hexec'
  simp only [h.input, h.outWriteError, ← hd] at hd'
  subst hd'
  rw [h.lat] at hstores'
  exact .of_exec hu hu' ⟨hregs'.trans hregs.symm, hidle'.trans hidle.symm, _, _, hstores, hstores'⟩ ht ht'

theorem SameOperands.exec_decodeStream (ht : exec .decodeStream s = .next t) (ht' : exec .decodeStream s' = .next t') :
    SameResult s s' t t' := by
  by_cases hr : s.inputOutOfRange = true
  · exact h.outOfRange (by simp) hr ht ht'
  have hregs : s'.withRegs s.regs = s' := by
    rw [← h.regs]
    rfl
  refine h.exec_decode hm hm' hb hb' hp hp' (r := s.regs) (Nat.zero_add s.inputLen).le (exec_decodeStream_inRange hr) ?_
    ht ht'
  rw [hregs, exec_decodeStream_inRange (h.inRange hr), h.inputLen, h.lat]

theorem SameOperands.exec_decodeContainer (ht : exec .decodeContainer s = .next t)
    (ht' : exec .decodeContainer s' = .next t') : SameResult s s' t t' := by
  by_cases hr : s.inputOutOfRange = true
  · exact h.outOfRange (by simp) hr ht ht'
  have hr' := h.inRange hr
  cases hph : parseHeader s with
  | error e =>
    refine .of_exec (exec_decodeContainer_of_error hr hph)
      (exec_decodeContainer_of_error hr' (h.parseHeader_eq.trans hph)) ?_ ht ht'
    exact .of_mem rfl rfl (by rw [State.raisePrefixes_regs, State.raisePrefixes_regs, h.regs]) rfl
  | ok p =>
    refine h.exec_decode hm hm' hb hb' hp hp' (parseHeader_ok_stream_le hph) (exec_decodeContainer_of_ok hr hph) ?_ ht ht'
    rw [exec_decodeContainer_of_ok hr' (h.parseHeader_eq.trans hph), h.regs]

end Same

/-! ## Where an encode stops is determined -/

/-- There is one first byte that cannot be written. -/
theorem first_outWriteError_unique {chk : Bool} {s : State} {j j' : Nat} {e e' : ErrCode} (h : s.Room chk j)
    (he : s.outWriteError chk j = some e) (h' : s.Room chk j') (he' : s.outWriteError chk j' = some e') :
    j = j' ∧ e = e' := by
  obtain rfl : j = j' := by
    rcases Nat.lt_trichotomy j j' with hlt | heq | hgt
    · exact absurd h' (State.not_room_of_outWriteError hlt he)
    · exact heq
    · exact absurd h (State.not_room_of_outWriteError hgt he')
  exact ⟨rfl, Option.some.inj (he.symm.trans he')⟩

theorem inToken.le {X : List Byte} {k k' j : Nat} (h : inToken X k j) (h' : inToken X k' j) : k ≤ k' := by
  by_contra hlt
  have hmono := packTokens_length_le_of_sublist (List.take_sublist_take_left
    (l := parseTokens X X.length 0) (show k' + 1 ≤ k by omega))
  exact absurd (hmono.trans h.2.1) (Nat.not_le.2 h'.2.2)

/-- A stream byte belongs to one token. -/
theorem inToken.unique {X : List Byte} {k k' j : Nat} (h : inToken X k j) (h' : inToken X k' j) : k = k' :=
  Nat.le_antisymm (h.le h') (h'.le h)

/-- The three places where a container's encode can stop exclude each other: in the header, in the stream, behind it. -/
theorem State.ContainerStop.unique {s : State} {j used used' : Nat} {written written' : List Byte}
    (h : s.ContainerStop j used written) (h' : s.ContainerStop j used' written') : used = used' ∧ written = written' := by
  rcases h with ⟨hj, rfl, rfl⟩ | ⟨hj, k, hk, rfl, rfl⟩ | ⟨hj, rfl, rfl⟩ <;>
    rcases h' with ⟨hj', rfl, rfl⟩ | ⟨hj', k', hk', rfl, rfl⟩ | ⟨hj', rfl, rfl⟩
  · exact ⟨rfl, rfl⟩
  · omega
  · omega
  · omega
  · obtain rfl := hk.unique hk'
    exact ⟨rfl, rfl⟩
  · have := hk.lt_length
    omega
  · omega
  · have := hk'.lt_length
    omega
  · exact ⟨rfl, rfl⟩

/-! ## The encodes -/

section Encodes

variable {s s' t t' : State} (h : SameOperands s s')
include h

theorem SameOperands.encodedRegs (slen out : Nat) : s'.encodedRegs slen out = s.encodedRegs slen out := by
  rw [State.encodedRegs, State.encodedRegs, h.regs, h.lat]

theorem SameOperands.stoppedRegs (j used : Nat) (e : ErrCode) : s'.stoppedRegs j used e = s.stoppedRegs j used e := by
  rw [State.stoppedRegs, State.stoppedRegs, h.regs]

theorem SameOperands.containerStop (j used : Nat) (written : List Byte) :
    s'.ContainerStop j used written ↔ s.ContainerStop j used written := by
  rw [State.ContainerStop, State.ContainerStop, h.input, h.lat]

theorem SameOperands.endsStoring {i : Instr} {bs : List Byte} {r : Regs} (he : EndsStoring i bs r s)
    (he' : EndsStoring i bs r s') (ht : exec i s = .next t) (ht' : exec i s' = .next t') : SameResult s s' t t' := by
  obtain ⟨u, hu, hidle, -, -, hstores, rfl⟩ := he
  obtain ⟨u', hu', hidle', -, -, hstores', hregs⟩ := he'
  rw [h.lat] at hstores'
  exact .of_exec hu hu' ⟨hregs, hidle'.trans hidle.symm, _, _, hstores, hstores'⟩ ht ht'

variable (hm : Mem.wf s.mem = true) (hm' : Mem.wf s'.mem = true) (hb : s.phase = .busy) (hb' : s'.phase = .busy)
  (hp : s.seq.pace = .whole) (hp' : s'.seq.pace = .whole)
include hm hm' hb hb' hp hp'

theorem SameOperands.exec_encodeStream (ht : exec .encodeStream s = .next t) (ht' : exec .encodeStream s' = .next t') :
    SameResult s s' t t' := by
  by_cases hr : s.inputOutOfRange = true
  · exact h.outOfRange (by simp) hr ht ht'
  have hends := exec_encodeStream_ends hb' hp' hm' (h.inRange hr)
  simp only [h.input, h.room, h.outWriteError, h.encodedRegs, h.stoppedRegs] at hends
  rcases exec_encodeStream_ends hb hp hm hr with ⟨hroom, hdone⟩ | ⟨k, j, e, hk, hroom, he, hstop⟩ <;>
    rcases hends with ⟨hroom', hdone'⟩ | ⟨k', j', e', hk', hroom', he', hstop'⟩
  · exact h.endsStoring hdone hdone' ht ht'
  · exact absurd hroom (State.not_room_of_outWriteError hk'.lt_length he')
  · exact absurd hroom' (State.not_room_of_outWriteError hk.lt_length he)
  · obtain ⟨rfl, rfl⟩ := first_outWriteError_unique hroom he hroom' he'
    obtain rfl := hk.unique hk'
    exact h.endsStoring hstop hstop' ht ht'

theorem SameOperands.exec_encodeContainer (ht : exec .encodeContainer s = .next t)
    (ht' : exec .encodeContainer s' = .next t') : SameResult s s' t t' := by
  by_cases hr : s.inputOutOfRange = true
  · exact h.outOfRange (by simp) hr ht ht'
  have hends := exec_encodeContainer_ends hb' hp' hm' (h.inRange hr)
  simp only [h.input, h.room, h.outWriteError, h.encodedRegs, h.stoppedRegs, h.containerStop] at hends
  rcases exec_encodeContainer_ends hb hp hm hr with ⟨hroom, hdone⟩ | ⟨j, e, used, written, hj, hroom, he, hat, hstop⟩ <;>
    rcases hends with ⟨hroom', hdone'⟩ | ⟨j', e', used', written', hj', hroom', he', hat', hstop'⟩
  · exact h.endsStoring hdone hdone' ht ht'
  · exact absurd hroom (State.not_room_of_outWriteError hj' he')
  · exact absurd hroom' (State.not_room_of_outWriteError hj he)
  · obtain ⟨rfl, rfl⟩ := first_outWriteError_unique hroom he hroom' he'
    obtain ⟨rfl, rfl⟩ := hat.unique hat'
    exact h.endsStoring hstop hstop' ht ht'

end Encodes

/-- Settles O53: each command reads its latch, its snapshot and the registers alone, so all it leaves is the same. -/
theorem resultDependsOnLatchAndSnapshot : Obligations.ResultDependsOnLatchAndSnapshot := by
  unfold Obligations.ResultDependsOnLatchAndSnapshot
  intro i s s' t t' hk hb hb' hp hp' hm hm' hlat hregs hread ht ht'
  have h : SameOperands s s' := ⟨hlat, hregs, hread⟩
  cases i with
  | parseHeader => exact h.exec_parseHeader ht ht'
  | writeHeader => exact h.exec_writeHeader hm hm' ht ht'
  | decodeStream => exact h.exec_decodeStream hm hm' hb hb' hp hp' ht ht'
  | decodeContainer => exact h.exec_decodeContainer hm hm' hb hb' hp hp' ht ht'
  | encodeStream => exact h.exec_encodeStream hm hm' hb hb' hp hp' ht ht'
  | encodeContainer => exact h.exec_encodeContainer hm hm' hb hb' hp hp' ht ht'
  | pad => exact h.exec_pad hm hm' ht ht'
  | findMatch => exact h.exec_findMatch ht ht'
  | illegalOp w => exact SameResult.of_exec (exec_illegalOp w s) (exec_illegalOp w s') (h.raise .illegalOp) ht ht'
  | ctrl c => cases hk
  | lit v => cases hk
  | copy off len => cases hk

end Sys2Proof.Machine
